-- ==== Sys2Proof/Word.lean ====
section
/-! DEFINITION. The word types of the machine (spec/00_scope.md R2: everything in memory is little-endian; bit 0 is the
least significant bit). -/

namespace Sys2Proof

/-- A byte of memory. -/
abbrev Byte := BitVec 8

/-- A 32-bit word: one lane of a vector register, a lane mask, an immediate. -/
abbrev Word32 := BitVec 32

/-- A 64-bit word: a uniform register or a cox register. -/
abbrev Word64 := BitVec 64

/-- A lane mask: bit `L` stands for lane `L` (R2). -/
abbrev Mask := BitVec 32

/-- A virtual code or data address of 56 bits (R154). -/
abbrev VAddr := BitVec 56

end Sys2Proof
end

