-- ==== Sys2Proof/Syntax.lean ====
section
/-! DEFINITION. The instructions and events of the part: one constructor of `Instr` for each row of
spec/opcode_table.json. A stream instruction carries the fields of its word (spec/02_encoding.md R22); an event carries
what comes from outside it (the item it names, bytes from the host or a peer).

Marked in the assumption log: 18 (DEDUCED). -/

namespace Sys2Proof

/-- The fields of an instruction word other than OPC and FN, which the constructor of `Instr` stands for (R22).
`pg` is `PG[2:0]`, `neg` is `PG[3]` (R26); `useImm` is `MOD[8]` (R30); `md` is `MOD[7:0]` (R34). -/
structure Fields where
  sw : Bool
  neg : Bool
  pg : BitVec 3
  d : BitVec 8
  sa : BitVec 8
  sb : BitVec 8
  sc : BitVec 8
  lr : BitVec 4
  useImm : Bool
  md : BitVec 8
  imm : Word32
  deriving DecidableEq, Repr

/-- A scope of R183, coded as its table gives. -/
inductive Scope where
  | grp | team | clu | die | pkg | sys
  deriving DecidableEq, Repr

/-- The two kinds of instruction stream: a group's and a seat's (R23, R24). -/
inductive Stream where
  | group | cox
  deriving DecidableEq, Repr

/-- A group of a team, by the team's identity in the model and the group index. -/
structure GroupRef where
  team : Nat
  group : Nat
  deriving DecidableEq, Repr

/-- A path of a group, by path-table index (R134). -/
structure PathRef where
  team : Nat
  group : Nat
  path : Nat
  deriving DecidableEq, Repr

/-- Where a copy of a tile line stands: in its home slice, in the slice of a requesting die for a software-managed
line (R167), or a read-only replica on a die (R170). -/
inductive Place where
  | home
  | localDie (die : Nat)
  | replica (die : Nat)
  deriving DecidableEq, Repr

/-- The tag of a tile line and its place (R165): crew, view-table slot, tensor (record index; 0 is the flat tensor)
and tile coordinates. -/
structure LineKey where
  crew : Nat
  view : Nat
  tensor : Nat
  t0 : Int
  t1 : Int
  t2 : Int
  t3 : Int
  place : Place
  deriving DecidableEq, Repr

/-- An RSA public key (R47, R52). -/
structure PublicKey where
  modulus : Nat
  exponent : Nat
  deriving DecidableEq, Repr

/-- The virtual addresses at which the host has the loader place the sections of an image (R57). -/
structure LoadBases where
  group : VAddr
  cox : VAddr
  data : VAddr
  const : VAddr
  deriving DecidableEq, Repr

/-- One write of a firewall configuration (R357): die, SIZE, BASE. -/
structure DieWrite where
  die : Nat
  size : BitVec 2
  base : BitVec 3
  deriving DecidableEq, Repr

/-- A request of a peer that arrives through a rigger (R324): a read, a write, or an atomic at a physical address. -/
inductive PeerRequest where
  | read (pa : Nat) (len : Nat)
  | write (pa : Nat) (data : List Byte)
  | atomic (pa : Nat) (aop ty : BitVec 4) (operand compare : Word64)
  deriving DecidableEq, Repr

/-- A host access of device memory over the host port (R358). -/
inductive HostAccess where
  | read (pa : Nat) (len : Nat)
  | write (pa : Nat) (data : List Byte)
  deriving DecidableEq, Repr

/-- A launch-queue configuration (R392): ring bases, sizes, feeder bit, control block. -/
structure QueueConfig where
  launchBase : Nat
  lqlog : Nat
  completionBase : Nat
  cqlog : Nat
  feeder : Bool
  control : Nat
  deriving DecidableEq, Repr

/-- The steps of the part, one constructor for each row of spec/opcode_table.json: the stream instructions, then the
further rows of `rig` (which share one encoding with its first), then the events. -/
inductive Instr where
  /-- R81. Copies a register or immediate into a vector, uniform or cox destination. -/
  | mov (f : Fields)
  /-- R82. Writes a uniform register or immediate into all 32 lanes of a vector register, in uniform form when possible. -/
  | bcast (f : Fields)
  /-- R83. Writes the value of the lowest active lane of a vector register to a uniform register. -/
  | movu (f : Fields)
  /-- R84. Reads the execution mask into a uniform register. -/
  | emrd (f : Fields)
  /-- R84. Writes the execution mask within the issuing path's mask. -/
  | emwr (f : Fields)
  /-- R85. Per-lane AND of two predicates. -/
  | pand (f : Fields)
  /-- R85. Per-lane OR of two predicates. -/
  | por (f : Fields)
  /-- R85. Per-lane XOR of two predicates. -/
  | pxor (f : Fields)
  /-- R85. Per-lane AND NOT of two predicates. -/
  | pandn (f : Fields)
  /-- R85. Per-lane complement of a predicate. -/
  | ptog (f : Fields)
  /-- R85. Copies bits of a uniform register or mask immediate into a predicate per lane. -/
  | gtop (f : Fields)
  /-- R86. Reads a special register such as lane, group, core, flags, clock or item. -/
  | sread (f : Fields)
  /-- R86. Writes a writable special register: the link register, flags or a whole predicate. -/
  | swrite (f : Fields)
  /-- R87. Unmaps a run of vector register names regardless of guard and mask. -/
  | vfree (f : Fields)
  /-- R41. Does nothing beyond obeying its switch marker. -/
  | nop (f : Fields)
  /-- R93. Integer addition, wrapping or saturating. -/
  | add (f : Fields)
  /-- R93. Integer subtraction, wrapping or saturating. -/
  | sub (f : Fields)
  /-- R94. Addition with carry in and carry out through a predicate. -/
  | addc (f : Fields)
  /-- R94. Subtraction with borrow in and borrow out through a predicate. -/
  | subb (f : Fields)
  /-- R93. Integer minimum. -/
  | min (f : Fields)
  /-- R93. Integer maximum. -/
  | max (f : Fields)
  /-- R93. Integer absolute value, setting OVER or SAT on the most negative value. -/
  | abs (f : Fields)
  /-- R93. Integer negation, setting OVER or SAT on the most negative value. -/
  | neg (f : Fields)
  /-- R93. Integer multiplication, keeping the low bits or saturating. -/
  | mul (f : Fields)
  /-- R93. Upper half of an integer product. -/
  | mulhi (f : Fields)
  /-- R93. Widening integer multiplication into a 2w result. -/
  | mulw (f : Fields)
  /-- R93. Integer multiply-add. -/
  | mad (f : Fields)
  /-- R93. Widening integer multiply-add. -/
  | madw (f : Fields)
  /-- R95. Integer division truncating toward zero, with DIV and OVER cases. -/
  | div (f : Fields)
  /-- R95. Integer remainder with the sign of the dividend. -/
  | rem (f : Fields)
  /-- R97. Bitwise AND. -/
  | and (f : Fields)
  /-- R97. Bitwise OR. -/
  | or (f : Fields)
  /-- R97. Bitwise XOR. -/
  | xor (f : Fields)
  /-- R97. Bitwise complement. -/
  | not (f : Fields)
  /-- R97. Three-input bitwise logic by an 8-bit lookup table. -/
  | lop3 (f : Fields)
  /-- R98. Logical left shift. -/
  | shl (f : Fields)
  /-- R98. Logical right shift. -/
  | shr (f : Fields)
  /-- R98. Arithmetic right shift. -/
  | sar (f : Fields)
  /-- R98. Funnel shift left across two operands. -/
  | fshl (f : Fields)
  /-- R98. Funnel shift right across two operands. -/
  | fshr (f : Fields)
  /-- R99. Rounding right shift, halves toward +infinity. -/
  | rsh (f : Fields)
  /-- R100. Counts one bits. -/
  | popc (f : Fields)
  /-- R100. Counts leading zero bits. -/
  | clz (f : Fields)
  /-- R100. Counts trailing zero bits. -/
  | ctz (f : Fields)
  /-- R100. Reverses the bit order. -/
  | brev (f : Fields)
  /-- R100. Extracts a bit field, sign- or zero-extended. -/
  | bfx (f : Fields)
  /-- R100. Inserts a bit field into a base value. -/
  | bfi (f : Fields)
  /-- R102. Integer equality compare into a predicate. -/
  | cmpEq (f : Fields)
  /-- R102. Integer inequality compare into a predicate. -/
  | cmpNe (f : Fields)
  /-- R102. Integer less-than compare into a predicate. -/
  | cmpLt (f : Fields)
  /-- R102. Integer less-or-equal compare into a predicate. -/
  | cmpLe (f : Fields)
  /-- R102. Integer greater-than compare into a predicate. -/
  | cmpGt (f : Fields)
  /-- R102. Integer greater-or-equal compare into a predicate. -/
  | cmpGe (f : Fields)
  /-- R102. Selects between two operands by a predicate. -/
  | sel (f : Fields)
  /-- R103. Forms a 32-bit address as base plus shifted index. -/
  | lea (f : Fields)
  /-- R103. Forms a 64-bit address as base plus extended shifted index. -/
  | lea64 (f : Fields)
  /-- R105. Packed element addition, wrapping or saturating. -/
  | padd (f : Fields)
  /-- R105. Packed element subtraction. -/
  | psub (f : Fields)
  /-- R105. Packed element multiplication. -/
  | pmul (f : Fields)
  /-- R105. Packed element minimum. -/
  | pmin (f : Fields)
  /-- R105. Packed element maximum. -/
  | pmax (f : Fields)
  /-- R106. Two s16 products added to an s32 accumulator with one saturation. -/
  | mac2 (f : Fields)
  /-- R106. Four 8-bit products added to a 32-bit accumulator with one saturation. -/
  | dot4 (f : Fields)
  /-- R107. Narrows two sources into packed elements with saturation. -/
  | packs (f : Fields)
  /-- R107. Extracts and extends one packed element. -/
  | unpk (f : Fields)
  /-- R110. Moves lane values up by n lanes with a uniform fill. -/
  | slideUp (f : Fields)
  /-- R110. Moves lane values down by n lanes with a uniform fill. -/
  | slideDn (f : Fields)
  /-- R111. Moves 16-bit elements up by n with fill elements from a uniform register. -/
  | hslideUp (f : Fields)
  /-- R111. Moves 16-bit elements down by n with fill elements from a uniform register. -/
  | hslideDn (f : Fields)
  /-- R112. Reads each lane's value from a lane named per lane. -/
  | shfl (f : Fields)
  /-- R112. Reads each lane's value from the lane at its index XOR k. -/
  | xshfl (f : Fields)
  /-- R112. Broadcasts one lane's value to the active lanes. -/
  | lbc (f : Fields)
  /-- R113. Integer reduction across lanes by a fixed pairwise tree. -/
  | red (f : Fields)
  /-- R113. f32 reduction across lanes by a fixed pairwise tree. -/
  | redf (f : Fields)
  /-- R114. Integer prefix combination across lanes by a doubling tree. -/
  | scan (f : Fields)
  /-- R114. f32 prefix combination across lanes by a doubling tree. -/
  | scanf (f : Fields)
  /-- R115. Sets each active lane to the OR of a predicate over active lanes. -/
  | voteAny (f : Fields)
  /-- R115. Sets each active lane to the AND of a predicate over active lanes. -/
  | voteAll (f : Fields)
  /-- R115. Writes the predicate bits of the active lanes to a uniform register. -/
  | ballot (f : Fields)
  /-- R115. Writes per lane the mask of active lanes holding an equal value. -/
  | matchLanes (f : Fields)
  /-- R112. Copies one named lane's value to a uniform register. -/
  | rdlane (f : Fields)
  /-- R124. Floating-point addition with one rounding. -/
  | fAdd (f : Fields)
  /-- R124. Floating-point subtraction with one rounding. -/
  | fSub (f : Fields)
  /-- R124. Floating-point multiplication with one rounding. -/
  | fMul (f : Fields)
  /-- R124. Fused multiply-add with one rounding. -/
  | fma (f : Fields)
  /-- R125. Floating-point minimumNumber. -/
  | fMin (f : Fields)
  /-- R125. Floating-point maximumNumber. -/
  | fMax (f : Fields)
  /-- R126. Dot product of two narrow-float pairs added to f32 with one rounding. -/
  | fdot2 (f : Fields)
  /-- R127. Floating-point equality compare into a predicate. -/
  | fCmpEq (f : Fields)
  /-- R127. Floating-point inequality compare into a predicate. -/
  | fCmpNe (f : Fields)
  /-- R127. Floating-point less-than compare into a predicate. -/
  | fCmpLt (f : Fields)
  /-- R127. Floating-point less-or-equal compare into a predicate. -/
  | fCmpLe (f : Fields)
  /-- R127. Floating-point greater-than compare into a predicate. -/
  | fCmpGt (f : Fields)
  /-- R127. Floating-point greater-or-equal compare into a predicate. -/
  | fCmpGe (f : Fields)
  /-- R127. Floating-point unordered compare into a predicate. -/
  | fCmpUn (f : Fields)
  /-- R127. Tests the class of a float against a class mask. -/
  | fclass (f : Fields)
  /-- R128. Multiplies a float by a power of two with rounding. -/
  | scale (f : Fields)
  /-- R128. Returns the unbiased exponent of a float as s32. -/
  | getexp (f : Fields)
  /-- R128. Returns the significand of a float scaled into [1, 2). -/
  | getman (f : Fields)
  /-- R129. Correctly rounded reciprocal. -/
  | rcp (f : Fields)
  /-- R129. Correctly rounded reciprocal square root. -/
  | rsq (f : Fields)
  /-- R129. Correctly rounded square root. -/
  | sqrt (f : Fields)
  /-- R129. Correctly rounded power of two. -/
  | exp2 (f : Fields)
  /-- R129. Correctly rounded base-2 logarithm. -/
  | log2 (f : Fields)
  /-- R129. Correctly rounded sin(pi x). -/
  | sinpi (f : Fields)
  /-- R129. Correctly rounded cos(pi x). -/
  | cospi (f : Fields)
  /-- R130. Converts between float formats and between floats and integers. -/
  | cvt (f : Fields)
  /-- R132. Narrows f32 sources into packed narrow-float elements. -/
  | fpack (f : Fields)
  /-- R132. Widens one packed narrow-float element to f32 exactly. -/
  | funpk (f : Fields)
  /-- R133. Packs four s8 signs into one byte of a ternary word. -/
  | ternpk (f : Fields)
  /-- R133. Unpacks four ternary elements into s8 values. -/
  | ternunpk (f : Fields)
  /-- R142. Divergent branch that may split the path by a predicate. -/
  | bra (f : Fields)
  /-- R143. Uniform branch moving the whole path. -/
  | brau (f : Fields)
  /-- R144. Makes the next n instructions conditional through a skip shadow. -/
  | skip (f : Fields)
  /-- R145. Indirect jump with per-lane or uniform targets, peeling distinct targets into paths. -/
  | jmpi (f : Fields)
  /-- R147. Sets the link register to the return address and transfers. -/
  | call (f : Fields)
  /-- R147. Indirect call setting the link register per moved path. -/
  | calli (f : Fields)
  /-- R147. Transfers the whole path to its link register. -/
  | ret (f : Fields)
  /-- R143. Decrements a uniform register and branches when nonzero. -/
  | dbnz (f : Fields)
  /-- R148. Makes the active lanes vacant, retiring the path when none remain. -/
  | exit (f : Fields)
  /-- R149. Releases finished lanes and fills vacant lanes with work items from the refill queue. -/
  | refill (f : Fields)
  /-- R175. Loads through a tensor record handle with bounds and padding. -/
  | ldt (f : Fields)
  /-- R175. Stores through a tensor record handle with bounds. -/
  | stt (f : Fields)
  /-- R175. Loads from a flat global address. -/
  | ld (f : Fields)
  /-- R175. Stores to a flat global address through the store buffer. -/
  | st (f : Fields)
  /-- R175. Loads from cluster scratch. -/
  | lds (f : Fields)
  /-- R175. Stores to cluster scratch. -/
  | sts (f : Fields)
  /-- R175. Loads from the vault space. -/
  | ldv (f : Fields)
  /-- R175. Stores to the vault space. -/
  | stv (f : Fields)
  /-- R179. Uniform load of a global address into a uniform register. -/
  | ldg (f : Fields)
  /-- R180. Prefetches lines into their home slice without faulting. -/
  | pref (f : Fields)
  /-- R181. Tests whether a record handle is valid. -/
  | rvalid (f : Fields)
  /-- R182. Invalidates a record-table entry, writing back its lines and raising GEN. -/
  | rinval (f : Fields)
  /-- R182. Installs a 64-byte record at a record-table index and returns its handle. -/
  | rwr (f : Fields)
  /-- R181. Reads one 64-bit word of a record. -/
  | rrd (f : Fields)
  /-- R192. Orders the group's accesses at a scope by acquire, release or both. -/
  | fence (f : Fields)
  /-- R200. Load with acquire semantics. -/
  | ldacq (f : Fields)
  /-- R200. Store with release semantics. -/
  | strel (f : Fields)
  /-- R200. Atomic add at the home slice returning the old value. -/
  | atomAdd (f : Fields)
  /-- R200. Atomic minimum returning the old value. -/
  | atomMin (f : Fields)
  /-- R200. Atomic maximum returning the old value. -/
  | atomMax (f : Fields)
  /-- R200. Atomic bitwise AND returning the old value. -/
  | atomAnd (f : Fields)
  /-- R200. Atomic bitwise OR returning the old value. -/
  | atomOr (f : Fields)
  /-- R200. Atomic bitwise XOR returning the old value. -/
  | atomXor (f : Fields)
  /-- R200. Atomic exchange returning the old value. -/
  | atomExch (f : Fields)
  /-- R200. Atomic compare-and-swap returning the old value. -/
  | cas (f : Fields)
  /-- R202. Arrives at a team barrier as a release, possibly completing its phase. -/
  | barArrive (f : Fields)
  /-- R202. Parks until the targeted barrier phase completes, then acquires. -/
  | barWait (f : Fields)
  /-- R202. Arrives at a barrier and waits for the phase. -/
  | barSync (f : Fields)
  /-- R203. Sets a scratch barrier's credited count to 0 and its expected count. -/
  | sbarInit (f : Fields)
  /-- R203. Parks until a scratch barrier's credit reaches its expected count. -/
  | sbarWait (f : Fields)
  /-- R204. Parks until an engine counter is at most n. -/
  | wcnt (f : Fields)
  /-- R205. Watches a global location at home until a condition holds. -/
  | waitval (f : Fields)
  /-- R209. Pushes one entry onto the team channel of the sender's role. -/
  | chsend (f : Fields)
  /-- R210. Pops one entry from a team channel or reports it closed. -/
  | chrecv (f : Fields)
  /-- R210. Marks the group done sending on its role's channel. -/
  | chclose (f : Fields)
  /-- R206. Parks until the team's seat has completed a batch, then acquires and ORs its flags. -/
  | bwait (f : Fields)
  /-- R207. Adds to a scratch signal word as a release at cluster scope. -/
  | cxsig (f : Fields)
  /-- R216. Copy-engine command moving bytes between global, scratch and vault spaces. -/
  | cpy (f : Fields)
  /-- R219. Copy command that yields at a budget, a drain window or pre-emption. -/
  | cpyy (f : Fields)
  /-- R220. Gathers elements by a scratch index list. -/
  | gath (f : Fields)
  /-- R220. Scatters elements by a scratch index list. -/
  | scat (f : Fields)
  /-- R221. Joins a collective combining contributions in rank order. -/
  | coll (f : Fields)
  /-- R223. Writes back dirty bytes of lines over a range. -/
  | wbr (f : Fields)
  /-- R223. Writes back and then drops lines over a range. -/
  | invr (f : Fields)
  /-- R225. Appends a message to a slice mailbox. -/
  | post (f : Fields)
  /-- R226. Removes the oldest mailbox message and writes it out. -/
  | take (f : Fields)
  /-- R279. Creates child teams in copy-on-write child views and freezes the parent view. -/
  | fork (f : Fields)
  /-- R280. Waits for the fork set, checks and commits the merge, and returns the children merged. -/
  | join (f : Fields)
  /-- R281. Reads view identifiers, depth and fork-set state. -/
  | vid (f : Fields)
  /-- R282. Declares a reduction region for the children of the next fork. -/
  | rpage (f : Fields)
  /-- R283. Reads a twin-pool count. -/
  | twres (f : Fields)
  /-- R284. Aborts the team's fork set, killing children and discarding their views. -/
  | vabort (f : Fields)
  /-- R252. Issues a bf16 matrix operation into a logical accumulator. -/
  | mmaBf16 (f : Fields)
  /-- R252. Issues an f8 matrix operation with block scales. -/
  | mmaF8 (f : Fields)
  /-- R252. Issues an s8 matrix operation with block scales. -/
  | mmaS8 (f : Fields)
  /-- R252. Issues a ternary by s8 matrix operation with block scales. -/
  | mmaTern (f : Fields)
  /-- R253. Binds if needed and empties an accumulator slot. -/
  | azero (f : Fields)
  /-- R253. Converts an accumulator slot to f32 or bf16 in scratch. -/
  | afin (f : Fields)
  /-- R254. Unbinds a logical accumulator and releases its slot. -/
  | arel (f : Fields)
  /-- R255. Closes the seat's issued operations into the next batch. -/
  | mbatch (f : Fields)
  /-- R259. Parks the seat until a scratch word reaches a value, then acquires. -/
  | cxwait (f : Fields)
  /-- R236. Sets the bound of a loop-nest level. -/
  | lnbnd (f : Fields)
  /-- R236. Sets a coefficient of an address stream. -/
  | lncoef (f : Fields)
  /-- R236. Enables an address stream with a base and destination register. -/
  | lnbase (f : Fields)
  /-- R236. Disables an address stream. -/
  | lnbaseOff (f : Fields)
  /-- R237. Resets the induction variables and writes every stream address. -/
  | lnstart (f : Fields)
  /-- R237. Advances the loop nest and writes stream addresses and a continue predicate. -/
  | lnnext (f : Fields)
  /-- R298. Loads cell headers and couplings into the sampler context. -/
  | smload (f : Fields)
  /-- R299. Clamps masked cells to given states. -/
  | smclampOn (f : Fields)
  /-- R299. Unclamps masked cells. -/
  | smclampOff (f : Fields)
  /-- R300. Sets the seed, resets the sweep number and selects seeded or entropy mode. -/
  | smseed (f : Fields)
  /-- R300. Sets the inverse temperature. -/
  | smbeta (f : Fields)
  /-- R300. Loads a 4,096-entry probability table from memory. -/
  | smtable (f : Fields)
  /-- R300. Restores the default probability table. -/
  | smtableDef (f : Fields)
  /-- R301. Runs n sweeps of the whole sampler context. -/
  | smsweep (f : Fields)
  /-- R301. Writes the states of a cell range as a bitmap. -/
  | smread (f : Fields)
  /-- R301. Writes the counters of a cell range. -/
  | smstatRd (f : Fields)
  /-- R301. Clears the counters of a cell range. -/
  | smstatClr (f : Fields)
  /-- R301. Writes and then clears the counters of a cell range. -/
  | smstatRdclr (f : Fields)
  /-- R301. Writes the context's status word. -/
  | smstatInfo (f : Fields)
  /-- R322. Remote load from a peer through a window. -/
  | rld (f : Fields)
  /-- R322. Remote store to a peer through a window. -/
  | rst (f : Fields)
  /-- R322. Remote atomic on a peer returning the old value. -/
  | ratom (f : Fields)
  /-- R323. Orders remote commands by waiting for earlier ones to retire and be acknowledged. -/
  | rfence (f : Fields)
  /-- R326. Starts re-rigging a rigger to a new rig or to none. -/
  | rigRerig (f : Fields)
  /-- R327. Reads a rigger status word, window entry half or the plane map. -/
  | rigst (f : Fields)
  /-- R349. Raises the software trap 0x0E with a code. -/
  | trap (f : Fields)
  /-- R350. Returns from the trap handler, restoring the trap state and clearing TM. -/
  | tret (f : Fields)
  /-- R122. Waits for fixed-latency results and raises the arithmetic fault on enabled sticky flags. -/
  | tfence (f : Fields)
  /-- R351. Raises a breakpoint or holds the path under an armed debug stop. -/
  | brk (f : Fields)
  /-- R352. Reads a crew- or die-scoped system register. -/
  | sysrd (f : Fields)
  /-- R352. Writes a system register that has no behaviour of its own. -/
  | syswr (f : Fields)
  /-- R334. A write of a record SEQ to REPLAY resumes the named group, seat or command. -/
  | replay (f : Fields)
  /-- R333. A write of FQTAIL frees fault-queue entries for held records. -/
  | fqtail (f : Fields)
  /-- R352. A write of ECCCNT clears the corrected-error count. -/
  | ecccnt (f : Fields)
  /-- R353. Removes every translation entry of a crew after a system fence. -/
  | tlbinvAll (f : Fields)
  /-- R353. Removes the translation entry of one page. -/
  | tlbinvPg (f : Fields)
  /-- R353. Removes the translation entries of every page meeting a range. -/
  | tlbinvRng (f : Fields)
  /-- R354. Copies a saved team's context to memory, optionally moving it out of the grid. -/
  | ctxsave (f : Fields)
  /-- R354. Installs a saved team from memory into the crew's save area. -/
  | ctxld (f : Fields)
  /-- R355. Empties cores of a grid by spatial pre-emption. -/
  | vacate (f : Fields)
  /-- R356. Kills one team of a grid at once. -/
  | haltTeam (f : Fields)
  /-- R356. Kills every team of a grid. -/
  | haltGrid (f : Fields)
  /-- R374. Writes a row into the shadow heat-table bank after checks. -/
  | heatw (f : Fields)
  /-- R374. Marks a switch to the shadow bank at the end of the period. -/
  | heatsw (f : Fields)
  /-- R376. Gives the rest of the heat to the row's donee. -/
  | donate (f : Fields)
  /-- R375. Discards a crew's lines over a physical range and sets its unscrubbed bits. -/
  | scrub (f : Fields)
  /-- R388. Sets a trace ring's base and control word and resets its indices. -/
  | trctlSet (f : Fields)
  /-- R388. Reads a trace ring's HEAD. -/
  | trctlHead (f : Fields)
  /-- R388. Advances a trace ring's TAIL. -/
  | trctlTail (f : Fields)
  /-- R388. Reads a trace ring's lost count. -/
  | trctlLost (f : Fields)
  /-- R389. Writes a mark packet to the trace ring when marks are enabled. -/
  | trmark (f : Fields)
  /-- R390. Reads, and optionally clears, a performance counter. -/
  | pcnt (f : Fields)
  /-- R391. Puts a team into step mode. -/
  | stepStop (f : Fields)
  /-- R391. Releases every held path of a team in step mode. -/
  | stepGo (f : Fields)
  /-- R391. Leaves step mode and releases every held path. -/
  | stepRun (f : Fields)
  /-- R391. Releases one held path of a team. -/
  | stepPath (f : Fields)
  /-- R400. Appends a launch record to a device-fed launch queue. -/
  | launch (f : Fields)
  /-- R400. Appends a launch record with an added edge on the issuing grid. -/
  | launchd (f : Fields)
  /-- R401. Reads a value of a launch queue's snapshot. -/
  | lqst (f : Fields)
  /-- R326. Writes a window-table entry. -/
  | rigWinwr (f : Fields)
  /-- R326. Clears the valid bit of a window-table entry. -/
  | rigWinclr (f : Fields)
  /-- R326. Writes the UALink plane map. -/
  | rigPmap (f : Fields)
  /-- R326. Locks a rigger's port in configuration, making its entries read-only. -/
  | rigLock (f : Fields)
  /-- R326. Makes a locked rigger live and its windows active. -/
  | rigGo (f : Fields)
  /-- R39. A slot content that is not an instruction raises the illegal-instruction trap with a cause when a path tries to issue it. -/
  | illegalInstruction (cause : BitVec 4) (word : BitVec 96)
  /-- R40. A path that reaches a fill slot takes fault 0x14. -/
  | fetchOverrun
  /-- R18. A fetch line arrives in the instruction cache and is checked for parity, discarded and refetched on mismatch. -/
  | lineFetch (p : PathRef) (flip1 flip2 : BitVec 512)
  /-- R73. A group held by a switch marker returns to the issue pool once its fixed-latency results are written. -/
  | switchMarkerRelease (g : GroupRef)
  /-- R77. A path ready for 256 cycles takes priority in its scheduler. -/
  | schedulerAgePriority (core sched : Nat)
  /-- R176. A variable-latency result arrives, is written and clears its pending bit. -/
  | loadDataArrive (g : GroupRef) (access : Nat)
  /-- R345. A page walk completes, filling translation caches or giving fault 0x03 or 0x04 to waiting lanes. -/
  | translationWalkComplete (walk : Nat)
  /-- R333. A record held for a full queue is written once room frees. -/
  | heldRecordWrite (crew : Nat)
  /-- R197. A store-buffer entry is sent toward its home. -/
  | storeDrain (g : GroupRef) (entry : Nat)
  /-- R197. A store acknowledgement arrives and is credited, also to a saved context. -/
  | storeAck (g : GroupRef) (scope : Scope)
  /-- R170. After 32 reads within 1,024 cycles from two dies, a slice pushes read-only replicas of a line. -/
  | lineReplicate (line : LineKey)
  /-- R158. The clear of an unscrubbed page completes, clearing its bit and releasing waiting stores. -/
  | pageClearComplete (crew page : Nat)
  /-- R205. A write reaching a watched line wakes a parked waitval to re-read it. -/
  | waitvalRecheck (p : PathRef)
  /-- R227. An engine performs bytes at its destination, crediting a scratch barrier where named. -/
  | engineBytePerformed (cmd : Nat)
  /-- R193. An engine command completes and its counter falls in issue order. -/
  | commandRetire (cmd : Nat)
  /-- R218. A running command's global access faults, stopping it at that byte with a record. -/
  | engineFault (cmd : Nat)
  /-- R219. A cpyy stops at its budget, a drain window or pre-emption and writes its continuation. -/
  | cpyyYield (cmd : Nat)
  /-- R225. A post waiting for room appends its message when the box has space. -/
  | mailboxPostEnqueue (cmd : Nat)
  /-- R226. A waiting take receives a message arriving in its box. -/
  | mailboxTakeDeliver (cmd : Nat)
  /-- R256. A queued matrix operation starts in its array when the array frees. -/
  | matrixOpStart (core : Nat)
  /-- R243. A matrix operation updates its accumulator slot by exact fixed-point accumulation. -/
  | matrixOpComplete (core : Nat)
  /-- R245. An afin's converted tile is performed in scratch at cluster scope. -/
  | afinComplete (core : Nat)
  /-- R259. A write reaching a watched scratch word wakes a parked seat to re-read it. -/
  | cxwaitRecheck (team : Nat)
  /-- R270. The slices compare every changed granule of an ended fork set for conflicts and kills. -/
  | mergeCheck (team : Nat)
  /-- R270. The slices commit changed bytes and fold reduction pages into the parent in child order. -/
  | mergeCommit (team : Nat)
  /-- R276. When the last team of a determinate grid ends, the slices join all teams in index order. -/
  | determinateJoin (grid : Nat)
  /-- R276. A determinate join short of pool granules is tried again when slack grows. -/
  | determinateJoinRetry (grid : Nat)
  /-- R295. A sampler command reaches its context and starts, whole and in order. -/
  | samplerCommandStart (crew die : Nat)
  /-- R293. A colour phase updates every unclamped cell of that colour from the start-of-phase states. -/
  | samplerColourPhase (crew die : Nat)
  /-- R294. A sampler command finishes, performs its writes and retires its counter. -/
  | samplerCommandComplete (crew die : Nat)
  /-- R312. The PHY trains with a supported part and SPDM attestation starts. -/
  | riggerLinkTrained (rigger : Nat)
  /-- R312. Training exceeds 8,500,000 cycles or finds no supported part and the rigger goes offline in error. -/
  | riggerTrainingTimeout (rigger : Nat) (noPart : Bool)
  /-- R312. Attestation passes, keys load and the rigger enters configuration. -/
  | riggerAttestationPass (rigger : Nat)
  /-- R312. Attestation fails or times out and the rigger goes offline in error. -/
  | riggerAttestationFail (rigger : Nat)
  /-- R312. A live link is lost, the rigger goes offline and in-flight items fail. -/
  | riggerLinkLost (rigger : Nat)
  /-- R314. A drain ends when traffic is settled or 340,000 cycles pass, moving to training or offline. -/
  | riggerDrainEnd (rigger : Nat)
  /-- R314. Unanswered UALink requests fail 85,000 cycles after a drain begins. -/
  | ualinkResponseTimeout (request : Nat)
  /-- R313. A request held 170,000 cycles completes with port-offline status. -/
  | heldRequestTimeout (request : Nat)
  /-- R317. A plane-map move takes effect for a value once its in-flight requests complete. -/
  | planeMoveEffect (value : BitVec 3)
  /-- R318. A tier-1 head after 512 cycles or tier-2 head after 2,048 takes the next slot. -/
  | riggerTierAge (rigger : Nat)
  /-- R322. A remote command's responses or acknowledgements arrive and it retires. -/
  | remoteResponse (request : Nat) (ok : Bool) (data : List Byte)
  /-- R10. A packet held at ring entry for 64 cycles takes priority over through traffic. -/
  | networkEntryPriority (packet : Nat)
  /-- R365. The drain window opens for a crew losing an octet and its teams start to halt. -/
  | drainWindowOpen (set crew : Nat)
  /-- R365. A row ends, resources change owner, remaining groups are saved and the next row begins. -/
  | heatEdge (set : Nat)
  /-- R366. Clearing of an octet ends and the incoming crew's saved teams are restored first. -/
  | octetHandover (octet : Nat)
  /-- R370. Under POL 2 a crew idle for 1,024 cycles gives the rest of its heat to the donee. -/
  | idleDonation (set crew : Nat)
  /-- R339. At the end of a drain window the remaining groups halt at once and take a full save. -/
  | preemptWindowEnd (set crew : Nat)
  /-- R339. A halted, parked or replayable group is saved in the context format. -/
  | groupSave (g : GroupRef)
  /-- R344. A saved team is restored: seat, team part, groups, remainders, store buffer and pending accesses. -/
  | teamRestore (team : Nat)
  /-- R395. The scheduler consumes the head of the chosen launch queue and writes CONS. -/
  | launchConsume (set : Nat)
  /-- R395. A waiting team is admitted to a core, binding a seat and making its groups resident. -/
  | teamPlace (set crew : Nat)
  /-- R394. A completion held for a full ring is written once room frees. -/
  | heldCompletionWrite (vf queue : Nat)
  /-- R392. The host writes a host-fed queue's TAIL, adding launch records. -/
  | hostTailWrite (vf queue : Nat) (tail : Word64)
  /-- R392. The host writes CTAIL, freeing completion-ring entries. -/
  | hostCtailWrite (vf queue : Nat) (ctail : Word64)
  /-- R396. The host kills a grid as halt.grid does, with status 4. -/
  | hostKillGrid (vf : Nat) (seq : Word64)
  /-- R334. The host's replay command resumes the work named by a record SEQ. -/
  | hostReplay (crew : Nat) (seq : Word64)
  /-- R398. After a restart keeping the crews, in-flight records complete with status 7 and consumption resumes. -/
  | deviceRestart
  /-- R51. The loader checks an Oanel image for a crew and translates it into fetch lines or rejects it. -/
  | imageLoad (crew : Nat) (image : List Byte) (recordBase : Nat) (bases : LoadBases)
  /-- R52. The host provisions a crew's public keys. -/
  | keyProvision (crew slot : Nat) (key : PublicKey)
  /-- R52. The host raises a key's rollback floor; a lower value is refused. -/
  | rollbackFloorWrite (crew slot : Nat) (floor : Word32)
  /-- R357. The host writes firewall configurations on a list of dies, taking effect only if consistent and idle. -/
  | dieSetConfigure (writes : List DieWrite)
  /-- R359. The host binds a crew without grids to a die set. -/
  | crewBind (crew base : Nat)
  /-- R359. The host resets a crew: kills grids, ends views, empties boxes, scrubs vaults and restarts SEQ. -/
  | crewReset (crew : Nat)
  /-- R360. The host writes a virtual function's control word to bind it to a crew. -/
  | functionControlWrite (vf : Nat) (control : Word64)
  /-- R360. A function reset raises INC and clears DROP, making held events stale. -/
  | functionReset (vf : Nat)
  /-- R361. The host pauses a function for migration, keeping its pending word in saved state. -/
  | functionMigrationPause (vf : Nat)
  /-- R362. The host installs the first active heat table of a die set. -/
  | heatTableInstall (set : Nat) (rows : List (BitVec 2048))
  /-- R156. The host sets a crew's page-table root. -/
  | pageTableRootSet (crew : Nat) (root : Word64)
  /-- R173. The host assigns a vault to a crew. -/
  | vaultAssign (die vault crew : Nat)
  /-- R224. The host assigns a slice mailbox to a crew. -/
  | mailboxAssign (slice box crew : Nat)
  /-- R265. The host sets a crew's twin-pool base and size. -/
  | twinPoolSet (crew : Nat) (base : Word64) (size : Nat)
  /-- R161. The host sizes and places a crew's record table. -/
  | recordTableSet (crew : Nat) (size : Nat) (base : Word64)
  /-- R309. The host registers the endpoint and memory key of an Ultra Ethernet peer. -/
  | peerRegister (peer : Nat) (endpoint key : Word64)
  /-- R158. The host sets or clears bits of a crew's unscrubbed bitmap. -/
  | unscrubbedBitmapWrite (crew page : Nat) (bit : Bool)
  /-- R353. The host's equivalent command removes translation entries. -/
  | hostTlbinv (crew : Nat) (kind : BitVec 2) (va : VAddr) (len : Word32)
  /-- R338. The host's equivalent command vacates cores by spatial pre-emption. -/
  | hostVacate (crew : Nat) (lseq : Word64) (count : Nat)
  /-- R403. At power-on the boot ROM of die 0 waits for a firmware image over the host port. -/
  | powerOnBoot
  /-- R403. A firmware image arrives, is checked against the fused key, and starts the loader or stays in recovery. -/
  | firmwareImage (image : List Byte) (signature : List Byte) (key : PublicKey)
  /-- R404. The power-limit input or a temperature limit makes the controllers insert idle issue cycles. -/
  | powerLimitInput (board : Bool) (hot : BitVec 8)
  /-- R404. Removal of the 48 V input loses every device state except fuses. -/
  | powerRemoval
  /-- R395. The launch scheduler hands items from the grid's shared counter into a team's refill queue, and closes the queue when the counter reaches NITEM. -/
  | refillQueueFill (team : Nat) (count : Nat)
  /-- R324. A read, write or atomic from a peer arrives through a rigger, and the package performs it as a .sys agent at the home slice. -/
  | peerRequestArrival (rigger : Nat) (request : PeerRequest)
  /-- R358. A host read or write of device memory arrives over the host port and is routed on the host channel and performed as a host agent. -/
  | hostPortAccess (crew : Nat) (access : HostAccess)
  /-- R392. The host configures a virtual function's launch queue: its rings, sizes, feeder bit and control block. -/
  | launchQueueConfigure (vf queue : Nat) (config : QueueConfig)
  /-- R361. A function paused for migration runs at its destination, and its saved pending word is posted again there. -/
  | functionMigrationResume (vf : Nat)
  /-- R402. The host grants or withdraws a CLASS bit, and so system privilege, for a crew. -/
  | crewClassGrant (crew : Nat) (cls : BitVec 3)
  /-- R375. The host orders the scrub action for a physical range, discarding the crew's lines and setting unscrubbed bits. -/
  | hostScrub (crew : Nat) (base : Word64) (len : Nat)
  /-- R403. An SPDM 1.3 message arrives over MCTP on the host port and the device answers with its identity and measurements. -/
  | hostSpdmRequest (message : List Byte)
  deriving DecidableEq, Repr

end Sys2Proof
end

