-- ==== Sys2Proof/Machine/Forms.lean ====
section
/-! DEFINITION. The opcode map and the legality of an instruction word (spec/02_encoding.md R22 to R41 and the encoding
tables of the class chapters): which operand kinds, types, immediates and last-read bits each form takes, and the cause
that a word which is not an instruction reports (R39).

Marked in the assumption log: 24 (DEDUCED), 49 (DESIGN CHOICE). -/

namespace Sys2Proof

/-- The integer type table of R32. -/
inductive ITy where
  | b8 | b16 | b32 | b64 | s8 | s16 | s32 | s64 | z8 | z16 | z32 | z64 | s16x2 | z16x2 | s8x4 | z8x4
  deriving DecidableEq, Repr

/-- The float type table of R32. -/
inductive FTy where
  | f32 | f16 | bf16 | f8 | f16x2 | bf16x2 | f8x4 | tern | s8 | s16 | s32 | s64 | z8 | z16 | z32 | z64
  deriving DecidableEq, Repr

/-- The type field of OPC 0x90 and of `waitval` (R34). -/
inductive OTy where
  | b32 | b64 | s32 | s64 | z32 | z64 | f32 | bf16x2
  deriving DecidableEq, Repr

/-- The TYPE codes of the remote forms (R319); 10 to 15 are reserved. -/
inductive RTy where
  | b8 | b16 | b32 | b64 | b128 | s32 | s64 | z32 | z64 | f32
  deriving DecidableEq, Repr

/-- What one operand field may hold (R23, R24): `vec n` is a vector operand of `n` registers, `uni` a uniform register,
`pred` a predicate read, `predW` a predicate written, `code m` a small number below `m`. -/
inductive Opd where
  | vec (n : Nat)
  | uni
  | pred
  | predW
  | code (m : Nat)
  deriving DecidableEq, Repr

/-- In which streams a form is legal (R35, R38). -/
inductive StreamUse where
  | groupOnly | both | coxOnly
  deriving DecidableEq, Repr

/-- What one form, with the sub-fields of a given word, accepts. `modOk` gathers the conditions of cause 2 other than
MOD[8]; `immOk` the conditions on IMM of cause 3; `late4` further conditions of
cause 4; `uniOk` marks a form that R25 excepts; `uniCause3` and `vecCause3` mark forms of which a g destination with a vector source
takes cause 3 (R175, R319), the latter forms whose sources are g registers only; `guardFixed` marks a form whose PG must be p7
(cause 4, R141). -/
structure FormSpec where
  modOk : Bool := true
  d : List Opd := []
  sa : List Opd := []
  sb : List Opd := []
  sc : List Opd := []
  immSb : Bool := false
  immOk : Bool := true
  late4 : Bool := true
  uniOk : Bool := false
  uniCause3 : Bool := false
  vecCause3 : Bool := false
  deadOk : Bool := true
  guardFixed : Bool := false
  use : StreamUse := .groupOnly
  priv : Bool := false
  deriving DecidableEq, Repr

/-- The integer type of a code (R32). -/
def ITy.ofCode (c : BitVec 4) : ITy :=
  match c.toNat with
  | 0 => .b8 | 1 => .b16 | 2 => .b32 | 3 => .b64 | 4 => .s8 | 5 => .s16 | 6 => .s32 | 7 => .s64
  | 8 => .z8 | 9 => .z16 | 10 => .z32 | 11 => .z64 | 12 => .s16x2 | 13 => .z16x2 | 14 => .s8x4 | _ => .z8x4

/-- The float type of a code (R32). -/
def FTy.ofCode (c : BitVec 4) : FTy :=
  match c.toNat with
  | 0 => .f32 | 1 => .f16 | 2 => .bf16 | 3 => .f8 | 4 => .f16x2 | 5 => .bf16x2 | 6 => .f8x4 | 7 => .tern
  | 8 => .s8 | 9 => .s16 | 10 => .s32 | 11 => .s64 | 12 => .z8 | 13 => .z16 | 14 => .z32 | _ => .z64

/-- The type of an ordering form (R34). -/
def OTy.ofCode (c : BitVec 3) : OTy :=
  match c.toNat with
  | 0 => .b32 | 1 => .b64 | 2 => .s32 | 3 => .s64 | 4 => .z32 | 5 => .z64 | 6 => .f32 | _ => .bf16x2

/-- The type of a remote form (R319); none for a reserved code. -/
def RTy.ofCode (c : BitVec 4) : Option RTy :=
  match c.toNat with
  | 0 => some .b8 | 1 => some .b16 | 2 => some .b32 | 3 => some .b64 | 4 => some .b128 | 5 => some .s32
  | 6 => some .s64 | 7 => some .z32 | 8 => some .z64 | 9 => some .f32 | _ => none

/-- The width in bits of a scalar type, or of one element of a packed type (R88). -/
def ITy.width : ITy → Nat
  | .b8 | .s8 | .z8 | .s8x4 | .z8x4 => 8
  | .b16 | .s16 | .z16 | .s16x2 | .z16x2 => 16
  | .b32 | .s32 | .z32 => 32
  | .b64 | .s64 | .z64 => 64

/-- Whether values of the type read as two's complement (R88). -/
def ITy.signed : ITy → Bool
  | .s8 | .s16 | .s32 | .s64 | .s16x2 | .s8x4 => true
  | _ => false

/-- The raw types. -/
def ITy.raw : ITy → Bool
  | .b8 | .b16 | .b32 | .b64 => true
  | _ => false

/-- The packed types. -/
def ITy.packed : ITy → Bool
  | .s16x2 | .z16x2 | .s8x4 | .z8x4 => true
  | _ => false

/-- Vector registers that an operand of a type occupies (R23). -/
def ITy.regs (t : ITy) : Nat := if t.width = 64 then 2 else 1

/-- Vector registers that an operand of twice the type's width occupies (R92, `mulw` and `madw`). -/
def ITy.regs2 (t : ITy) : Nat := if t.width = 32 then 2 else 1

/-- Vector registers of a type of the float table (R123). -/
def FTy.regs : FTy → Nat
  | .s64 | .z64 => 2
  | _ => 1

/-- The float-table types that are floating formats of one value (R116). -/
def FTy.scalarFloat : FTy → Bool
  | .f32 | .f16 | .bf16 | .f8 => true
  | _ => false

/-- The float-table types that are integers. -/
def FTy.isInt : FTy → Bool
  | .s8 | .s16 | .s32 | .s64 | .z8 | .z16 | .z32 | .z64 => true
  | _ => false

/-- Vector registers of an ordering type. -/
def OTy.regs : OTy → Nat
  | .b64 | .s64 | .z64 => 2
  | _ => 1

/-- Bytes of an ordering type. -/
def OTy.bytes (t : OTy) : Nat := 4 * t.regs

/-- Bytes of a remote type. -/
def RTy.bytes : RTy → Nat
  | .b8 => 1 | .b16 => 2 | .b32 | .s32 | .z32 | .f32 => 4 | .b64 | .s64 | .z64 => 8 | .b128 => 16

/-- Vector registers of a remote type. -/
def RTy.regs (t : RTy) : Nat := (t.bytes + 3) / 4

/-- The scope of a code (R34, R183); codes 6 and 7 are reserved. -/
def Scope.ofCode (c : BitVec 3) : Option Scope :=
  match c.toNat with
  | 0 => some .grp | 1 => some .team | 2 => some .clu | 3 => some .die | 4 => some .pkg | 5 => some .sys | _ => none

/-- The code of a scope. -/
def Scope.code : Scope → BitVec 3
  | .grp => 0 | .team => 1 | .clu => 2 | .die => 3 | .pkg => 4 | .sys => 5

namespace Fields

/-- MOD[3:0] as an integer type. -/
def ity (f : Fields) : ITy := ITy.ofCode (f.md.extractLsb' 0 4)

/-- MOD[3:0] as a float-table type. -/
def fty (f : Fields) : FTy := FTy.ofCode (f.md.extractLsb' 0 4)

/-- IMM[3:0] as a float-table type: the source type of `cvt`, `fdot2` and `funpk` (R34, R123). -/
def srcFty (f : Fields) : FTy := FTy.ofCode (f.imm.extractLsb' 0 4)

/-- MOD[7], the `.sat` or `.excl` bit. -/
def bit7 (f : Fields) : Bool := f.md.getLsbD 7

/-- MOD[6:4], the rounding code or the operator of a cross-lane form. -/
def mid (f : Fields) : Nat := (f.md.extractLsb' 4 3).toNat

/-- The scope field, MOD[2:0] (R34). -/
def scopeCode (f : Fields) : BitVec 3 := f.md.extractLsb' 0 3

/-- The order field of OPC 0x90 and `waitval`, MOD[4:3]. -/
def order (f : Fields) : Nat := (f.md.extractLsb' 3 2).toNat

/-- The type field of OPC 0x90 and `waitval`, MOD[7:5]. -/
def oty (f : Fields) : OTy := OTy.ofCode (f.md.extractLsb' 5 3)

/-- TYPE of a remote form, IMM[7:4] (R319). -/
def rty (f : Fields) : Option RTy := RTy.ofCode (f.imm.extractLsb' 4 4)

/-- AOP of `ratom`, IMM[11:8] (R319). -/
def aop (f : Fields) : Nat := (f.imm.extractLsb' 8 4).toNat

/-- The width code of a memory form, MOD[2:0] (R34): log2 of the width in bytes. -/
def wcode (f : Fields) : Nat := (f.md.extractLsb' 0 3).toNat

/-- MOD[3] of a memory form: sign extension. -/
def sext (f : Fields) : Bool := f.md.getLsbD 3

/-- MOD[5:4] of a memory form: cache policy. -/
def policy (f : Fields) : Nat := (f.md.extractLsb' 4 2).toNat

/-- Vector registers that the data of a memory form occupies (R174). -/
def memRegs (f : Fields) : Nat := if f.wcode ≤ 2 then 1 else if f.wcode = 3 then 2 else 4

/-- The value of `IMM[hi:lo]`. -/
def immBits (f : Fields) (lo n : Nat) : Nat := (f.imm.toNat >>> lo) % 2 ^ n

/-- No bit of IMM at or above `n` is set. -/
def immBelow (f : Fields) (n : Nat) : Bool := f.imm.toNat < 2 ^ n

/-- LR[3]: the result is dead (R28). -/
def dead (f : Fields) : Bool := f.lr.getLsbD 3

/-- IMM is zero, or holds a MOD[8] immediate. -/
def immOnly (f : Fields) : Bool := f.useImm || f.imm == 0

/-- IMM is zero, or holds a MOD[8] immediate below `2 ^ n`. -/
def immOnlyBelow (f : Fields) (n : Nat) : Bool := if f.useImm then f.immBelow n else f.imm == 0

/-- R30: an immediate narrower than 32 bits is the sign extension (signed types) or zero extension (others). -/
def immTyped (f : Fields) (t : ITy) : Bool :=
  if !f.useImm then f.imm == 0
  else if t.packed || 32 ≤ t.width then true
  else if t.signed then f.imm == ((f.imm.setWidth t.width).signExtend 32)
  else f.immBelow t.width

/-- R30: an f16 or bf16 immediate has IMM[31:16] zero. -/
def immFloat (f : Fields) (t : FTy) : Bool :=
  if !f.useImm then f.imm == 0
  else match t with
    | .f16 | .bf16 => f.immBelow 16
    | _ => true

end Fields

/-- A scalar integer type of the rows marked "all" (R92). -/
def ITy.scalar (t : ITy) : Bool := !t.packed

/-- The types of the rows marked "s, z". -/
def ITy.sz (t : ITy) : Bool := !t.packed && !t.raw

/-- The two raw types of 32 and 64 bits. -/
def ITy.b3264 : ITy → Bool
  | .b32 | .b64 => true
  | _ => false

/-- The types of 32 or 64 bits. -/
def ITy.w3264 (t : ITy) : Bool := !t.packed && (t.width == 32 || t.width == 64)

/-- Operand columns "v, g" with a vector operand of `n` registers. -/
def vg (n : Nat) : List Opd := [.vec n, .uni]

/-- Forms of OPC 0x00 (R80). -/
def specReg (fn : Nat) (f : Fields) : Option FormSpec :=
  let t := f.ity
  let m0 := f.md == 0
  let sel := f.immBits 0 8
  let selOk := f.immBelow 8
  match fn with
  | 0x00 => some { modOk := f.md.extractLsb' 4 4 == 0 && t.w3264, d := vg t.regs, sb := vg t.regs, immSb := true,
                   immOk := f.immOnly, use := .both }
  | 0x01 => some { modOk := f.md.extractLsb' 4 4 == 0 && t.w3264, d := [.vec t.regs], sb := [.uni], immSb := true,
                   immOk := f.immOnly }
  | 0x02 => some { modOk := m0, d := [.uni], sb := [.vec 1], immOk := f.imm == 0, uniOk := true }
  | 0x03 => some { modOk := m0, d := [.uni], immOk := f.imm == 0 }
  | 0x04 => some { modOk := m0, sb := [.uni], immSb := true, immOk := f.immOnly }
  | 0x05 | 0x06 | 0x07 | 0x08 =>
      some { modOk := m0, d := [.predW], sa := [.pred], sb := [.pred], immSb := true, immOk := f.immOnly }
  | 0x09 => some { modOk := m0, d := [.predW], sa := [.pred], immOk := f.imm == 0 }
  | 0x0A => some { modOk := m0, d := [.predW], sb := [.uni], immSb := true, immOk := f.immOnly }
  | 0x0B => some { modOk := m0, immOk := selOk && sel ≤ 0x1A,
                   d := if sel = 0x00 ∨ sel = 0x1A then [.vec 1]
                   else if sel = 0x10 ∨ sel = 0x12 then vg 2 else vg 1, use := .both }
  | 0x0C => some { modOk := m0, sa := [.uni], immOk := selOk && 0x10 ≤ sel && sel ≤ 0x19 && sel != 0x12 }
  | 0x0D => some { modOk := m0, sa := [.vec 1],
                   immOk := selOk && 1 ≤ sel && sel ≤ 64 && f.sa.toNat + sel ≤ 192 }
  | 0x0E => some { modOk := m0, immOk := f.imm == 0, use := .both }
  | _ => none

/-- The selectors of `sread` that R86 allows in a cox stream. -/
def coxSelector (sel : Nat) : Bool :=
  (2 ≤ sel && sel ≤ 5) || (9 ≤ sel && sel ≤ 0x0C) || sel == 0x0F || sel == 0x12

/-- MOD bits of an integer form (R91): type accepted, `.sat` only where allowed and never on a b type, rounding zero. -/
def intMod (f : Fields) (tOk sat : Bool) (rnd : Nat := 0) : Bool :=
  tOk && (!f.bit7 || (sat && !f.ity.raw)) && f.mid == rnd

/-- Forms of OPC 0x10 (R92). -/
def specArith (fn : Nat) (f : Fields) : Option FormSpec :=
  let t := f.ity
  let n := t.regs
  let two (tOk sat : Bool) : FormSpec :=
    { modOk := intMod f tOk sat, d := vg n, sa := vg n, sb := vg n, immSb := true, immOk := f.immTyped t, use := .both }
  match fn with
  | 0x00 | 0x01 => some (two t.scalar true)
  | 0x02 | 0x03 => some { modOk := intMod f (t == .z32 || t == .z64) false, d := [.vec n], sa := [.vec n], sb := vg n,
                          sc := [.predW], immSb := true, immOk := f.immTyped t, use := .both }
  | 0x04 | 0x05 => some (two t.sz false)
  | 0x06 | 0x07 => some { modOk := intMod f (t.sz && t.signed) true, d := vg n, sa := vg n, immOk := f.imm == 0,
                          use := .both }
  | _ => none

/-- Forms of OPC 0x11 (R92). -/
def specMul (fn : Nat) (f : Fields) : Option FormSpec :=
  let t := f.ity
  let n := t.regs
  let two (tOk sat : Bool) : FormSpec :=
    { modOk := intMod f tOk sat, d := vg n, sa := vg n, sb := vg n, immSb := true, immOk := f.immTyped t, use := .both }
  match fn with
  | 0x00 => some (two t.scalar true)
  | 0x01 => some (two t.sz false)
  | 0x02 => some { two (t.sz && t.width != 64) false with d := vg t.regs2 }
  | 0x03 => some { two t.scalar true with sc := vg n }
  | 0x04 => some { two (t.sz && (t.width == 16 || t.width == 32)) false with d := vg t.regs2, sc := vg t.regs2 }
  | 0x05 | 0x06 => some (two (t.sz && t.w3264) false)
  | _ => none

/-- Forms of OPC 0x12 (R96). -/
def specLogic (fn : Nat) (f : Fields) : Option FormSpec :=
  let t := f.ity
  let n := t.regs
  let base : FormSpec := { modOk := intMod f t.b3264 false, d := vg n, sa := vg n, use := .both }
  let count : Bool := f.immOnlyBelow 8
  match fn with
  | 0x00 | 0x01 | 0x02 => some { base with sb := vg n, immSb := true, immOk := f.immTyped t }
  | 0x03 => some { base with immOk := f.imm == 0 }
  | 0x04 => some { base with sb := vg n, sc := vg n, immOk := f.immBelow 8 }
  | 0x05 | 0x06 => some { base with sb := vg 1, immSb := true, immOk := count }
  | 0x07 => some { base with modOk := intMod f (t == .s32 || t == .s64) false, sb := vg 1, immSb := true, immOk := count }
  | 0x08 | 0x09 => some { base with sb := vg n, sc := vg 1, immOk := f.imm == 0 }
  | 0x0A => some { base with modOk := intMod f (t == .s32 || t == .s64) false 1, sb := vg 1, immSb := true, immOk := count }
  | _ => none

/-- Forms of OPC 0x13 (R96). -/
def specBits (fn : Nat) (f : Fields) : Option FormSpec :=
  let t := f.ity
  let n := t.regs
  match fn with
  | 0x00 | 0x01 | 0x02 => some { modOk := intMod f t.b3264 false, d := vg 1, sa := vg n, immOk := f.imm == 0, use := .both }
  | 0x03 => some { modOk := intMod f t.b3264 false, d := vg n, sa := vg n, immOk := f.imm == 0, use := .both }
  | 0x04 => some { modOk := intMod f (t.sz && t.w3264) false, d := vg n, sa := vg n, sb := vg 1, immSb := true,
                   immOk := f.immOnlyBelow 16, use := .both }
  | 0x05 => some { modOk := intMod f t.b3264 false, d := vg n, sa := vg n, sb := vg 1, sc := vg n, immSb := true,
                   immOk := f.immOnlyBelow 16, use := .both }
  | _ => none

/-- Forms of OPC 0x14 (R101). -/
def specCmp (fn : Nat) (f : Fields) : Option FormSpec :=
  let t := f.ity
  let n := t.regs
  match fn with
  | 0x00 | 0x01 => some { modOk := intMod f t.scalar false, d := [.predW], sa := vg n, sb := vg n, immSb := true,
                          immOk := f.immTyped t, use := .both }
  | 0x02 | 0x03 | 0x04 | 0x05 => some { modOk := intMod f t.sz false, d := [.predW], sa := vg n, sb := vg n,
                                        immSb := true, immOk := f.immTyped t, use := .both }
  | 0x06 => some { modOk := intMod f t.b3264 false, d := vg n, sa := vg n, sb := vg n, sc := [.pred], immSb := true,
                   immOk := f.immTyped t, use := .both }
  | _ => none

/-- Forms of OPC 0x15 (R101, R103). -/
def specLea (fn : Nat) (f : Fields) : Option FormSpec :=
  match fn with
  | 0x00 => some { modOk := intMod f (f.ity == .b32) false, d := vg 1, sa := vg 1, sb := vg 1, immOk := f.immBelow 5,
                   use := .both }
  | 0x01 => some { modOk := intMod f (f.ity == .s32 || f.ity == .z32) false, d := vg 2, sa := vg 2, sb := vg 1,
                   immOk := f.immBelow 6, use := .both }
  | _ => none

/-- Forms of OPC 0x16 (R104). -/
def specPacked (fn : Nat) (f : Fields) : Option FormSpec :=
  let t := f.ity
  let narrow : Bool := t.sz && (t.width == 8 || t.width == 16)
  match fn with
  | 0x00 | 0x01 | 0x02 => some { modOk := intMod f t.packed true, d := vg 1, sa := vg 1, sb := vg 1, immSb := true,
                                 immOk := f.immOnly }
  | 0x03 | 0x04 => some { modOk := intMod f t.packed false, d := vg 1, sa := vg 1, sb := vg 1, immSb := true,
                          immOk := f.immOnly }
  | 0x05 => some { modOk := intMod f (t == .s16) false, d := vg 1, sa := vg 1, sb := vg 1, sc := vg 1, immSb := true,
                   immOk := f.immOnly }
  | 0x06 => some { modOk := intMod f (t == .s8 || t == .z8) false, d := vg 1, sa := vg 1, sb := vg 1, sc := vg 1,
                   immSb := true, immOk := f.immOnly }
  | 0x07 => some { modOk := intMod f narrow false, d := vg 1, sa := vg 1, sb := vg 1, immOk := f.imm == 0 }
  | 0x08 => some { modOk := intMod f narrow false, d := vg 1, sa := vg 1,
                   immOk := f.immBelow (if t.width == 16 then 1 else 2) }
  | _ => none

/-- The operator and type of an integer `red` or `scan` (R109). -/
def redTypeOk (op : Nat) (t : ITy) : Bool :=
  t.w3264 && (if op = 0 then true else if op ≤ 2 then !t.raw else op ≤ 5 && t.raw)

/-- Forms of OPC 0x40 (R109). -/
def specLanes (fn : Nat) (f : Fields) : Option FormSpec :=
  let t := f.ity
  let n := t.regs
  let plain : Bool := f.mid == 0 && !f.bit7
  let lane : FormSpec := { modOk := plain && t.b3264, d := [.vec n], sa := [.vec n], sb := [.uni], immSb := true,
                           immOk := f.immOnlyBelow 5 }
  match fn with
  | 0x00 | 0x01 => some { modOk := plain && t.b3264, d := [.vec n], sa := [.vec n], sb := [.uni],
                          immOk := f.immBelow 5 && f.imm != 0 }
  | 0x02 | 0x03 => some { modOk := plain && t == .b16, d := [.vec 1], sa := [.vec 1], sb := [.uni],
                          immOk := f.imm != 0 && f.imm.toNat ≤ 4 }
  | 0x04 => some { modOk := plain && t.b3264, d := [.vec n], sa := [.vec n], sb := [.vec n], immOk := f.imm == 0 }
  | 0x05 | 0x06 => some lane
  | 0x07 => some { modOk := !f.bit7 && redTypeOk f.mid t, d := vg n, sa := [.vec n], immOk := f.imm == 0, uniOk := true }
  | 0x08 => some { modOk := !f.bit7 && f.mid ≤ 2 && f.fty == .f32, d := vg 1, sa := [.vec 1], immOk := f.imm == 0,
                   uniOk := true }
  | 0x09 => some { modOk := redTypeOk f.mid t, d := [.vec n], sa := [.vec n], immOk := f.imm == 0 }
  | 0x0A => some { modOk := f.mid ≤ 2 && f.fty == .f32, d := [.vec 1], sa := [.vec 1], immOk := f.imm == 0 }
  | 0x0B | 0x0C => some { modOk := f.md == 0, d := [.predW], sa := [.pred], immOk := f.imm == 0 }
  | 0x0D => some { modOk := f.md == 0, d := [.uni], sa := [.pred], immOk := f.imm == 0, uniOk := true }
  | 0x0E => some { modOk := plain && t.b3264, d := [.vec 1], sa := [.vec n], immOk := f.imm == 0 }
  | 0x0F => some { lane with d := [.uni], uniOk := true }
  | _ => none

/-- MOD bits of a float form (R123): MOD[7] zero, a rounding code that exists, `.rn` only where the row says so. -/
def floatMod (f : Fields) (tOk allModes : Bool) : Bool :=
  tOk && !f.bit7 && f.mid ≤ 4 && (allModes || f.mid == 0)

/-- Forms of OPC 0x50 to 0x55 (R123). -/
def specFloat (opc fn : Nat) (f : Fields) : Option FormSpec :=
  let t := f.fty
  let s3 : Bool := t == .f32 || t == .f16 || t == .bf16
  let s5 : Bool := s3 || t == .f16x2 || t == .bf16x2
  match opc, fn with
  | 0x50, 0x00 | 0x50, 0x01 | 0x50, 0x02 =>
      some { modOk := floatMod f s5 (t == .f32), d := vg 1, sa := vg 1, sb := vg 1, immSb := true, immOk := f.immFloat t }
  | 0x50, 0x03 => some { modOk := floatMod f s5 (t == .f32), d := vg 1, sa := vg 1, sb := vg 1, sc := vg 1,
                         immSb := true, immOk := f.immFloat t }
  | 0x50, 0x04 | 0x50, 0x05 =>
      some { modOk := floatMod f s5 false, d := vg 1, sa := vg 1, sb := vg 1, immSb := true, immOk := f.immFloat t }
  | 0x50, 0x06 => some { modOk := floatMod f (t == .f32 && (f.srcFty == .f16x2 || f.srcFty == .bf16x2)) true,
                         d := vg 1, sa := vg 1, sb := vg 1, sc := vg 1, immOk := f.immBelow 4 }
  | 0x51, 0x00 | 0x51, 0x01 | 0x51, 0x02 | 0x51, 0x03 | 0x51, 0x04 | 0x51, 0x05 | 0x51, 0x06 =>
      some { modOk := floatMod f s3 false, d := [.predW], sa := vg 1, sb := vg 1, immSb := true, immOk := f.immFloat t }
  | 0x51, 0x07 => some { modOk := floatMod f s3 false, d := [.predW], sa := vg 1, immOk := f.immBelow 10 }
  | 0x52, 0x00 => some { modOk := floatMod f s3 (t == .f32), d := vg 1, sa := vg 1, sb := vg 1, immSb := true,
                         immOk := f.immOnly }
  | 0x52, 0x01 | 0x52, 0x02 => some { modOk := floatMod f s3 false, d := vg 1, sa := vg 1, immOk := f.imm == 0 }
  | 0x53, 0x00 | 0x53, 0x01 | 0x53, 0x02 | 0x53, 0x03 | 0x53, 0x04 | 0x53, 0x05 | 0x53, 0x06 =>
      some { modOk := floatMod f (t == .f32) true, d := vg 1, sa := vg 1, immOk := f.imm == 0 }
  | 0x54, 0x00 =>
      let s := f.srcFty
      let legal : Bool := (t.scalarFloat && s.scalarFloat && t != s) || (t.scalarFloat && s.isInt) ||
        (t.isInt && s.scalarFloat)
      some { modOk := floatMod f legal (t == .f32 || t.isInt), d := vg t.regs, sa := vg s.regs, immOk := f.immBelow 4 }
  | 0x55, 0x00 =>
      let f8 : Bool := t == .f8x4
      some { modOk := floatMod f (t == .f16x2 || t == .bf16x2 || f8) false, d := vg 1, sa := vg 1, sb := vg 1,
             sc := if f8 then vg 1 else [], immOk := if f8 then f.immBelow 1 else f.imm == 0 }
  | 0x55, 0x01 =>
      let s := f.srcFty
      some { modOk := floatMod f (t == .f32 && (s == .f16x2 || s == .bf16x2 || s == .f8x4)) false, d := vg 1, sa := vg 1,
             immOk := f.immBelow 6 && (s == .f8x4 || f.immBits 4 2 ≤ 1) }
  | 0x55, 0x02 => some { modOk := floatMod f (t == .tern) false, d := vg 1, sa := vg 1, sc := vg 1, immOk := f.immBelow 2 }
  | 0x55, 0x03 => some { modOk := floatMod f (t == .s8) false, d := vg 1, sa := vg 1, immOk := f.immBelow 2 }
  | _, _ => none

/-- Forms of OPC 0x70 (R140, R141). In a sense position SB is 0 or 1. -/
def specControl (fn : Nat) (f : Fields) : Option FormSpec :=
  let base : FormSpec := { modOk := f.md == 0, deadOk := false, use := .both }
  let fixed : FormSpec := { base with guardFixed := true }
  let sense : Bool := f.sb.toNat ≤ 1
  match fn with
  | 0x00 => some { fixed with sa := [.pred], sb := [.code 256], late4 := sense }
  | 0x01 => some base
  | 0x02 => some { fixed with sa := [.pred], sb := [.code 256], late4 := sense, immOk := f.immBelow 3 && f.imm != 0,
                              use := .groupOnly }
  | 0x03 | 0x05 => some { fixed with sa := vg 2, immOk := f.imm == 0 }
  | 0x04 => some fixed
  | 0x06 => some { fixed with immOk := f.imm == 0 }
  | 0x07 => some { base with d := [.uni] }
  | 0x08 => some { base with immOk := f.imm == 0 }
  | 0x09 => some { fixed with d := [.predW], sa := [.pred], immOk := f.imm == 0, use := .groupOnly }
  | _ => none

/-- Forms of OPC 0x80 (R174). MOD[3] on a form that loads nothing narrow (`pref`, `rvalid`, `rinval`, `rwr`, `rrd`) has no effect and
raises nothing (DESIGN CHOICE, assumption 49: R34 and R174 do not say). -/
def specMem (fn : Nat) (f : Fields) : Option FormSpec :=
  let n := f.memRegs
  let mem (policyOk store : Bool) (maxW : Nat) : Bool :=
    f.md.extractLsb' 6 2 == 0 && f.wcode ≤ maxW && f.policy != 3 && (policyOk || f.policy == 0) &&
    !(f.sext && (store || 3 ≤ f.wcode))
  let data : List Opd := if f.wcode = 4 then [.vec 4] else vg n
  let flat : List Opd := [.vec 2, .uni]
  match fn with
  | 0x00 => some { modOk := mem true false 4, d := [.vec n], sa := [.uni], sb := [.vec 1], immOk := f.imm == 0 }
  | 0x01 => some { modOk := mem true true 4, sa := [.uni], sb := [.vec 1], sc := data, immOk := f.imm == 0 }
  | 0x02 => some { modOk := mem true false 4, d := [.vec n], sa := flat, immSb := true, immOk := f.immOnly }
  | 0x03 => some { modOk := mem true true 4, sa := flat, sc := data, immSb := true, immOk := f.immOnly }
  | 0x04 | 0x06 => some { modOk := mem false false 4, d := [.vec n], sa := vg 1, immSb := true, immOk := f.immOnly }
  | 0x05 | 0x07 => some { modOk := mem false true 4, sa := vg 1, sc := data, immSb := true, immOk := f.immOnly }
  | 0x08 => some { modOk := mem true false 3, d := [.uni], sa := [.uni], immSb := true, immOk := f.immOnly }
  | 0x09 => some { modOk := mem true false 0, sa := flat, immSb := true, immOk := f.immOnly }
  | 0x0A => some { modOk := mem false false 0, d := [.predW], sa := [.uni], immOk := f.imm == 0 }
  | 0x0B => some { modOk := mem false false 0, sa := [.uni], immOk := f.imm == 0 }
  | 0x0C => some { modOk := mem false false 0, d := [.uni], sa := [.uni], sb := [.uni], immOk := f.imm == 0 }
  | 0x0D => some { modOk := mem false false 0, d := [.uni], sa := [.uni], sb := [.uni], immSb := true,
                   immOk := f.immOnlyBelow 3 }
  | _ => none

/-- The types that the operator of an atomic form takes (R198, R200). -/
def atomTypeOk (fn : Nat) (t : OTy) : Bool :=
  match fn with
  | 0x03 => t != .b32 && t != .b64
  | 0x04 | 0x05 => t != .b32 && t != .b64 && t != .bf16x2
  | _ => t == .b32 || t == .b64

/-- Forms of OPC 0x90 (R198). -/
def specOrder (fn : Nat) (f : Fields) : Option FormSpec :=
  let t := f.oty
  let n := t.regs
  let sc : Bool := (Scope.ofCode f.scopeCode).isSome
  let bt : Bool := t == .b32 || t == .b64
  let flat : List Opd := [.vec 2, .uni]
  match fn with
  | 0x00 => some { modOk := sc && f.md.extractLsb' 5 3 == 0 && f.order != 0, immOk := f.imm == 0, use := .both }
  | 0x01 => some { modOk := sc && bt && f.order == 1, d := vg n, sa := flat, immSb := true, immOk := f.immOnly }
  | 0x02 => some { modOk := sc && bt && f.order == 2, sa := flat, sc := vg n, immSb := true, immOk := f.immOnly }
  | 0x03 | 0x04 | 0x05 | 0x06 | 0x07 | 0x08 | 0x09 =>
      some { modOk := sc && atomTypeOk fn t, d := vg n, sa := flat, sb := vg n, immSb := true, immOk := f.immOnly }
  | 0x0A => some { modOk := sc && bt, d := vg n, sa := flat, sb := vg n, sc := vg n, immSb := true, immOk := f.immOnly }
  | _ => none

/-- Forms of OPC 0x91 (R201). -/
def specSync (fn : Nat) (f : Fields) : Option FormSpec :=
  let m0 : Bool := f.md == 0
  match fn with
  | 0x00 | 0x01 | 0x02 => some { modOk := m0, immOk := f.immBelow 8 }
  | 0x03 => some { modOk := m0, sb := [.uni], sc := [.code 8], immSb := true, immOk := f.immOnly }
  | 0x04 => some { modOk := m0, sc := [.code 8], immOk := f.imm == 0 }
  | 0x05 => some { modOk := m0, sb := [.uni], sc := [.code 6], immSb := true, immOk := f.immOnlyBelow 8 }
  | 0x06 =>
      let t := f.oty
      let ordered : Bool := f.sc.toNat = 2 || f.sc.toNat = 3
      some { modOk := (Scope.ofCode f.scopeCode).isSome && f.order ≤ 1 && t != .f32 && t != .bf16x2 &&
             !(ordered && (t == .b32 || t == .b64)),
             d := [.uni], sa := [.uni], sb := [.uni], sc := [.code 4], immSb := true, immOk := f.immOnly }
  | 0x07 => some { modOk := m0, sa := [.vec 1], sc := [.code 4], immOk := f.imm == 0 }
  | 0x08 => some { modOk := m0, d := [.vec 1], sa := [.uni], sc := [.code 4], immOk := f.imm == 0 }
  | 0x09 => some { modOk := m0, sc := [.code 4], immOk := f.imm == 0 }
  | 0x0A => some { modOk := m0, sb := [.uni], sc := [.code 9], immSb := true, immOk := f.immOnly }
  | 0x0B => some { modOk := m0, sa := [.uni], sb := [.uni], immSb := true, immOk := f.immOnly }
  | _ => none

/-- Forms of OPC 0xA0 (R213, R214): the fields of the control word that each form uses. -/
def specCopy (fn : Nat) (f : Fields) : Option FormSpec :=
  let sc : Bool := f.md.extractLsb' 3 5 == 0 && (Scope.ofCode f.scopeCode).isSome
  let dsp := f.immBits 0 2
  let ssp := f.immBits 2 2
  let credit := f.imm.getLsbD 7
  let use (mask : Nat) : Bool := f.imm.toNat &&& mask == f.imm.toNat
  let dOk : Bool := dsp != 3 && !(credit && dsp != 1)
  let g : List Opd := [.uni]
  match fn with
  | 0x00 => some { modOk := sc, sa := g, sb := g, sc := g, immOk := use 0xFF && dOk && ssp != 3 }
  | 0x01 => some { modOk := sc, d := g, sa := g, sb := g, sc := g, immOk := use 0xFF && dOk && ssp != 3 }
  | 0x02 => some { modOk := sc, sa := g, sb := g, sc := g, immOk := use 0x3FF && dOk && ssp != 3 }
  | 0x03 => some { modOk := sc, sa := g, sb := g, sc := g, immOk := use 0x30F && dOk && ssp != 3 }
  | 0x04 => some { modOk := sc && 1 ≤ f.scopeCode.toNat && f.scopeCode.toNat ≤ 3, sa := g, sb := g, sc := g,
                   immOk := use 0x3CFF && dOk && ssp != 3 && f.immBits 10 4 ≤ 6 }
  | 0x05 | 0x06 => some { modOk := sc, sa := g, sb := g, sc := g, immOk := use 1 }
  | 0x07 => some { modOk := sc, sa := g, sb := g, sc := g, immOk := use 0x0C && ssp != 3 }
  | 0x08 => some { modOk := sc, d := g, sa := g, sb := g, immOk := use 0xF3 && dOk }
  | _ => none

/-- Forms of OPC 0xA8 (R278). Of these only `join` may have a dead result (R28). -/
def specView (fn : Nat) (f : Fields) : Option FormSpec :=
  let b : FormSpec := { modOk := f.md == 0, deadOk := false }
  let g : List Opd := [.uni]
  match fn with
  | 0x00 => some { b with d := g, sa := g, sb := g, sc := g, immOk := f.immBelow 16 }
  | 0x01 => some { b with d := g, immOk := f.imm == 0, deadOk := true }
  | 0x02 => some { b with d := g, immOk := f.imm.toNat ≤ 8 }
  | 0x03 => some { b with sa := g, sb := g, immOk := f.imm.toNat ≤ 10 }
  | 0x04 => some { b with d := g, immOk := f.immBelow 2 }
  | 0x05 => some { b with immOk := f.imm == 0 }
  | _ => none

/-- Forms of OPC 0xB0 (R250, R251). -/
def specMatrix (fn : Nat) (f : Fields) : Option FormSpec :=
  let c : List Opd := [.uni]
  let m0 : Bool := f.md == 0
  let selfOk : Bool := !(f.imm.getLsbD 13 && f.immBits 8 5 != 0)
  match fn with
  | 0x00 | 0x01 | 0x02 | 0x03 =>
      let scl := f.imm.getLsbD 14
      some { modOk := f.md.extractLsb' 2 6 == 0, sa := c, sb := c, sc := if scl then c else [], deadOk := false,
             immOk := f.immBelow 19 && !(scl && fn == 0) && (scl || f.immBits 15 4 == 0) && selfOk, use := .coxOnly }
  | 0x04 => some { modOk := m0, immOk := f.immBelow 14 && selfOk, use := .coxOnly }
  | 0x05 => some { modOk := m0, sa := c, immOk := f.immBelow 9, use := .coxOnly }
  | 0x06 => some { modOk := m0, immOk := f.immBelow 8, use := .coxOnly }
  | 0x07 => some { modOk := m0, d := c, immOk := f.imm == 0, use := .coxOnly }
  | 0x08 => some { modOk := m0, d := c, sa := c, sb := c, immSb := true, immOk := f.immOnly, use := .coxOnly }
  | _ => none

/-- Forms of OPC 0xB1 (R236). -/
def specNest (fn : Nat) (f : Fields) : Option FormSpec :=
  let c : List Opd := [.uni]
  let m0 : Bool := f.md == 0
  match fn with
  | 0x00 => some { modOk := m0, sb := c, sc := [.code 4], immSb := true,
                   immOk := if f.useImm then f.imm != 0 else f.imm == 0, use := .coxOnly }
  | 0x01 => some { modOk := m0, sb := c, sc := [.code 32], immSb := true, immOk := f.immOnly, use := .coxOnly }
  | 0x02 => if f.imm.getLsbD 0 then
              some { modOk := m0, sc := [.code 8], immOk := f.immBelow 1, use := .coxOnly }
            else some { modOk := m0, d := c, sa := c, sc := [.code 8], immOk := f.imm == 0, use := .coxOnly }
  | 0x03 => some { modOk := m0, immOk := f.imm == 0, use := .coxOnly }
  | 0x04 => some { modOk := m0, d := [.predW], immOk := f.imm == 0, use := .coxOnly }
  | _ => none

/-- Forms of OPC 0xC0 (R296). -/
def specSampler (fn : Nat) (f : Fields) : Option FormSpec :=
  let g : List Opd := [.uni]
  let b : FormSpec := { modOk := f.md == 0, sa := g, deadOk := false }
  let low := f.imm.getLsbD 0
  match fn with
  | 0x00 | 0x06 => some { b with sb := g, immOk := f.imm == 0 }
  | 0x01 => some { b with sb := g, sc := if low then [] else g, immOk := f.immBelow 1 }
  | 0x02 => some { b with sb := g, immOk := f.immBelow 1 }
  | 0x03 => some { b with sb := g, immSb := true, immOk := f.immOnlyBelow 16 }
  | 0x04 => some { b with sb := if low then [] else g, immOk := f.immBelow 1 }
  | 0x05 => some { b with sb := g, immSb := true, immOk := f.immOnly }
  | 0x07 => some { b with sb := if f.immBits 0 2 = 1 then [] else g, immOk := f.immBelow 2 }
  | _ => none

/-- The types that an AOP of `ratom` takes (R319). -/
def ratomTypeOk (aop : Nat) (t : RTy) : Bool :=
  if aop ≤ 2 then t == .s32 || t == .s64 || t == .z32 || t == .z64 || t == .f32
  else aop ≤ 7 && (t == .b32 || t == .b64)

/-- Forms of OPC 0xC8 (R319). -/
def specRemote (fn : Nat) (f : Fields) : Option FormSpec :=
  let m0 : Bool := f.md.extractLsb' 3 5 == 0
  let scp := f.scopeCode.toNat
  let bg := f.imm.getLsbD 2
  let tOk (p : RTy → Bool) : Bool := (f.rty.map p).getD false
  let n := (f.rty.map RTy.regs).getD 1
  let plain (t : RTy) : Bool := t == .b8 || t == .b16 || t == .b32 || t == .b64 || t == .b128
  let use (mask : Nat) : Bool := f.imm.toNat &&& mask == f.imm.toNat
  let off : List Opd := [.vec 2, .uni]
  let g : List Opd := [.uni]
  match fn with
  | 0x00 => some { modOk := m0 && scp == 5 && tOk plain && !bg, d := [.vec n], sa := vg 1, sb := off, immOk := use 0xF0,
                   uniCause3 := true }
  | 0x01 => some { modOk := m0 && (scp == 4 || scp == 5) && tOk plain, sa := vg 1, sb := off,
                   sc := vg n, immOk := use 0xF4, deadOk := false }
  | 0x02 => some { modOk := m0 && scp == 5 && tOk (ratomTypeOk f.aop) && !bg, d := vg n, sa := vg 1, sb := off,
                   sc := if f.aop = 7 then [.vec (2 * n)] else vg n, immOk := use 0xFF0, uniCause3 := true }
  | 0x03 => some { modOk := m0 && scp == 5 && !bg, immOk := f.imm == 0 }
  | 0x04 => some { modOk := m0 && scp == 0 && !bg, d := g, sa := g, sb := g, immOk := f.imm == 0, deadOk := false,
                   priv := true, vecCause3 := true }
  | 0x05 => some { modOk := m0 && scp == 0 && !bg, d := g, sa := g, immOk := f.imm == 0, deadOk := false, priv := true,
                   vecCause3 := true }
  | _ => none

/-- Selectors that `sysrd` may name (R352, R378). -/
def sysReadable (sel : Nat) : Bool :=
  (0x0100 ≤ sel && sel ≤ 0x0106) || sel == 0x0108 || sel == 0x0109 || sel == 0x0110 || sel == 0x0111 ||
  (0x0200 ≤ sel && sel ≤ 0x0202) || sel == 0x0300

/-- Selectors that `syswr` may name (R352, R378). -/
def sysWritable (sel : Nat) : Bool :=
  (0x0100 ≤ sel && sel ≤ 0x0103) || sel == 0x0105 || (0x0107 ≤ sel && sel ≤ 0x0109) || sel == 0x0110 || sel == 0x0200

/-- Forms of OPC 0xD0 (R348, R352). -/
def specSystem (fn : Nat) (f : Fields) : Option FormSpec :=
  let g : List Opd := [.uni]
  let b : FormSpec := { modOk := f.md == 0, deadOk := false }
  let p : FormSpec := { b with priv := true }
  let k := f.immBits 0 2
  match fn with
  | 0x00 | 0x03 => some { b with immOk := f.immBelow 16, use := .both }
  | 0x01 => some { b with immOk := f.imm == 0 }
  | 0x02 => some { b with immOk := f.imm == 0, use := .both }
  | 0x04 => some { p with d := g, sb := g, immOk := f.immBelow 16 && sysReadable f.imm.toNat }
  | 0x05 => some { p with sa := g, sb := g, immOk := f.immBelow 16 && sysWritable f.imm.toNat }
  | 0x06 => some { p with sa := g, sb := if k = 0 then [] else g, sc := if k < 2 then [] else g,
                          immOk := f.imm.toNat ≤ 2 }
  | 0x07 => some { p with d := g, sa := g, sb := g, sc := g, immOk := f.imm == 0 }
  | 0x08 | 0x09 => some { p with d := g, sa := g, sb := g, immOk := f.imm == 0 }
  | 0x0A => some { p with sa := g, sb := if f.imm.getLsbD 0 then [] else g, immOk := f.immBelow 1 }
  | _ => none

/-- Forms of OPC 0xD4 (R373). -/
def specCrew (fn : Nat) (f : Fields) : Option FormSpec :=
  let g : List Opd := [.uni]
  let b : FormSpec := { modOk := f.md == 0, d := g, immOk := f.imm == 0, deadOk := false }
  match fn with
  | 0x00 => some { b with sa := g, sb := g, priv := true }
  | 0x01 => some { b with sa := g, priv := true }
  | 0x02 => some b
  | 0x03 => some { b with sa := g, sb := g, sc := g, priv := true }
  | _ => none

/-- The counters of R385. -/
def counterSel (sel : Nat) : Bool :=
  sel ≤ 0x06 || (0x10 ≤ sel && sel ≤ 0x19) || (0x20 ≤ sel && sel ≤ 0x22)

/-- Forms of OPC 0xD8 (R387, R390). -/
def specTrace (fn : Nat) (f : Fields) : Option FormSpec :=
  let g : List Opd := [.uni]
  let b : FormSpec := { modOk := f.md == 0, deadOk := false }
  let k := f.immBits 0 2
  match fn with
  | 0x00 => some { b with d := g, sa := g, sb := if k = 0 ∨ k = 2 then g else [], sc := if k = 0 then g else [],
                          immOk := f.immBelow 2, priv := true }
  | 0x01 => some { b with immOk := f.immBelow 16, use := .both }
  | 0x02 => some { b with d := g, immOk := f.immBelow 9 && counterSel (f.immBits 0 8), use := .both }
  | 0x03 => some { b with d := g, sa := g, sb := g, sc := if k = 3 then g else [], immOk := f.immBelow 2, priv := true }
  | _ => none

/-- Forms of OPC 0xE0 (R399). -/
def specLaunch (fn : Nat) (f : Fields) : Option FormSpec :=
  let g : List Opd := [.uni]
  let b : FormSpec := { modOk := f.md == 0, d := g, sb := g, deadOk := false }
  match fn with
  | 0x00 => some { b with sa := g, immOk := f.imm == 0 }
  | 0x01 => some { b with sa := g, sc := g, immOk := f.imm == 0 }
  | 0x02 => some { b with immOk := f.immBelow 2 }
  | _ => none

/-- The opcode map (R35): outer none for a reserved OPC, inner none for an FN that is not assigned. -/
def formSpec (opc fn : Nat) (f : Fields) : Option (Option FormSpec) :=
  match opc with
  | 0x00 => some (specReg fn f)
  | 0x10 => some (specArith fn f)
  | 0x11 => some (specMul fn f)
  | 0x12 => some (specLogic fn f)
  | 0x13 => some (specBits fn f)
  | 0x14 => some (specCmp fn f)
  | 0x15 => some (specLea fn f)
  | 0x16 => some (specPacked fn f)
  | 0x40 => some (specLanes fn f)
  | 0x50 | 0x51 | 0x52 | 0x53 | 0x54 | 0x55 => some (specFloat opc fn f)
  | 0x70 => some (specControl fn f)
  | 0x80 => some (specMem fn f)
  | 0x90 => some (specOrder fn f)
  | 0x91 => some (specSync fn f)
  | 0xA0 => some (specCopy fn f)
  | 0xA8 => some (specView fn f)
  | 0xB0 => some (specMatrix fn f)
  | 0xB1 => some (specNest fn f)
  | 0xC0 => some (specSampler fn f)
  | 0xC8 => some (specRemote fn f)
  | 0xD0 => some (specSystem fn f)
  | 0xD4 => some (specCrew fn f)
  | 0xD8 => some (specTrace fn f)
  | 0xE0 => some (specLaunch fn f)
  | _ => none

/-- R23 and R24: the code names a register of the kind in the stream. Small numbers are judged by `codeInRange`. -/
def Opd.admits (st : Stream) (code : Nat) : Opd → Bool
  | .vec n => match st with
    | .group => code < 0xC0 && code % n == 0
    | .cox => code < 0x40
  | .uni => match st with
    | .group => 0xC0 ≤ code
    | .cox => code < 0x40
  | .pred => code < 8
  | .predW => code < 7
  | .code _ => true

/-- The operand kinds of a position admit the code; a position without kinds is zero (cause 3, not 4). -/
def slotKindOk (st : Stream) (k : List Opd) (code : BitVec 8) : Bool :=
  k.isEmpty || k.any (Opd.admits st code.toNat)

/-- Cause 3 of one position: an unused field is zero, and a small number is in range (R201, R236). -/
def slotUseOk (k : List Opd) (code : BitVec 8) : Bool :=
  match k with
  | [] => code == 0
  | [.code m] => code.toNat < m
  | _ => true

/-- The position names a vector register: a last-read bit is allowed there (R27), and R25 counts it as a vector source. -/
def slotIsVec (k : List Opd) (code : BitVec 8) : Bool :=
  code.toNat < 0xC0 && k.any fun o => match o with
    | .vec _ => true
    | _ => false

/-- Cause 2 (R39): MOD bits, a rejected type or rounding code, MOD[8] on a form without an immediate. In a cox stream an
integer form takes only types of 32 or 64 bits (R38). -/
def cause2 (st : Stream) (opc : Nat) (p : FormSpec) (f : Fields) : Bool :=
  !p.modOk || (f.useImm && !p.immSb) ||
  (st == .cox && 0x10 ≤ opc && opc ≤ 0x15 && !f.ity.w3264)

/-- Cause 3 (R39): nonzero unused fields, unused IMM, forbidden LR bits, S or LR in a cox stream. LR[3] is accepted where the only
destination is a predicate (DESIGN CHOICE, assumption 49: R28 and R39 do not say whether it counts as a register). -/
def cause3 (st : Stream) (opc fn : Nat) (p : FormSpec) (f : Fields) : Bool :=
  let dead := f.lr.getLsbD 3
  let lrBad (bit : Nat) (k : List Opd) (code : BitVec 8) (off : Bool) : Bool :=
    f.lr.getLsbD bit && (off || !slotIsVec k code)
  !p.immOk ||
  (if dead then f.d != 0 else !slotUseOk p.d f.d) ||
  !slotUseOk p.sa f.sa || (if f.useImm then f.sb != 0 else !slotUseOk p.sb f.sb) || !slotUseOk p.sc f.sc ||
  (dead && (p.d.isEmpty || !p.deadOk)) ||
  lrBad 0 p.sa f.sa false || lrBad 1 p.sb f.sb f.useImm || lrBad 2 p.sc f.sc false ||
  (st == .cox && (f.sw || f.lr != 0)) ||
  (st == .cox && opc == 0x00 && (fn == 0x0B || fn == 0x0C) && !coxSelector (f.immBits 0 8)) ||
  (st == .cox && opc == 0xD8 && fn == 0x02 && f.immBits 0 8 != 0x20 && f.immBits 0 8 != 0x22) ||
  (st == .group && p.uniCause3 && !dead && 0xC0 ≤ f.d.toNat && (slotIsVec p.sa f.sa || slotIsVec p.sb f.sb ||
    slotIsVec p.sc f.sc)) ||
  (st == .group && p.vecCause3 && 0xC0 ≤ f.d.toNat && (f.sa.toNat < 0xC0 || (!p.sb.isEmpty && f.sb.toNat < 0xC0)))

/-- A uniform destination with a vector source (R25). -/
def uniformDestOfVector (p : FormSpec) (f : Fields) : Bool :=
  !p.uniOk && !f.lr.getLsbD 3 && p.d.contains .uni && 0xC0 ≤ f.d.toNat &&
  (slotIsVec p.sa f.sa || (!f.useImm && slotIsVec p.sb f.sb) || slotIsVec p.sc f.sc)

/-- Cause 4 (R39): operand codes, pairs and quads, p7 as a destination, predicate fields, a uniform destination with a
vector source, a guard where R141 allows none. The operands of a cox-only form are c registers in either stream (assumption 24). -/
def cause4 (str : Stream) (p : FormSpec) (f : Fields) : Bool :=
  let st : Stream := if p.use = .coxOnly then .cox else str
  !p.late4 || (p.guardFixed && (f.neg || f.pg != 7)) ||
  (!f.lr.getLsbD 3 && !slotKindOk st p.d f.d) || !slotKindOk st p.sa f.sa ||
  (!f.useImm && !slotKindOk st p.sb f.sb) || !slotKindOk st p.sc f.sc ||
  (st == .group && uniformDestOfVector p f)

/-- Cause 5 (R39): a cox-only form in a group stream, a group-only form in a cox stream. -/
def cause5 (st : Stream) (p : FormSpec) : Bool :=
  match st, p.use with
  | .group, .coxOnly => true
  | .cox, .groupOnly => true
  | _, _ => false

/-- The lowest cause, of 0 to 5, for which a word with these fields is not an instruction of the stream (R39, R40); none
for an instruction. Causes 6 and 7 depend on the context and on the line. -/
def illegalCause (st : Stream) (opc fn : Nat) (f : Fields) : Option (BitVec 4) :=
  match formSpec opc fn f with
  | none => some 0
  | some none => some 1
  | some (some p) =>
    if cause2 st opc p f then some 2
    else if cause3 st opc fn p f then some 3
    else if cause4 st p f then some 4
    else if cause5 st p then some 5
    else none

/-- The form is privileged (R35, R37). -/
def privileged (opc fn : Nat) (f : Fields) : Bool :=
  match formSpec opc fn f with
  | some (some p) => p.priv
  | _ => false

/-- The OPC, FN and fields of a stream instruction (R35); none for an event, which has no word. The six rows of `rig`
share one encoding: the command stands in gA (R326). -/
def Instr.word : Instr → Option (Nat × Nat × Fields)
  | .mov f => some (0x00, 0x00, f)
  | .bcast f => some (0x00, 0x01, f)
  | .movu f => some (0x00, 0x02, f)
  | .emrd f => some (0x00, 0x03, f)
  | .emwr f => some (0x00, 0x04, f)
  | .pand f => some (0x00, 0x05, f)
  | .por f => some (0x00, 0x06, f)
  | .pxor f => some (0x00, 0x07, f)
  | .pandn f => some (0x00, 0x08, f)
  | .ptog f => some (0x00, 0x09, f)
  | .gtop f => some (0x00, 0x0A, f)
  | .sread f => some (0x00, 0x0B, f)
  | .swrite f => some (0x00, 0x0C, f)
  | .vfree f => some (0x00, 0x0D, f)
  | .nop f => some (0x00, 0x0E, f)
  | .add f => some (0x10, 0x00, f)
  | .sub f => some (0x10, 0x01, f)
  | .addc f => some (0x10, 0x02, f)
  | .subb f => some (0x10, 0x03, f)
  | .min f => some (0x10, 0x04, f)
  | .max f => some (0x10, 0x05, f)
  | .abs f => some (0x10, 0x06, f)
  | .neg f => some (0x10, 0x07, f)
  | .mul f => some (0x11, 0x00, f)
  | .mulhi f => some (0x11, 0x01, f)
  | .mulw f => some (0x11, 0x02, f)
  | .mad f => some (0x11, 0x03, f)
  | .madw f => some (0x11, 0x04, f)
  | .div f => some (0x11, 0x05, f)
  | .rem f => some (0x11, 0x06, f)
  | .and f => some (0x12, 0x00, f)
  | .or f => some (0x12, 0x01, f)
  | .xor f => some (0x12, 0x02, f)
  | .not f => some (0x12, 0x03, f)
  | .lop3 f => some (0x12, 0x04, f)
  | .shl f => some (0x12, 0x05, f)
  | .shr f => some (0x12, 0x06, f)
  | .sar f => some (0x12, 0x07, f)
  | .fshl f => some (0x12, 0x08, f)
  | .fshr f => some (0x12, 0x09, f)
  | .rsh f => some (0x12, 0x0A, f)
  | .popc f => some (0x13, 0x00, f)
  | .clz f => some (0x13, 0x01, f)
  | .ctz f => some (0x13, 0x02, f)
  | .brev f => some (0x13, 0x03, f)
  | .bfx f => some (0x13, 0x04, f)
  | .bfi f => some (0x13, 0x05, f)
  | .cmpEq f => some (0x14, 0x00, f)
  | .cmpNe f => some (0x14, 0x01, f)
  | .cmpLt f => some (0x14, 0x02, f)
  | .cmpLe f => some (0x14, 0x03, f)
  | .cmpGt f => some (0x14, 0x04, f)
  | .cmpGe f => some (0x14, 0x05, f)
  | .sel f => some (0x14, 0x06, f)
  | .lea f => some (0x15, 0x00, f)
  | .lea64 f => some (0x15, 0x01, f)
  | .padd f => some (0x16, 0x00, f)
  | .psub f => some (0x16, 0x01, f)
  | .pmul f => some (0x16, 0x02, f)
  | .pmin f => some (0x16, 0x03, f)
  | .pmax f => some (0x16, 0x04, f)
  | .mac2 f => some (0x16, 0x05, f)
  | .dot4 f => some (0x16, 0x06, f)
  | .packs f => some (0x16, 0x07, f)
  | .unpk f => some (0x16, 0x08, f)
  | .slideUp f => some (0x40, 0x00, f)
  | .slideDn f => some (0x40, 0x01, f)
  | .hslideUp f => some (0x40, 0x02, f)
  | .hslideDn f => some (0x40, 0x03, f)
  | .shfl f => some (0x40, 0x04, f)
  | .xshfl f => some (0x40, 0x05, f)
  | .lbc f => some (0x40, 0x06, f)
  | .red f => some (0x40, 0x07, f)
  | .redf f => some (0x40, 0x08, f)
  | .scan f => some (0x40, 0x09, f)
  | .scanf f => some (0x40, 0x0A, f)
  | .voteAny f => some (0x40, 0x0B, f)
  | .voteAll f => some (0x40, 0x0C, f)
  | .ballot f => some (0x40, 0x0D, f)
  | .matchLanes f => some (0x40, 0x0E, f)
  | .rdlane f => some (0x40, 0x0F, f)
  | .fAdd f => some (0x50, 0x00, f)
  | .fSub f => some (0x50, 0x01, f)
  | .fMul f => some (0x50, 0x02, f)
  | .fma f => some (0x50, 0x03, f)
  | .fMin f => some (0x50, 0x04, f)
  | .fMax f => some (0x50, 0x05, f)
  | .fdot2 f => some (0x50, 0x06, f)
  | .fCmpEq f => some (0x51, 0x00, f)
  | .fCmpNe f => some (0x51, 0x01, f)
  | .fCmpLt f => some (0x51, 0x02, f)
  | .fCmpLe f => some (0x51, 0x03, f)
  | .fCmpGt f => some (0x51, 0x04, f)
  | .fCmpGe f => some (0x51, 0x05, f)
  | .fCmpUn f => some (0x51, 0x06, f)
  | .fclass f => some (0x51, 0x07, f)
  | .scale f => some (0x52, 0x00, f)
  | .getexp f => some (0x52, 0x01, f)
  | .getman f => some (0x52, 0x02, f)
  | .rcp f => some (0x53, 0x00, f)
  | .rsq f => some (0x53, 0x01, f)
  | .sqrt f => some (0x53, 0x02, f)
  | .exp2 f => some (0x53, 0x03, f)
  | .log2 f => some (0x53, 0x04, f)
  | .sinpi f => some (0x53, 0x05, f)
  | .cospi f => some (0x53, 0x06, f)
  | .cvt f => some (0x54, 0x00, f)
  | .fpack f => some (0x55, 0x00, f)
  | .funpk f => some (0x55, 0x01, f)
  | .ternpk f => some (0x55, 0x02, f)
  | .ternunpk f => some (0x55, 0x03, f)
  | .bra f => some (0x70, 0x00, f)
  | .brau f => some (0x70, 0x01, f)
  | .skip f => some (0x70, 0x02, f)
  | .jmpi f => some (0x70, 0x03, f)
  | .call f => some (0x70, 0x04, f)
  | .calli f => some (0x70, 0x05, f)
  | .ret f => some (0x70, 0x06, f)
  | .dbnz f => some (0x70, 0x07, f)
  | .exit f => some (0x70, 0x08, f)
  | .refill f => some (0x70, 0x09, f)
  | .ldt f => some (0x80, 0x00, f)
  | .stt f => some (0x80, 0x01, f)
  | .ld f => some (0x80, 0x02, f)
  | .st f => some (0x80, 0x03, f)
  | .lds f => some (0x80, 0x04, f)
  | .sts f => some (0x80, 0x05, f)
  | .ldv f => some (0x80, 0x06, f)
  | .stv f => some (0x80, 0x07, f)
  | .ldg f => some (0x80, 0x08, f)
  | .pref f => some (0x80, 0x09, f)
  | .rvalid f => some (0x80, 0x0A, f)
  | .rinval f => some (0x80, 0x0B, f)
  | .rwr f => some (0x80, 0x0C, f)
  | .rrd f => some (0x80, 0x0D, f)
  | .fence f => some (0x90, 0x00, f)
  | .ldacq f => some (0x90, 0x01, f)
  | .strel f => some (0x90, 0x02, f)
  | .atomAdd f => some (0x90, 0x03, f)
  | .atomMin f => some (0x90, 0x04, f)
  | .atomMax f => some (0x90, 0x05, f)
  | .atomAnd f => some (0x90, 0x06, f)
  | .atomOr f => some (0x90, 0x07, f)
  | .atomXor f => some (0x90, 0x08, f)
  | .atomExch f => some (0x90, 0x09, f)
  | .cas f => some (0x90, 0x0A, f)
  | .barArrive f => some (0x91, 0x00, f)
  | .barWait f => some (0x91, 0x01, f)
  | .barSync f => some (0x91, 0x02, f)
  | .sbarInit f => some (0x91, 0x03, f)
  | .sbarWait f => some (0x91, 0x04, f)
  | .wcnt f => some (0x91, 0x05, f)
  | .waitval f => some (0x91, 0x06, f)
  | .chsend f => some (0x91, 0x07, f)
  | .chrecv f => some (0x91, 0x08, f)
  | .chclose f => some (0x91, 0x09, f)
  | .bwait f => some (0x91, 0x0A, f)
  | .cxsig f => some (0x91, 0x0B, f)
  | .cpy f => some (0xA0, 0x00, f)
  | .cpyy f => some (0xA0, 0x01, f)
  | .gath f => some (0xA0, 0x02, f)
  | .scat f => some (0xA0, 0x03, f)
  | .coll f => some (0xA0, 0x04, f)
  | .wbr f => some (0xA0, 0x05, f)
  | .invr f => some (0xA0, 0x06, f)
  | .post f => some (0xA0, 0x07, f)
  | .take f => some (0xA0, 0x08, f)
  | .fork f => some (0xA8, 0x00, f)
  | .join f => some (0xA8, 0x01, f)
  | .vid f => some (0xA8, 0x02, f)
  | .rpage f => some (0xA8, 0x03, f)
  | .twres f => some (0xA8, 0x04, f)
  | .vabort f => some (0xA8, 0x05, f)
  | .mmaBf16 f => some (0xB0, 0x00, f)
  | .mmaF8 f => some (0xB0, 0x01, f)
  | .mmaS8 f => some (0xB0, 0x02, f)
  | .mmaTern f => some (0xB0, 0x03, f)
  | .azero f => some (0xB0, 0x04, f)
  | .afin f => some (0xB0, 0x05, f)
  | .arel f => some (0xB0, 0x06, f)
  | .mbatch f => some (0xB0, 0x07, f)
  | .cxwait f => some (0xB0, 0x08, f)
  | .lnbnd f => some (0xB1, 0x00, f)
  | .lncoef f => some (0xB1, 0x01, f)
  | .lnbase f => some (0xB1, 0x02, f)
  | .lnbaseOff f => some (0xB1, 0x02, f)
  | .lnstart f => some (0xB1, 0x03, f)
  | .lnnext f => some (0xB1, 0x04, f)
  | .smload f => some (0xC0, 0x00, f)
  | .smclampOn f => some (0xC0, 0x01, f)
  | .smclampOff f => some (0xC0, 0x01, f)
  | .smseed f => some (0xC0, 0x02, f)
  | .smbeta f => some (0xC0, 0x03, f)
  | .smtable f => some (0xC0, 0x04, f)
  | .smtableDef f => some (0xC0, 0x04, f)
  | .smsweep f => some (0xC0, 0x05, f)
  | .smread f => some (0xC0, 0x06, f)
  | .smstatRd f => some (0xC0, 0x07, f)
  | .smstatClr f => some (0xC0, 0x07, f)
  | .smstatRdclr f => some (0xC0, 0x07, f)
  | .smstatInfo f => some (0xC0, 0x07, f)
  | .rld f => some (0xC8, 0x00, f)
  | .rst f => some (0xC8, 0x01, f)
  | .ratom f => some (0xC8, 0x02, f)
  | .rfence f => some (0xC8, 0x03, f)
  | .rigRerig f => some (0xC8, 0x04, f)
  | .rigst f => some (0xC8, 0x05, f)
  | .trap f => some (0xD0, 0x00, f)
  | .tret f => some (0xD0, 0x01, f)
  | .tfence f => some (0xD0, 0x02, f)
  | .brk f => some (0xD0, 0x03, f)
  | .sysrd f => some (0xD0, 0x04, f)
  | .syswr f => some (0xD0, 0x05, f)
  | .replay f => some (0xD0, 0x05, f)
  | .fqtail f => some (0xD0, 0x05, f)
  | .ecccnt f => some (0xD0, 0x05, f)
  | .tlbinvAll f => some (0xD0, 0x06, f)
  | .tlbinvPg f => some (0xD0, 0x06, f)
  | .tlbinvRng f => some (0xD0, 0x06, f)
  | .ctxsave f => some (0xD0, 0x07, f)
  | .ctxld f => some (0xD0, 0x08, f)
  | .vacate f => some (0xD0, 0x09, f)
  | .haltTeam f => some (0xD0, 0x0A, f)
  | .haltGrid f => some (0xD0, 0x0A, f)
  | .heatw f => some (0xD4, 0x00, f)
  | .heatsw f => some (0xD4, 0x01, f)
  | .donate f => some (0xD4, 0x02, f)
  | .scrub f => some (0xD4, 0x03, f)
  | .trctlSet f => some (0xD8, 0x00, f)
  | .trctlHead f => some (0xD8, 0x00, f)
  | .trctlTail f => some (0xD8, 0x00, f)
  | .trctlLost f => some (0xD8, 0x00, f)
  | .trmark f => some (0xD8, 0x01, f)
  | .pcnt f => some (0xD8, 0x02, f)
  | .stepStop f => some (0xD8, 0x03, f)
  | .stepGo f => some (0xD8, 0x03, f)
  | .stepRun f => some (0xD8, 0x03, f)
  | .stepPath f => some (0xD8, 0x03, f)
  | .launch f => some (0xE0, 0x00, f)
  | .launchd f => some (0xE0, 0x01, f)
  | .lqst f => some (0xE0, 0x02, f)
  | .rigWinwr f => some (0xC8, 0x04, f)
  | .rigWinclr f => some (0xC8, 0x04, f)
  | .rigPmap f => some (0xC8, 0x04, f)
  | .rigLock f => some (0xC8, 0x04, f)
  | .rigGo f => some (0xC8, 0x04, f)
  | .illegalInstruction _ _ => none
  | .fetchOverrun => none
  | .lineFetch _ _ _ => none
  | .switchMarkerRelease _ => none
  | .schedulerAgePriority _ _ => none
  | .loadDataArrive _ _ => none
  | .translationWalkComplete _ => none
  | .heldRecordWrite _ => none
  | .storeDrain _ _ => none
  | .storeAck _ _ => none
  | .lineReplicate _ => none
  | .pageClearComplete _ _ => none
  | .waitvalRecheck _ => none
  | .engineBytePerformed _ => none
  | .commandRetire _ => none
  | .engineFault _ => none
  | .cpyyYield _ => none
  | .mailboxPostEnqueue _ => none
  | .mailboxTakeDeliver _ => none
  | .matrixOpStart _ => none
  | .matrixOpComplete _ => none
  | .afinComplete _ => none
  | .cxwaitRecheck _ => none
  | .mergeCheck _ => none
  | .mergeCommit _ => none
  | .determinateJoin _ => none
  | .determinateJoinRetry _ => none
  | .samplerCommandStart _ _ => none
  | .samplerColourPhase _ _ => none
  | .samplerCommandComplete _ _ => none
  | .riggerLinkTrained _ => none
  | .riggerTrainingTimeout _ _ => none
  | .riggerAttestationPass _ => none
  | .riggerAttestationFail _ => none
  | .riggerLinkLost _ => none
  | .riggerDrainEnd _ => none
  | .ualinkResponseTimeout _ => none
  | .heldRequestTimeout _ => none
  | .planeMoveEffect _ => none
  | .riggerTierAge _ => none
  | .remoteResponse _ _ _ => none
  | .networkEntryPriority _ => none
  | .drainWindowOpen _ _ => none
  | .heatEdge _ => none
  | .octetHandover _ => none
  | .idleDonation _ _ => none
  | .preemptWindowEnd _ _ => none
  | .groupSave _ => none
  | .teamRestore _ => none
  | .launchConsume _ => none
  | .teamPlace _ _ => none
  | .heldCompletionWrite _ _ => none
  | .hostTailWrite _ _ _ => none
  | .hostCtailWrite _ _ _ => none
  | .hostKillGrid _ _ => none
  | .hostReplay _ _ => none
  | .deviceRestart => none
  | .imageLoad _ _ _ _ => none
  | .keyProvision _ _ _ => none
  | .rollbackFloorWrite _ _ _ => none
  | .dieSetConfigure _ => none
  | .crewBind _ _ => none
  | .crewReset _ => none
  | .functionControlWrite _ _ => none
  | .functionReset _ => none
  | .functionMigrationPause _ => none
  | .heatTableInstall _ _ => none
  | .pageTableRootSet _ _ => none
  | .vaultAssign _ _ _ => none
  | .mailboxAssign _ _ _ => none
  | .twinPoolSet _ _ _ => none
  | .recordTableSet _ _ _ => none
  | .peerRegister _ _ _ => none
  | .unscrubbedBitmapWrite _ _ _ => none
  | .hostTlbinv _ _ _ _ => none
  | .hostVacate _ _ _ => none
  | .powerOnBoot => none
  | .firmwareImage _ _ _ => none
  | .powerLimitInput _ _ => none
  | .powerRemoval => none
  | .refillQueueFill _ _ => none
  | .peerRequestArrival _ _ => none
  | .hostPortAccess _ _ => none
  | .launchQueueConfigure _ _ _ => none
  | .functionMigrationResume _ => none
  | .crewClassGrant _ _ => none
  | .hostScrub _ _ _ => none
  | .hostSpdmRequest _ => none

/-- The sub-form that the row stands for is the one that IMM selects, for rows that share OPC and FN. -/
def Instr.selected : Instr → Bool
  | .lnbase f => !f.imm.getLsbD 0
  | .lnbaseOff f => f.imm.getLsbD 0
  | .smclampOn f => !f.imm.getLsbD 0
  | .smclampOff f => f.imm.getLsbD 0
  | .smtable f => !f.imm.getLsbD 0
  | .smtableDef f => f.imm.getLsbD 0
  | .smstatRd f => f.immBits 0 2 == 0
  | .smstatClr f => f.immBits 0 2 == 1
  | .smstatRdclr f => f.immBits 0 2 == 2
  | .smstatInfo f => f.immBits 0 2 == 3
  | .rigRerig _ => true
  | .syswr f => f.imm != 0x0107 && f.imm != 0x0105 && f.imm != 0x0200
  | .replay f => f.imm == 0x0107
  | .fqtail f => f.imm == 0x0105
  | .ecccnt f => f.imm == 0x0200
  | .tlbinvAll f => f.immBits 0 2 == 0
  | .tlbinvPg f => f.immBits 0 2 == 1
  | .tlbinvRng f => f.immBits 0 2 == 2
  | .haltTeam f => !f.imm.getLsbD 0
  | .haltGrid f => f.imm.getLsbD 0
  | .trctlSet f => f.immBits 0 2 == 0
  | .trctlHead f => f.immBits 0 2 == 1
  | .trctlTail f => f.immBits 0 2 == 2
  | .trctlLost f => f.immBits 0 2 == 3
  | .stepStop f => f.immBits 0 2 == 0
  | .stepGo f => f.immBits 0 2 == 1
  | .stepRun f => f.immBits 0 2 == 2
  | .stepPath f => f.immBits 0 2 == 3
  | .rigWinwr _ => true
  | .rigWinclr _ => true
  | .rigPmap _ => true
  | .rigLock _ => true
  | .rigGo _ => true
  | _ => true

/-- The row that an assigned OPC and FN name, with the sub-form that IMM selects (R35). A `rig` word is read as its first
row; the issue of the word picks the row by the command in gA (R326). -/
def rowOf (opc fn : Nat) (f : Fields) : Option Instr :=
  match opc with
  | 0x00 => match fn with
    | 0x00 => some (.mov f)
    | 0x01 => some (.bcast f)
    | 0x02 => some (.movu f)
    | 0x03 => some (.emrd f)
    | 0x04 => some (.emwr f)
    | 0x05 => some (.pand f)
    | 0x06 => some (.por f)
    | 0x07 => some (.pxor f)
    | 0x08 => some (.pandn f)
    | 0x09 => some (.ptog f)
    | 0x0A => some (.gtop f)
    | 0x0B => some (.sread f)
    | 0x0C => some (.swrite f)
    | 0x0D => some (.vfree f)
    | 0x0E => some (.nop f)
    | _ => none
  | 0x10 => match fn with
    | 0x00 => some (.add f)
    | 0x01 => some (.sub f)
    | 0x02 => some (.addc f)
    | 0x03 => some (.subb f)
    | 0x04 => some (.min f)
    | 0x05 => some (.max f)
    | 0x06 => some (.abs f)
    | 0x07 => some (.neg f)
    | _ => none
  | 0x11 => match fn with
    | 0x00 => some (.mul f)
    | 0x01 => some (.mulhi f)
    | 0x02 => some (.mulw f)
    | 0x03 => some (.mad f)
    | 0x04 => some (.madw f)
    | 0x05 => some (.div f)
    | 0x06 => some (.rem f)
    | _ => none
  | 0x12 => match fn with
    | 0x00 => some (.and f)
    | 0x01 => some (.or f)
    | 0x02 => some (.xor f)
    | 0x03 => some (.not f)
    | 0x04 => some (.lop3 f)
    | 0x05 => some (.shl f)
    | 0x06 => some (.shr f)
    | 0x07 => some (.sar f)
    | 0x08 => some (.fshl f)
    | 0x09 => some (.fshr f)
    | 0x0A => some (.rsh f)
    | _ => none
  | 0x13 => match fn with
    | 0x00 => some (.popc f)
    | 0x01 => some (.clz f)
    | 0x02 => some (.ctz f)
    | 0x03 => some (.brev f)
    | 0x04 => some (.bfx f)
    | 0x05 => some (.bfi f)
    | _ => none
  | 0x14 => match fn with
    | 0x00 => some (.cmpEq f)
    | 0x01 => some (.cmpNe f)
    | 0x02 => some (.cmpLt f)
    | 0x03 => some (.cmpLe f)
    | 0x04 => some (.cmpGt f)
    | 0x05 => some (.cmpGe f)
    | 0x06 => some (.sel f)
    | _ => none
  | 0x15 => match fn with
    | 0x00 => some (.lea f)
    | 0x01 => some (.lea64 f)
    | _ => none
  | 0x16 => match fn with
    | 0x00 => some (.padd f)
    | 0x01 => some (.psub f)
    | 0x02 => some (.pmul f)
    | 0x03 => some (.pmin f)
    | 0x04 => some (.pmax f)
    | 0x05 => some (.mac2 f)
    | 0x06 => some (.dot4 f)
    | 0x07 => some (.packs f)
    | 0x08 => some (.unpk f)
    | _ => none
  | 0x40 => match fn with
    | 0x00 => some (.slideUp f)
    | 0x01 => some (.slideDn f)
    | 0x02 => some (.hslideUp f)
    | 0x03 => some (.hslideDn f)
    | 0x04 => some (.shfl f)
    | 0x05 => some (.xshfl f)
    | 0x06 => some (.lbc f)
    | 0x07 => some (.red f)
    | 0x08 => some (.redf f)
    | 0x09 => some (.scan f)
    | 0x0A => some (.scanf f)
    | 0x0B => some (.voteAny f)
    | 0x0C => some (.voteAll f)
    | 0x0D => some (.ballot f)
    | 0x0E => some (.matchLanes f)
    | 0x0F => some (.rdlane f)
    | _ => none
  | 0x50 => match fn with
    | 0x00 => some (.fAdd f)
    | 0x01 => some (.fSub f)
    | 0x02 => some (.fMul f)
    | 0x03 => some (.fma f)
    | 0x04 => some (.fMin f)
    | 0x05 => some (.fMax f)
    | 0x06 => some (.fdot2 f)
    | _ => none
  | 0x51 => match fn with
    | 0x00 => some (.fCmpEq f)
    | 0x01 => some (.fCmpNe f)
    | 0x02 => some (.fCmpLt f)
    | 0x03 => some (.fCmpLe f)
    | 0x04 => some (.fCmpGt f)
    | 0x05 => some (.fCmpGe f)
    | 0x06 => some (.fCmpUn f)
    | 0x07 => some (.fclass f)
    | _ => none
  | 0x52 => match fn with
    | 0x00 => some (.scale f)
    | 0x01 => some (.getexp f)
    | 0x02 => some (.getman f)
    | _ => none
  | 0x53 => match fn with
    | 0x00 => some (.rcp f)
    | 0x01 => some (.rsq f)
    | 0x02 => some (.sqrt f)
    | 0x03 => some (.exp2 f)
    | 0x04 => some (.log2 f)
    | 0x05 => some (.sinpi f)
    | 0x06 => some (.cospi f)
    | _ => none
  | 0x54 => match fn with
    | 0x00 => some (.cvt f)
    | _ => none
  | 0x55 => match fn with
    | 0x00 => some (.fpack f)
    | 0x01 => some (.funpk f)
    | 0x02 => some (.ternpk f)
    | 0x03 => some (.ternunpk f)
    | _ => none
  | 0x70 => match fn with
    | 0x00 => some (.bra f)
    | 0x01 => some (.brau f)
    | 0x02 => some (.skip f)
    | 0x03 => some (.jmpi f)
    | 0x04 => some (.call f)
    | 0x05 => some (.calli f)
    | 0x06 => some (.ret f)
    | 0x07 => some (.dbnz f)
    | 0x08 => some (.exit f)
    | 0x09 => some (.refill f)
    | _ => none
  | 0x80 => match fn with
    | 0x00 => some (.ldt f)
    | 0x01 => some (.stt f)
    | 0x02 => some (.ld f)
    | 0x03 => some (.st f)
    | 0x04 => some (.lds f)
    | 0x05 => some (.sts f)
    | 0x06 => some (.ldv f)
    | 0x07 => some (.stv f)
    | 0x08 => some (.ldg f)
    | 0x09 => some (.pref f)
    | 0x0A => some (.rvalid f)
    | 0x0B => some (.rinval f)
    | 0x0C => some (.rwr f)
    | 0x0D => some (.rrd f)
    | _ => none
  | 0x90 => match fn with
    | 0x00 => some (.fence f)
    | 0x01 => some (.ldacq f)
    | 0x02 => some (.strel f)
    | 0x03 => some (.atomAdd f)
    | 0x04 => some (.atomMin f)
    | 0x05 => some (.atomMax f)
    | 0x06 => some (.atomAnd f)
    | 0x07 => some (.atomOr f)
    | 0x08 => some (.atomXor f)
    | 0x09 => some (.atomExch f)
    | 0x0A => some (.cas f)
    | _ => none
  | 0x91 => match fn with
    | 0x00 => some (.barArrive f)
    | 0x01 => some (.barWait f)
    | 0x02 => some (.barSync f)
    | 0x03 => some (.sbarInit f)
    | 0x04 => some (.sbarWait f)
    | 0x05 => some (.wcnt f)
    | 0x06 => some (.waitval f)
    | 0x07 => some (.chsend f)
    | 0x08 => some (.chrecv f)
    | 0x09 => some (.chclose f)
    | 0x0A => some (.bwait f)
    | 0x0B => some (.cxsig f)
    | _ => none
  | 0xA0 => match fn with
    | 0x00 => some (.cpy f)
    | 0x01 => some (.cpyy f)
    | 0x02 => some (.gath f)
    | 0x03 => some (.scat f)
    | 0x04 => some (.coll f)
    | 0x05 => some (.wbr f)
    | 0x06 => some (.invr f)
    | 0x07 => some (.post f)
    | 0x08 => some (.take f)
    | _ => none
  | 0xA8 => match fn with
    | 0x00 => some (.fork f)
    | 0x01 => some (.join f)
    | 0x02 => some (.vid f)
    | 0x03 => some (.rpage f)
    | 0x04 => some (.twres f)
    | 0x05 => some (.vabort f)
    | _ => none
  | 0xB0 => match fn with
    | 0x00 => some (.mmaBf16 f)
    | 0x01 => some (.mmaF8 f)
    | 0x02 => some (.mmaS8 f)
    | 0x03 => some (.mmaTern f)
    | 0x04 => some (.azero f)
    | 0x05 => some (.afin f)
    | 0x06 => some (.arel f)
    | 0x07 => some (.mbatch f)
    | 0x08 => some (.cxwait f)
    | _ => none
  | 0xB1 => match fn with
    | 0x00 => some (.lnbnd f)
    | 0x01 => some (.lncoef f)
    | 0x02 => if !f.imm.getLsbD 0 then some (.lnbase f) else some (.lnbaseOff f)
    | 0x03 => some (.lnstart f)
    | 0x04 => some (.lnnext f)
    | _ => none
  | 0xC0 => match fn with
    | 0x00 => some (.smload f)
    | 0x01 => if !f.imm.getLsbD 0 then some (.smclampOn f) else some (.smclampOff f)
    | 0x02 => some (.smseed f)
    | 0x03 => some (.smbeta f)
    | 0x04 => if !f.imm.getLsbD 0 then some (.smtable f) else some (.smtableDef f)
    | 0x05 => some (.smsweep f)
    | 0x06 => some (.smread f)
    | 0x07 => if f.immBits 0 2 == 0 then some (.smstatRd f) else if f.immBits 0 2 == 1 then some (.smstatClr f) else if f.immBits 0 2 == 2 then some (.smstatRdclr f) else some (.smstatInfo f)
    | _ => none
  | 0xC8 => match fn with
    | 0x00 => some (.rld f)
    | 0x01 => some (.rst f)
    | 0x02 => some (.ratom f)
    | 0x03 => some (.rfence f)
    | 0x04 => some (.rigRerig f)
    | 0x05 => some (.rigst f)
    | _ => none
  | 0xD0 => match fn with
    | 0x00 => some (.trap f)
    | 0x01 => some (.tret f)
    | 0x02 => some (.tfence f)
    | 0x03 => some (.brk f)
    | 0x04 => some (.sysrd f)
    | 0x05 => if f.imm != 0x0107 && f.imm != 0x0105 && f.imm != 0x0200 then some (.syswr f) else if f.imm == 0x0107 then some (.replay f) else if f.imm == 0x0105 then some (.fqtail f) else some (.ecccnt f)
    | 0x06 => if f.immBits 0 2 == 0 then some (.tlbinvAll f) else if f.immBits 0 2 == 1 then some (.tlbinvPg f) else if f.immBits 0 2 == 2 then some (.tlbinvRng f) else none
    | 0x07 => some (.ctxsave f)
    | 0x08 => some (.ctxld f)
    | 0x09 => some (.vacate f)
    | 0x0A => if !f.imm.getLsbD 0 then some (.haltTeam f) else some (.haltGrid f)
    | _ => none
  | 0xD4 => match fn with
    | 0x00 => some (.heatw f)
    | 0x01 => some (.heatsw f)
    | 0x02 => some (.donate f)
    | 0x03 => some (.scrub f)
    | _ => none
  | 0xD8 => match fn with
    | 0x00 => if f.immBits 0 2 == 0 then some (.trctlSet f) else if f.immBits 0 2 == 1 then some (.trctlHead f) else if f.immBits 0 2 == 2 then some (.trctlTail f) else some (.trctlLost f)
    | 0x01 => some (.trmark f)
    | 0x02 => some (.pcnt f)
    | 0x03 => if f.immBits 0 2 == 0 then some (.stepStop f) else if f.immBits 0 2 == 1 then some (.stepGo f) else if f.immBits 0 2 == 2 then some (.stepRun f) else some (.stepPath f)
    | _ => none
  | 0xE0 => match fn with
    | 0x00 => some (.launch f)
    | 0x01 => some (.launchd f)
    | 0x02 => some (.lqst f)
    | _ => none
  | _ => none

end Sys2Proof
end

