-- ==== Sys2Proof/Machine/Maps.lean ====
section
/-! DEFINITION. The containers of the state: association lists, byte memories in one canonical form, and the 32 lanes of a
vector register.

Marked in the assumption log: 5 (DESIGN CHOICE). -/

namespace Sys2Proof.Machine

/-- The value of a key. -/
def aget {κ α : Type} [DecidableEq κ] (k : κ) : List (κ × α) → Option α
  | [] => none
  | (k', v) :: rest => if k = k' then some v else aget k rest

/-- Set the value of a key, in place or at the end. -/
def aput {κ α : Type} [DecidableEq κ] (k : κ) (v : α) : List (κ × α) → List (κ × α)
  | [] => [(k, v)]
  | (k', v') :: rest => if k = k' then (k, v) :: rest else (k', v') :: aput k v rest

/-- Remove a key. -/
def adel {κ α : Type} [DecidableEq κ] (k : κ) : List (κ × α) → List (κ × α)
  | [] => []
  | (k', v) :: rest => if k = k' then adel k rest else (k', v) :: adel k rest

/-- Change the value of a key that is present. -/
def amod {κ α : Type} [DecidableEq κ] (k : κ) (f : α → α) : List (κ × α) → List (κ × α)
  | [] => []
  | (k', v) :: rest => if k = k' then (k, f v) :: rest else (k', v) :: amod k f rest

/-- A byte memory: cells at strictly rising addresses, none holding zero, which is what an unlisted address reads as
(assumption 5). -/
abbrev Mem := List Host.Cell

/-- What an unlisted address reads as. -/
def Mem.unlisted : Byte := 0

/-- Read one byte. -/
def Mem.read : Mem → Nat → Byte
  | [], _ => Mem.unlisted
  | (a, b) :: rest, x => if x = a then b else Mem.read rest x

/-- Write one byte, keeping the canonical form. -/
def Mem.write : Mem → Nat → Byte → Mem
  | [], x, v => if v = Mem.unlisted then [] else [(x, v)]
  | (a, b) :: rest, x, v =>
    if x < a then (if v = Mem.unlisted then (a, b) :: rest else (x, v) :: (a, b) :: rest)
    else if x = a then (if v = Mem.unlisted then rest else (x, v) :: rest)
    else (a, b) :: Mem.write rest x v

/-- Every address of a memory lies above a bound, rising, and no cell holds the unlisted value. -/
def Mem.wfFrom : Nat → Mem → Bool
  | _, [] => true
  | lo, (a, b) :: rest => lo ≤ a && b != Mem.unlisted && Mem.wfFrom (a + 1) rest

/-- The canonical form of a memory. -/
def Mem.wf (m : Mem) : Bool := Mem.wfFrom 0 m

/-- Read `n` bytes from an address up. -/
def Mem.readN (m : Mem) (a : Nat) : Nat → List Byte
  | 0 => []
  | n + 1 => Mem.read m a :: Mem.readN m (a + 1) n

/-- Write bytes from an address up. -/
def Mem.writeN (m : Mem) (a : Nat) : List Byte → Mem
  | [] => m
  | b :: bs => Mem.writeN (Mem.write m a b) (a + 1) bs

/-- Zero the bytes of a range: drop its cells. -/
def Mem.clear (m : Mem) (lo n : Nat) : Mem := m.filter fun c => !(lo ≤ c.1 && c.1 < lo + n)

/-- The 32 lanes of a vector register (R60). -/
abbrev Lanes := Vector Word32 32

/-- Lanes from a function of the lane index. -/
def Lanes.ofFn (f : Nat → Word32) : Lanes := ⟨((List.range 32).map f).toArray, by simp⟩

/-- One lane. -/
def Lanes.get (v : Lanes) (l : Nat) : Word32 := v.toArray.getD l 0

/-- One value in every lane. -/
def Lanes.all (w : Word32) : Lanes := Lanes.ofFn fun _ => w

/-- The lanes of a mask from one vector, the others from another. -/
def Lanes.merge (m : Mask) (new old : Lanes) : Lanes :=
  Lanes.ofFn fun l => if m.getLsbD l then new.get l else old.get l

/-- The lane indices of a mask, ascending. -/
def maskLanes (m : Mask) : List Nat := (List.range 32).filter fun l => m.getLsbD l

/-- A mask from a condition on the lane index. -/
def maskOf (f : Nat → Bool) : Mask :=
  (List.range 32).foldl (fun acc l => if f l then acc ||| BitVec.ofNat 32 (2 ^ l) else acc) 0

/-- The lowest lane of a mask. -/
def lowestLane (m : Mask) : Option Nat := (maskLanes m).head?

/-- The number of lanes of a mask. -/
def popcount (m : Mask) : Nat := (maskLanes m).length

/-- Numbers `lo`, `lo + 1`, … of which there are `n`. -/
def upFrom (lo : Nat) : Nat → List Nat
  | 0 => []
  | n + 1 => lo :: upFrom (lo + 1) n

/-- Replace the elements that a condition picks. -/
def mapIf {α : Type} (c : α → Bool) (f : α → α) (l : List α) : List α := l.map fun x => if c x then f x else x

end Sys2Proof.Machine
end

