-- ==== Sys2Proof/Machine/Flags.lean ====
section
/-! DEFINITION. The sticky flags (spec/04_registers.md R74) and the helpers of spec/05_integer.md R88, R89: reading an
operand of a type, wrapping, saturating, identities. A flag computation is a 16-bit word that is ORed into the flags. -/

namespace Sys2Proof.Machine

/-- A set of sticky flags (R74). -/
abbrev FlagSet := BitVec 16

namespace Flag

/-- Invalid. -/
abbrev inv : FlagSet := 0x01
/-- Divide by zero. -/
abbrev div : FlagSet := 0x02
/-- Overflow. -/
abbrev ovf : FlagSet := 0x04
/-- Underflow. -/
abbrev under : FlagSet := 0x08
/-- Inexact. -/
abbrev inexact : FlagSet := 0x10
/-- Integer or packed saturation. -/
abbrev sat : FlagSet := 0x20
/-- Accumulator saturation. -/
abbrev accsat : FlagSet := 0x40
/-- Operand invalid. -/
abbrev opinv : FlagSet := 0x80

end Flag

/-- A flag where a condition holds. -/
def flagIf (c : Bool) (fl : FlagSet) : FlagSet := if c then fl else 0

/-- The low `w` bits of a number as two's complement or unsigned (R88). -/
def readInt (w : Nat) (signed : Bool) (n : Nat) : Int :=
  let x := n % 2 ^ w
  if signed && 2 ^ (w - 1) ≤ x then (x : Int) - 2 ^ w else x

/-- `wrap` (R89) at a width. -/
def wrapInt (w : Nat) (signed : Bool) (x : Int) : Int := readInt w signed (x % 2 ^ w).toNat

/-- The smallest value of a width and sign. -/
def minInt (w : Nat) (signed : Bool) : Int := if signed then -(2 ^ (w - 1)) else 0

/-- The largest value. -/
def maxInt (w : Nat) (signed : Bool) : Int := if signed then 2 ^ (w - 1) - 1 else 2 ^ w - 1

/-- `sat` (R89): the clamped value, and SAT when the clamp changes it. -/
def satInt (w : Nat) (signed : Bool) (x : Int) : Int × FlagSet :=
  if x < minInt w signed then (minInt w signed, Flag.sat)
  else if maxInt w signed < x then (maxInt w signed, Flag.sat)
  else (x, 0)

/-- A result reduced as the `.sat` bit of an instruction says. -/
def narrow (sat : Bool) (w : Nat) (signed : Bool) (x : Int) : Int × FlagSet :=
  if sat then satInt w signed x else (wrapInt w signed x, 0)

/-- An operand of an integer type (R88). -/
def readTy (t : ITy) (n : Nat) : Int := readInt t.width t.signed n

/-- An element of a packed word (R88). -/
def elemRead (ew : Nat) (signed : Bool) (word j : Nat) : Int := readInt ew signed (word / 2 ^ (ew * j))

/-- A word from its elements, the first lowest. -/
def packElems (ew : Nat) : List Int → Nat
  | [] => 0
  | x :: xs => (x % 2 ^ ew).toNat + 2 ^ ew * packElems ew xs

/-- The MOD[8] immediate of an integer form as the operand's bits (R30). -/
def immNat (t : ITy) (imm : Word32) : Nat :=
  if t.width = 64 ∧ t.signed then (imm.signExtend 64).toNat else imm.toNat

end Sys2Proof.Machine
end

