-- ==== Sys2Proof/Machine/Integer.lean ====
section
/-! DEFINITION. The integer computations of spec/05_integer.md on one lane's operands, at unbounded width (R4). Each gives
its typed result and the flags it sets. -/

namespace Sys2Proof.Machine

/-- `floor_shift` (R118): ⌊x / 2^n⌋. -/
def floorShift (x : Int) (n : Nat) : Int := x >>> n

/-- A result with no flag. -/
def plain (x : Int) : Int × FlagSet := (x, 0)

/-- `abs` and `neg` (R93): the most negative value returns itself with OVER, or saturates. -/
def negLike (t : ITy) (sat : Bool) (a r : Int) : Int × FlagSet :=
  if sat then satInt t.width t.signed r
  else (wrapInt t.width t.signed r, flagIf (a == minInt t.width true) Flag.ovf)

/-- `mulhi` (R93): the upper half of the product. -/
def mulHi (t : ITy) (a b : Int) : Int := wrapInt t.width t.signed (floorShift (a * b) t.width)

/-- `div` (R95). -/
def divInt (t : ITy) (a b : Int) : Int × FlagSet :=
  if b = 0 then (0, Flag.div)
  else if t.signed && a == minInt t.width true && b == -1 then (a, Flag.ovf)
  else (a.tdiv b, 0)

/-- `rem` (R95). -/
def remInt (t : ITy) (a b : Int) : Int × FlagSet :=
  if b = 0 then (0, Flag.div)
  else if t.signed && a == minInt t.width true && b == -1 then (0, 0)
  else (a.tmod b, 0)

/-- `lop3` (R97): bit `k` of the result is the table bit that the three source bits select. -/
def lop3Nat (lut : Nat) (w a b c : Nat) : Nat :=
  (List.range w).foldl (fun acc k =>
    let i := 4 * (a / 2 ^ k % 2) + 2 * (b / 2 ^ k % 2) + c / 2 ^ k % 2
    if lut.testBit i then acc + 2 ^ k else acc) 0

/-- A shift count (R98): bits [7:0]. -/
def shiftCount (n : Nat) : Nat := n % 256

/-- `shl` (R98). -/
def shlNat (w a n : Nat) : Nat := if w ≤ n then 0 else a * 2 ^ n % 2 ^ w

/-- `shr` (R98). -/
def shrNat (w a n : Nat) : Nat := if w ≤ n then 0 else a / 2 ^ n

/-- `sar` (R98). -/
def sarInt (w : Nat) (a : Int) (n : Nat) : Int := floorShift a (min n (w - 1))

/-- `fshl` (R98): the low `w` bits of the pair shifted left, taken from its upper half. -/
def fshlNat (w a b n : Nat) : Nat := (a * 2 ^ w + b) * 2 ^ (n % w) / 2 ^ w % 2 ^ w

/-- `fshr` (R98). -/
def fshrNat (w a b n : Nat) : Nat := (a * 2 ^ w + b) / 2 ^ (n % w) % 2 ^ w

/-- `rsh` (R99). -/
def rshInt (a : Int) (n : Nat) : Int := if n = 0 then a else floorShift (a + 2 ^ (n - 1)) n

/-- The number of one bits below `w`. -/
def popcNat (w a : Nat) : Nat := ((List.range w).filter a.testBit).length

/-- `clz` (R100). -/
def clzNat (w a : Nat) : Nat :=
  match ((List.range w).filter a.testBit).getLast? with
  | some k => w - 1 - k
  | none => w

/-- `ctz` (R100). -/
def ctzNat (w a : Nat) : Nat := (((List.range w).filter a.testBit).head?).getD w

/-- `brev` (R100). -/
def brevNat (w a : Nat) : Nat :=
  (List.range w).foldl (fun acc k => if a.testBit k then acc + 2 ^ (w - 1 - k) else acc) 0

/-- The clipped length of a field word (R100). -/
def fieldLen (w field : Nat) : Nat := min (field / 256 % 256) (w - field % 256)

/-- `bfx` (R100). -/
def bfxInt (t : ITy) (a field : Nat) : Int :=
  let m := fieldLen t.width field
  if m = 0 then 0 else readInt m t.signed (a / 2 ^ (field % 256))

/-- `bfi` (R100). -/
def bfiNat (w a field c : Nat) : Nat :=
  let m := fieldLen w field
  let p := field % 256
  if m = 0 then c else c % 2 ^ p + a % 2 ^ m * 2 ^ p + c / 2 ^ (p + m) * 2 ^ (p + m)

/-- The integer comparisons (R102), by FN. -/
def cmpInt (fn : Nat) (a b : Int) : Bool :=
  match fn with
  | 0 => a == b | 1 => a != b | 2 => a < b | 3 => a ≤ b | 4 => b < a | _ => b ≤ a

/-- The elements of a packed type: how many, how wide, how signed (R88). -/
def packShape (t : ITy) : Nat × Nat × Bool :=
  match t with
  | .s16x2 => (2, 16, true)
  | .z16x2 => (2, 16, false)
  | .s8x4 => (4, 8, true)
  | .z8x4 => (4, 8, false)
  | .s16 => (2, 16, true)
  | .z16 => (2, 16, false)
  | .z8 => (4, 8, false)
  | _ => (4, 8, true)

/-- An operation on the elements of a packed type (R105). -/
def packedOp (t : ITy) (sat : Bool) (op : Int → Int → Int) (a b : Nat) : Int × FlagSet :=
  let sh := packShape t
  let rs := (List.range sh.1).map fun j =>
    narrow sat sh.2.1 sh.2.2 (op (elemRead sh.2.1 sh.2.2 a j) (elemRead sh.2.1 sh.2.2 b j))
  (packElems sh.2.1 (rs.map Prod.fst), rs.foldl (fun fl r => fl ||| r.2) 0)

/-- The exact dot product of packed sources. -/
def packedDot (t : ITy) (a b : Nat) : Int :=
  let sh := packShape t
  ((List.range sh.1).map fun j => elemRead sh.2.1 sh.2.2 a j * elemRead sh.2.1 sh.2.2 b j).sum

/-- `mac2` and `dot4` (R106): one saturation to 32 bits. -/
def macPacked (t : ITy) (a b c : Nat) : Int × FlagSet :=
  satInt 32 t.signed (readInt 32 t.signed c + packedDot t a b)

/-- `packs` (R107). -/
def packsNat (t : ITy) (a b : Nat) : Int × FlagSet :=
  let srcs : List Int := if t.width = 16 then [readInt 32 true a, readInt 32 true b]
    else [elemRead 16 true a 0, elemRead 16 true a 1, elemRead 16 true b 0, elemRead 16 true b 1]
  let rs := srcs.map (satInt t.width t.signed)
  (packElems t.width (rs.map Prod.fst), rs.foldl (fun fl r => fl ||| r.2) 0)

/-- The operators of `red` and `scan` (R109, R34), by MOD[6:4]: add, min, max, and, or, xor. -/
def redInt (op : Nat) (t : ITy) (a b : Int) : Int :=
  match op with
  | 0 => wrapInt t.width t.signed (a + b)
  | 1 => if b < a then b else a
  | 2 => if a < b then b else a
  | 3 => Nat.land a.toNat b.toNat
  | 4 => Nat.lor a.toNat b.toNat
  | _ => Nat.xor a.toNat b.toNat

/-- `ident` (R89). -/
def redIdent (op : Nat) (t : ITy) : Int :=
  match op with
  | 1 => maxInt t.width t.signed
  | 2 => minInt t.width t.signed
  | 3 => maxInt t.width false
  | _ => 0

end Sys2Proof.Machine
end

