-- ==== Sys2Proof/Machine/Float.lean ====
section
/-! DEFINITION. Floating point (spec/06_float.md): the formats, rounding, the arithmetic of exact values rounded once, and
the special functions. A finite nonzero value is `± m × 2^e` with `m` a positive natural number.

Marked in the assumption log: 7 (DEDUCED). -/

namespace Sys2Proof.Machine

/-- The formats of R116. -/
inductive Fmt where
  | f32 | f16 | bf16 | f8
  deriving DecidableEq, Repr

/-- Precision `p`. -/
def Fmt.prec : Fmt → Nat
  | .f32 => 24 | .f16 => 11 | .bf16 => 8 | .f8 => 4

/-- Exponent bits. -/
def Fmt.ebits : Fmt → Nat
  | .f32 => 8 | .f16 => 5 | .bf16 => 8 | .f8 => 4

/-- Bias. -/
def Fmt.bias : Fmt → Int
  | .f32 => 127 | .f16 => 15 | .bf16 => 127 | .f8 => 7

/-- Mantissa width. -/
def Fmt.mbits (t : Fmt) : Nat := t.prec - 1

/-- Total width. -/
def Fmt.bits (t : Fmt) : Nat := t.ebits + t.prec

/-- Exponent of the smallest normal. -/
def Fmt.emin (t : Fmt) : Int := 1 - t.bias

/-- Exponent of the largest finite value. -/
def Fmt.emax : Fmt → Int
  | .f8 => 8
  | t => t.bias

/-- The format of a float-table type or of its elements; integers do not come here. -/
def fmtOf : FTy → Fmt
  | .f16 | .f16x2 => .f16
  | .bf16 | .bf16x2 => .bf16
  | .f8 | .f8x4 => .f8
  | _ => .f32

/-- A decoded operand. -/
inductive FVal where
  | nan (signalling : Bool)
  | inf (neg : Bool)
  | zero (neg : Bool)
  | fin (neg : Bool) (m : Nat) (e : Int)
  deriving DecidableEq, Repr

/-- Reading a code of a format (R116). -/
def Fmt.unpack (t : Fmt) (code : Nat) : FVal :=
  let m := code % 2 ^ t.mbits
  let e := code / 2 ^ t.mbits % 2 ^ t.ebits
  let neg := code.testBit (t.bits - 1)
  if t ≠ .f8 ∧ e = 2 ^ t.ebits - 1 then
    if m = 0 then .inf neg else .nan (!m.testBit (t.mbits - 1))
  else if e = 0 then
    if m = 0 then .zero neg else .fin neg m (t.emin - t.mbits)
  else .fin neg (m + 2 ^ t.mbits) (e - t.bias - t.mbits)

/-- A sign bit in place. -/
def Fmt.sign (t : Fmt) (neg : Bool) : Nat := if neg then 2 ^ (t.bits - 1) else 0

/-- An infinity's code. -/
def Fmt.inf (t : Fmt) (neg : Bool) : Nat := t.sign neg + (2 ^ t.ebits - 1) * 2 ^ t.mbits

/-- The canonical NaN (R119); f8 has none and takes +0. -/
def Fmt.nan (t : Fmt) : Nat :=
  match t with
  | .f8 => 0
  | t => (2 ^ t.ebits - 1) * 2 ^ t.mbits + 2 ^ (t.mbits - 1)

/-- The largest finite code. -/
def Fmt.largest (t : Fmt) (neg : Bool) : Nat :=
  match t with
  | .f8 => t.sign neg + 0x7F
  | t => t.inf neg - 1

/-- A NaN result and its flags: INV where an input signals, or the result is f8 (R119, R120). -/
def Fmt.nanResult (t : Fmt) (signalling : Bool) : Nat × FlagSet := (t.nan, flagIf (signalling || t == .f8) Flag.inv)

/-- Bit length. -/
def bitLen (m : Nat) : Nat := if m = 0 then 0 else Nat.log2 m + 1

/-- The rounding modes of R33. -/
inductive RMode where
  | rn | ra | rz | rm | rp
  deriving DecidableEq, Repr

/-- A rounding code (R33). -/
def RMode.ofCode (c : Nat) : RMode :=
  match c with
  | 0 => .rn | 1 => .ra | 2 => .rz | 3 => .rm | _ => .rp

/-- `m / 2^d` rounded to a whole number under a mode (R118). -/
def roundShift (mode : RMode) (neg : Bool) (m d : Nat) : Nat :=
  let d := min d (bitLen m + 2)
  let lo := m / 2 ^ d
  let r := 2 * (m % 2 ^ d)
  let half := 2 ^ d
  let up : Bool := match mode with
    | .rn => half < r || (r == half && lo % 2 == 1)
    | .ra => half ≤ r
    | .rz => false
    | .rm => neg && r != 0
    | .rp => !neg && r != 0
  if up then lo + 1 else lo

/-- `m × 2^e` in units of `2^q`, rounded under a mode. -/
def roundUnits (mode : RMode) (neg : Bool) (m : Nat) (e q : Int) : Nat :=
  if q ≤ e then m * 2 ^ (e - q).toNat else roundShift mode neg m (q - e).toNat

/-- Whether `m × 2^e` is no whole multiple of `2^q`. -/
def lossy (m : Nat) (e q : Int) : Bool := e < q && m % 2 ^ (min (q - e).toNat (bitLen m + 1)) != 0

/-- The code of `n × 2^q` with `n` at most the precision's width plus a carry (R116). -/
def Fmt.encode (t : Fmt) (neg : Bool) (n : Nat) (q : Int) : Nat :=
  if n < 2 ^ t.mbits then t.sign neg + n
  else
    let top := q + bitLen n - 1
    let mant := n * 2 ^ t.prec / 2 ^ bitLen n
    t.sign neg + (top + t.bias).toNat * 2 ^ t.mbits + (mant - 2 ^ t.mbits)

/-- `rnd` (R118) of the exact nonzero value `± m × 2^e`, with the flags OVER, UNDER and INEXACT (R120). -/
def rnd (t : Fmt) (mode : RMode) (neg : Bool) (m : Nat) (e : Int) : Nat × FlagSet :=
  let top := e + bitLen m - 1
  let q := max top t.emin - t.mbits
  let n := roundUnits mode neg m e q
  if n ≠ 0 ∧ t.emax < q + bitLen n - 1 then
    let toInf : Bool := match mode with
      | .rn | .ra => true
      | .rz => false
      | .rm => neg
      | .rp => !neg
    (if t ≠ .f8 ∧ toInf then t.inf neg else t.largest neg, Flag.ovf ||| Flag.inexact)
  else
    let inexact := lossy m e q
    let qFree := top - t.mbits
    let tiny : Bool := qFree + bitLen (roundUnits mode neg m e qFree) - 1 < t.emin
    (t.encode neg n q, flagIf inexact Flag.inexact ||| flagIf (inexact && tiny) Flag.under)

/-- An exact signed number `m × 2^e`. -/
structure Exact where
  m : Int
  e : Int
  deriving DecidableEq, Repr

/-- The exact sum. -/
def Exact.add (a b : Exact) : Exact :=
  let e := min a.e b.e
  { m := a.m * 2 ^ (a.e - e).toNat + b.m * 2 ^ (b.e - e).toNat, e := e }

/-- A finite operand as an exact number. -/
def FVal.exact : FVal → Exact
  | .fin neg m e => { m := if neg then -(m : Int) else m, e := e }
  | _ => { m := 0, e := 0 }

/-- The sign of a value; a NaN counts as positive. -/
def FVal.neg : FVal → Bool
  | .nan _ => false
  | .inf n | .zero n | .fin n _ _ => n

/-- Whether a value is a signalling NaN. -/
def FVal.signals : FVal → Bool
  | .nan s => s
  | _ => false

/-- Whether a value is a NaN. -/
def FVal.isNan : FVal → Bool
  | .nan _ => true
  | _ => false

/-- Whether a value is infinite. -/
def FVal.isInf : FVal → Bool
  | .inf _ => true
  | _ => false

/-- Whether a value is a zero. -/
def FVal.isZero : FVal → Bool
  | .zero _ => true
  | _ => false

/-- A value with the other sign. -/
def FVal.negate : FVal → FVal
  | .nan s => .nan s
  | .inf n => .inf !n
  | .zero n => .zero !n
  | .fin n m e => .fin (!n) m e

/-- The exact product of two values, or none for 0 × ∞; NaNs do not come here. -/
def FVal.mul (a b : FVal) : Option FVal :=
  let s := Bool.xor a.neg b.neg
  match a, b with
  | .inf _, .zero _ | .zero _, .inf _ => none
  | .inf _, _ | _, .inf _ => some (.inf s)
  | .zero _, _ | _, .zero _ => some (.zero s)
  | .fin _ m e, .fin _ m' e' => some (.fin s (m * m') (e + e'))
  | .nan s', _ | _, .nan s' => some (.nan s')

/-- The sum of values that are not NaN, rounded once (R121, R124, R126). -/
def sumRounded (t : Fmt) (mode : RMode) (xs : List FVal) : Nat × FlagSet :=
  let infs := xs.filter FVal.isInf
  match infs with
  | x :: rest => if rest.any fun y => y.neg != x.neg then (t.nan, Flag.inv) else (t.inf x.neg, 0)
  | [] =>
    let zero : Exact := { m := 0, e := 0 }
    let total := xs.foldl (fun (acc : Exact) x => acc.add x.exact) zero
    if total.m = 0 then
      let neg : Bool := if xs.all fun x => x.neg then true else if xs.all fun x => !x.neg then false else mode == .rm
      (t.sign neg, 0)
    else rnd t mode (total.m < 0) total.m.natAbs total.e

/-- The dot product of pairs plus addends (R124, R126): the rules on NaN and 0 × ∞, then one rounding. -/
def dotRounded (t : Fmt) (mode : RMode) (pairs : List (FVal × FVal)) (adds : List FVal) : Nat × FlagSet :=
  let srcs := pairs.flatMap (fun p => [p.1, p.2]) ++ adds
  let sig := srcs.any FVal.signals
  let clean := pairs.filter fun p => !p.1.isNan && !p.2.isNan
  let prods := clean.map fun p => p.1.mul p.2
  if prods.any Option.isNone then (t.nan, Flag.inv)
  else if srcs.any FVal.isNan then (t.nan, flagIf sig Flag.inv)
  else sumRounded t mode (prods.filterMap id ++ adds)

/-- `add` (R124). -/
def fAdd (t : Fmt) (mode : RMode) (a b : Nat) : Nat × FlagSet := dotRounded t mode [] [t.unpack a, t.unpack b]

/-- `sub` (R124). -/
def fSub (t : Fmt) (mode : RMode) (a b : Nat) : Nat × FlagSet := dotRounded t mode [] [t.unpack a, (t.unpack b).negate]

/-- `mul` (R124). -/
def fMul (t : Fmt) (mode : RMode) (a b : Nat) : Nat × FlagSet := dotRounded t mode [(t.unpack a, t.unpack b)] []

/-- `fma` (R124). -/
def fFma (t : Fmt) (mode : RMode) (a b c : Nat) : Nat × FlagSet :=
  dotRounded t mode [(t.unpack a, t.unpack b)] [t.unpack c]

/-- Element `j` of a packed word of a format. -/
def Fmt.elem (t : Fmt) (w j : Nat) : Nat := w / 2 ^ (t.bits * j) % 2 ^ t.bits

/-- `fdot2` (R126): the format of the sources, the operands. -/
def fDot2 (s : Fmt) (mode : RMode) (a b c : Nat) : Nat × FlagSet :=
  dotRounded .f32 mode ((List.range 2).map fun j => (s.unpack (s.elem a j), s.unpack (s.elem b j))) [Fmt.f32.unpack c]

/-- A total order of non-NaN values with −0 below +0: whether `a` is below `b`. -/
def FVal.below (a b : FVal) : Bool :=
  match a, b with
  | .zero n, .zero n' => n && !n'
  | .inf n, .inf n' => n && !n'
  | .inf n, _ => n
  | _, .inf n => !n
  | _, _ =>
    let d := a.exact.add { m := -b.exact.m, e := b.exact.e }
    d.m < 0

/-- `min` and `max` (R125). -/
def fMinMax (t : Fmt) (wantMax : Bool) (a b : Nat) : Nat × FlagSet :=
  let x := t.unpack a
  let y := t.unpack b
  let fl := flagIf (x.signals || y.signals) Flag.inv
  if x.isNan && y.isNan then (t.nan, fl)
  else if x.isNan then (b % 2 ^ t.bits, fl)
  else if y.isNan then (a % 2 ^ t.bits, fl)
  else if (if wantMax then x.below y else y.below x) then (b % 2 ^ t.bits, fl) else (a % 2 ^ t.bits, fl)

/-- Equality of values that are not NaN: −0 equals +0 (R127). -/
def FVal.same (a b : FVal) : Bool := (a.isZero && b.isZero) || (!a.below b && !b.below a)

/-- The comparisons (R127) by FN: `eq`, `ne`, `lt`, `le`, `gt`, `ge`, `un`. -/
def fCmp (t : Fmt) (fn a b : Nat) : Bool × FlagSet :=
  let x := t.unpack a
  let y := t.unpack b
  let sig := x.signals || y.signals
  if x.isNan || y.isNan then
    (fn == 1 || fn == 6, flagIf (sig || (2 ≤ fn && fn ≤ 5)) Flag.inv)
  else
    let eq := x.same y
    let lt := x.below y && !eq
    let r : Bool := match fn with
      | 0 => eq | 1 => !eq | 2 => lt | 3 => lt || eq | 4 => !lt && !eq | 5 => !lt | _ => false
    (r, 0)

/-- The class of a value (R127). -/
def fClass (t : Fmt) (a : Nat) : Nat :=
  let normal (m : Nat) : Bool := 2 ^ t.mbits ≤ m
  match t.unpack a with
  | .nan s => if s then 0 else 1
  | .inf n => if n then 2 else 9
  | .zero n => if n then 5 else 6
  | .fin n m _ => match n, normal m with
    | true, true => 3
    | true, false => 4
    | false, false => 7
    | false, true => 8

/-- `scale` (R128). -/
def fScale (t : Fmt) (mode : RMode) (a : Nat) (n : Int) : Nat × FlagSet :=
  match t.unpack a with
  | .nan s => (t.nan, flagIf s Flag.inv)
  | .fin neg m e => rnd t mode neg m (e + n)
  | _ => (a % 2 ^ t.bits, 0)

/-- `getexp` (R128). -/
def fGetexp (t : Fmt) (a : Nat) : Int × FlagSet :=
  match t.unpack a with
  | .nan s => (-(2 ^ 31), flagIf s Flag.inv)
  | .inf _ => (2 ^ 31 - 1, 0)
  | .zero _ => (-(2 ^ 31), 0)
  | .fin _ m e => (e + bitLen m - 1, 0)

/-- `getman` (R128). -/
def fGetman (t : Fmt) (a : Nat) : Nat × FlagSet :=
  match t.unpack a with
  | .nan s => (t.nan, flagIf s Flag.inv)
  | .inf _ => (t.nan, Flag.inv)
  | .zero _ => (a % 2 ^ t.bits, 0)
  | .fin neg m _ => rnd t .rn neg m (1 - (bitLen m : Int))

/-! Special functions (R129). A value that is not representable comes as a lower bound of its magnitude with a sticky
bit: `2 k + 1` in units of half the last place kept, which `rnd` rounds as the exact value (assumption 7). -/

/-- An exact or a sticky quotient as the argument of `rnd`. -/
def rndSticky (mode : RMode) (neg : Bool) (m : Nat) (e : Int) (exact : Bool) : Nat × FlagSet :=
  rnd .f32 mode neg (2 * m + if exact then 0 else 1) (e - 1)

/-- The integer square root by `n` result bits. -/
def isqrt (x : Nat) : Nat → Nat → Nat
  | 0, r => r
  | n + 1, r => isqrt x n (if (r + 2 ^ n) * (r + 2 ^ n) ≤ x then r + 2 ^ n else r)

/-- The fraction bits of the fixed-point evaluations. -/
def fixBits : Nat := 512

/-- One in fixed point. -/
def fixOne : Nat := 2 ^ fixBits

/-- The sum of `z^(2k+1) / (2k+1)`, signs alternating where `alt`, from a power, by `n` terms: arc tangents and
logarithms. -/
def oddSeries (alt : Bool) (z2 : Nat) : Nat → Nat → Nat → Int
  | 0, _, _ => 0
  | n + 1, k, p =>
    let rest := oddSeries alt z2 n (k + 2) (p * z2 / fixOne)
    (p / k : Nat) + (if alt then -rest else rest)

/-- π in fixed point, by Machin's formula. -/
def fixPi : Int :=
  let at_ (d : Nat) : Int := oddSeries true (fixOne / (d * d)) 260 1 (fixOne / d)
  16 * at_ 5 - 4 * at_ 239

/-- The natural logarithm of a fixed-point number in [1, 2), from `(x - 1) / (x + 1)`. -/
def fixLn (x : Nat) : Int :=
  let z := (x - fixOne) * fixOne / (x + fixOne)
  2 * oddSeries false (z * z / fixOne) 260 1 z

/-- ln 2 in fixed point. -/
def fixLn2 : Int := fixLn (2 * fixOne)

/-- The exponential series of a fixed-point number, from a term on. -/
def expSeries (x : Nat) : Nat → Nat → Nat → Nat
  | 0, _, _ => 0
  | n + 1, k, p => p + expSeries x n (k + 1) (p * x / fixOne / k)

/-- The sine series of a fixed-point number with `s` its square: terms `k`, `k + 2`, …; from `p` it also sums cosines. -/
def sinSeries (s : Nat) : Nat → Nat → Nat → Int
  | 0, _, _ => 0
  | n + 1, k, p => (p : Int) - sinSeries s n (k + 2) (p * s / fixOne / ((k + 1) * (k + 2)))

/-- sin(π x) for a fixed-point `x` in [0, 1/2]. -/
def fixSinpi (x : Nat) : Nat :=
  let t := fixPi.toNat * x / fixOne
  (sinSeries (t * t / fixOne) 120 1 t).toNat

/-- cos(π x) for a fixed-point `x` in [0, 1/2]. -/
def fixCospi (x : Nat) : Nat :=
  let t := fixPi.toNat * x / fixOne
  (sinSeries (t * t / fixOne) 120 0 fixOne).toNat

/-- `rcp`. -/
def fRcp (mode : RMode) (a : Nat) : Nat × FlagSet :=
  match Fmt.f32.unpack a with
  | .nan s => Fmt.f32.nanResult s
  | .inf n => (Fmt.f32.sign n, 0)
  | .zero n => (Fmt.f32.inf n, Flag.div)
  | .fin n m e => rndSticky mode n (2 ^ 128 / m) (-e - 128) (2 ^ 128 % m == 0)

/-- `rsq`. -/
def fRsq (mode : RMode) (a : Nat) : Nat × FlagSet :=
  match Fmt.f32.unpack a with
  | .nan s => Fmt.f32.nanResult s
  | .inf n => if n then (Fmt.f32.nan, Flag.inv) else (0, 0)
  | .zero n => (Fmt.f32.inf n, Flag.div)
  | .fin n m e =>
    if n then (Fmt.f32.nan, Flag.inv)
    else
      let odd := e % 2 = 1
      let m := if odd then 2 * m else m
      let e := if odd then e - 1 else e
      let r := isqrt (2 ^ 256 / m) 130 0
      rndSticky mode false r (-(e / 2) - 128) (r * r * m == 2 ^ 256)

/-- `sqrt`. -/
def fSqrt (mode : RMode) (a : Nat) : Nat × FlagSet :=
  match Fmt.f32.unpack a with
  | .nan s => Fmt.f32.nanResult s
  | .inf n => if n then (Fmt.f32.nan, Flag.inv) else (a % 2 ^ 32, 0)
  | .zero _ => (a % 2 ^ 32, 0)
  | .fin n m e =>
    if n then (Fmt.f32.nan, Flag.inv)
    else
      let odd := e % 2 = 1
      let m := if odd then 2 * m else m
      let e := if odd then e - 1 else e
      let r := isqrt (m * 2 ^ 128) 80 0
      rndSticky mode false r (e / 2 - 64) (r * r == m * 2 ^ 128)

/-- The whole part and the fixed-point fraction of `± m × 2^e`, an f32 of magnitude below 2^24. -/
def splitFixed (neg : Bool) (m : Nat) (e : Int) : Int × Nat :=
  let mag : Nat := if 0 ≤ e then m * 2 ^ e.toNat * fixOne else m * fixOne / 2 ^ (-e).toNat
  let x : Int := if neg then -(mag : Int) else mag
  (x / fixOne, (x % fixOne).toNat)

/-- `exp2`. -/
def fExp2 (mode : RMode) (a : Nat) : Nat × FlagSet :=
  match Fmt.f32.unpack a with
  | .nan s => Fmt.f32.nanResult s
  | .inf n => if n then (0, 0) else (Fmt.f32.inf false, 0)
  | .zero _ => (0x3F800000, 0)
  | .fin n m e =>
    if 10 ≤ e + bitLen m then rnd .f32 mode false 1 (if n then -1000 else 1000)
    else
      let s := splitFixed n m e
      if s.2 = 0 then rnd .f32 mode false 1 s.1
      else rndSticky mode false (expSeries (fixLn2.toNat * s.2 / fixOne) 130 1 fixOne) (s.1 - fixBits) false

/-- `log2`. -/
def fLog2 (mode : RMode) (a : Nat) : Nat × FlagSet :=
  match Fmt.f32.unpack a with
  | .nan s => Fmt.f32.nanResult s
  | .inf n => if n then (Fmt.f32.nan, Flag.inv) else (Fmt.f32.inf false, 0)
  | .zero _ => (Fmt.f32.inf true, Flag.div)
  | .fin n m e =>
    if n then (Fmt.f32.nan, Flag.inv)
    else
      let k := bitLen m - 1
      let top := e + k
      if m = 2 ^ k then
        if top = 0 then (0, 0) else rnd .f32 mode (top < 0) top.natAbs 0
      else
        let frac := fixLn (m * fixOne / 2 ^ k) * fixOne / fixLn2
        let v := 2 * (top * fixOne + frac) + 1
        rnd .f32 mode (v < 0) v.natAbs (-(fixBits : Int) - 1)

/-- `sinpi` and `cospi` of a finite value from its whole part and fraction. -/
def sinCos (mode : RMode) (cos neg : Bool) (m : Nat) (e : Int) : Nat × FlagSet :=
  if 25 ≤ e + bitLen m then (if cos then 0x3F800000 else Fmt.f32.sign neg, 0)
  else
    let s := splitFixed false m e
    let x := s.2
    let oddN := s.1 % 2 != 0
    let half := fixOne / 2
    if x = 0 then (if cos then (if oddN then 0xBF800000 else 0x3F800000) else Fmt.f32.sign neg, 0)
    else if x = half then
      if cos then (0, 0) else (if Bool.xor oddN neg then 0xBF800000 else 0x3F800000, 0)
    else
      let upper := half < x
      let y := if upper then fixOne - x else x
      if cos then rndSticky mode (Bool.xor oddN upper) (fixCospi y) (-(fixBits : Int)) false
      else rndSticky mode (Bool.xor oddN neg) (fixSinpi y) (-(fixBits : Int)) false

/-- `sinpi` and `cospi`. -/
def fSinCos (mode : RMode) (cos : Bool) (a : Nat) : Nat × FlagSet :=
  match Fmt.f32.unpack a with
  | .nan s => Fmt.f32.nanResult s
  | .inf _ => (Fmt.f32.nan, Flag.inv)
  | .zero n => (if cos then 0x3F800000 else Fmt.f32.sign n, 0)
  | .fin n m e => sinCos mode cos n m e

/-! Conversions (R130 to R133) -/

/-- A float code of one format in another (R130). -/
def cvtFloat (s t : Fmt) (mode : RMode) (a : Nat) : Nat × FlagSet :=
  match s.unpack a with
  | .nan sig => t.nanResult sig
  | .inf n => if t = .f8 then (t.largest n, Flag.ovf ||| Flag.inexact) else (t.inf n, 0)
  | .zero n => (t.sign n, 0)
  | .fin n m e => rnd t mode n m e

/-- An integer in a format (R130). -/
def cvtFromInt (t : Fmt) (mode : RMode) (x : Int) : Nat × FlagSet :=
  if x = 0 then (0, 0) else rnd t mode (x < 0) x.natAbs 0

/-- A float code as an integer of a width and sign (R130). -/
def cvtToInt (s : Fmt) (w : Nat) (signed : Bool) (mode : RMode) (a : Nat) : Int × FlagSet :=
  match s.unpack a with
  | .nan _ => (0, Flag.inv)
  | .inf n => (if n then minInt w signed else maxInt w signed, Flag.inv)
  | .zero _ => (0, 0)
  | .fin neg m e =>
    let mag := roundUnits mode neg m e 0
    let n : Int := if neg then -(mag : Int) else mag
    if n < minInt w signed then (minInt w signed, Flag.inv)
    else if maxInt w signed < n then (maxInt w signed, Flag.inv)
    else (n, flagIf (lossy m e 0) Flag.inexact)

/-- The width and sign of an integer code of the float table. -/
def intShapeOf : FTy → Nat × Bool
  | .s8 => (8, true) | .s16 => (16, true) | .s32 => (32, true) | .s64 => (64, true)
  | .z8 => (8, false) | .z16 => (16, false) | .z32 => (32, false) | _ => (64, false)

/-- `cvt` (R130): from the source type to the destination type. -/
def fCvt (dt st : FTy) (mode : RMode) (a : Nat) : Int × FlagSet :=
  if dt.isInt then cvtToInt (fmtOf st) (intShapeOf dt).1 (intShapeOf dt).2 mode a
  else
    let r := if st.isInt then cvtFromInt (fmtOf dt) mode (readInt (intShapeOf st).1 (intShapeOf st).2 a) else cvtFloat (fmtOf st) (fmtOf dt) mode a
    (r.1, r.2)

/-- `fpack` to two elements (R132). -/
def fPack2 (t : Fmt) (a b : Nat) : Nat × FlagSet :=
  let x := cvtFloat .f32 t .rn a
  let y := cvtFloat .f32 t .rn b
  (x.1 + y.1 * 65536, x.2 ||| y.2)

/-- `fpack.f8x4` (R132): elements `2 h` and `2 h + 1` of `c` replaced. -/
def fPack4 (a b c h : Nat) : Nat × FlagSet :=
  let x := cvtFloat .f32 .f8 .rn a
  let y := cvtFloat .f32 .f8 .rn b
  let keep := if h = 0 then c / 65536 % 65536 * 65536 else c % 65536
  (keep + (x.1 + y.1 * 256) * (if h = 0 then 1 else 65536), x.2 ||| y.2)

/-- `funpk` (R132). -/
def fUnpack (s : Fmt) (a e : Nat) : Nat × FlagSet := cvtFloat s .f32 .rn (s.elem a e)

/-- `ternpk` (R133): byte `k` of `c` replaced by four ternary codes. -/
def ternPack (a c k : Nat) : Nat :=
  let code (j : Nat) : Nat := let x := elemRead 8 true a j; if 0 < x then 1 else if x < 0 then 3 else 0
  let byte := (List.range 4).foldl (fun acc j => acc + code j * 4 ^ j) 0
  c % 256 ^ k + byte * 256 ^ k + c / 256 ^ (k + 1) * 256 ^ (k + 1)

/-- The value of a ternary code, and whether it is 0b10 (R117). -/
def ternValue (code : Nat) : Int × Bool :=
  match code % 4 with
  | 1 => (1, false)
  | 3 => (-1, false)
  | 2 => (0, true)
  | _ => (0, false)

/-- `ternunpk` (R133). -/
def ternUnpack (a k : Nat) : Nat × FlagSet :=
  let es := (List.range 4).map fun j => ternValue (a / 4 ^ (4 * k + j))
  (packElems 8 (es.map Prod.fst), flagIf (es.any Prod.snd) Flag.opinv)

/-- An element-wise operation of a scalar or packed float type (R124). -/
def fElems (t : FTy) (op : Fmt → Nat → Nat × FlagSet) : Nat × FlagSet :=
  match t with
  | .f16x2 | .bf16x2 =>
    let x := op (fmtOf t) 0
    let y := op (fmtOf t) 1
    (x.1 + y.1 * 65536, x.2 ||| y.2)
  | _ => op (fmtOf t) 0

/-- The operators of `redf` and `scanf` (R113): add, min, max. -/
def redFloat (op : Nat) (a b : Nat) : Nat × FlagSet :=
  match op with
  | 0 => fAdd .f32 .rn a b
  | 1 => fMinMax .f32 false a b
  | _ => fMinMax .f32 true a b

/-- `ident` for f32 (R89). -/
def redfIdent (op : Nat) : Nat :=
  match op with
  | 0 => 0x80000000
  | 1 => 0x7F800000
  | _ => 0xFF800000

end Sys2Proof.Machine
end

