-- ==== Sys2Proof/Machine/Atomics.lean ====
section
/-! DEFINITION. The operators of the atomic forms, of remote atomics and of reduction pages (spec/09_ordering.md R200,
spec/14_riggers.md R319, spec/12_views.md R271, spec/02_encoding.md R58). -/

namespace Sys2Proof.Machine

/-- What an atomic operates on. -/
inductive AtomTy where
  | int (w : Nat) (signed : Bool)
  | f32
  | bf16x2
  deriving DecidableEq, Repr

/-- The type of an ordering form, by its code (R34). -/
def atomTyOf (code : Nat) : AtomTy :=
  match OTy.ofCode (BitVec.ofNat 3 code) with
  | .b32 | .z32 => .int 32 false
  | .b64 | .z64 => .int 64 false
  | .s32 => .int 32 true
  | .s64 => .int 64 true
  | .f32 => .f32
  | .bf16x2 => .bf16x2

/-- The type of a remote atomic, by its code (R319). -/
def remoteTyOf (code : Nat) : AtomTy :=
  match RTy.ofCode (BitVec.ofNat 4 code) with
  | some .s32 => .int 32 true
  | some .s64 => .int 64 true
  | some .b64 | some .z64 => .int 64 false
  | some .f32 => .f32
  | _ => .int 32 false

/-- Bits of an atomic's operand. -/
def AtomTy.width : AtomTy → Nat
  | .int w _ => w
  | _ => 32

/-- The new value of an atomic and the flags it raises (R200): the operator as AOP numbers it (0 add, 1 min, 2 max, 3 and,
4 or, 5 xor, 6 exch, 7 cas), the old value, the operand (for cas the value compared), and for cas the new value. -/
def atomNew (op : Nat) (t : AtomTy) (old b c : Nat) : Nat × FlagSet :=
  let w := t.width
  let old := old % 2 ^ w
  let b := b % 2 ^ w
  let signed (f : Int → Int → Int) : Nat :=
    match t with
    | .int w s => (f (readInt w s old) (readInt w s b) % 2 ^ w).toNat
    | _ => 0
  match op with
  | 0 => match t with
    | .f32 => fAdd .f32 .rn old b
    | .bf16x2 => fElems .bf16x2 fun f j => fAdd f .rn (f.elem old j) (f.elem b j)
    | _ => (signed fun x y => x + y, 0)
  | 1 => match t with
    | .f32 => fMinMax .f32 false old b
    | _ => (signed min, 0)
  | 2 => match t with
    | .f32 => fMinMax .f32 true old b
    | _ => (signed max, 0)
  | 3 => (Nat.land old b, 0)
  | 4 => (Nat.lor old b, 0)
  | 5 => (Nat.xor old b, 0)
  | 6 => (b, 0)
  | _ => (if old = b then c % 2 ^ w else old, 0)

/-- The result of an atomic form of OPC 0x90 (R200): `fn` as its FN numbers it. -/
def atomResult (fn ty old b c : Nat) : Nat × FlagSet := atomNew (fn - 3) (atomTyOf ty) old b c

/-- A reduction page's operator on one element (R271, R58): its element width in bytes, the new parent and the flags. -/
def foldElem (op parent child : Nat) : Nat × FlagSet :=
  match op with
  | 1 => fAdd .f32 .rn parent child
  | 2 => atomNew 0 (.int 32 true) parent child 0
  | 3 => atomNew 0 (.int 64 true) parent child 0
  | 4 => fMinMax .f32 true parent child
  | 5 => fMinMax .f32 false parent child
  | 6 => atomNew 2 (.int 32 true) parent child 0
  | 7 => atomNew 1 (.int 32 true) parent child 0
  | 8 => atomNew 4 (.int 32 false) parent child 0
  | 9 => atomNew 3 (.int 32 false) parent child 0
  | _ => atomNew 5 (.int 32 false) parent child 0

/-- Bytes of an element of a reduction page (R271). -/
def redBytes (op : Nat) : Nat := if op = 3 then 8 else 4

end Sys2Proof.Machine
end

