-- ==== Sys2Proof/WellFormed.lean ====
section
/-! DEFINITION. Which instructions are well formed: a stream instruction whose word is legal in the stream (R39) and
names the row's own sub-form; an event whose items lie in the ranges of spec/01_machine.md R5. -/

namespace Sys2Proof

/-- A crew number (R5). -/
def crewOk (c : Nat) : Bool := c < 40

/-- A die number, or the number of a die set's first die (R5). -/
def dieOk (d : Nat) : Bool := d < 8

/-- A core number (R5). -/
def coreOk (c : Nat) : Bool := c < 512

/-- A rigger number (R5). -/
def riggerOk (r : Nat) : Bool := r < 16

/-- A virtual function and one of its launch queues (R360, R392). -/
def queueOk (vf q : Nat) : Bool := vf < 512 && q < 8

/-- A group index and a path index (R10, R134). -/
def pathOk (p : PathRef) : Bool := p.group < 32 && p.path < 8

/-- The items that an event names lie in their ranges. -/
def Instr.argsOk : Instr → Bool
  | .lineFetch p _ _ => pathOk p
  | .switchMarkerRelease g => g.group < 32
  | .schedulerAgePriority core sched => coreOk core && sched < 4
  | .loadDataArrive g _ => g.group < 32
  | .heldRecordWrite c => crewOk c
  | .storeDrain g _ => g.group < 32
  | .storeAck g _ => g.group < 32
  | .pageClearComplete c _ => crewOk c
  | .waitvalRecheck p => pathOk p
  | .matrixOpStart c | .matrixOpComplete c | .afinComplete c => coreOk c
  | .samplerCommandStart c d | .samplerColourPhase c d | .samplerCommandComplete c d => crewOk c && dieOk d
  | .riggerLinkTrained r | .riggerTrainingTimeout r _ | .riggerAttestationPass r | .riggerAttestationFail r
  | .riggerLinkLost r | .riggerDrainEnd r | .riggerTierAge r | .peerRequestArrival r _ => riggerOk r
  | .drainWindowOpen s c | .idleDonation s c | .preemptWindowEnd s c | .teamPlace s c => dieOk s && crewOk c
  | .heatEdge s | .launchConsume s | .heatTableInstall s _ => dieOk s
  | .octetHandover o => o < 64
  | .groupSave g => g.group < 32
  | .heldCompletionWrite vf q | .hostTailWrite vf q _ | .hostCtailWrite vf q _ | .launchQueueConfigure vf q _ => queueOk vf q
  | .hostKillGrid vf _ | .functionControlWrite vf _ | .functionReset vf | .functionMigrationPause vf
  | .functionMigrationResume vf => vf < 512
  | .hostReplay c _ | .imageLoad c _ _ _ | .crewReset c | .pageTableRootSet c _ | .twinPoolSet c _ _
  | .recordTableSet c _ _ | .unscrubbedBitmapWrite c _ _ | .hostTlbinv c _ _ _ | .hostVacate c _ _
  | .hostPortAccess c _ | .crewClassGrant c _ | .hostScrub c _ _ => crewOk c
  | .keyProvision c k _ => crewOk c && k < 16
  | .rollbackFloorWrite c k _ => crewOk c && k < 16
  | .dieSetConfigure ws => ws.all fun w => dieOk w.die
  | .crewBind c b => crewOk c && dieOk b
  | .vaultAssign d v c => dieOk d && v < 64 && crewOk c
  | .mailboxAssign s b c => s < 128 && b < 64 && crewOk c
  | .peerRegister p _ _ => p < 4096
  | _ => true

/-- Well formed in a stream: the word is an instruction of the stream and names this row (R35, R39). -/
def Instr.wf (st : Stream) (i : Instr) : Bool :=
  match i.word with
  | some (opc, fn, f) => (illegalCause st opc fn f).isNone && i.selected
  | none => i.argsOk

end Sys2Proof
end

