-- ==== Sys2Proof/Decode.lean ====
section
/-! DEFINITION. Decoding and encoding of instruction words (spec/02_encoding.md R16, R22, R35, R39) and of the line word
(R17). Decoding is total: a content that is not an instruction is rejected with its cause, or as the fill pattern.

Marked in the assumption log: 6 (DESIGN CHOICE), 24 (DEDUCED). -/

namespace Sys2Proof

/-- Why a slot holds no instruction (R39): an illegal word with its cause, or the fill pattern. -/
inductive DecodeError where
  | illegal (cause : BitVec 4)
  | fill
  deriving DecidableEq, Repr

/-- Bytes to a number, the first byte lowest (R2). -/
def leNat : List Byte → Nat
  | [] => 0
  | b :: bs => b.toNat + 256 * leNat bs

/-- The `n` low bytes of a number, lowest first (R2). -/
def leBytes : Nat → Nat → List Byte
  | 0, _ => []
  | n + 1, w => BitVec.ofNat 8 w :: leBytes n (w / 256)

/-- The OPC of a word (R22). -/
def opcOf (w : BitVec 96) : BitVec 8 := w.extractLsb' 88 8

/-- The FN of a word (R22). -/
def fnOf (w : BitVec 96) : BitVec 6 := w.extractLsb' 82 6

/-- The other fields of a word (R22). -/
def fieldsOf (w : BitVec 96) : Fields where
  sw := w.getLsbD 81
  neg := w.getLsbD 80
  pg := w.extractLsb' 77 3
  d := w.extractLsb' 69 8
  sa := w.extractLsb' 61 8
  sb := w.extractLsb' 53 8
  sc := w.extractLsb' 45 8
  lr := w.extractLsb' 41 4
  useImm := w.getLsbD 40
  md := w.extractLsb' 32 8
  imm := w.extractLsb' 0 32

/-- The instruction of a slot's 96 bits in a stream, or why there is none (R39, R40). -/
def decode (st : Stream) (w : BitVec 96) : Except DecodeError Instr :=
  if w = BitVec.allOnes 96 then .error .fill
  else
    let f := fieldsOf w
    match illegalCause st (opcOf w).toNat (fnOf w).toNat f with
    | some c => .error (.illegal c)
    | none =>
      match rowOf (opcOf w).toNat (fnOf w).toNat f with
      | some i => .ok i
      | none => .error (.illegal 1)

/-- The 96 bits of a slot from its twelve bytes (R16). -/
def slotWord (bytes : List Byte) : BitVec 96 := BitVec.ofNat 96 (leNat (bytes.take 12))

/-- Decoding of a slot's bytes. -/
def decodeSlot (st : Stream) (bytes : List Byte) : Except DecodeError Instr := decode st (slotWord bytes)

/-- A word from its fields (R22). -/
def assemble (opc fn : Nat) (f : Fields) : BitVec 96 :=
  BitVec.ofNat 8 opc ++ BitVec.ofNat 6 fn ++ BitVec.ofBool f.sw ++ BitVec.ofBool f.neg ++ f.pg ++ f.d ++ f.sa ++ f.sb ++
    f.sc ++ f.lr ++ BitVec.ofBool f.useImm ++ f.md ++ f.imm

/-- The word of a stream instruction (R22, R35); none for an event. -/
def encode (i : Instr) : Option (BitVec 96) :=
  match i.word with
  | some (opc, fn, f) => some (assemble opc fn f)
  | none => none

/-- The words of a stream instruction as bytes, lowest first (R16). -/
def encodeBytes (i : Instr) : List Byte :=
  match encode i with
  | some w => leBytes 12 w.toNat
  | none => []

/-- The row that decoding gives back for a row: the rows of `rig` share one encoding (R326). -/
def Instr.decodesTo : Instr → Instr
  | .rigWinwr f | .rigWinclr f | .rigPmap f | .rigLock f | .rigGo f => .rigRerig f
  | i => i

/-- The instruction that the decoder reads from a word of the opcode table: laid out as twelve bytes and read as group
code, or, where group code has no such instruction, as cox code. -/
def decodeTableWord (nbits w : Nat) : Option Instr :=
  let bytes := leBytes 12 (w % 2 ^ (8 * ((nbits + 7) / 8)))
  match decodeSlot .group bytes with
  | .ok i => some i
  | .error _ =>
    match decodeSlot .cox bytes with
    | .ok i => some i
    | .error _ => none

/-- A line word's fields (R17). -/
def lineWord (line : BitVec 512) : Word32 := line.extractLsb' 480 32

/-- The 96 bits of slot `i` (R16). -/
def lineSlot (line : BitVec 512) (i : Nat) : BitVec 96 := line.extractLsb' (96 * i) 96

/-- TGT bit of a slot (R17, R20); slots 5 to 7 have none. -/
def lineTgt (line : BitVec 512) (slot : Nat) : Bool := slot < 5 && (lineWord line).getLsbD slot

/-- PAIR bit of a slot (R17, R21). -/
def linePair (line : BitVec 512) (slot : Nat) : Bool := slot < 4 && (lineWord line).getLsbD (5 + slot)

/-- Whether a number of one bits is odd, over the low `n` bits. -/
def oddBits (x : Nat) : Nat → Bool
  | 0 => false
  | n + 1 => Bool.xor (x % 2 == 1) (oddBits (x / 2) n)

/-- PAR and LPAR hold (R17, R18). -/
def lineParityOk (line : BitVec 512) : Bool :=
  !oddBits (lineWord line).toNat 32 &&
  (List.range 5).all fun i => oddBits (lineSlot line i).toNat 96 == (lineWord line).getLsbD (9 + i)

/-- STAMP is profile 1 and bits [31:23] are zero (R17, R18). -/
def lineStampOk (line : BitVec 512) : Bool := (lineWord line).extractLsb' 15 17 == 1

/-- The line word over five slots, with landing points and pairs (R17, R56). -/
def makeLineWord (slots : List (BitVec 96)) (tgt pair : Nat) : Word32 :=
  let par := (List.range 5).foldl
    (fun acc i => if oddBits (slots.getD i 0).toNat 96 then acc + 2 ^ (9 + i) else acc) 0
  let w := 2 ^ 15 + par + 32 * (pair % 16) + tgt % 32
  BitVec.ofNat 32 (if oddBits w 32 then w + 2 ^ 14 else w)

/-- A fetch line from five slots (R16). -/
def makeLine (slots : List (BitVec 96)) (tgt pair : Nat) : BitVec 512 :=
  let body := (List.range 5).foldl (fun acc i => acc + (slots.getD i 0).toNat * 2 ^ (96 * i)) 0
  BitVec.ofNat 512 (body + (makeLineWord slots tgt pair).toNat * 2 ^ 480)

end Sys2Proof
end

