-- ==== Sys2Proof/Config.lean ====
section
/-! DEFINITION. What is fixed for one part but not given by the specification, and the free values: constants with no
body, so that no proof can see them.

Marked in the assumption log: 3 (DESIGN CHOICE), 4 (DESIGN CHOICE). -/

namespace Sys2Proof.Config

/-- A consumer inside the latency window of R71 reads in each lane the old or the new value: bit `L` set picks the old
value. Arguments: the state's free-value counter, the operand field, the register. -/
opaque hazardChoice : Nat → Nat → Nat → Mask

/-- The `n`-th value drawn from a die's noise source (R292, entropy mode). -/
opaque entropyDraw : Nat → BitVec 16

/-- The fused SHA-256 hash of the firmware key (R403). -/
opaque fusedKeyHash : BitVec 256

/-- The loader's version, which MINLDR of an image is compared with (R51). -/
opaque loaderVersion : Word32

/-- The device's answer to an SPDM message: its identity and measurements (R403), from the request, the firmware digest,
the loader version and the fuse state. -/
opaque spdmAnswer : List Byte → BitVec 256 → Word32 → BitVec 256 → List Byte

/-- What an inside of a structure reads as where the specification gives no value: a fresh value per use of the
counter. -/
opaque freeWord : Nat → Word64

/-- The buffers of each router input of a die's network (R10 counts the free ones and gives no number). -/
opaque routerBuffers : Nat

end Sys2Proof.Config
end

