-- ==== Sys2Proof/Machine/State.lean ====
section
/-! DEFINITION. Everything the specification gives the machine, as plain data; the fault and refusal reasons; the state
right after reset. Each type's docstring cites the rule that names what it holds. Fields marked MODEL are the model's own
bookkeeping (assumptions 1 and 3).

Marked in the assumption log: 1 (DESIGN CHOICE), 2 (DESIGN CHOICE), 6 (DESIGN CHOICE), 16 (DESIGN CHOICE), 17
(DEDUCED), 18 (DEDUCED), 19 (DEDUCED), 26 (DESIGN CHOICE), 41 (DESIGN CHOICE), 43 (DEDUCED), 47 (DEDUCED). -/

namespace Sys2Proof.Machine

/-- Why the machine stops. -/
inductive Fault where
  /-- Raised by every turn but POWER_ON_BOOT while the 48 V input is absent: the device runs only while it is present
  (R404). Safe: the machine of the specification does not run either. -/
  | unpowered
  deriving DecidableEq, Repr

/-- Why a step has no meaning in a state. -/
inductive Refusal where
  /-- The instruction is not modelled: raised by an arm of `exec` alone. Safe. -/
  | notModelled (mnemonic : String)
  /-- `exec` of a stream instruction while no path or seat of the right kind issues. Safe: nothing can issue it. -/
  | noIssuer
  /-- `exec` of an event in a state in which the rule that governs it lets it not happen. Safe. -/
  | notEnabled
  deriving DecidableEq, Repr

/-- States of a path-table entry (R134). -/
inductive PathState where
  | ready | parked | splitStalled | replayable | handler | stopped
  deriving DecidableEq, Repr

/-- A valid path-table entry (R134). `since` is the cycle from which the path has been ready (R77); `begun` records that
the first part of the wait on which the path is parked is done (R202, R211), `goal` the phase that a barrier wait
targets, `rest` the lanes of a remote form that are not yet issued (R321); `holdNext` that a parked path is held when it would become ready (R386);
`byBrk` that `brk` holds it (R351); `moves` the team that the `ctxsave` with MOVE on which the path is parked puts away (R354). -/
structure Path where
  mask : Mask
  pc : VAddr
  lk : VAddr := 0
  shc : BitVec 3 := 0
  shm : Mask := 0
  st : PathState := .ready
  since : Nat := 0
  begun : Bool := false
  goal : Word32 := 0
  rest : Mask := 0
  holdNext : Bool := false
  byBrk : Bool := false
  moves : Option Nat := none
  deriving DecidableEq, Repr

/-- A mapped vector register (R61, R68, R72, R63). -/
structure VReg where
  lanes : Lanes
  uniform : Bool := false
  pending : Bool := false
  freeLater : Bool := false
  deriving DecidableEq, Repr

/-- A register that R71 speaks of. -/
inductive Reg where
  | v (n : Nat) | g (n : Nat) | p (n : Nat) | em
  deriving DecidableEq, Repr

/-- A fixed-latency result in flight (R71): the register, what it held before (a 64-bit value stands in lanes 0 and 1),
and for each path the issue events still to pass. -/
structure InFlight where
  reg : Reg
  old : Lanes
  wait : Vector Nat 8
  deriving DecidableEq, Repr

/-- Where a result goes. -/
inductive Dest where
  | none | vec (r n : Nat) | uni (r : Nat)
  deriving DecidableEq, Repr

/-- The tag of a line without its place (R165, R184) and the byte addresses that a lane reaches through it; or a byte of
scratch (core, offset), of the vault space, or of a window of the window table, which the line rules of R167 hold. -/
inductive Target where
  | line (tensor : Nat) (t0 t1 t2 t3 : Int) (sm repl : Bool)
  | scratch (cell : Nat)
  | vault (addr : Nat)
  deriving DecidableEq, Repr

/-- How far a lane of an access has come. `walk` waits for a translation, `ready` has its bytes (a load) or has passed
its checks (a store), `outside` waits for bytes of a peer, `scrubbing` waits for the clear of its page (R158), `faulted`
carries its fault code. -/
inductive LaneSt where
  | walk | ready | outside | scrubbing | faulted (code : BitVec 8)
  deriving DecidableEq, Repr

/-- The permissions of a leaf entry (R157). -/
structure Perm where
  r : Bool
  w : Bool
  x : Bool
  c : Bool
  sm : Bool
  red : Nat
  deriving DecidableEq, Repr

/-- One lane of an access or of a buffered store: its address (virtual, scratch or vault), its tag, its data. `pa` is the
physical address once translated, `head` that of the first byte of its line and `perm` the permissions of its page, with the SM
of the line's first page (R166, R167). `sub` is the sub-status of a fault 0x0C (R315), or 5 for a poisoned word of a slice
(R346). `data2` is the comparand's partner of `cas`. -/
structure LaneAcc where
  lane : Nat
  addr : Nat
  target : Target
  pa : Nat := 0
  head : Nat := 0
  perm : Perm := { r := true, w := true, x := false, c := true, sm := false, red := 0 }
  st : LaneSt := .walk
  sub : BitVec 4 := 0
  data : Nat := 0
  data2 : Nat := 0
  deriving DecidableEq, Repr

/-- What an access does (R175, R200, R322). -/
inductive AccKind where
  | load | store | atomic (fn : Nat) (ty : Nat) | remoteLoad | remoteAtomic (aop ty : Nat)
  deriving DecidableEq, Repr

/-- An access of a path: a load or atomic whose result has not arrived (R72, R342), or a store in the store buffer
(R178). `again` says that a handler has returned since its lanes faulted: they are performed again when a path reaches the
instruction that depends on them (R350). `na` marks the policy that allocates no line (R171). -/
structure Access where
  id : Nat
  kind : AccKind
  pc : VAddr
  path : Nat
  bytes : Nat
  sext : Bool := false
  dest : Dest := .none
  dead : Bool := false
  acq : Bool := false
  rel : Option Scope := none
  uniformEffect : Bool := false
  handle : Word32 := 0
  seqNo : Option Nat := none
  flags : BitVec 16 := 0
  again : Bool := false
  na : Bool := false
  lanes : List LaneAcc
  deriving DecidableEq, Repr

/-- A word of a group's state that an uncorrectable error may strike (R346, R347): a vector or uniform register, a predicate,
the path table, the trap state, the store buffer. -/
inductive GroupWord where
  | vec (n : Nat) | uni (n : Nat) | pred (n : Nat) | paths | trap | stores
  deriving DecidableEq, Repr

/-- The structure code of a word of a group's state (R346). -/
def GroupWord.code : GroupWord → Nat
  | .vec _ => 1
  | _ => 2

/-- The trap state of a group (R335, R342). -/
structure TrapState where
  rpc : VAddr := 0
  lk : VAddr := 0
  shc : BitVec 3 := 0
  shm : Mask := 0
  em : Mask := 0
  g60 : Word64 := 0
  g61 : Word64 := 0
  g62 : Word64 := 0
  g63 : Word64 := 0
  path : BitVec 3 := 0
  code : BitVec 8 := 0
  deriving DecidableEq, Repr

/-- A group of a team (R60, R134, R149, R335, R71, R73, R178, R197, R342, R193, R202, R12, R75). `fullSave` marks a group that
halts at the end of a drain window, `saved` one whose save is written (R339). -/
structure Group where
  role : Nat := 0
  ridx : Nat := 0
  sched : Nat := 0
  slot : Nat := 0
  vregs : List (Nat × VReg) := []
  g : Vector Word64 64
  gPend : Word64 := 0
  preds : Vector Word32 7
  em : Mask := BitVec.allOnes 32
  flags : BitVec 16 := 0
  paths : Vector (Option Path) 8
  item : Lanes
  trap : TrapState := {}
  tm : Bool := false
  held : Bool := false
  inflight : List InFlight := []
  sbuf : List Access := []
  pend : List Access := []
  unack : Vector Nat 4
  counters : Vector Nat 6
  lastPhase : Vector Word32 16
  owed : Vector Bool 16
  ended : Bool := false
  killed : Bool := false
  descheduled : Bool := false
  noReplay : Bool := false
  seqs : List Nat := []
  windowFail : Option (BitVec 4) := none
  rfenceAt : Option Nat := none
  broken : Option (GroupWord × Nat) := none
  fullSave : Bool := false
  saved : Bool := false
  deriving DecidableEq, Repr

/-- A team barrier (R202). -/
structure Barrier where
  phase : Word32 := 0
  arrived : Word32 := 0
  mask : BitVec 4 := 0
  deriving DecidableEq, Repr

/-- A scratch barrier (R203). -/
structure ScratchBarrier where
  expected : Word32 := 0
  credited : Word32 := 0
  deriving DecidableEq, Repr

/-- An entry of a role channel (R208). -/
structure ChannelEntry where
  words : Lanes
  mask : Mask
  sender : Nat
  deriving DecidableEq, Repr

/-- A role channel: its entries, the groups that closed it, its error bit (R208). -/
structure Channel where
  entries : List ChannelEntry := []
  closed : Word32 := 0
  error : Bool := false
  deriving DecidableEq, Repr

/-- A refill queue (R149). -/
structure RefillQueue where
  depth : Nat
  items : List Word32 := []
  open_ : Bool := true
  deriving DecidableEq, Repr

/-- The states of a fork set (R269). -/
inductive SetState where
  | open | ended | checking | committing | conflicted | aborting
  deriving DecidableEq, Repr

/-- A team's fork set: its children by child index and view, those that a kill ended, the conflict found (R269, R274); the granules that
its commit has written so far, and the flags that the folds have raised (R271, R275). -/
structure ForkSet where
  st : SetState
  children : List (Nat × Nat)
  live : List Nat
  killed : List Nat := []
  conflict : Word64 := 0
  low : Word32 := 0
  high : Word32 := 0
  fresh : Bool := true
  flags : BitVec 16 := 0
  done : List Nat := []
  waiters : List Nat := []
  deriving DecidableEq, Repr

/-- A reduction declaration of a team (R282). -/
structure Rpage where
  base : Nat
  len : Nat
  op : Nat
  deriving DecidableEq, Repr

/-- States of a seat (R230). -/
inductive SeatState where
  | running | parked | stalled | trapped | exited
  deriving DecidableEq, Repr

/-- An address stream of the loop-nest unit (R235). -/
structure LoopStream where
  enabled : Bool := false
  base : Word64 := 0
  coef : Vector Word32 4
  dest : Nat := 0
  deriving DecidableEq, Repr

/-- Tags of an accumulator element (R241). -/
inductive Tag where
  | finite | posInf | negInf | nan
  deriving DecidableEq, Repr

/-- A physical accumulator slot in use (R241, R247): the team of the seat that holds it, whether `arel` has unbound it, the
batch of the last `mma` on it since it was emptied, the common exponent where the slot is not empty, its elements in row order
(an empty list stands for elements that are all zero and finite), and the location of an uncorrectable error in it (R347). -/
structure Slot where
  team : Nat
  released : Bool := false
  wrote : Option Word32 := none
  exp : Option Int := none
  f : List Int := []
  tags : List Tag := []
  broken : Option Nat := none
  deriving DecidableEq, Repr

/-- What an operation of a seat does, with its register operands as read at issue (R252, R253). -/
inductive MatKind where
  | mma (fn : Nat) (sp : Bool) (a b sc : Word64) (scl : Bool) (selA selB : Nat)
  | azero
  | afin (bf16 : Bool) (dst : Word64)
  deriving DecidableEq, Repr

/-- An operation that a seat has issued and that is not complete (R230, R256): its instruction, accumulator, core, slot and
batch. Once it has started it holds the bytes of its operands; where the latch gives it A (R249), it holds A and the A scales
from its issue. -/
structure MatOp where
  id : Nat
  kind : MatKind
  pc : VAddr
  acc : Nat
  core : Nat
  slot : Option Nat
  batch : Word32
  started : Bool := false
  latched : Bool := false
  a : List Byte := []
  b : List Byte := []
  sa : List Byte := []
  sb : List Byte := []
  deriving DecidableEq, Repr

/-- What a stalled seat waits for (R230, R246, R249, R256, R397): a slot of a core, room in a core's queue, a core's latch, bytes of
the save area. -/
inductive SeatWait where
  | slot (core : Nat) | queue (core : Nat) | latch (core : Nat) | room (bytes : Nat)
  deriving DecidableEq, Repr

/-- A seat bound to a team (R230, R235, R255, R257): `opened` says that it has issued operations since its last `mbatch`,
`waits` what it is stalled for (R248, R256), `latches` what a saved seat keeps of the latches that it owned, by core (R261),
`entryFault` that it is trapped at an operation that is to be entered again (R258). -/
structure Seat where
  num : Nat
  cluster : Nat
  c : Vector Word64 64
  pc : VAddr
  lk : VAddr := 0
  preds : BitVec 7 := 0
  flags : BitVec 16 := 0
  bounds : Vector Word32 4
  ind : Vector Word32 4
  streams : Vector LoopStream 8
  n : Word32 := 0
  k : Word32 := 0
  cycles : Nat := 0
  batchFlags : List (Word32 × BitVec 16) := []
  accs : List (Nat × Nat × Nat) := []
  ops : List MatOp := []
  opened : Bool := false
  waits : Option SeatWait := none
  st : SeatState := .running
  seqs : List Nat := []
  deferred : Option VAddr := none
  broken : Bool := false
  entryFault : Bool := false
  latches : List (Nat × Nat × Bool × List Byte × List Byte) := []
  issued : Nat := 0
  deriving DecidableEq, Repr

/-- Whether a team waits for a core (a child that `fork` created, R269), is on its core, saved, or moved out by `ctxsave`
(R338, R341, R354). -/
inductive TeamStatus where
  | waiting | resident | draining | saved | movedOut
  deriving DecidableEq, Repr

/-- A team (R11, R202, R203, R208, R149, R269, R282, R386, R230). `arg0` and `arg1` are what g0 and g1 of its groups start
with (R279, R395); `joined` holds what each path parked on a `join` that has been decided is to receive (R280); `drainEnd` is the cycle
at which its drain window ends (R339). A saved team keeps the bytes of its window, the poisoned words among them, and its slots by
core and number (R341, R261). -/
structure Team where
  grid : Nat
  crew : Nat
  x : Nat
  y : Nat
  core : Nat
  winBase : Nat
  winSize : Nat
  view : Nat
  child : Option Nat := none
  parent : Option Nat := none
  desc : Nat
  arg0 : Word64 := 0
  arg1 : Word64 := 0
  joined : List (Nat × Word64 × BitVec 16) := []
  floors : List (Nat × Nat × Nat) := []
  admitted : Nat := 0
  groups : List Group := []
  barriers : Vector Barrier 16
  sbars : Vector ScratchBarrier 8
  channels : Vector Channel 4
  refill : Option RefillQueue := none
  seat : Option Seat := none
  forkSet : Option ForkSet := none
  aborted : Bool := false
  rpages : List Rpage := []
  stepMode : Bool := false
  status : TeamStatus := .resident
  drainEnd : Nat := 0
  window : Mem := []
  windowBad : List Nat := []
  slots : List (Nat × Nat × Slot) := []
  ended : Bool := false
  killed : Bool := false
  deriving DecidableEq, Repr

/-- The stage of a launch (R395, R396, R276). -/
inductive GridState where
  | waiting | ready | running | joining | done
  deriving DecidableEq, Repr

/-- An edge of a launch record (R393). -/
structure Edge where
  queue : Nat
  delta : Nat
  base : Nat
  len : Nat
  deriving DecidableEq, Repr

/-- A grid in flight (R393 to R396, R355). -/
structure Grid where
  vf : Nat
  queue : Nat
  seq : Word64
  crew : Nat
  set : Nat
  image : Nat
  kdesc : Nat
  cdesc : Option Nat
  gx : Nat
  gy : Nat
  arg0 : Word64
  arg1 : Word64
  prio : Nat
  det : Bool
  resv : Nat
  nitem : Nat
  handed : Nat := 0
  edges : List Edge := []
  floors : List (Nat × Nat × Nat)
  order : Nat
  launchView : Nat := 0
  st : GridState := .waiting
  placed : Nat := 0
  teamsEnded : Nat := 0
  killed : Bool := false
  killedTeams : List Nat := []
  notStarted : List Nat := []
  cause : Nat := 0
  vacated : List Nat := []
  views : List (Nat × Nat) := []
  retry : Bool := false
  deriving DecidableEq, Repr

/-- The kind of an engine, sampler or remote command (R193, R213, R294, R319). -/
inductive CmdKind where
  | copy (yield : Bool) (budget : Nat)
  | gather (scatter : Bool) (esz : Nat) (list : Nat)
  | coll (op : Nat) (ident n rank : Nat)
  | wbr (inv : Bool) (all : Bool) (tensor : Nat)
  | post (box : Nat)
  | take (box : Nat)
  | sampler (fn : Nat) (sub : Nat) (crew die : Nat) (first cnt : Nat) (b c : Word64)
  | remote (fn : Nat) (ty aop : Nat) (peer : Nat) (bg pkg : Bool)
  | rfence
  deriving DecidableEq, Repr

/-- The progress of a command (R193, R218, R221, R228): waiting to start or to arrive, arrived at its collective,
performing, stopped by a fault, complete. -/
inductive CmdState where
  | waiting | arrived | running | faulted (code : BitVec 8) | complete
  deriving DecidableEq, Repr

/-- A command outstanding (R193): its issuer, instruction, operands, bytes done of its length and, for an engine command,
the source bytes as the group read them at issue, absent where the read faults. `acked` marks a collective whose result is
formed, and a sampler command that has been replayed; `desc` a copy that goes down, and a sampler command that could not read all of
its source at issue. `dstWin` and `srcWin` are the teams in whose scratch windows the ranges of a saved command lie, and where those windows began at the
save (R229). -/
structure Command where
  team : Nat
  group : Nat
  path : Nat
  pc : VAddr
  cls : Nat
  fn : Nat
  kind : CmdKind
  scope : Scope
  dsp : Nat := 0
  ssp : Nat := 0
  dst : Nat := 0
  src : Nat := 0
  len : Nat := 0
  done : Nat := 0
  desc : Bool := false
  credit : Option (Nat × Nat) := none
  ctl : Word32 := 0
  dreg : Option Nat := none
  st : CmdState := .waiting
  data : List (Option Byte) := []
  idx : List Nat := []
  yieldAt : Option Nat := none
  sweeps : Nat := 0
  colour : Nat := 0
  access : Option Nat := none
  seqNo : Option Nat := none
  flags : BitVec 16 := 0
  acked : Bool := false
  born : Nat := 0
  dstWin : Option (Nat × Nat) := none
  srcWin : Option (Nat × Nat) := none
  deriving DecidableEq, Repr

/-- A translation entry, tagged by crew and page size (R156, R345). -/
structure TlbEntry where
  crew : Nat
  base : Nat
  size : Nat
  pa : Nat
  perm : Perm
  deriving DecidableEq, Repr

/-- A page walk in flight (R345). -/
structure Walk where
  die : Nat
  core : Nat
  crew : Nat
  page : Nat
  cancelled : Bool := false
  deriving DecidableEq, Repr

/-- Whose write a dirty byte of a window is (R315): a store of a group, or a command of it, named by the path and instruction that
issued it. -/
structure LineOwner where
  group : GroupRef
  path : Nat
  pc : VAddr
  engine : Bool
  deriving DecidableEq, Repr

/-- A byte that a line holds: its physical address, value and dirty mark (R168), and, for a byte of a window, whose write it is
(R315). -/
structure LineByte where
  pa : Nat
  val : Byte
  dirty : Bool
  owner : Option LineOwner := none
  deriving DecidableEq, Repr

/-- A held tile line: its bytes by virtual address and its class (R165 to R168); `wc` says that it stands in a write-combining
buffer alone and leaves once it is written back (R171). -/
structure Line where
  cells : List (Nat × LineByte) := []
  sm : Bool := false
  wc : Bool := false
  deriving DecidableEq, Repr

/-- A unit of memory that an uncorrectable error has poisoned (R347): 32 bytes of HBM, or a 64-bit word of SRAM: scratch,
vault, or a held tile line, whose words are numbered by virtual address. -/
inductive PoisonUnit where
  | hbm (unit : Nat) | scratch (word : Nat) | vault (word : Nat) | slice (line : LineKey) (word : Nat)
  deriving DecidableEq, Repr

/-- A soft error (R346, R347): one that is corrected, with its structure code and location; an uncorrectable one by where it
stands, with its location; a parity error of the entry that a first-level TLB or a die's translation cache holds for an
address of a crew (R345). -/
inductive SoftError where
  | corrected (die code : Nat) (loc : BitVec 56)
  | memory (unit : PoisonUnit)
  | group (g : GroupRef) (word : GroupWord) (loc : Nat)
  | slot (core slot loc : Nat)
  | sampler (crew die loc : Nat)
  | tlb (core crew va : Nat)
  | tcache (die crew va : Nat)
  deriving DecidableEq, Repr

/-- A view other than the root (R263, R265, R266). -/
structure View where
  parent : Nat
  depth : Nat
  child : Nat
  team : Nat
  resv : Nat := 0
  rpages : List Rpage := []
  deriving DecidableEq, Repr

/-- A pool granule held by a child (R265, R267, R271): its number in the pool (assumption 37), private copy, twin (none on a reduction
page, whose operator `op` is), and the bytes written. -/
structure Granule where
  place : Nat := 0
  view : Nat
  addr : Nat
  priv : List Byte
  twin : List Byte
  op : Nat
  wrote : Nat
  pa : Nat
  deriving DecidableEq, Repr

/-- What a record names for replay (R334). -/
inductive RecSource where
  | group (team gi : Nat) | seat (team : Nat) | command (id : Nat) | grid (id : Nat) | nothing
  deriving DecidableEq, Repr

/-- A record that waits for room in a fault queue, and its source (R333). -/
structure Held where
  record : BitVec 512
  source : RecSource
  deriving DecidableEq, Repr

/-- A loaded image (R51, R49): handle, class, whether it holds system privilege, code bases, lines, descriptors (as raw
64-byte words) with translated entries and burst ranges. -/
structure Image where
  handle : Nat
  cls : BitVec 3
  svn : Word32
  groupBase : VAddr
  coxBase : VAddr
  descs : List (BitVec 512)
  entries : List VAddr
  bursts : List (List (Nat × Nat))
  deriving DecidableEq, Repr

/-- A trace ring (R379 to R381, R388): `since` counts the packets since the last sync, `synced` says that one has been written
since the ring was enabled. -/
structure Ring where
  base : Nat := 0
  ctl : BitVec 4 := 0
  log : Nat := 16
  on : Bool := false
  head : Word64 := 0
  tail : Word64 := 0
  lost : Nat := 0
  since : Nat := 0
  synced : Bool := false
  last : Nat := 0
  deriving DecidableEq, Repr

/-- A probabilistic cell that differs from its reset state (R289). -/
structure Cell where
  state : Bool := false
  bias : BitVec 16 := 0
  nbrs : List (Nat × BitVec 8) := []
  colour : BitVec 3 := 0
  clamp : Bool := true
  counter : BitVec 16 := 0
  deriving DecidableEq, Repr

/-- A sampler context (R288): unlisted cells are in their reset state; `table` is none for the default table. -/
structure Sampler where
  cells : List (Nat × Cell) := []
  beta : BitVec 16 := 0x0100
  seed : Word64 := 0
  s : Word32 := 0
  table : Option (List (BitVec 16)) := none
  entropy : Bool := false
  csat : Bool := false
  q : Nat := 0
  broken : Option Nat := none
  deriving DecidableEq, Repr

/-- What belongs to a crew (R352, R359, R378, R156, R161, R263, R265, R52, R158, R402). -/
structure Crew where
  set : Option Nat := none
  cls : BitVec 3 := 0
  root : Word64 := 0
  trapvec : VAddr := 0
  trapen : Word64 := 0
  fqbase : Word64 := 0
  fqlog : Nat := 6
  fqhead : Word64 := 1
  fqtail : Word64 := 1
  heldRecs : List Held := []
  savebase : Word64 := 0
  savesize : Word64 := 0
  drainwin : Nat := 4096
  drainwinHeat : Nat := 4096
  ovrcnt : Nat := 0
  recSize : Nat := 0
  recBase : Word64 := 0
  records : List (Nat × BitVec 512) := []
  views : List (Nat × View) := []
  poolBase : Word64 := 0
  poolSize : Nat := 0
  granules : List Granule := []
  keys : List (Nat × PublicKey) := []
  floors : List (Nat × Word32) := []
  images : List Image := []
  unscrubbed : List Nat := []
  clearing : List Nat := []
  pages : List Nat := []
  rings : List (Nat × Ring) := []
  samplers : List (Nat × Sampler) := []
  idleSince : Nat := 0
  donated : Bool := false
  spent : List Nat := []
  deriving DecidableEq, Repr

/-- A launch queue (R392, R398): the ring bases and sizes, the four indices, the last SEQ consumed, the counts whose completion
record is written, the completed SEQs with their outcome (for edges), the completions that wait for room, and the views from which
unconsumed records were launched (R276). -/
structure Queue where
  cfg : QueueConfig
  tail : Word64 := 0
  cons : Word64 := 0
  chead : Word64 := 0
  ctail : Word64 := 0
  lastSeq : Option Word64 := none
  done : List Nat := []
  outcomes : List (Word64 × Nat) := []
  heldDone : List (Nat × BitVec 256) := []
  views : List (Nat × Nat) := []
  deriving DecidableEq, Repr

/-- A virtual function (R360, R361, R392). -/
structure Function where
  inc : BitVec 16 := 0
  drop : BitVec 16 := 0
  en : Bool := false
  crew : BitVec 6 := 0x3F
  paused : Bool := false
  pending : List (Nat × BitVec 16) := []
  queues : List (Nat × Queue) := []
  lastQueue : Nat := 7
  deriving DecidableEq, Repr

/-- The states of a core octet (R366). -/
inductive OctetState where
  | running | draining | drained | saving | clearing
  deriving DecidableEq, Repr

/-- A row in which nothing has an owner: that of a die set without a table, no crew of which runs (R362). -/
def noRow : BitVec 2048 := BitVec.ofNat 2048 (2 ^ 1568 - 2 ^ 128 + 0x3F00)

/-- A die set's heat table and scheduler (R362, R374, R365, R370, R376, R395): `current` is the row of the current heat with its
donations applied, `opened` the crews whose drain window before the coming edge has opened, `donations` the crews that donate with
the cycle at which their resources pass. -/
structure HeatTable where
  active : List (BitVec 2048) := []
  shadow : List (Nat × BitVec 2048) := []
  row : Nat := 0
  started : Nat := 0
  pendingN : Option Nat := none
  current : BitVec 2048 := noRow
  opened : List Nat := []
  donations : List (Nat × Nat) := []
  lastVf : Nat := 511
  deriving DecidableEq, Repr

/-- The personality states of a rigger (R311, R312). -/
inductive RigState where
  | offline | training | live | draining
  deriving DecidableEq, Repr

/-- Port-lock states (R311). -/
inductive RigLock where
  | open | locked | running | error
  deriving DecidableEq, Repr

/-- What a request asks of a peer (R319); `probe` is that of an `rfence` (R318). -/
inductive RigOp where
  | read | write | atomic (aop ty : Nat) | probe
  deriving DecidableEq, Repr

/-- A request toward a peer (R310, R313, R318, R322): its crew and group, the command or access behind it and the lane, what
it asks at which physical address of a window, its tier and arrival, and the rigger on which it was sent. `lane` is the index of
the source byte for a read of an engine command. `forced` marks a
write-back that a drain forces. A write-back has no group behind it, and names in `owner` whose write it carries. `lostAt` is the
cycle from which its crew has not owned the rigger's lanes (R310), `value` the value of the plane map with which it was sent
(R317). -/
structure RigRequest where
  crew : Nat
  group : Option GroupRef := none
  cmd : Option Nat := none
  access : Option Nat := none
  lane : Nat := 0
  op : RigOp
  pa : Nat
  len : Nat
  data : Nat := 0
  data2 : Nat := 0
  tier : Nat
  arrived : Nat
  forced : Bool := false
  sent : Option Nat := none
  lostAt : Option Nat := none
  value : Option Nat := none
  owner : Option LineOwner := none
  deriving DecidableEq, Repr

/-- A rigger (R311, R312, R314). -/
structure Rigger where
  st : RigState := .offline
  phase : BitVec 2 := 0
  lock : RigLock := .open
  rig : BitVec 2 := 0
  target : BitVec 2 := 0
  err : BitVec 8 := 0
  failcnt : BitVec 16 := 0
  began : Nat := 0
  deriving DecidableEq, Repr

/-- A packet on a die's network (R9, R10, R14): its crew and view, the router at which it stands and the one to which it goes, and,
while it travels on a ring, that ring: along x or along y, with rising coordinates or with falling ones. A packet on no ring is held
at an entry since `arrived`; `priority` says that it has been held for 64 cycles. -/
structure Packet where
  die : Nat
  crew : Nat
  view : Nat
  x : Nat
  y : Nat
  dx : Nat
  dy : Nat
  ring : Option (Bool × Bool) := none
  arrived : Nat
  priority : Bool := false
  deriving DecidableEq, Repr

/-- A die (R357, R352, R404). -/
structure Die where
  size : BitVec 2 := 3
  base : BitVec 3 := 0
  ecccnt : Word32 := 0
  ecclast : Word64 := 0
  idle : Nat := 0
  hot : Bool := false
  tcache : List TlbEntry := []
  deriving DecidableEq, Repr

/-- A core (R18, R67, R156, R242 to R249, R256, R385): `lastUsed` holds the cycle at which each scheduler last used each issue
engine (R77). -/
structure Core where
  icache : List (Nat × Nat × BitVec 512) := []
  tlb : List TlbEntry := []
  reserve : Option GroupRef := none
  slots : List (Nat × Slot) := []
  queue : List (Nat × Nat) := []
  latch : Option (Nat × Nat × Bool × List Byte × List Byte) := none
  counters : List (Nat × Nat × Word64) := []
  stalled : List GroupRef := []
  lastUsed : List ((Nat × Nat) × Nat) := []
  deriving DecidableEq, Repr

/-- A mailbox (R224). -/
structure Mailbox where
  crew : Nat
  messages : List (List Byte) := []
  deriving DecidableEq, Repr

/-- The state of the boot ROM and loader (R403, R404). -/
inductive Boot where
  | waiting | recovery (reason : Nat) | running | unpowered
  deriving DecidableEq, Repr

/-- What leaves the part over the host port (R361, R394, R403): an MSI-X message, or the answer to a host command. -/
inductive HostOut where
  | msix (vf vector : Nat)
  | status (code : Nat)
  | bytes (data : List Byte)
  | spdm (data : List Byte)
  deriving DecidableEq, Repr

/-- What leaves the part over a rigger (R312 to R324): a request sent, or an answer to a peer. -/
inductive PeerOut where
  | request (rigger peer off : Nat) (op : RigOp) (data data2 : Nat)
  | answer (rigger : Nat) (data : List Byte)
  deriving DecidableEq, Repr

/-- Who issues: a path, a seat, or nobody. MODEL (assumption 1). -/
inductive Issuer where
  | none | path (p : PathRef) | seat (team : Nat)
  deriving DecidableEq, Repr

/-- What moves next. MODEL (assumption 1): a path or seat issues, a path issues an instruction whose loads another turn performs
(R186), such an access is performed, a scheduler issues the path that R77 picks, a cycle of a core
or of a seat is counted (R385), an event of the opcode table happens, a slice evicts a line or
fills a byte of one, a rigger sends its next request, a packet comes to the entry of a ring or moves (R10), a soft error
strikes, or cycles pass. -/
inductive Turn where
  | issuePath (p : PathRef)
  | issueLate (p : PathRef)
  | perform (g : GroupRef) (access : Nat)
  | schedule (core sched : Nat)
  | countCycle (core : Nat)
  | countSeat (team : Nat)
  | issueSeat (team : Nat)
  | event (i : Instr)
  | evict (k : LineKey)
  | fill (k : LineKey) (va : Nat)
  | sendSlot (rigger : Nat)
  | holdPacket (packet : Packet)
  | movePacket (packet : Nat)
  | soft (e : SoftError)
  | wait (cycles : Nat)
  deriving DecidableEq, Repr

/-- The whole machine. `late` says that the loads of the issuing instruction are performed by a later turn. MODEL
(assumption 1). -/
structure State where
  turns : List Turn
  issuer : Issuer
  late : Bool
  fresh : Nat
  nextId : Nat
  clock : Nat
  boot : Boot
  firmware : BitVec 256
  powerLimit : Bool
  dies : List (Nat × Die)
  cores : List (Nat × Core)
  crews : List (Nat × Crew)
  functions : List (Nat × Function)
  heats : List (Nat × HeatTable)
  octets : List (Nat × OctetState × Nat)
  grids : List (Nat × Grid)
  teams : List (Nat × Team)
  cmds : List (Nat × Command)
  walks : List (Nat × Walk)
  hbm : Mem
  hostMem : Mem
  poison : List PoisonUnit
  replReads : List (LineKey × List (Nat × Nat))
  scratch : Mem
  vault : Mem
  vaultCrew : List (Nat × Nat)
  lines : List (LineKey × Line)
  mailboxes : List (Nat × Mailbox)
  windows : List (Nat × BitVec 128)
  planes : Word64
  planesNext : List (Nat × Nat)
  riggers : List (Nat × Rigger)
  requests : List (Nat × RigRequest)
  peers : List (Nat × Word64 × Word64)
  packets : List (Nat × Packet)
  hostErrors : Nat
  hostLog : List HostOut
  peerLog : List PeerOut
  deriving DecidableEq, Repr

/-- The machine right after reset: the boot ROM waits for firmware (R403), every register at the value its rule gives, and
where none does at the value of assumption 2; nothing is placed, launched or held. -/
def State.reset : State where
  turns := []
  issuer := .none
  late := false
  fresh := 0
  nextId := 1
  clock := 0
  boot := .waiting
  firmware := 0
  powerLimit := false
  dies := []
  cores := []
  crews := []
  functions := []
  heats := []
  octets := []
  grids := []
  teams := []
  cmds := []
  walks := []
  hbm := []
  hostMem := []
  poison := []
  replReads := []
  scratch := []
  vault := []
  vaultCrew := []
  lines := []
  mailboxes := []
  windows := []
  planes := 0
  planesNext := []
  riggers := []
  requests := []
  peers := []
  packets := []
  hostErrors := 0
  hostLog := []
  peerLog := []

end Sys2Proof.Machine
end

