-- ==== Sys2Proof/Machine/Basics.lean ====
section
/-! DEFINITION. Reading and changing the parts of the state, one operation per part; numbering and die sets (R5, R6, R357,
R363). -/

namespace Sys2Proof.Machine

namespace State

/-- A die (R5). -/
def die (s : State) (d : Nat) : Die := (aget d s.dies).getD {}

/-- Set a die. -/
def setDie (s : State) (d : Nat) (x : Die) : State := { s with dies := aput d x s.dies }

/-- A core. -/
def core (s : State) (n : Nat) : Core := (aget n s.cores).getD {}

/-- Set a core. -/
def setCore (s : State) (n : Nat) (x : Core) : State := { s with cores := aput n x s.cores }

/-- A crew. -/
def crew (s : State) (c : Nat) : Crew := (aget c s.crews).getD {}

/-- Set a crew. -/
def setCrew (s : State) (c : Nat) (x : Crew) : State := { s with crews := aput c x s.crews }

/-- A virtual function. -/
def func (s : State) (v : Nat) : Function := (aget v s.functions).getD {}

/-- Set a virtual function. -/
def setFunc (s : State) (v : Nat) (x : Function) : State := { s with functions := aput v x s.functions }

/-- The heat table of the die set with a first die. -/
def heat (s : State) (set : Nat) : HeatTable := (aget set s.heats).getD {}

/-- Set a heat table. -/
def setHeat (s : State) (set : Nat) (x : HeatTable) : State := { s with heats := aput set x s.heats }

/-- A rigger. -/
def rigger (s : State) (k : Nat) : Rigger := (aget k s.riggers).getD {}

/-- Set a rigger. -/
def setRigger (s : State) (k : Nat) (x : Rigger) : State := { s with riggers := aput k x s.riggers }

/-- A window entry (R308). -/
def window (s : State) (k : Nat) : BitVec 128 := (aget k s.windows).getD 0

/-- A team. -/
def team (s : State) (t : Nat) : Option Team := aget t s.teams

/-- Set a team. -/
def setTeam (s : State) (t : Nat) (x : Team) : State := { s with teams := aput t x s.teams }

/-- Change a team that is present. -/
def modTeam (s : State) (t : Nat) (f : Team → Team) : State := { s with teams := amod t f s.teams }

/-- A group of a team. -/
def group (s : State) (t gi : Nat) : Option Group := (s.team t).bind fun x => x.groups[gi]?

/-- Change a group of a team. -/
def modGroup (s : State) (t gi : Nat) (f : Group → Group) : State :=
  s.modTeam t fun x => { x with groups := x.groups.modify gi f }

/-- Set a group of a team. -/
def setGroup (s : State) (t gi : Nat) (g : Group) : State := s.modGroup t gi fun _ => g

/-- A grid in flight. -/
def grid (s : State) (i : Nat) : Option Grid := aget i s.grids

/-- Change a grid that is present. -/
def modGrid (s : State) (i : Nat) (f : Grid → Grid) : State := { s with grids := amod i f s.grids }

/-- Change a command that is present. -/
def modCmd (s : State) (i : Nat) (f : Command → Command) : State := { s with cmds := amod i f s.cmds }

/-- Change the seat of a team. -/
def modSeat (s : State) (t : Nat) (f : Seat → Seat) : State :=
  s.modTeam t fun x => { x with seat := x.seat.map f }

/-- Change a crew. -/
def modCrew (s : State) (c : Nat) (f : Crew → Crew) : State := s.setCrew c (f (s.crew c))

/-- Change a core. -/
def modCore (s : State) (n : Nat) (f : Core → Core) : State := s.setCore n (f (s.core n))

/-- A fresh identity and the state that has used it. -/
def newId (s : State) : Nat × State := (s.nextId, { s with nextId := s.nextId + 1 })

end State

/-- The die of a core (R5). -/
def dieOf (core : Nat) : Nat := core / 64

/-- The cluster of a core (R5). -/
def clusterOf (core : Nat) : Nat := core / 32

/-- The octet of a core (R363). -/
def octetOf (core : Nat) : Nat := core / 8

/-- The dies of a die set from its size code and first die (R357). -/
def setDies (size : BitVec 2) (base : Nat) : List Nat := upFrom base (2 ^ size.toNat)

/-- The dies of the set that a die stands in. -/
def State.setOf (s : State) (d : Nat) : List Nat := setDies (s.die d).size (s.die d).base.toNat

/-- The dies of a crew's die set (R359). -/
def State.crewDies (s : State) (c : Nat) : List Nat :=
  match (s.crew c).set with
  | some b => s.setOf b
  | none => []

/-- Whether two crews are bound to one die set. -/
def State.sameSet (s : State) (a b : Nat) : Bool :=
  match (s.crew a).set, (s.crew b).set with
  | some x, some y => s.setOf x == s.setOf y
  | _, _ => false

/-- The ring and cross neighbours of a die: lower ring, higher ring, cross (R6). -/
def neighbours (d : Nat) : List Nat :=
  match d with
  | 0 => [1, 4, 7] | 1 => [0, 2, 6] | 2 => [1, 3, 5] | 3 => [2, 7, 4]
  | 4 => [0, 5, 3] | 5 => [4, 6, 2] | 6 => [5, 7, 1] | _ => [3, 6, 0]

/-- The CLOSED field of a die's firewall register (R357): a link is closed when its other end lies outside the set. -/
def State.closedLinks (s : State) (d : Nat) : BitVec 3 :=
  let out := (neighbours d).map fun e => !(s.setOf d).contains e
  BitVec.ofBool (out.getD 2 false) ++ BitVec.ofBool (out.getD 1 false) ++ BitVec.ofBool (out.getD 0 false)

/-- The firewall register of a die as the host reads it (R357). -/
def State.firewall (s : State) (d : Nat) : Word32 :=
  ((s.die d).size ++ (s.die d).base ++ s.closedLinks d).setWidth 32

/-- All routes between two dies over open links, by length: a breadth-first step at a time (R7). `fuel` bounds the
length. -/
def routesFrom (dies : List Nat) (b : Nat) : Nat → List Nat → List (List Nat)
  | 0, path => if path.head? = some b then [path.reverse] else []
  | fuel + 1, path =>
    match path.head? with
    | none => []
    | some a =>
      if a = b then [path.reverse]
      else (dies.filter fun d => (neighbours a).contains d && !path.contains d).flatMap fun d =>
        routesFrom dies b fuel (d :: path)

/-- The fixed route from die `a` to die `b` within a list of dies: the shortest; of two, the one whose first intermediate
die is lower (R7). -/
def route (dies : List Nat) (a b : Nat) : Option (List Nat) :=
  (routesFrom dies b 8 [a]).foldl (fun best r =>
    match best with
    | none => some r
    | some q => if r.length < q.length || (r.length = q.length && r.getD 1 0 < q.getD 1 0) then some r else some q) none

/-- A six-bit owner field of a row: the crew, or none for 0x3F (R363). -/
def rowOwner (row : BitVec 2048) (lo : Nat) : Option Nat :=
  let v := (row.extractLsb' lo 6).toNat
  if v = 0x3F then none else some v

/-- The owner of a core octet in a row (R363). -/
def rowOct (row : BitVec 2048) (o : Nat) : Option Nat := rowOwner row (128 + 6 * o)

/-- The owner of way `w` in every slice of die `d` (R363). -/
def rowWay (row : BitVec 2048) (d w : Nat) : Option Nat := rowOwner row (512 + 6 * (16 * d + w))

/-- The owner of sampler quarter `q` of die `d` (R363). -/
def rowQtr (row : BitVec 2048) (d q : Nat) : Option Nat := rowOwner row (1280 + 6 * (4 * d + q))

/-- The owner of a rigger (R363). -/
def rowRig (row : BitVec 2048) (r : Nat) : Option Nat := rowOwner row (1472 + 6 * r)

/-- The length of a row's heat (R363). -/
def rowLen (row : BitVec 2048) : Nat := 2 ^ (row.extractLsb' 0 5).toNat

/-- The donation policy of a row (R363). -/
def rowPol (row : BitVec 2048) : Nat := (row.extractLsb' 14 2).toNat

/-- The donee of a row (R363). -/
def rowDonee (row : BitVec 2048) : Option Nat := rowOwner row 8

/-- The quarters of a die that a crew holds in a row, ascending (R285). -/
def rowQuarters (row : BitVec 2048) (crew d : Nat) : List Nat := (List.range 4).filter fun q => rowQtr row d q == some crew

/-- The row of the current heat of a crew's die set, donations applied (R362, R370). -/
def State.currentRow (s : State) (crew : Nat) : BitVec 2048 :=
  match (s.crew crew).set with
  | some b => (s.heat b).current
  | none => noRow

/-- Whether a crew owns the octet of a core in the current heat (R363). -/
def State.ownsCore (s : State) (crew core : Nat) : Bool := rowOct (s.currentRow crew) (octetOf core) == some crew

/-- Whether a crew owns any core octet now (R360). -/
def State.crewRuns (s : State) (crew : Nat) : Bool :=
  (List.range 64).any fun o => rowOct (s.currentRow crew) o == some crew

/-- The state of an octet (R366). -/
def State.octet (s : State) (o : Nat) : OctetState := ((aget o s.octets).map Prod.fst).getD .running

/-- The identifier of a team's view (R263). -/
def State.viewId (s : State) (crew view : Nat) : Word32 :=
  BitVec.ofNat 32 (((aget view (s.crew crew).views).map View.depth).getD 0 * 65536 + view)

/-- Whether a child's or a parent's open set freezes a team's view (R269, R264). -/
def Team.frozen (t : Team) : Bool := t.forkSet.isSome

/-- The image of a grid. -/
def State.gridImage (s : State) (g : Grid) : Option Image := (s.crew g.crew).images.find? fun i => i.handle == g.image

/-- The class flags of the image that a team runs (R45). -/
def State.teamClass (s : State) (t : Team) : BitVec 3 :=
  match s.grid t.grid with
  | some g => ((s.gridImage g).map Image.cls).getD 0
  | none => 0

/-- System privilege (R37): the image is a system image and the crew holds the bit. -/
def State.privileged (s : State) (t : Team) : Bool := (s.teamClass t).getLsbD 0 && (s.crew t.crew).cls.getLsbD 0

end Sys2Proof.Machine
end

