-- ==== Sys2Proof/Machine/Records.lean ====
section
/-! DEFINITION. Tensor layout records and handles (spec/08_memory.md R159 to R164). -/

namespace Sys2Proof.Machine

/-- Fields of a record (R159). -/
def recGen (r : BitVec 512) : BitVec 16 := r.extractLsb' 448 16
/-- PADV. -/
def recPadv (r : BitVec 512) : Word32 := r.extractLsb' 416 32
/-- REPL. -/
def recRepl (r : BitVec 512) : Bool := r.getLsbD 393
/-- CLS. -/
def recCls (r : BitVec 512) : Bool := r.getLsbD 392
/-- ACC. -/
def recAcc (r : BitVec 512) : Nat := (r.extractLsb' 390 2).toNat
/-- PAD. -/
def recPad (r : BitVec 512) : Nat := (r.extractLsb' 387 3).toNat
/-- SHAPE. -/
def recShape (r : BitVec 512) : Nat := (r.extractLsb' 384 3).toNat
/-- The byte stride of dimension `k`, 1 to 3. -/
def recStr (r : BitVec 512) (k : Nat) : Nat := (r.extractLsb' (128 + 64 * k) 64).toNat
/-- The extent of dimension `k`. -/
def recExt (r : BitVec 512) (k : Nat) : Nat := (r.extractLsb' (64 + 32 * k) 32).toNat
/-- V. -/
def recV (r : BitVec 512) : Bool := r.getLsbD 63
/-- The number of dimensions. -/
def recDims (r : BitVec 512) : Nat := (r.extractLsb' 60 2).toNat + 1
/-- The ESZ code. -/
def recEsz (r : BitVec 512) : Nat := (r.extractLsb' 56 4).toNat
/-- The element size in bytes. -/
def recSize (r : BitVec 512) : Nat := 2 ^ recEsz r
/-- BASE. -/
def recBase (r : BitVec 512) : Nat := (r.extractLsb' 0 56).toNat

/-- Rows and bytes per row of a tile shape (R159). -/
def shapeOf (code : Nat) : Nat × Nat := (2 ^ code, 256 / 2 ^ code)

/-- R160, with R159's rule on the dimensions beyond DIMS; GEN and bytes 58 to 63 are not looked at (R182). -/
def recWellFormed (r : BitVec 512) : Bool :=
  let c := (shapeOf (recShape r)).2
  let size := recSize r
  r.extractLsb' 394 22 == 0 && !r.getLsbD 62 && recShape r ≤ 4 && recEsz r ≤ 4 && recPad r ≤ 3 && recAcc r != 3 &&
  ([recBase r, recStr r 1, recStr r 2, recStr r 3].all fun x => x % c == 0 && x % size == 0) &&
  (recDims r != 1 || recShape r == 0) && c % size == 0 && (!recRepl r || recAcc r == 1) &&
  ([1, 2, 3].all fun k => k < recDims r || (recStr r k == 0 && recExt r k == 1))

/-- The record that a handle names, or none where it is stale (R161). Handle index 0 is the flat tensor. -/
def State.record (s : State) (crew : Nat) (handle : Word32) : Option (BitVec 512) :=
  let c := s.crew crew
  let idx := handle.toNat / 4096
  let r := (aget idx c.records).getD 0
  if idx < c.recSize ∧ idx ≠ 0xF_FFFF ∧ recV r ∧ (recGen r).setWidth 12 = handle.setWidth 12 then some r else none

/-- What an element reference through a record comes to (R163, R164): an address and its tag, a substituted value, a
dropped lane, or a bounds fault. -/
inductive Elem where
  | at_ (addr : Nat) (t0 t1 t2 t3 : Int)
  | pad (value : Nat)
  | drop
  | bounds (addr : Nat)
  deriving DecidableEq, Repr

/-- The pad value widened to an element (R159): 8- and 16-byte elements repeat the 32-bit value. -/
def padValue (r : BitVec 512) : Nat :=
  let v := (recPadv r).toNat
  if recSize r ≤ 4 then v % 2 ^ (8 * recSize r)
  else if recSize r = 8 then v * (1 + 2 ^ 32) else v * (1 + 2 ^ 32 + 2 ^ 64 + 2 ^ 96)

/-- The address and line coordinates of in-bounds coordinates (R163, R165). -/
def elemAt (r : BitVec 512) (x : List Int) : Elem :=
  let x0 := x.getD 0 0
  let x1 := x.getD 1 0
  let x2 := x.getD 2 0
  let x3 := x.getD 3 0
  let sh := shapeOf (recShape r)
  let addr := ((recBase r : Int) + x0 * recSize r + x1 * recStr r 1 + x2 * recStr r 2 + x3 * recStr r 3) % 2 ^ 56
  .at_ addr.toNat ((x0 * recSize r) / sh.2) (x1 / sh.1) x2 x3

/-- The element that coordinates name for a load or a store (R163, R164). -/
def element (r : BitVec 512) (store : Bool) (x : List Int) : Elem :=
  let x := x.take (recDims r)
  let inb := (List.range (recDims r)).all fun k => 0 ≤ x.getD k 0 && x.getD k 0 < (recExt r k : Int)
  if inb then elemAt r x
  else if recPad r = 3 then
    match elemAt r x with
    | .at_ a _ _ _ _ => .bounds a
    | e => e
  else if store then .drop
  else if recPad r = 0 then .pad 0
  else if recPad r = 1 then .pad (padValue r)
  else if (List.range (recDims r)).any fun k => recExt r k = 0 then .pad 0
  else elemAt r ((List.range (recDims r)).map fun k => max 0 (min (x.getD k 0) ((recExt r k : Int) - 1)))

end Sys2Proof.Machine
end

