-- ==== Sys2Proof/Machine/Fabric.lean ====
section
/-! DEFINITION. What a physical address reaches (spec/08_memory.md R155), and where a request toward a window travels: riggers,
the plane map, what holds it back (spec/14_riggers.md R307, R310, R313, R316 to R318).

Marked in the assumption log: 32 (DEDUCED). -/

namespace Sys2Proof.Machine

/-- What a physical address reaches (R155, R308, R402). -/
inductive PaClass where
  | hbm (die : Nat) | reserved | window (k : Nat) | noWindow | host
  deriving DecidableEq, Repr

/-- The fields of a window entry (R308). -/
def winV (w : BitVec 128) : Bool := w.getLsbD 64
/-- BASE. -/
def winBase (w : BitVec 128) : Nat := (w.extractLsb' 0 52).toNat
/-- The RIG code. -/
def winRig (w : BitVec 128) : Nat := (w.extractLsb' 70 2).toNat
/-- SIZE. -/
def winSize (w : BitVec 128) : Nat := (w.extractLsb' 72 6).toNat
/-- PSHIFT. -/
def winPshift (w : BitVec 128) : Nat := (w.extractLsb' 78 6).toNat
/-- PEER. -/
def winPeer (w : BitVec 128) : Nat := (w.extractLsb' 84 12).toNat
/-- RSET. -/
def winRset (w : BitVec 128) : BitVec 16 := w.extractLsb' 96 16
/-- HDIE. -/
def winHdie (w : BitVec 128) : Nat := (w.extractLsb' 112 3).toNat
/-- CREW. -/
def winCrew (w : BitVec 128) : Nat := (w.extractLsb' 115 6).toNat

/-- Whether a valid window covers a physical address. -/
def winCovers (w : BitVec 128) (pa : Nat) : Bool := winV w && winBase w ≤ pa && pa < winBase w + 2 ^ winSize w

/-- R155: where a physical address leads. -/
def State.paClass (s : State) (pa : Nat) : PaClass :=
  if pa < 0x0180_0000_0000 then .hbm (pa / 0x30_0000_0000)
  else if pa < 0x1000_0000_0000 then .reserved
  else if 0xF_0000_0000_0000 ≤ pa then .host
  else match (List.range 64).find? fun k => winCovers (s.window k) pa with
    | some k => .window k
    | none => .noWindow

/-- Whether an access of a crew to a physical address is permitted (R155, R310). -/
def State.paAllowed (s : State) (crew pa : Nat) : Bool :=
  match s.paClass pa with
  | .hbm d => (s.crewDies crew).contains d
  | .window k => winCrew (s.window k) == crew
  | .host => true
  | .reserved | .noWindow => false

/-- The rigger of a plane in a plane map (R316). -/
def planeRig (m : Word64) (q : Nat) : Nat := (m.extractLsb' (24 + 4 * q) 4).toNat

/-- Whether a plane is valid. -/
def planeValid (m : Word64) (q : Nat) : Bool := m.getLsbD (56 + q)

/-- The plane to which a plane map sends a value `v`. -/
def planeOf (m : Word64) (v : Nat) : Nat := (m.extractLsb' (3 * v) 3).toNat

/-- The riggers of a window's RSET, ascending. -/
def winRiggers (w : BitVec 128) : List Nat := (List.range 16).filter fun k => (winRset w).getLsbD k

/-- The peer offset of a physical address in a window (R310). -/
def winOffset (w : BitVec 128) (pa : Nat) : Nat := (pa - winBase w) % 2 ^ winPshift w

/-- The peer of a physical address in a window (R310). -/
def winPeerOf (w : BitVec 128) (pa : Nat) : Nat := winPeer w + (pa - winBase w) / 2 ^ winPshift w

/-- The value `v` by which the plane map routes an address (R316). -/
def winV3 (w : BitVec 128) (pa : Nat) : Nat := winOffset w pa / 4096 % 8

/-- The plane of a value: the one it still has while a move of it waits (R317). -/
def State.planeNow (s : State) (v : Nat) : Nat := (aget v s.planesNext).getD (planeOf s.planes v)

/-- Whether a rigger carries traffic of a rig. -/
def State.carries (s : State) (k rig : Nat) : Bool := (s.rigger k).st == .live && (s.rigger k).rig.toNat == rig

/-- Whether a crew owns a rigger's lanes in the current heat (R310). -/
def State.ownsRigger (s : State) (crew k : Nat) : Bool := rowRig (s.currentRow crew) k == some crew

/-- The window that covers a physical address. -/
def State.windowAt (s : State) (pa : Nat) : Option (BitVec 128) :=
  match s.paClass pa with
  | .window k => some (s.window k)
  | _ => none

/-- The riggers on which a request of a crew to an address of a window may be sent (R307, R310, R316): those of an Ultra Ethernet
window share its packets. -/
def State.carriers (s : State) (pa : Nat) : List Nat :=
  match s.windowAt pa with
  | none => []
  | some w =>
    let ks := winRiggers w
    match winRig w with
    | 0 => (ks[pa / 256 % ks.length]?).toList
    | 1 => [planeRig s.planes (s.planeNow (winV3 w pa))]
    | _ => ks

/-- The rigger with which a request of a crew is counted: the first that may carry it and whose lanes the crew owns. -/
def State.carrier (s : State) (crew pa : Nat) : Option Nat :=
  let ks := s.carriers pa
  (ks.find? (s.ownsRigger crew)).or ks.head?

/-- Whether requests to an address of a window are held (R313, R316, R317). -/
def State.windowHeld (s : State) (pa : Nat) : Bool :=
  match s.windowAt pa with
  | none => false
  | some w =>
    if winRig w = 1 then
      let v := winV3 w pa
      let q := planeOf s.planes v
      (aget v s.planesNext).isSome || !planeValid s.planes q || !s.carries (planeRig s.planes q) 1
    else !(winRiggers w).all fun k => s.carries k (winRig w)

/-- Whether a request may be sent on a rigger now. -/
def State.mayCarry (s : State) (r : RigRequest) (k : Nat) : Bool :=
  let drained : Bool := r.forced && ((s.rigger k).st == .draining || (s.rigger k).st == .live)
  (s.carriers r.pa).contains k && s.ownsRigger r.crew k && (drained || !s.windowHeld r.pa)

/-- Whether the lanes of some rigger that may carry a request are its crew's (R310); where none may carry it, it waits for
none. -/
def State.hasLanes (s : State) (r : RigRequest) : Bool :=
  let ks := s.carriers r.pa
  ks.isEmpty || ks.any (s.ownsRigger r.crew)

/-- A new request arrives at its slice; the time for which its crew does not own the lanes counts against no bound (R310). -/
def State.newRequest (s : State) (r : RigRequest) : State :=
  let r : RigRequest := { r with arrived := s.clock, lostAt := if s.hasLanes r then none else some s.clock }
  { s with requests := s.requests ++ [(s.nextId, r)], nextId := s.nextId + 1 }

/-- A request after its riggers' lanes may have changed owner (R310): the bounds stand still while the crew does not own them. -/
def State.rebound (s : State) (r : RigRequest) : RigRequest :=
  match r.sent, r.lostAt, s.hasLanes r with
  | none, none, false => { r with lostAt := some s.clock }
  | none, some c, true => { r with lostAt := none, arrived := r.arrived + (s.clock - c) }
  | _, _, _ => r

/-- Every request after lanes may have changed owner. -/
def State.reboundAll (s : State) : State := { s with requests := s.requests.map fun e => (e.1, s.rebound e.2) }

/-- Hold an engine command behind a window that is held: a request that is never sent stands for it (R313). -/
def State.holdCommand (s : State) (id : Nat) (crew pa : Nat) : State :=
  if s.requests.any fun r => r.2.cmd == some id && r.2.len == 0 then s
  else s.newRequest { crew := crew, cmd := some id, op := .write, pa := pa, len := 0, tier := 1, arrived := s.clock }

/-- Drop the request that stands for a held command. -/
def State.unholdCommand (s : State) (id : Nat) : State :=
  { s with requests := s.requests.filter fun r => !(r.2.cmd == some id && r.2.len == 0) }

end Sys2Proof.Machine
end

