-- ==== Sys2Proof/Machine/Memory.lean ====
section
/-! DEFINITION. Physical memory, page tables and translation, tile lines, views, scratch and vaults (spec/08_memory.md
R154 to R173, spec/12_views.md R263 to R267, spec/15_traps.md R345, R347).

Marked in the assumption log: 11 (DESIGN CHOICE), 18 (DEDUCED), 20 (DEDUCED), 28 (DEDUCED), 37 (DEDUCED), 47 (DEDUCED), 49 (DESIGN
CHOICE). -/

namespace Sys2Proof.Machine

/-- The home die of a line by the physical address of its first byte (R166). -/
def State.homeDie (s : State) (pa : Nat) : Nat :=
  match s.paClass pa with
  | .hbm d => d
  | .window k => winHdie (s.window k)
  | _ => 0

/-- The home slice-in-die (R166). -/
def homeSlice (pa : Nat) : Nat :=
  (List.range 11).foldl (fun acc i => Nat.xor acc ((pa >>> (8 + 4 * i)) % 16)) 0

/-- Whether a physical byte stands in an unscrubbed page of a crew (R158). -/
def State.unscrubbed (s : State) (crew pa : Nat) : Bool := (s.crew crew).unscrubbed.contains (pa / 65536)

/-- A byte of memory itself, behind the slices: a byte of a peer's memory is none of the model's (assumption 11). -/
def State.memByte (s : State) (pa : Nat) : Byte :=
  if 0xF_0000_0000_0000 ≤ pa then s.hostMem.read pa
  else if 0x1000_0000_0000 ≤ pa then (Config.freeWord (s.fresh * 2 ^ 64 + pa)).setWidth 8
  else s.hbm.read pa

/-- Write a byte of memory itself. -/
def State.setMemByte (s : State) (pa : Nat) (b : Byte) : State :=
  if 0xF_0000_0000_0000 ≤ pa then { s with hostMem := s.hostMem.write pa b } else { s with hbm := s.hbm.write pa b }

/-- The dirty byte of a physical address that some home slice holds. -/
def dirtyAt (lines : List (LineKey × Line)) (pa : Nat) : Option Byte :=
  match lines with
  | [] => none
  | (k, l) :: rest =>
    match (if k.place = .home ∧ k.view = 0 then l.cells.find? fun c => c.2.dirty && c.2.pa == pa else none) with
    | some c => some c.2.val
    | none => dirtyAt rest pa

/-- A byte as an agent that addresses memory physically reads it at home: walkers, the host, the device's own writers. -/
def State.physRead (s : State) (pa : Nat) : Byte := (dirtyAt s.lines pa).getD (s.memByte pa)

/-- Bytes read physically. -/
def State.physReadN (s : State) (pa n : Nat) : List Byte := (upFrom pa n).map s.physRead

/-- A byte written by an agent that addresses memory physically, at home: memory and any held copy of it. -/
def State.physWrite (s : State) (pa : Nat) (b : Byte) : State :=
  let lines := s.lines.map fun e =>
    (e.1, { e.2 with cells := e.2.cells.map fun c => if c.2.pa = pa ∧ e.1.view = 0 then (c.1, { c.2 with val := b }) else c })
  { s.setMemByte pa b with lines := lines }

/-- Bytes written physically. -/
def State.physWriteN (s : State) (pa : Nat) : List Byte → State
  | [] => s
  | b :: bs => (s.physWrite pa b).physWriteN (pa + 1) bs

/-- A page-table entry's fields (R157). -/
def ptePerm (e : Word64) : Perm where
  r := e.getLsbD 1
  w := e.getLsbD 2
  x := e.getLsbD 3
  c := e.getLsbD 9
  sm := e.getLsbD 4
  red := (e.extractLsb' 5 4).toNat

/-- What a walk of one entry gives. -/
inductive PteStep where
  | fault (code : BitVec 8)
  | table (pa : Nat)
  | leaf (pa size : Nat) (perm : Perm)
  deriving DecidableEq, Repr

/-- One entry at a level (R157). -/
def pteStep (level : Nat) (e : Word64) : PteStep :=
  let pa := (e.extractLsb' 16 36).toNat * 65536
  let leaf := e.getLsbD 10
  let perm := ptePerm e
  let size := 2 ^ (16 + 10 * (3 - level))
  if !e.getLsbD 0 then .fault 0x03
  else if e.extractLsb' 52 12 != 0 || e.extractLsb' 11 5 != 0 then .fault 0x04
  else if (level = 0 && leaf) || (level = 3 && !leaf) then .fault 0x04
  else if 11 ≤ perm.red || (perm.red != 0 && !(level = 3 && leaf && perm.w)) then .fault 0x04
  else if leaf && pa % size != 0 then .fault 0x04
  else if leaf then .leaf pa size perm else .table pa

/-- Whether a physical byte is poisoned and not overwritten (R347). -/
def State.poisoned (s : State) (pa : Nat) : Bool := s.poison.contains (.hbm (pa / 32))

/-- A page-table entry as a walker of a crew reads it, under the usual rules for memory (R157): a table on a die outside the
crew's set or in the reserved range is a protection fault (R155), a poisoned entry an error (R347), and an entry of a page that
waits for its scrub reads zero (R158). -/
def State.readEntry (s : State) (crew pa : Nat) : Except (BitVec 8) Word64 :=
  if !s.paAllowed crew pa then .error 0x04
  else if s.poisoned pa then .error 0x13
  else .ok (if s.unscrubbed crew pa then 0 else BitVec.ofNat 64 (leNat (s.physReadN pa 8)))

/-- The walk of a virtual address of a crew (R156): `n` levels are left. -/
def State.walkFrom (s : State) (crew va : Nat) : Nat → Nat → Except (BitVec 8) (Nat × Nat × Perm)
  | 0, _ => .error 0x03
  | n + 1, table =>
    match s.readEntry crew (table + 8 * ((va >>> (16 + 10 * n)) % 1024)) with
    | .error c => .error c
    | .ok e =>
      match pteStep (3 - n) e with
      | .fault c => .error c
      | .table pa => s.walkFrom crew va n pa
      | .leaf pa size perm => .ok (pa, size, perm)

/-- The pages of 64 KiB whose entries the walk of a virtual address reads. -/
def State.walkPages (s : State) (crew va : Nat) : Nat → Nat → List Nat
  | 0, _ => []
  | n + 1, table =>
    table / 65536 :: (match s.readEntry crew (table + 8 * ((va >>> (16 + 10 * n)) % 1024)) with
      | .error _ => []
      | .ok e => match pteStep (3 - n) e with
        | .table pa => s.walkPages crew va n pa
        | _ => [])

/-- The first table of a crew (R156). -/
def State.rootTable (s : State) (crew : Nat) : Nat := ((s.crew crew).root.extractLsb' 16 36).toNat * 65536

/-- The walk from a crew's root (R156). -/
def State.walk (s : State) (crew va : Nat) : Except (BitVec 8) (Nat × Nat × Perm) := s.walkFrom crew va 4 (s.rootTable crew)

/-- Start the clear of a page that waits for its scrub (R158): its first access does. -/
def State.startClear (s : State) (crew pa : Nat) : State :=
  s.modCrew crew fun c => if c.clearing.contains (pa / 65536) then c else { c with clearing := c.clearing ++ [pa / 65536] }

/-- Touch a page: the access starts the clear that the page waits for (R158). -/
def State.touchPage (s : State) (crew pa : Nat) : State := if s.unscrubbed crew pa then s.startClear crew pa else s

/-- The entry of a list that holds a crew's virtual address. -/
def tlbFind (l : List TlbEntry) (crew va : Nat) : Option TlbEntry :=
  l.find? fun e => e.crew == crew && e.base ≤ va && va < e.base + e.size

/-- The entry of the core's first-level TLB or of its die's translation cache (R345). -/
def State.tlb (s : State) (core crew va : Nat) : Option TlbEntry :=
  (tlbFind (s.core core).tlb crew va).or (tlbFind (s.die (dieOf core)).tcache crew va)

/-- The translation entry a walk gives. -/
def tlbOf (crew va : Nat) (w : Nat × Nat × Perm) : TlbEntry :=
  { crew := crew, base := va / w.2.1 * w.2.1, size := w.2.1, pa := w.1, perm := w.2.2 }

/-- Put an entry into the caches; the access that walked takes it before they are trimmed. -/
def State.fillTlb (s : State) (core : Nat) (e : TlbEntry) : State :=
  let s := s.setDie (dieOf core) { s.die (dieOf core) with tcache := e :: (s.die (dieOf core)).tcache }
  s.setCore core { s.core core with tlb := e :: (s.core core).tlb }

/-- A list of entries brought back to a capacity: a crew that has overfilled it loses its own oldest entry, and no other crew
loses one (R14). Which entry leaves is a DESIGN CHOICE (assumption 49). -/
def trimEntries (cap crew : Nat) (l : List TlbEntry) : List TlbEntry :=
  if l.length ≤ cap then l
  else match l.reverse.find? fun e => e.crew == crew with
    | some e => (l.reverse.erase e).reverse
    | none => l

/-- The caches hold 512 and 32,768 entries (R156). -/
def State.trimTlb (s : State) (core crew : Nat) : State :=
  let s := s.setDie (dieOf core) { s.die (dieOf core) with tcache := trimEntries 32768 crew (s.die (dieOf core)).tcache }
  s.setCore core { s.core core with tlb := trimEntries 512 crew (s.core core).tlb }

/-- An entry for an address of a crew that some cache of the package holds. -/
def State.anyTlb (s : State) (crew va : Nat) : Option TlbEntry :=
  (s.dies.findSome? fun d => tlbFind d.2.tcache crew va).or (s.cores.findSome? fun c => tlbFind c.2.tlb crew va)

/-- A translation for a unit that stands at no core: an entry that the package holds, which stands until `tlbinv` (R157), else a
walk. -/
def State.translateAt (s : State) (crew va : Nat) : Except (BitVec 8) TlbEntry :=
  match s.anyTlb crew va with
  | some e => .ok e
  | none => (s.walk crew va).map (tlbOf crew va)

/-- A translation without waiting: the caches, else a walk as it stands (engines, landing checks, instruction fetch). -/
def State.translate (s : State) (core crew va : Nat) : Except (BitVec 8) TlbEntry :=
  match s.tlb core crew va with
  | some e => .ok e
  | none => (s.walk crew va).map (tlbOf crew va)

/-- The physical address of a virtual one under an entry. -/
def TlbEntry.at_ (e : TlbEntry) (va : Nat) : Nat := e.pa + (va - e.base)

/-- What an access wants of a page (R157). -/
inductive Need where
  | read | write | both | exec
  deriving DecidableEq, Repr

/-- Whether a leaf permits an access. -/
def Need.allowed : Need → Perm → Bool
  | .read, p => p.r
  | .write, p => p.w
  | .both, p => p.r && p.w
  | .exec, p => p.x

/-- Physical address and entry of an access, its permission and target checked (R157, R155). -/
def State.permitted (s : State) (crew : Nat) (need : Need) (e : TlbEntry) (va : Nat) : Except (BitVec 8) Nat :=
  if need.allowed e.perm && s.paAllowed crew (e.at_ va) then .ok (e.at_ va) else .error 0x04

/-! Views -/

/-- The pool granule of a view at an address (R265). -/
def Crew.granule (c : Crew) (view va : Nat) : Option Granule :=
  c.granules.find? fun x => x.view == view && x.addr == va / 256 * 256

/-- The dirty byte at a virtual address that some home line of a view holds. -/
def viewDirty (lines : List (LineKey × Line)) (crew view va : Nat) : Option Byte :=
  match lines with
  | [] => none
  | (k, l) :: rest =>
    match (if k.crew = crew ∧ k.view = view then aget va l.cells else none) with
    | some c => if c.dirty then some c.val else viewDirty rest crew view va
    | none => viewDirty rest crew view va

/-- The reduction operator of a page in a view (R271): the operator the parent declared at the fork, or the page's RED. -/
def Crew.redOp (c : Crew) (view va red : Nat) : Nat :=
  match aget view c.views with
  | none => 0
  | some v =>
    match v.rpages.find? fun r => r.base ≤ va && va < r.base + r.len with
    | some r => r.op
    | none => red

/-- The identity element of a reduction operator as bytes of its element (R89, R271). -/
def redIdentity (op : Nat) : List Byte :=
  match op with
  | 1 => [0, 0, 0, 0x80]
  | 3 => [0, 0, 0, 0, 0, 0, 0, 0]
  | 4 => [0, 0, 0x80, 0xFF]
  | 5 => [0, 0, 0x80, 0x7F]
  | 6 => [0, 0, 0, 0x80]
  | 7 => [0xFF, 0xFF, 0xFF, 0x7F]
  | 9 => [0xFF, 0xFF, 0xFF, 0xFF]
  | _ => [0, 0, 0, 0]

/-- The RED field of the page at an address, as the crew's translation gives it (R157, R271). -/
def State.pageRed (s : State) (crew va : Nat) : Nat :=
  match s.translateAt crew va with
  | .ok e => e.perm.red
  | .error _ => 0

/-- What lies behind the lines of a view (R267): its private copy, or its parent as it stands, or memory, a page of which
reads zero while it is unscrubbed (R158). In a child every element of a reduction page that it has not written is the
identity (R271). `fuel` bounds the depth (R263: at most 6). -/
def State.behind (s : State) (crew va pa : Nat) : Nat → Nat → Byte
  | 0, _ => if s.unscrubbed crew pa then 0 else s.memByte pa
  | fuel + 1, view =>
    if view = 0 then if s.unscrubbed crew pa then 0 else s.memByte pa
    else match (s.crew crew).granule view va with
      | some g => g.priv.getD (va % 256) 0
      | none =>
        let op := (s.crew crew).redOp view va (s.pageRed crew va)
        let parent := ((aget view (s.crew crew).views).map View.parent).getD 0
        if op ≠ 0 then (redIdentity op).getD (va % (redIdentity op).length) 0
        else match viewDirty s.lines crew parent va with
        | some b => b
        | none => s.behind crew va pa fuel parent

/-- A byte of a view by address alone: a dirty byte of any of its lines, else what lies behind. -/
def State.viewByte (s : State) (crew view va pa : Nat) : Byte :=
  (viewDirty s.lines crew view va).getD (s.behind crew va pa 7 view)

/-- The in-bounds bytes of a line of a record, row by row (R165): where each row begins and how many bytes it has. -/
def lineRows (r : BitVec 512) (k : LineKey) : List (Nat × Nat) :=
  if k.tensor = 0 then [(k.t0.toNat * 256, 256)]
  else
    let sh := shapeOf (recShape r)
    let lo := k.t0.toNat * sh.2
    let n := min sh.2 (recExt r 0 * recSize r - lo)
    let x1s := (upFrom (k.t1.toNat * sh.1) sh.1).filter fun x => x < recExt r 1 || recDims r ≤ 1
    if n = 0 || (2 < recDims r && recExt r 2 ≤ k.t2.toNat) || (3 < recDims r && recExt r 3 ≤ k.t3.toNat) then []
    else (if recDims r ≤ 1 then [0] else x1s).map fun x1 =>
      ((recBase r + lo + x1 * recStr r 1 + k.t2.toNat * recStr r 2 + k.t3.toNat * recStr r 3) % 2 ^ 56, n)

/-- The in-bounds bytes of a line under the record as the crew's table holds it. -/
def State.rowsOf (s : State) (k : LineKey) : List (Nat × Nat) :=
  lineRows ((aget k.tensor (s.crew k.crew).records).getD 0) k

/-- Whether a line holds a virtual address among its in-bounds bytes. -/
def State.lineHas (s : State) (k : LineKey) (va : Nat) : Bool := (s.rowsOf k).any fun e => e.1 ≤ va && va < e.1 + e.2

/-- The key of a target in a view at a place. -/
def keyOf (crew view : Nat) (t : Target) (place : Place) : LineKey :=
  match t with
  | .line tensor t0 t1 t2 t3 _ _ => ⟨crew, view, tensor, t0, t1, t2, t3, place⟩
  | _ => ⟨crew, view, 0, 0, 0, 0, 0, place⟩

/-- The flat tensor's tag (R162). -/
def flatTarget (va : Nat) (sm : Bool) : Target := .line 0 (va / 256) 0 0 0 sm false

/-- What fixes the home and the class of a target's line (R166, R167): the physical address of its first in-bounds byte, and the
permissions of the access with the SM of that byte's page. Where that page has no translation the accessed byte stands for it. -/
def State.lineHead (s : State) (t : Team) (tg : Target) (pa : Nat) (perm : Perm) : Nat × Perm :=
  match tg with
  | .line tensor _ _ _ _ _ _ =>
    if tensor = 0 then (pa, perm)
    else match (s.rowsOf (keyOf t.crew 0 tg .home)).head? with
      | none => (pa, perm)
      | some row =>
        match s.translate t.core t.crew row.1 with
        | .ok e => (e.at_ row.1, { perm with sm := e.perm.sm })
        | .error _ => (pa, perm)
  | _ => (pa, perm)

/-- Whether a target is software-managed (R167, R307). -/
def State.isSm (s : State) (t : Target) (pa : Nat) (perm : Perm) : Bool :=
  perm.sm || (match t with | .line _ _ _ _ _ sm _ => sm | _ => false) ||
  (match s.paClass pa with | .window k => winRig (s.window k) != 0 | _ => false)

/-- Whether a physical address stands in a window. -/
def State.inWindow (s : State) (pa : Nat) : Bool := match s.paClass pa with | .window _ => true | _ => false

/-- Whether a page or record is marked software-managed (R264). -/
def markedSm (t : Target) (perm : Perm) : Bool := perm.sm || (match t with | .line _ _ _ _ _ sm _ => sm | _ => false)

/-- Whether a target lies outside the view tree (R264): a page with SM, a record with CLS, a window. -/
def State.outsideViews (s : State) (t : Target) (pa : Nat) (perm : Perm) : Bool := markedSm t perm || s.inWindow pa

/-- The view whose tag an access carries. -/
def State.viewOf (s : State) (view : Nat) (t : Target) (pa : Nat) (perm : Perm) : Nat :=
  if s.outsideViews t pa perm then 0 else view

/-- The place a die's loads read a line at (R167, R170): a local copy or replica that is present, else home. -/
def State.loadPlace (s : State) (die crew view : Nat) (t : Target) (sm : Bool) : Place :=
  if sm ∧ (aget (keyOf crew view t (.localDie die)) s.lines).isSome then .localDie die
  else if (aget (keyOf crew view t (.replica die)) s.lines).isSome then .replica die
  else .home

/-- A byte that a line holds, or what lies behind it. -/
def State.lineByte (s : State) (k : LineKey) (va pa : Nat) : Byte :=
  match (aget k s.lines).bind fun l => aget va l.cells with
  | some c => c.val
  | none =>
    match k.place with
    | .home => s.behind k.crew va pa 7 k.view
    | _ =>
      match (aget { k with place := .home } s.lines).bind fun l => aget va l.cells with
      | some c => c.val
      | none => s.behind k.crew va pa 7 k.view

/-- The `n` bytes of a lane through a tag, from an address up, as a number (R2). -/
def State.lineBytes (s : State) (k : LineKey) (va pa n : Nat) : List Byte :=
  (List.range n).map fun i => s.lineByte k (va + i) (pa + i)

/-- Whether accesses of a crew to lines of a die's slices may allocate there (R171): the page is cacheable and the crew has a
way. -/
def State.allocates (s : State) (crew die : Nat) (perm : Perm) : Bool :=
  perm.c && (List.range 16).any fun w => rowWay (s.currentRow crew) die w == some crew

/-- The die in whose slices a line stands, by the physical address of its first byte. -/
def State.keyDie (s : State) (k : LineKey) (head : Nat) : Nat :=
  match k.place with
  | .home => s.homeDie head
  | .localDie d | .replica d => d

/-- Whether a write of a line goes through the write-combining buffer where the line is not held (R171): the page is not
cacheable, the crew has no way there, or the policy is `.na`. -/
def State.bypasses (s : State) (k : LineKey) (head : Nat) (perm : Perm) (na : Bool) : Bool :=
  na || !s.allocates k.crew (s.keyDie k head) perm

/-- Write one byte of a line, dirty (R168); `wc` says that the write allocates no line. -/
def State.setLineByte (s : State) (k : LineKey) (sm wc : Bool) (va pa : Nat) (b : Byte) : State :=
  let l := (aget k s.lines).getD { sm := sm, wc := true }
  { s with lines := aput k { l with wc := l.wc && wc, cells := aput va { pa := pa, val := b, dirty := true } l.cells } s.lines }

/-- The dirty bytes of a window that a line holds at an address name whose write they are (R315). -/
def State.ownBytes (s : State) (k : LineKey) (va n : Nat) (o : LineOwner) : State :=
  let mine (c : Nat × LineByte) : Bool := va ≤ c.1 && c.1 < va + n && c.2.dirty &&
    (match s.paClass c.2.pa with | .window _ => true | _ => false)
  let owned (c : Nat × LineByte) : Nat × LineByte := if mine c then (c.1, { c.2 with owner := some o }) else c
  { s with lines := amod k (fun l => { l with cells := l.cells.map owned }) s.lines }

/-- Mark the bytes of a child's granule as written. -/
def State.markWrote (s : State) (crew view va : Nat) : State :=
  if view = 0 then s
  else s.modCrew crew fun c => { c with granules := c.granules.map fun g =>
    if g.view = view ∧ g.addr = va / 256 * 256 then { g with wrote := Nat.lor g.wrote (2 ^ (va % 256)) } else g }

/-- Write bytes of a lane through a tag. -/
def State.setLineBytes (s : State) (k : LineKey) (sm wc : Bool) (va pa : Nat) : List Byte → State
  | [] => s
  | b :: bs => ((s.setLineByte k sm wc va pa b).markWrote k.crew k.view va).setLineBytes k sm wc (va + 1) (pa + 1) bs

/-- Write a byte back to what lies behind a line (R168, R267); that of a window is a request of tier 1 (R318), which names whose
write it carries (R315). -/
def State.writeBehind (s : State) (k : LineKey) (va pa : Nat) (b : Byte) (owner : Option LineOwner) : State :=
  if k.view = 0 then
    match s.paClass pa with
    | .window _ =>
      let r : RigRequest := { crew := k.crew, op := .write, pa := pa, len := 1, data := b.toNat, tier := 1, arrived := s.clock,
                              owner := owner }
      s.newRequest r
    | _ => s.setMemByte pa b
  else s.modCrew k.crew fun c => { c with granules := c.granules.map fun g =>
    if g.view = k.view ∧ g.addr = va / 256 * 256 then { g with priv := g.priv.set (va % 256) b } else g }

/-- Write back the dirty bytes of a list of cells. -/
def State.writeCells (s : State) (k : LineKey) : List (Nat × LineByte) → State
  | [] => s
  | (va, c) :: rest => (if c.dirty then s.writeBehind k va c.pa c.val c.owner else s).writeCells k rest

/-- Whether the 64-bit word of a line at a virtual address is poisoned (R347). -/
def State.slicePoisoned (s : State) (k : LineKey) (va : Nat) : Bool := s.poison.contains (.slice k (va / 8))

/-- Poison travels with the dirty bytes that a line writes back (R347): to the home line from a local copy, to the unit of memory
from a home line; that of a child's private copy stays under the line's key. -/
def State.spreadPoison (s : State) (k : LineKey) (cells : List (Nat × LineByte)) : State :=
  let hit := cells.filter fun c => s.slicePoisoned k c.1
  let units : List PoisonUnit := hit.map fun c =>
    if k.place ≠ .home then .slice { k with place := .home } (c.1 / 8) else .hbm (c.2.pa / 32)
  if k.place = .home ∧ k.view ≠ 0 then s else { s with poison := units.eraseDups ++ s.poison.filter fun u => !units.contains u }

/-- Write back a line (R168): its dirty bytes reach memory, home first for a local copy (R167), and the mask clears. -/
def State.writeBackLine (s : State) (k : LineKey) : State :=
  match aget k s.lines with
  | none => s
  | some l =>
    let s1 := s.writeCells k l.cells
    let home : LineKey := { k with place := .home }
    let dirtyCells := l.cells.filter fun c => c.2.dirty
    let s1 := s1.spreadPoison k dirtyCells
    let lines1 := if k.place = .home then s1.lines else amod home (fun h =>
      { h with cells := dirtyCells.foldl (fun cs c => if (aget c.1 cs).isSome then
          aput c.1 { c.2 with dirty := false } cs else cs) h.cells }) s1.lines
    { s1 with lines := if l.wc then adel k lines1
      else amod k (fun l => { l with cells := l.cells.map fun c => (c.1, { c.2 with dirty := false }) }) lines1 }

/-- Drop a line, writing it back first. -/
def State.evictLine (s : State) (k : LineKey) : State :=
  let s := s.writeBackLine k
  { s with lines := adel k s.lines
           poison := s.poison.filter fun u => match u with | .slice j _ => !(j == k && (k.place != .home || k.view == 0)) | _ => true }

/-- Evict every line that a condition picks. -/
def State.evictIf (s : State) (c : LineKey → Bool) : State :=
  (s.lines.map Prod.fst).foldl (fun s k => if c k then s.evictLine k else s) s

/-- Write back every line that a condition picks. -/
def State.writeBackIf (s : State) (c : LineKey → Line → Bool) : State :=
  s.lines.foldl (fun s e => if c e.1 e.2 then s.writeBackLine e.1 else s) s

/-- Slack of a twin pool (R265). -/
def Crew.slack (c : Crew) : Nat :=
  c.poolSize - c.granules.length - (c.views.map fun v => v.2.resv).sum

/-- 256 bytes of identity elements. -/
def redFill (op : Nat) : List Byte :=
  (List.range 256).map fun i => (redIdentity op).getD (i % (redIdentity op).length) 0

/-- The first write of a child to a granule (R266, R267): take a granule of its reservation or of slack and copy the
parent's bytes twice, or fill it with the identity; none where the pool is exhausted (fault 0x08). -/
def State.firstWrite (s : State) (crew view va pa red : Nat) : Option State :=
  let c := s.crew crew
  if view = 0 then some s
  else if (c.granule view va).isSome then some s
  else match aget view c.views with
    | none => some s
    | some v =>
      let base := va / 256 * 256
      let pbase := pa - va % 256
      let op := c.redOp view va red
      let parent := (List.range 256).map fun i => s.viewByte crew v.parent (base + i) (pbase + i)
      let place := ((List.range (c.granules.length + 1)).find? fun n => !(c.granules.any fun x => x.place == n)).getD 0
      let g : Granule := { place := place, view := view, addr := base, priv := if op = 0 then parent else redFill op,
                           twin := if op = 0 then parent else [], op := op, wrote := 0, pa := pbase }
      if 0 < v.resv then
        some (s.setCrew crew { c with granules := c.granules ++ [g],
                                      views := aput view { v with resv := v.resv - 1 } c.views })
      else if 0 < c.slack then some (s.setCrew crew { c with granules := c.granules ++ [g] })
      else none

/-! Scratch and vaults -/

/-- The resident team of a grid whose window holds an offset of a core's scratch (R172). -/
def State.windowOf (s : State) (grid core off : Nat) : Option (Nat × Team) :=
  s.teams.find? fun e => e.2.grid == grid && e.2.core == core && !e.2.ended &&
    (e.2.status == .resident || e.2.status == .draining) && e.2.winBase ≤ off && off < e.2.winBase + e.2.winSize

/-- The checks of one scratch byte for a group (R172): cell number, or a fault. -/
def State.scratchCell (s : State) (t : Team) (a : Int) : Except (BitVec 8) Nat :=
  if a < 0 ∨ 2 ^ 24 ≤ a then .error 0x06
  else
    let core := clusterOf t.core * 32 + a.toNat / 2 ^ 19
    let off := a.toNat % 2 ^ 19
    if (s.windowOf t.grid core off).isNone then .error 0x06
    else if !s.ownsCore t.crew core then .error 0x04
    else .ok (core * 2 ^ 19 + off)

/-- The checks of one vault byte (R173). -/
def State.vaultCell (s : State) (crew : Nat) (a : Int) : Except (BitVec 8) Nat :=
  if a < 0 ∨ 2 ^ 31 ≤ a then .error 0x06
  else if !(s.crewDies crew).contains (a.toNat / 2 ^ 28) ∨ aget (a.toNat / 2 ^ 22) s.vaultCrew ≠ some crew then .error 0x04
  else .ok a.toNat

/-- The structure code of the poison that a read of a byte through a line meets (R346, R347): 5 of the slice, 7 of memory. -/
def State.bytePoison (s : State) (k : LineKey) (va pa : Nat) : Option Nat :=
  let held (j : LineKey) : Bool := ((aget j s.lines).bind fun l => aget va l.cells).isSome
  let home : LineKey := { k with place := .home }
  if s.slicePoisoned (if held k then k else home) va then some 5
  else if s.poisoned pa then some 7 else none

/-- The poison that a read of some bytes through a line meets. -/
def State.linePoison (s : State) (k : LineKey) (va pa n : Nat) : Option Nat :=
  (List.range n).findSome? fun i => s.bytePoison k (va + i) (pa + i)

/-- The window base of a team as a cluster scratch address (R395). -/
def Team.windowAddr (t : Team) : Nat := (t.core % 32) * 2 ^ 19 + t.winBase

end Sys2Proof.Machine
end

