-- ==== Sys2Proof/Machine/Access.lean ====
section
/-! DEFINITION. How one lane of an access comes to its bytes: translation, the checks of R177, the store buffer's
forwarding (R178), the first write of a child (R267), and the performing of stores and atomics (spec/08_memory.md,
spec/09_ordering.md R191, R197, R200).

Marked in the assumption log: 17 (DEDUCED), 25 (DEDUCED), 47 (DEDUCED). -/

namespace Sys2Proof.Machine

/-- A number as `n` bytes, and back, are `leBytes` and `leNat`. Byte `i` of a lane's data. -/
def dataByte (d i : Nat) : Byte := BitVec.ofNat 8 (d / 2 ^ (8 * i))

/-- Whether two targets are one tag (R184): the class marks do not count. -/
def Target.same : Target → Target → Bool
  | .line a b c d e _ _, .line a' b' c' d' e' _ _ => a == a' && b == b' && c == c' && d == d' && e == e'
  | .scratch _, .scratch _ => true
  | .vault _, .vault _ => true
  | _, _ => false

/-- The buffered byte of a tag and address that a load takes (R178): the latest store of the lane, or of any lane for a
uniform-effect load. -/
def forwarded (sbuf : List Access) (lane : Option Nat) (t : Target) (addr : Nat) : Option Byte :=
  sbuf.foldl (fun acc e => e.lanes.foldl (fun acc l =>
    if (lane = none ∨ lane = some l.lane) ∧ t.same l.target ∧ l.addr ≤ addr ∧ addr < l.addr + e.bytes
    then some (dataByte l.data (addr - l.addr)) else acc) acc) none

/-- Whether a lane of some buffered store still to be drained meets a byte range of a tag. -/
def buffered (sbuf : List Access) (t : Target) (addr n : Nat) : Bool :=
  sbuf.any fun e => e.lanes.any fun l => t.same l.target && l.addr < addr + n && addr < l.addr + e.bytes

/-- Whether a lane has faulted. -/
def LaneAcc.bad (l : LaneAcc) : Bool := match l.st with | .faulted _ => true | _ => false

/-- Whether an access holds a faulted lane. -/
def Access.faulted (a : Access) : Bool := a.lanes.any LaneAcc.bad

/-- The accesses of a group that are not over, its buffered stores among them. -/
def Group.own (g : Group) : List Access := g.sbuf ++ g.pend

/-- Whether a lane of an access stands behind an entry of the same lane at the same bytes (R197). -/
def behindOlder (older : List Access) (n : Nat) (l : LaneAcc) : Bool :=
  older.any fun b => b.lanes.any fun m => m.lane == l.lane && l.target.same m.target && l.addr < m.addr + b.bytes &&
    m.addr < l.addr + n

/-- Whether a store lane waits behind a faulted entry (R197): it is not tried until that entry has drained. -/
def LaneAcc.waitsBehind (l : LaneAcc) (sbuf : List Access) (a : Access) : Bool :=
  a.kind == .store && behindOlder ((sbuf.filter fun b => b.id < a.id).map fun b =>
    { b with lanes := b.lanes.filter LaneAcc.bad }) a.bytes l

/-- The stores of a group among its accesses that are older than an access (R185). -/
def olderStores (own : List Access) (a : Access) : List Access := own.filter fun b => b.kind == .store && b.id < a.id

/-- Whether an access is a remote form's, whose addresses are offsets in a peer's memory (R320). -/
def Access.isRemote (a : Access) : Bool := match a.kind with | .remoteLoad | .remoteAtomic _ _ => true | _ => false

/-- Whether a lane stands behind an older load of the same lane at the same bytes that has not taken its value (R185, R188): it is
not performed before that load. -/
def LaneAcc.behindLoad (l : LaneAcc) (own : List Access) (a : Access) : Bool :=
  !a.isRemote && behindOlder ((own.filter fun b => b.kind != .store && !b.isRemote && b.id < a.id).map fun b =>
    { b with lanes := b.lanes.filter fun m => m.st == .walk || m.st == .outside || m.st == .scrubbing }) a.bytes l

/-! The first checks of a lane (R175, R177) -/

/-- The first checks of a lane at a flat address: alignment, then the bits past the 56 of the space. -/
def flatLane (n lane a : Nat) : LaneAcc :=
  { lane := lane, addr := a, target := flatTarget a false,
    st := if a % n ≠ 0 then .faulted 0x05 else if 2 ^ 56 ≤ a then .faulted 0x04 else .walk }

/-- The code of a check that failed. -/
def failed : Except (BitVec 8) Nat → Option (BitVec 8)
  | .error c => some c
  | .ok _ => none

/-- A lane outside the global space, from the checks of its bytes: bounds, alignment, protection, and for a vault store in
a child view or a frozen parent the view-frozen fault (R172, R173, R177). -/
def sideLane (n lane : Nat) (a : Int) (frozen : Bool) (cells : List (Except (BitVec 8) Nat)) (target : Nat → Target) :
    LaneAcc :=
  let bad (c : BitVec 8) : Bool := cells.any fun r => failed r == some c
  let cell := match cells.head? with
    | some (.ok x) => x
    | _ => 0
  { lane := lane, addr := (a % 2 ^ 64).toNat, target := target cell,
    st := if bad 0x06 then .faulted 0x06 else if a % n ≠ 0 then .faulted 0x05 else if bad 0x04 then .faulted 0x04
          else if frozen then .faulted 0x07 else .walk }

/-- A scratch lane (R172). -/
def State.scratchLane (s : State) (t : Team) (n lane : Nat) (a : Int) : LaneAcc :=
  sideLane n lane a false ((List.range n).map fun (i : Nat) => s.scratchCell t (a + i)) .scratch

/-- A vault lane (R173). -/
def State.vaultLane (s : State) (t : Team) (n lane : Nat) (a : Int) (store : Bool) : LaneAcc :=
  sideLane n lane a (store && (t.view != 0 || t.frozen)) ((List.range n).map fun (i : Nat) => s.vaultCell t.crew (a + i)) .vault

/-- Start the walk of a page that no walk of the crew on this die reads yet, where one of the die's 32 walkers is free (R156,
R345). -/
def State.startWalk (s : State) (core crew va : Nat) : State :=
  if s.walks.any fun w => w.2.crew == crew && w.2.die == dieOf core && w.2.page == va / 65536 && !w.2.cancelled then s
  else if 32 ≤ (s.walks.filter fun w => w.2.die == dieOf core).length then s
  else { s with walks := s.walks ++ [(s.nextId, { die := dieOf core, core := core, crew := crew, page := va / 65536 })],
                nextId := s.nextId + 1 }

/-- What an access needs of its page (R157, R200). -/
def AccKind.need : AccKind → Need
  | .store => .write
  | .atomic _ _ => .both
  | _ => .read

/-- Whether a write to a global target takes the view-frozen fault (R264, R268): in a child view and in a frozen parent to a page
with SM or through a record with CLS, and in a frozen parent to its view, to which windows do not belong. -/
def State.viewFrozen (s : State) (t : Team) (tg : Target) (pa : Nat) (perm : Perm) : Bool :=
  if markedSm tg perm then t.frozen || t.view != 0 else t.frozen && !s.inWindow pa

/-- The key at which a team's access to a target is performed. -/
def State.accessKey (s : State) (t : Team) (tg : Target) (pa : Nat) (perm : Perm) (store : Bool) : LineKey :=
  let view := s.viewOf t.view tg pa perm
  let sm := s.isSm tg pa perm
  let die := dieOf t.core
  if store then
    if sm ∧ die ≠ s.homeDie pa then keyOf t.crew view tg (.localDie die) else keyOf t.crew view tg .home
  else keyOf t.crew view tg (s.loadPlace die t.crew view tg sm)

/-- The structure code and location of the poison that a read of a byte of a space meets (R346, R347). -/
def State.poisonAt (s : State) (t : Team) (sp a : Nat) : Option (Nat × Nat) :=
  match sp with
  | 0 => match s.translate t.core t.crew a with
    | .ok e =>
      let pa := e.at_ a
      (s.bytePoison (s.accessKey t (flatTarget a false) pa e.perm false) a pa).map fun code => (code, pa)
    | .error _ => none
  | 1 => match s.scratchCell t a with
    | .ok cell => if s.poison.contains (.scratch (cell / 8)) then some (3, cell) else none
    | .error _ => none
  | _ => match s.vaultCell t.crew a with
    | .ok cell => if s.poison.contains (.vault (cell / 8)) then some (6, cell) else none
    | .error _ => none

/-- The DETAIL of a memory error at a byte of a space (R346, R332). -/
def State.errorDetail (s : State) (t : Team) (code : BitVec 8) (sp a : Nat) : BitVec 128 :=
  if code ≠ 0x13 then 0
  else match s.poisonAt t sp a with
    | some (k, loc) => BitVec.ofNat 128 (k + loc * 2 ^ 64)
    | none => 0

/-- Start the clears of the unscrubbed pages of a global source (R158). -/
def State.touchSource (s : State) (t : Team) (sp a n : Nat) : State :=
  if sp ≠ 0 ∨ n = 0 then s
  else (upFrom (a / 65536) ((a + n - 1) / 65536 - a / 65536 + 1)).foldl (fun s p =>
    match s.translate t.core t.crew (p * 65536) with
    | .ok e => if s.unscrubbed t.crew (e.at_ (p * 65536)) then s.startClear t.crew (e.at_ (p * 65536)) else s
    | .error _ => s) s

/-- The bytes that a load lane takes, its own bytes of older buffered stores first (R178, R185). -/
def State.loadBytes (s : State) (own : List Access) (a : Access) (l : LaneAcc) (k : LineKey) (pa : Nat) : List Byte :=
  (List.range a.bytes).map fun i =>
    (forwarded (olderStores own a) (if a.uniformEffect then none else some l.lane) l.target (l.addr + i)).getD
      (s.lineByte k (l.addr + i) (pa + i))

/-- The bytes of scratch or of a vault that a load lane takes. -/
def State.sramBytes (s : State) (own : List Access) (a : Access) (l : LaneAcc) : List Byte :=
  (List.range a.bytes).map fun i =>
    (forwarded (olderStores own a) (if a.uniformEffect then none else some l.lane) l.target (l.addr + i)).getD
      (match l.target with
       | .scratch c => s.scratch.read (c + i)
       | .vault v => s.vault.read (v + i)
       | _ => 0)

/-- Whether a byte of scratch or of a vault that a lane reads is poisoned (R347). -/
def State.sramPoisoned (s : State) (t : Target) (n : Nat) : Bool :=
  (List.range n).any fun i => match t with
    | .scratch c => s.poison.contains (.scratch ((c + i) / 8))
    | .vault v => s.poison.contains (.vault ((v + i) / 8))
    | _ => false

/-- Whether a lane's request reaches the home slice of a replicable line: the lanes of one instruction on a line share one request,
which the lowest of them makes (R170, R175). -/
def Access.counts (a : Access) (l : LaneAcc) (k : LineKey) : Bool :=
  (match l.target with | .line _ _ _ _ _ _ r => r | _ => false) && k.place == .home &&
    ((a.lanes.find? fun m => m.target.same l.target).map LaneAcc.lane) == some l.lane

/-- Record a read of a replicable line at its home slice (R170). -/
def State.countRead (s : State) (k : LineKey) (die : Nat) (counts : Bool) : State :=
  if counts then
    let key : LineKey := { k with place := .home }
    { s with replReads := aput key (((aget key s.replReads).getD [] ++ [(s.clock, die)]).filter fun e =>
        s.clock < e.1 + 1024) s.replReads }
  else s

/-- Perform an atomic at home (R191): read, compute, write, in one event. The issuing die's local copy of a
software-managed line is written back and dropped first. -/
def State.performAtomic (s : State) (t : Team) (fn ty : Nat) (a : Access) (l : LaneAcc) (perm : Perm) (pa : Nat) :
    State × LaneAcc × BitVec 16 :=
  let view := s.viewOf t.view l.target pa perm
  let s := s.evictLine (keyOf t.crew view l.target (.localDie (dieOf t.core)))
  let k := keyOf t.crew view l.target .home
  let old := leNat (s.lineBytes k l.addr pa a.bytes)
  let r := atomResult fn ty old l.data l.data2
  let s := s.setLineBytes k (s.isSm l.target pa perm) (s.bypasses k pa perm false) l.addr pa (leBytes a.bytes r.1)
  (s, { l with st := .ready, data := old }, r.2)

/-- Ask a peer for a lane of an access (R310, R322). -/
def State.askPeer (s : State) (tid gi : Nat) (t : Team) (cmd : Option Nat) (a : Access) (l : LaneAcc) (pa : Nat) : State :=
  let op : RigOp := match a.kind with
    | .remoteAtomic aop ty => .atomic aop ty
    | _ => .read
  let r : RigRequest := { crew := t.crew, group := some ⟨tid, gi⟩, cmd := cmd, access := some a.id, lane := l.lane, op := op,
                          pa := pa, len := a.bytes, data := l.data, data2 := l.data2, tier := 0, arrived := s.clock }
  s.newRequest r

/-- A lane whose translation stands: its remaining checks in the order of R177, and its bytes. -/
def State.finishLane (s : State) (tid gi : Nat) (t : Team) (own : List Access) (a : Access) (l : LaneAcc)
    (e : TlbEntry) : State × LaneAcc × BitVec 16 :=
  match s.permitted t.crew a.kind.need e l.addr with
  | .error c => (s, { l with st := .faulted c }, 0)
  | .ok pa =>
    let h := s.lineHead t l.target pa e.perm
    let l : LaneAcc := { l with pa := pa, head := h.1, perm := h.2 }
    let write : Bool := a.kind.need != .read
    let view := s.viewOf t.view l.target h.1 h.2
    let k := if write then keyOf t.crew view l.target .home else s.accessKey t l.target h.1 h.2 false
    let bad := if a.kind == .store then none else s.linePoison k l.addr pa a.bytes
    if write && s.viewFrozen t l.target h.1 h.2 then (s, { l with st := .faulted 0x07 }, 0)
    else if bad.isSome then (s, { l with st := .faulted 0x13, sub := if bad == some 5 then 5 else 0 }, 0)
    else
      let window : Bool := match s.paClass pa with | .window _ => true | _ => false
      match (if write then s.firstWrite t.crew view l.addr pa e.perm.red else some s) with
      | none => (s, { l with st := .faulted 0x08 }, 0)
      | some s =>
        let scr := s.unscrubbed t.crew pa
        let s := s.touchPage t.crew pa
        match a.kind with
        | .store => (s, { l with st := if scr then .scrubbing else .ready }, 0)
        | .atomic fn ty =>
          if window then (s.askPeer tid gi t none a l pa, { l with st := .outside }, 0)
          else if scr then (s, { l with st := .scrubbing }, 0)
          else s.performAtomic t fn ty a l h.2 pa
        | _ =>
          let inLine : Bool := (List.range a.bytes).all fun i =>
            ((aget k s.lines).bind fun ln => aget (l.addr + i) ln.cells).isSome
          if window && !inLine then
            (s.askPeer tid gi t none a l pa, { l with st := .outside }, 0)
          else
            (s.countRead k (dieOf t.core) (a.counts l k),
             { l with st := .ready, data := leNat (s.loadBytes own a l k pa) }, 0)

/-- Bring one lane of an access as far as it comes without waiting: a missing translation starts a walk, a lane of a remote
form asks its peer. `own` are the group's other accesses and buffered stores. A load of an instruction that issues late waits for
a turn that performs it (R186). -/
def State.resolveLane (s : State) (tid gi : Nat) (t : Team) (own : List Access) (a : Access) (l : LaneAcc) :
    State × LaneAcc × BitVec 16 :=
  match l.st with
  | .walk =>
    if l.waitsBehind own a || (a.kind != .store && l.behindLoad own a) then (s, l, 0)
    else match a.kind, l.target with
    | .remoteLoad, _ | .remoteAtomic _ _, _ =>
      let cmd := (s.cmds.find? fun e => e.2.access == some a.id).map Prod.fst
      (s.askPeer tid gi t cmd a l l.pa, { l with st := .outside }, 0)
    | _, .line _ _ _ _ _ _ _ =>
      match s.tlb t.core t.crew l.addr with
      | some e => if s.late && a.kind == .load then (s, l, 0) else s.finishLane tid gi t own a l e
      | none => (s.startWalk t.core t.crew l.addr, l, 0)
    | _, _ =>
      match a.kind with
      | .store => (s, { l with st := .ready }, 0)
      | _ =>
        if s.sramPoisoned l.target a.bytes then (s, { l with st := .faulted 0x13 }, 0)
        else (s, { l with st := .ready, data := leNat (s.sramBytes own a l) }, 0)
  | _ => (s, l, 0)

/-- The lanes of an access in ascending order. -/
def State.resolveLanes (s : State) (tid gi : Nat) (t : Team) (own : List Access) (a : Access) :
    List LaneAcc → State × List LaneAcc × BitVec 16
  | [] => (s, [], 0)
  | l :: ls =>
    let r := s.resolveLane tid gi t own a l
    let q := r.1.resolveLanes tid gi t own a ls
    (q.1, r.2.1 :: q.2.1, r.2.2 ||| q.2.2)

/-- An access with every lane brought as far as it comes; it keeps the flags that its reply raises (R200). -/
def State.resolve (s : State) (tid gi : Nat) (t : Team) (own : List Access) (a : Access) :
    State × Access :=
  let r := s.resolveLanes tid gi t own a a.lanes
  (r.1, { a with lanes := r.2.1, flags := a.flags ||| r.2.2 })

/-- A faulted lane as a new try finds it (R334): the checks that come before translation are made again, but for the bounds of a
record, whose coordinates are no more. -/
def State.retryLane (s : State) (t : Team) (n : Nat) (store : Bool) (l : LaneAcc) : LaneAcc :=
  let addr : Int := if 2 ^ 63 ≤ l.addr then (l.addr : Int) - 2 ^ 64 else l.addr
  match l.st, l.target with
  | .faulted 0x06, .line _ _ _ _ _ _ _ => l
  | .faulted _, .line _ _ _ _ _ _ _ => { l with st := (flatLane n l.lane l.addr).st }
  | .faulted _, .scratch _ =>
    let x := s.scratchLane t n l.lane addr
    { l with st := x.st, target := x.target }
  | .faulted _, .vault _ =>
    let x := s.vaultLane t n l.lane addr store
    { l with st := x.st, target := x.target }
  | _, _ => l

/-- The valid window by which a crew reaches a peer, the lowest that matches (R320). -/
def State.peerWindow (s : State) (crew p : Nat) : Option (BitVec 128) :=
  ((List.range 64).find? fun k =>
    let w := s.window k
    winV w && (winRig w == 1 || winRig w == 2) && winCrew w == crew && winPeer w ≤ p &&
      p < winPeer w + 2 ^ (winSize w - winPshift w)).map s.window

/-- One lane of a remote form: its peer and its lane, faulted where a check fails. The lane keeps its peer in `head`. -/
def State.remoteLane (s : State) (crew : Nat) (atomic : Bool) (n lane peer off : Nat) : Nat × LaneAcc :=
  let p := peer % 4096
  let l : LaneAcc := { lane := lane, addr := off, target := flatTarget 0 true, head := peer }
  let bad (c : BitVec 8) : Nat × LaneAcc := (p, { l with st := .faulted c })
  if 4096 ≤ peer ∨ 2 ^ 56 ≤ off then bad 0x04
  else match s.peerWindow crew p with
    | none => bad 0x04
    | some w =>
      if atomic && winRig w == 2 then bad 0x04
      else if 2 ^ winPshift w ≤ off then bad 0x06
      else if off % n ≠ 0 then bad 0x05
      else (p, { l with pa := winBase w + (p - winPeer w) * 2 ^ winPshift w + off })

/-- A faulted lane of a remote form as a new try finds it: its window is looked up again (R313). -/
def State.retryRemote (s : State) (t : Team) (a : Access) (l : LaneAcc) : LaneAcc :=
  match l.st with
  | .faulted _ =>
    let x := (s.remoteLane t.crew (a.kind != .remoteLoad) a.bytes l.lane l.head l.addr).2
    { l with st := x.st, pa := x.pa, sub := 0 }
  | _ => l

/-- Faulted lanes of an access become lanes to be tried again (R334). -/
def State.retryAccess (s : State) (t : Team) (a : Access) : Access :=
  match a.kind with
  | .remoteLoad | .remoteAtomic _ _ => { a with seqNo := none, again := false, lanes := a.lanes.map (s.retryRemote t a) }
  | _ => { a with seqNo := none, again := false, lanes := a.lanes.map (s.retryLane t a.bytes (a.kind == .store)) }

/-- Whether a lane has still to be performed. -/
def LaneAcc.waiting (l : LaneAcc) : Bool :=
  match l.st with | .walk | .outside | .scrubbing => true | _ => false

/-- The key of the line that a store lane writes, as its translation gave it (R167). -/
def State.storeKey (s : State) (t : Team) (l : LaneAcc) : LineKey := s.accessKey t l.target l.head l.perm true

/-- Perform the bytes of one store lane at its home (R190, R167). -/
def State.performStore (s : State) (t : Team) (a : Access) (l : LaneAcc) : State :=
  let bytes := leBytes a.bytes l.data
  match l.target with
  | .scratch c => { s with scratch := s.scratch.writeN c bytes }
  | .vault v => { s with vault := s.vault.writeN v bytes }
  | .line _ _ _ _ _ _ _ =>
    let k := s.storeKey t l
    s.setLineBytes k (s.isSm l.target l.head l.perm) (s.bypasses k l.head l.perm a.na) l.addr l.pa bytes

/-- Perform store lanes in ascending order, so that of two lanes that write one byte the higher remains (R175). -/
def State.performStores (s : State) (t : Team) (a : Access) : List LaneAcc → State
  | [] => s
  | l :: ls => (s.performStore t a l).performStores t a ls

/-- The bytes of a poisoned unit's space that a store lane writes. -/
def State.laneWrites (s : State) (t : Team) (l : LaneAcc) (n : Nat) (u : PoisonUnit) (x : Nat) : Bool :=
  match l.target, u with
  | .line _ _ _ _ _ _ _, .hbm _ => l.pa ≤ x && x < l.pa + n
  | .line _ _ _ _ _ _ _, .slice k _ => k == s.storeKey t l && l.addr ≤ x && x < l.addr + n
  | .scratch c, .scratch _ => c ≤ x && x < c + n
  | .vault v, .vault _ => v ≤ x && x < v + n
  | _, _ => false

/-- The bytes of a poisoned unit (R347). -/
def PoisonUnit.bytes : PoisonUnit → List Nat
  | .hbm u => upFrom (32 * u) 32
  | .scratch w | .vault w | .slice _ w => upFrom (8 * w) 8

/-- Writes clear the poison of the units that they cover whole (R347). -/
def State.unpoisonIf (s : State) (w : PoisonUnit → Nat → Bool) : State :=
  { s with poison := s.poison.filter fun u => !u.bytes.all (w u) }

/-- A store clears the poison of the units that it covers whole (R347). -/
def State.unpoison (s : State) (t : Team) (n : Nat) (ls : List LaneAcc) : State :=
  s.unpoisonIf fun u x => ls.any fun l => s.laneWrites t l n u x

/-- The bytes that store lanes have written to lines of windows name their store (R315). -/
def State.ownLanes (s : State) (t : Team) (ref : GroupRef) (a : Access) (ls : List LaneAcc) : State :=
  ls.foldl (fun s l => match l.target with
    | .line _ _ _ _ _ _ _ => s.ownBytes (s.storeKey t l) l.addr a.bytes { group := ref, path := a.path, pc := a.pc, engine := false }
    | _ => s) s

/-- Perform some lanes of a store. -/
def State.performAll (s : State) (t : Team) (a : Access) (ls : List LaneAcc) : State :=
  (s.performStores t a ls).unpoison t a.bytes ls

/-- A list of accesses with one of them brought up to date. -/
def replaced (l : List Access) (a : Access) : List Access := l.map fun b => if b.id = a.id then a else b

/-- Try the accesses of a list that a condition picks again: their faulted lanes afresh, the others from where they stand. `own`
are all accesses and buffered stores of the group. -/
def State.retryAll (s : State) (tid gi : Nat) (t : Team) (which : Access → Bool) (own : List Access) :
    List Access → State × List Access
  | [] => (s, [])
  | a :: as =>
    let r := s.resolve tid gi t own (if a.faulted && which a then s.retryAccess t a else a)
    let q := r.1.retryAll tid gi t which (replaced own r.2) as
    (q.1, r.2 :: q.2)

/-- The commands of accesses that are tried again go on (R315, R322). -/
def State.retryCommands (s : State) (which : Access → Bool) (as : List Access) : State :=
  let ids := (as.filter fun a => a.faulted && which a).map Access.id
  { s with cmds := s.cmds.map fun e => match e.2.access, e.2.st with
      | some a, .faulted _ => if ids.contains a then (e.1, { e.2 with st := .running }) else e
      | _, _ => e }

/-- Try the faulted work of a group that a condition picks again: pending accesses and buffered stores. -/
def State.retryWhere (s : State) (tid gi : Nat) (which : Access → Bool) : State :=
  match s.team tid, s.group tid gi with
  | some t, some g =>
    let r1 := (s.retryCommands which g.pend).retryAll tid gi t which g.own g.sbuf
    let r2 := r1.1.retryAll tid gi t which (r1.2 ++ g.pend) g.pend
    r2.1.modGroup tid gi fun g => { g with sbuf := r1.2, pend := r2.2 }
  | _, _ => s

/-- Try the faulted work of a group again (R334). -/
def State.retryGroup (s : State) (tid gi : Nat) : State := s.retryWhere tid gi fun _ => true

end Sys2Proof.Machine
end

