-- ==== Sys2Proof/Machine/Trace.lean ====
section
/-! DEFINITION. Trace rings and packets (spec/17_trace.md R379 to R384) and interrupts toward the host (spec/16_crews.md
R361).

Marked in the assumption log: 22 (DEDUCED), 38 (DEDUCED). -/

namespace Sys2Proof.Machine

/-- A packet (R382). -/
def packet (type delta core slot path : Nat) (body : BitVec 216) : BitVec 256 :=
  BitVec.ofNat 4 type ++ BitVec.ofNat 16 delta ++ BitVec.ofNat 9 core ++ BitVec.ofNat 8 slot ++ BitVec.ofNat 3 path ++ body

/-- Write packets at HEAD, one after the other (R379). -/
def State.ringPut (s : State) (base log : Nat) (head : Nat) : List (BitVec 256) → State
  | [] => s
  | p :: ps => (s.physWriteN (base + head % 2 ^ log) (leBytes 32 p.toNat)).ringPut base log (head + 32) ps

/-- Whether a ring has room for so many packets (R380). -/
def Ring.room (r : Ring) (n : Nat) : Bool := (r.head - r.tail).toNat + 32 * n ≤ 2 ^ r.log

/-- Whether a sync falls due before a unit of `n` packets (R381, R384): the ring has none yet, the DELTA would exceed 65,535,
or the 4,096th packet since the last sync is at or within the unit. -/
def Ring.syncDue (r : Ring) (clock n : Nat) : Bool := !r.synced || 65535 < clock - r.last || 4096 ≤ r.since + n

/-- Write packets into a ring (R379). -/
def State.ringAdd (q : State × Ring) (ps : List (BitVec 256)) : State × Ring :=
  (q.1.ringPut q.2.base q.2.log q.2.head.toNat ps,
   { q.2 with head := q.2.head + BitVec.ofNat 64 (32 * ps.length), since := q.2.since + ps.length, last := q.1.clock })

/-- Write a sync packet, from which the packets are counted and the DELTAs run (R381). -/
def State.ringSync (die : Nat) (q : State × Ring) : State × Ring :=
  let r := State.ringAdd q [packet 1 0 0x1FF 0 0 (BitVec.ofNat 216 (q.1.clock % 2 ^ 64 + die * 2 ^ 64))]
  (r.1, { r.2 with since := 0, synced := true })

/-- Write a sync where one is due before `n` packets. -/
def State.ringSyncIf (die n : Nat) (q : State × Ring) : State × Ring :=
  if q.2.syncDue q.1.clock n then State.ringSync die q else q

/-- Write a unit, a packet made from its DELTA and the TYPE 7 packets that follow it, whole, or drop it whole and count the
loss (R380, R384). -/
def State.ringUnit (first : Nat → BitVec 256) (offs : List (BitVec 256)) (q : State × Ring) : State × Ring :=
  if q.2.room (1 + offs.length) then State.ringAdd q (first (q.1.clock - q.2.last) :: offs)
  else (q.1, { q.2 with lost := q.2.lost + (1 + offs.length) })

/-- Write the loss packet and empty the lost count (R380). -/
def State.ringLoss (q : State × Ring) : State × Ring :=
  let r := State.ringAdd q [packet 5 (q.1.clock - q.2.last) 0x1FF 0 0
    (BitVec.ofNat 216 (q.2.lost % 2 ^ 32 + q.1.clock % 2 ^ 64 * 2 ^ 32))]
  (r.1, { r.2 with lost := 0 })

/-- A unit comes to a ring (R380, R381): where packets were lost and it finds room for itself and two more, a loss packet and
a sync stand before it; else a sync where one is due. A unit without room for itself is dropped, and no sync is written for
it; one that loses its room to the sync before it is dropped as well (assumption 38). -/
def State.emitOn (s : State) (crew die : Nat) (r : Ring) (first : Nat → BitVec 256) (offs : List (BitVec 256)) : State :=
  let n := 1 + offs.length
  let q : State × Ring :=
    if r.lost ≠ 0 ∧ r.room (n + 2) then
      State.ringUnit first offs (State.ringSync die (State.ringLoss (State.ringSyncIf die 1 (s, r))))
    else if r.room n then State.ringUnit first offs (State.ringSyncIf die n (s, r))
    else State.ringUnit first offs (s, r)
  q.1.modCrew crew fun c => { c with rings := aput die q.2 c.rings }

/-- Write a unit to the ring of a crew on a die when a kind of tracing is enabled there (R388). -/
def State.emit (s : State) (crew die bit : Nat) (first : Nat → BitVec 256) (offs : List (BitVec 256)) : State :=
  match aget die (s.crew crew).rings with
  | some r => if r.on ∧ r.ctl.getLsbD bit then s.emitOn crew die r first offs else s
  | none => s

/-- Write a packet to the ring of a crew on a die whatever kinds of tracing it has enabled (R386). -/
def State.emitAlways (s : State) (crew die : Nat) (first : Nat → BitVec 256) : State :=
  match aget die (s.crew crew).rings with
  | some r => if r.on then s.emitOn crew die r first [] else s
  | none => s

/-- A TYPE 2 body (R382). -/
def branchBody (pc : VAddr) (before moved : Mask) (target : VAddr) (kind : Nat) : BitVec 216 :=
  (BitVec.ofNat 2 kind ++ target ++ moved ++ before ++ pc).setWidth 216

/-- A TYPE 6 body (R382). -/
def stopBody (pc : VAddr) (mask : Mask) (cause : Nat) : BitVec 216 := (BitVec.ofNat 8 cause ++ mask ++ pc).setWidth 216

/-- A stale event of a function is dropped and counted (R360, R361). -/
def Function.dropOne (f : Function) : Function := { f with drop := if f.drop = 0xFFFF then f.drop else f.drop + 1 }

/-- Send or hold one interrupt vector of a function; a held event of an earlier incarnation is dropped for it (R361). -/
def State.raise (s : State) (vf vec : Nat) : State :=
  let f := s.func vf
  if f.en && !f.paused && s.crewRuns f.crew.toNat then { s with hostLog := s.hostLog ++ [.msix vf vec] }
  else
    let stale : Bool := match aget vec f.pending with
      | some inc => inc != f.inc
      | none => false
    let f := if stale then f.dropOne else f
    s.setFunc vf { f with pending := aput vec f.inc f.pending }

/-- The functions bound to a crew, ascending. -/
def State.functionsOf (s : State) (crew : Nat) : List Nat :=
  (List.range 512).filter fun v => (s.func v).en && (s.func v).crew.toNat == crew

/-- Raise a vector at every function of a crew. -/
def State.raiseCrew (s : State) (crew vec : Nat) : State := (s.functionsOf crew).foldl (fun s v => s.raise v vec) s

/-- Send the held vectors of a function that has begun to run, in ascending number; a stale one is dropped and counted
(R361). -/
def State.sendHeld (s : State) (vf : Nat) : State :=
  let f := s.func vf
  if f.en && !f.paused && s.crewRuns f.crew.toNat then
    let ready := (List.range 32).filterMap fun v => (aget v f.pending).map fun inc => (v, inc)
    ready.foldl (fun s e =>
      if e.2 = f.inc then { s with hostLog := s.hostLog ++ [.msix vf e.1] }
      else s.setFunc vf (s.func vf).dropOne)
      (s.setFunc vf { f with pending := [] })
  else s

end Sys2Proof.Machine
end

