-- ==== Sys2Proof/Machine/Ops.lean ====
section
/-! DEFINITION. The named operations that the meanings share: the issuing path or seat, registers, fetch lines and landing
points, taking a fault and returning from it, replay, retiring an instruction (spec/04_registers.md, spec/07_control.md,
spec/15_traps.md).

Marked in the assumption log: 3 (DESIGN CHOICE), 9 (DEDUCED), 20 (DEDUCED), 22 (DEDUCED), 23 (DEDUCED), 25 (DEDUCED), 26 (DESIGN
CHOICE), 34 (DEDUCED), 42 (DEDUCED), 49 (DESIGN CHOICE). -/

namespace Sys2Proof.Machine

/-- The outcome of a step. -/
abbrev Out := Host.Outcome State Fault Refusal

/-- The path that issues, with what surrounds it. -/
structure PathCtx where
  s : State
  tid : Nat
  gi : Nat
  pi : Nat
  t : Team
  g : Group
  p : Path
  deriving DecidableEq, Repr

/-- The seat that issues. -/
structure SeatCtx where
  s : State
  tid : Nat
  t : Team
  q : Seat
  deriving DecidableEq, Repr

/-- A path-table entry of a group. -/
def Group.path (g : Group) (i : Nat) : Option Path := (g.paths.toList[i]?).join

/-- Set a path-table entry. -/
def Group.setPath (g : Group) (i : Nat) (p : Option Path) : Group := { g with paths := g.paths.setIfInBounds i p }

/-- The valid paths of a group with their indices. -/
def Group.valid (g : Group) : List (Nat × Path) :=
  (List.range 8).filterMap fun i => (g.path i).map fun p => (i, p)

/-- The free entry of the lowest number (R139). -/
def Group.freeEntry (g : Group) : Option Nat := (List.range 8).find? fun i => (g.path i).isNone

/-- The live lanes of a group: those of its paths (R136). -/
def Group.live (g : Group) : Mask := g.valid.foldl (fun m e => m ||| e.2.mask) 0

/-- The context of a path. -/
def State.pathCtx (s : State) (r : PathRef) : Option PathCtx :=
  match s.team r.team with
  | none => none
  | some t =>
    match t.groups[r.group]? with
    | none => none
    | some g =>
      match g.path r.path with
      | none => none
      | some p => some { s := s, tid := r.team, gi := r.group, pi := r.path, t := t, g := g, p := p }

/-- The context of a seat. -/
def State.seatCtx (s : State) (tid : Nat) : Option SeatCtx :=
  match s.team tid with
  | none => none
  | some t => t.seat.map fun q => { s := s, tid := tid, t := t, q := q }

/-! Fetch lines (R16 to R20) -/

/-- The key of instruction-cache lines of a team: crew and view (R14). -/
def Team.codeKey (t : Team) : Nat := t.crew * 65536 + t.view

/-- The address of the line of a slot address. -/
def lineAddr (pc : VAddr) : Nat := pc.toNat / 64 * 64

/-- The slot number of an address, or none where it is no slot address (R134). -/
def slotOf (pc : VAddr) : Option Nat :=
  if pc.toNat % 64 % 12 = 0 ∧ pc.toNat % 64 / 12 < 5 then some (pc.toNat % 64 / 12) else none

/-- A line in a core's instruction cache. -/
def State.cachedLine (s : State) (t : Team) (pc : VAddr) : Option (BitVec 512) :=
  ((s.core t.core).icache.find? fun e => e.1 == t.codeKey && e.2.1 == lineAddr pc).map fun e => e.2.2

/-- The physical address of a line in the team's view, its page mapped and executable, or the fault (R145, R157). -/
def State.codePage (s : State) (t : Team) (pc : VAddr) : Except (BitVec 8) Nat :=
  match s.translate t.core t.crew (lineAddr pc) with
  | .error c => .error c
  | .ok e => s.permitted t.crew .exec e (lineAddr pc)

/-- The bytes of a line at a physical address, as the team's view holds them. -/
def State.lineAt (s : State) (t : Team) (pc : VAddr) (pa : Nat) : BitVec 512 :=
  BitVec.ofNat 512 (leNat ((List.range 64).map fun i => s.viewByte t.crew t.view (lineAddr pc + i) (pa + i)))

/-- A line as it stands in the team's view: the cached copy, else the bytes of its executable page. Such a line is read
without the check of PAR and LPAR, which belongs to a fetch into the cache (R18): DESIGN CHOICE, assumption 49. -/
def State.codeLine (s : State) (t : Team) (pc : VAddr) : Except (BitVec 8) (BitVec 512) :=
  match s.cachedLine t pc with
  | some l => .ok l
  | none => (s.codePage t pc).map (s.lineAt t pc)

/-- The landing check of a target (R20, R145): a fault code, or none where the target is a landing point. The target's page
is mapped with execute permission, whether or not its line is cached; the TGT bit is that of the cached line where there is
one. -/
def State.landing (s : State) (t : Team) (target : Word64) : Option (BitVec 8) :=
  let pc : VAddr := target.setWidth 56
  if target.extractLsb' 56 8 ≠ 0 then some 0x02
  else match slotOf pc with
    | none => some 0x02
    | some slot =>
      match s.codePage t pc with
      | .error c => some c
      | .ok pa => if lineTgt ((s.cachedLine t pc).getD (s.lineAt t pc pa)) slot then none else some 0x02

/-- Whether a path's next slot has its TGT bit set (R138): the line as it stands, without a new translation where it is
cached. -/
def State.atLandingPoint (s : State) (t : Team) (pc : VAddr) : Bool :=
  match slotOf pc, s.codeLine t pc with
  | some slot, .ok line => lineTgt line slot
  | _, _ => false

/-- The next slot in issue order (R19). -/
def nextSlot (pc : VAddr) : VAddr :=
  if pc.toNat % 64 < 48 then pc + 12 else BitVec.ofNat 56 (lineAddr pc + 64)

/-- The return address of a call (R147). -/
def returnSlot (pc : VAddr) : VAddr :=
  if pc.toNat % 64 < 36 then pc + 12 else BitVec.ofNat 56 (lineAddr pc + 64)

/-- The target of a direct transfer (R31): a line displacement in IMM[31:3], a slot number in IMM[2:0]. A line address past
the ends of the 56-bit space wraps: DESIGN CHOICE, assumption 49. -/
def directTarget (pc : VAddr) (imm : Word32) : Word64 :=
  let disp := (imm.extractLsb' 3 29).toInt
  BitVec.ofNat 64 (((lineAddr pc : Int) + disp * 64) % 2 ^ 56).toNat + BitVec.ofNat 64 (12 * (imm.toNat % 8))

/-! Registers of a path (R60, R61, R71) -/

/-- What a lane vector reads as when results are in flight: in each lane an old value or the current one (R71). -/
def PathCtx.hazard (c : PathCtx) (field : Nat) (r : Reg) (idx : Nat) (cur : Lanes) : Lanes :=
  (c.g.inflight.filter fun e => e.reg == r && e.wait.toArray.getD c.pi 0 != 0).foldr
    (fun e v => Lanes.merge (Config.hazardChoice c.s.fresh field idx) e.old v) cur

/-- A vector register; unmapped names and names past v191 read zero (R61, R163). -/
def PathCtx.vreg (c : PathCtx) (field r : Nat) : Lanes :=
  c.hazard field (.v r) r (((aget r c.g.vregs).map VReg.lanes).getD (Lanes.all 0))

/-- A 64-bit value in lanes 0 and 1. -/
def packWord (w : Word64) : Lanes := Lanes.ofFn fun l => if l = 0 then w.setWidth 32 else if l = 1 then w.extractLsb' 32 32 else 0

/-- The value in lanes 0 and 1. -/
def unpackWord (v : Lanes) : Word64 := v.get 1 ++ v.get 0

/-- A uniform register. -/
def PathCtx.greg (c : PathCtx) (field r : Nat) : Word64 :=
  let cur := c.g.g.toArray.getD r 0
  if c.g.inflight.any fun e => e.reg == .g r && e.wait.toArray.getD c.pi 0 != 0
  then unpackWord (c.hazard field (.g r) (256 + r) (packWord cur)) else cur

/-- A 32-bit mask read through the hazard rule. -/
def PathCtx.maskReg (c : PathCtx) (field : Nat) (r : Reg) (idx : Nat) (cur : Mask) : Mask :=
  if c.g.inflight.any fun e => e.reg == r && e.wait.toArray.getD c.pi 0 != 0 then
    let old := (c.hazard field r idx (packWord (cur.setWidth 64))).get 0
    let ch := Config.hazardChoice (c.s.fresh + 1) field idx
    (old &&& ch) ||| (cur &&& ~~~ch)
  else cur

/-- A predicate; p7 reads all-ones (R23). -/
def PathCtx.pred (c : PathCtx) (field n : Nat) : Mask :=
  if n = 7 then BitVec.allOnes 32 else c.maskReg field (.p n) (512 + n) (c.g.preds.toArray.getD n 0)

/-- The execution mask. -/
def PathCtx.em (c : PathCtx) : Mask := c.maskReg 4 .em 600 c.g.em

/-- The guard mask, narrowed by a skip shadow (R26, R144). -/
def PathCtx.guard (c : PathCtx) (f : Fields) : Mask :=
  let m := c.pred 5 f.pg.toNat
  let m := if f.neg then ~~~m else m
  if c.p.shc = 0 then m else m &&& c.p.shm

/-- The active set of a per-lane instruction (R26). -/
def PathCtx.active (c : PathCtx) (f : Fields) : Mask := c.em &&& c.p.mask &&& c.guard f

/-- Whether a uniform-effect instruction takes effect (R26). -/
def PathCtx.effect (c : PathCtx) (f : Fields) : Bool := c.guard f != 0

/-- Whether an operand code names a uniform register (R23). -/
def isUni (code : BitVec 8) : Bool := 0xC0 ≤ code.toNat

/-- The 64-bit value of a g operand code. -/
def PathCtx.uni (c : PathCtx) (field : Nat) (code : BitVec 8) : Word64 := c.greg field (code.toNat - 0xC0)

/-- A per-lane operand of `n` registers, as a number in each lane (R25: a g register supplies its low bits to every
lane). -/
def PathCtx.laneOp (c : PathCtx) (field : Nat) (code : BitVec 8) (n : Nat) : Nat → Nat :=
  if isUni code then
    let w := (c.uni field code).toNat % 2 ^ (32 * n)
    fun _ => w
  else
    let vs := (upFrom code.toNat n).map (c.vreg field)
    fun l => vs.foldr (fun v acc => (v.get l).toNat + 2 ^ 32 * acc) 0

/-- Whether every register of a vector operand is held in uniform form (R68). -/
def Group.inUniform (g : Group) (code : BitVec 8) (n : Nat) : Bool :=
  isUni code || ((upFrom code.toNat n).all fun r => ((aget r g.vregs).map VReg.uniform).getD false)

/-- The entries of a core's uniform store in use (R68). -/
def State.uniformUsed (s : State) (core : Nat) : Nat :=
  (s.teams.map fun e => if e.2.core = core ∧ (e.2.status = .resident ∨ e.2.status = .draining) then
    (e.2.groups.map fun g => (g.vregs.filter fun v => v.2.uniform).length).sum else 0).sum

/-- Unmap a vector name (R62, R63). -/
def Group.free (g : Group) (r : Nat) : Group :=
  match aget r g.vregs with
  | none => g
  | some v =>
    if v.pending then { g with vregs := aput r { v with freeLater := true } g.vregs }
    else { g with vregs := adel r g.vregs, inflight := g.inflight.filter fun e => e.reg != .v r }

/-- Unmap a run of names. -/
def Group.freeAll (g : Group) (rs : List Nat) : Group := rs.foldl Group.free g

/-- Write the lanes of a mask of one vector register, mapping it if it is unmapped (R61). -/
def Group.writeReg (g : Group) (r : Nat) (m : Mask) (v : Lanes) (uniform : Bool) : Group :=
  let old := ((aget r g.vregs).map VReg.lanes).getD (Lanes.all 0)
  let fl := ((aget r g.vregs).map VReg.freeLater).getD false
  { g with vregs := aput r { lanes := Lanes.merge m v old, uniform := uniform && m == BitVec.allOnes 32, freeLater := fl } g.vregs }

/-- Write `n` registers from a number per lane. -/
def Group.writeVec (g : Group) (r : Nat) (m : Mask) (val : Nat → Nat) (uniform : Bool) : Nat → Group
  | 0 => g
  | n + 1 =>
    (g.writeReg r m (Lanes.ofFn fun l => BitVec.ofNat 32 (val l)) uniform).writeVec (r + 1) m
      (fun l => val l / 2 ^ 32) uniform n

/-- Write a uniform register. -/
def Group.writeUni (g : Group) (r : Nat) (w : Word64) : Group := { g with g := g.g.setIfInBounds r w }

/-- Write the lanes of a mask of a predicate. -/
def Group.writePred (g : Group) (n : Nat) (m v : Mask) : Group :=
  { g with preds := g.preds.setIfInBounds n ((v &&& m) ||| (g.preds.toArray.getD n 0 &&& ~~~m)) }

/-- What a register held, for R71. -/
def Group.oldOf (g : Group) : Reg → Lanes
  | .v r => ((aget r g.vregs).map VReg.lanes).getD (Lanes.all 0)
  | .g r => packWord (g.g.toArray.getD r 0)
  | .p r => packWord ((g.preds.toArray.getD r 0).setWidth 64)
  | .em => packWord (g.em.setWidth 64)

/-- Note fixed-latency results in flight: the registers that an instruction writes, what they held, the latency (R71). -/
def Group.note (g old : Group) (regs : List Reg) (latency : Nat) : Group :=
  { g with inflight := g.inflight ++ regs.map fun r =>
      { reg := r, old := old.oldOf r, wait := Vector.replicate 8 latency } }

/-- The vector registers that the LR bits of a word free (R27), from the operands its form takes. -/
def lrRegs (opc fn : Nat) (f : Fields) : List Nat :=
  match formSpec opc fn f with
  | none => []
  | some none => []
  | some (some sp) =>
    let one (bit : Nat) (code : BitVec 8) (ops : List Opd) : List Nat :=
      if f.lr.getLsbD bit then
        match ops with
        | .vec n :: _ => upFrom code.toNat n
        | _ => []
      else []
    one 0 f.sa sp.sa ++ one 1 f.sb sp.sb ++ one 2 f.sc sp.sc

/-! Faults (R328 to R336) -/

/-- What a fault reports (R332). `pc` is the faulting instruction, `rpc` where the path resumes. -/
structure FaultInfo where
  code : BitVec 8
  cause : BitVec 4 := 0
  sub : BitVec 4 := 0
  mask : Mask := BitVec.allOnes 32
  addr : Word64 := BitVec.allOnes 64
  detail : BitVec 128 := 0
  pc : VAddr
  rpc : VAddr
  deriving DecidableEq, Repr

/-- A record without its SEQ (R332). -/
def mkRecord (code : BitVec 8) (cause sub : BitVec 4) (kind crew core seat group path ty tx : Nat) (lseq : Word64)
    (pc : VAddr) (mask : Mask) (addr : Word64) (detail : BitVec 128) : BitVec 512 :=
  (0 : BitVec 64) ++ code ++ cause ++ sub ++ BitVec.ofNat 4 kind ++ (0 : BitVec 2) ++ BitVec.ofNat 6 crew ++
    BitVec.ofNat 9 core ++ BitVec.ofNat 3 seat ++ BitVec.ofNat 5 group ++ BitVec.ofNat 3 path ++ (0 : BitVec 16) ++
    BitVec.ofNat 16 ty ++ BitVec.ofNat 16 tx ++ lseq ++ pc ++ (0 : BitVec 8) ++ mask ++ addr ++ detail

/-- The SEQ of a team's launch record. -/
def State.lseq (s : State) (t : Team) : Word64 := ((s.grid t.grid).map Grid.seq).getD 0

/-- Mark the source of a record with the SEQ it was written under (R334). -/
def State.markSource (s : State) (src : RecSource) (seq : Nat) : State :=
  match src with
  | .group t gi => s.modGroup t gi fun g => { g with seqs := g.seqs ++ [seq] }
  | .seat t => s.modSeat t fun q => { q with seqs := q.seqs ++ [seq] }
  | .command id => s.modCmd id fun c => { c with seqNo := some seq }
  | .grid id => s.modGrid id fun g => { g with cause := seq }
  | .nothing => s

/-- Write a record into the crew's ring, advance FQHEAD, raise vector 0 (R333). -/
def State.writeRecord (s : State) (crew : Nat) (r : BitVec 512) (src : RecSource) : State :=
  let c := s.crew crew
  let seq := c.fqhead
  let entry := (c.fqbase.extractLsb' 12 40).toNat * 4096 + seq.toNat % 2 ^ c.fqlog * 64
  let s := s.physWriteN entry (leBytes 64 (r ||| (seq.setWidth 512 <<< 448)).toNat)
  let s := s.modCrew crew fun c => { c with fqhead := c.fqhead + 1 }
  (s.markSource src seq.toNat).raiseCrew crew 0

/-- Whether a crew's fault queue has room (R333). -/
def Crew.queueRoom (c : Crew) : Bool := (c.fqhead - c.fqtail).toNat != 2 ^ c.fqlog

/-- Post a record: written at once, or held behind a full queue (R333). -/
def State.postRecord (s : State) (crew : Nat) (r : BitVec 512) (src : RecSource) : State :=
  let c := s.crew crew
  if c.heldRecs.isEmpty && c.queueRoom then s.writeRecord crew r src
  else s.setCrew crew { c with heldRecs := c.heldRecs ++ [{ record := r, source := src }] }

/-- The record of a group fault. -/
def State.groupRecord (s : State) (t : Team) (gi pi kind : Nat) (fi : FaultInfo) : BitVec 512 :=
  mkRecord fi.code fi.cause fi.sub kind t.crew t.core 0 gi pi t.y t.x (s.lseq t) fi.pc fi.mask fi.addr fi.detail

/-- The Handler column of R328. -/
def handlerTakes (code : BitVec 8) : Bool := !(code == 0x0A || code == 0x10 || code == 0x13)

/-- Post the record of a path's fault and deschedule the group, the path replayable (R330). -/
def State.queueFault (s : State) (tid gi pi : Nat) (fi : FaultInfo) : State :=
  match s.team tid with
  | none => s
  | some t =>
    let s := s.modGroup tid gi fun g =>
      { g.setPath pi ((g.path pi).map fun p => { p with st := .replayable }) with descheduled := true }
    s.postRecord t.crew (s.groupRecord t gi pi 0 fi) (.group tid gi)

/-- The group with its path in the handler (R335). -/
def Group.enterHandler (g : Group) (pi : Nat) (p : Path) (vec : VAddr) (fi : FaultInfo) : Group :=
  let r (n : Nat) : Word64 := g.g.toArray.getD n 0
  let trap : TrapState :=
    { rpc := fi.rpc, lk := p.lk, shc := p.shc, shm := p.shm, em := g.em &&& p.mask, g60 := r 60, g61 := r 61,
      g62 := r 62, g63 := r 63, path := BitVec.ofNat 3 pi, code := fi.code }
  let w60 : Word64 := fi.mask ++ (0 : BitVec 13) ++ BitVec.ofNat 3 pi ++ fi.sub ++ fi.cause ++ fi.code
  let g1 := (((g.writeUni 60 w60).writeUni 61 fi.addr).writeUni 62 (fi.rpc.setWidth 64)).writeUni 63
    (fi.detail.setWidth 64)
  { g1.setPath pi (some { p with st := .handler, shc := 0, pc := vec, begun := false, rest := 0 }) with
    trap := trap, tm := true, em := g.em ||| p.mask, held := g.held || !g.inflight.isEmpty }

/-- Whether a fault code of a group is one for its crew's trap handler (R330). -/
def State.handles (s : State) (t : Team) (g : Group) (code : BitVec 8) : Bool :=
  (s.crew t.crew).trapen.getLsbD code.toNat && !g.tm && (s.crew t.crew).trapvec != 0 && handlerTakes code

/-- Whether the crew's TRAPVEC passes its landing check (R335). -/
def State.vectorLands (s : State) (t : Team) : Bool := (s.landing t ((s.crew t.crew).trapvec.setWidth 64)).isNone

/-- TAKING A FAULT (R330, R335): the handler of the crew, or a record and a descheduled group. Where TRAPVEC is no landing
point, the fault goes to the queue, followed by a record of code 0x02. -/
def State.takeFault (s : State) (tid gi pi : Nat) (fi : FaultInfo) : State :=
  match s.team tid, s.group tid gi with
  | some t, some g =>
    let vec := (s.crew t.crew).trapvec
    match g.path pi with
    | none => s
    | some p =>
      if s.handles t g fi.code then
        if s.vectorLands t then s.setGroup tid gi (g.enterHandler pi p vec fi)
        else
          let s := s.queueFault tid gi pi fi
          s.postRecord t.crew (s.groupRecord t gi pi 0 { code := 0x02, addr := vec.setWidth 64, pc := fi.pc, rpc := fi.rpc })
            (.group tid gi)
      else s.queueFault tid gi pi fi
  | _, _ => s

/-- A precise fault of the issuing path. -/
def PathCtx.fault (c : PathCtx) (fi : FaultInfo) : Out := .next (c.s.takeFault c.tid c.gi c.pi fi)

/-- A precise fault with a code alone. -/
def PathCtx.faultCode (c : PathCtx) (code : BitVec 8) (addr : Word64 := BitVec.allOnes 64) : Out :=
  c.fault { code := code, addr := addr, pc := c.p.pc, rpc := c.p.pc }

/-- The illegal-instruction trap with a cause (R39); DETAIL carries the slot. -/
def PathCtx.illegal (c : PathCtx) (cause : BitVec 4) (word : BitVec 96) : Out :=
  c.fault { code := 0x01, cause := cause, detail := word.setWidth 128, pc := c.p.pc, rpc := c.p.pc }

/-- The record of a seat fault: it always goes to the queue and leaves the seat trapped (R230, R234, R330). -/
def State.seatFault (s : State) (tid : Nat) (code : BitVec 8) (cause : BitVec 4) (addr : Word64) (detail : BitVec 128)
    (pc : VAddr) : State :=
  match s.team tid with
  | none => s
  | some t =>
    match t.seat with
    | none => s
    | some q =>
      let s := s.modSeat tid fun q => { q with st := .trapped }
      s.postRecord t.crew (mkRecord code cause 0 1 t.crew q.cluster q.num 0 0 t.y t.x (s.lseq t) pc
        (BitVec.allOnes 32) addr detail) (.seat tid)

/-- A precise fault of the issuing seat. -/
def SeatCtx.fault (c : SeatCtx) (code : BitVec 8) (cause : BitVec 4 := 0) (addr : Word64 := BitVec.allOnes 64)
    (detail : BitVec 128 := 0) : Out := .next (c.s.seatFault c.tid code cause addr detail c.q.pc)

/-- A machine-check record (R18, R330): KIND 3, naming nothing to replay. -/
def State.machineCheck (s : State) (t : Team) (gi pi : Nat) (fi : FaultInfo) : State :=
  s.postRecord t.crew (s.groupRecord t gi pi 3 fi) .nothing

/-- What a faulted access reports (R331, R177). -/
def Access.faultInfo (a : Access) (rpc : VAddr) : FaultInfo :=
  let bad := a.lanes.filter LaneAcc.bad
  let code : BitVec 8 := match bad.head? with
    | some l => (match l.st with | .faulted c => c | _ => 0)
    | none => 0
  let addr := bad.foldl (fun m l => min m l.addr) (2 ^ 64 - 1)
  { code := code, pc := a.pc, rpc := rpc, addr := BitVec.ofNat 64 addr,
    sub := if code = 0x0C then (bad.head?.map LaneAcc.sub).getD 0 else 0,
    mask := if a.uniformEffect then BitVec.allOnes 32 else maskOf fun i => bad.any fun l => l.lane == i,
    detail := if code = 0x13 then
      match bad.head? with
      | some l => BitVec.ofNat 128 (match l.target with
        | .scratch c => 3 + c * 2 ^ 64
        | .vault v => 6 + v * 2 ^ 64
        | _ => (if l.sub = 5 then 5 else 7) + l.pa * 2 ^ 64)
      | none => 0 else 0 }

/-- The faulted accesses of a group, stores first. -/
def Group.faultedAccesses (g : Group) : List Access := (g.sbuf ++ g.pend).filter Access.faulted

/-- Whether a lane of a faulted access is still on its way: one record carries every faulting lane (R331). -/
def Group.unsettled (g : Group) : Bool :=
  g.faultedAccesses.any fun a => a.lanes.any fun l => l.waiting && !l.waitsBehind g.sbuf a

/-- A deferred fault is taken at the instruction where the path stands (R329), once every lane of the faulted accesses is
settled: the handler takes the first, or every faulted access writes its record and the group is descheduled (R331). -/
def State.stopDeferred (s : State) (tid gi pi : Nat) : State :=
  match s.team tid, s.group tid gi with
  | some t, some g =>
    if g.unsettled then s else match g.path pi, g.faultedAccesses with
    | some p, a :: as =>
      let fi := a.faultInfo p.pc
      let s1 := s.takeFault tid gi pi fi
      if s.handles t g fi.code && s.vectorLands t then s1
      else as.foldl (fun s b => s.postRecord t.crew (s.groupRecord t gi pi 0 (b.faultInfo p.pc)) (.group tid gi)) s1
    | some _, [] => s.modGroup tid gi fun g =>
        { g.setPath pi ((g.path pi).map fun p => { p with st := .replayable }) with descheduled := true }
    | none, _ => s
  | _, _ => s

/-! Replay and return (R334, R350) -/

/-- The group's paths after a replay: state 3 issues again; the handler's path returns to state 4 (R334, R336). A path that a
step hold awaits is held instead (R386). -/
def Group.resumed (g : Group) (clock : Nat) : Group :=
  { g with descheduled := false, seqs := [],
           paths := g.paths.mapIdx fun i o => o.map fun p =>
             if p.st = .replayable then
               { p with st := if p.holdNext then PathState.stopped
                              else if g.tm ∧ g.trap.path.toNat = i then .handler else .ready,
                        holdNext := false, since := clock } else p }

/-- A command that a replay resumes: it goes on where it stopped, or, where it had not begun, it starts or arrives
again, a collective's with its contribution read afresh (R218, R222). -/
def Command.resume (c : Command) : Command :=
  match c.kind with
  | .coll _ _ _ _ =>
    if c.acked then { c with st := .running, seqNo := none }
    else { c with st := .waiting, seqNo := none, data := c.data.map fun _ => none }
  | .post _ => { c with st := .waiting, seqNo := none }
  | .sampler _ _ _ _ _ _ _ _ => { c with st := .running, seqNo := none, data := [], acked := true, desc := false }
  | _ => { c with st := .running, seqNo := none }

/-- A TYPE 6 packet for a path that is held, with its cause: 0x0F a `brk`, 0x01 step mode (R382). -/
def State.stopPacket (s : State) (t : Team) (g : Group) (pi : Nat) (p : Path) (cause : Nat) : State :=
  s.emitAlways t.crew (dieOf t.core) fun d => packet 6 d t.core (g.sched * 64 + g.slot) pi (stopBody p.pc p.mask cause)

/-- The packets of the paths of a group that a resumption holds for step mode (R386). -/
def State.holdPackets (s : State) (tid gi : Nat) : State :=
  match s.team tid, s.group tid gi with
  | some t, some g => (g.valid.filter fun e => e.2.st == .replayable && e.2.holdNext).foldl
      (fun s e => s.stopPacket t g e.1 e.2 1) s
  | _, _ => s

/-- Resume a group (R334): its paths, its faulted accesses and its stopped commands. The SEQs that named it name nothing any
more. A saved group is only marked: it is restored runnable. -/
def State.resumeGroup (s : State) (tid gi : Nat) : State :=
  let seqs := ((s.group tid gi).map Group.seqs).getD []
  let crew := ((s.team tid).map Team.crew).getD 0
  let s := (s.holdPackets tid gi).modCrew crew fun c => { c with spent := seqs ++ c.spent }
  let s := s.modGroup tid gi fun g => g.resumed s.clock
  let again (c : Command) : Command :=
    match c.st with
    | .faulted _ => if c.team = tid ∧ c.group = gi then c.resume else c
    | _ => c
  let s1 : State := { s with cmds := s.cmds.map fun e => (e.1, again e.2) }
  if ((s1.group tid gi).map Group.saved).getD false then s1 else s1.retryGroup tid gi

/-- The replayable group that the record of a SEQ names, as it stands in the crew's ring: one that `ctxld` has installed holds
no SEQ of its own (R354). A SEQ that has resumed what it named names nothing (R334). -/
def State.groupOfRecord (s : State) (crew seq : Nat) : Option (Nat × Nat) :=
  let c := s.crew crew
  let entry := (c.fqbase.extractLsb' 12 40).toNat * 4096 + seq % 2 ^ c.fqlog * 64
  let r := BitVec.ofNat 512 (leNat (s.physReadN entry 64))
  let gi := (r.extractLsb' 403 5).toNat
  if (r.extractLsb' 448 64).toNat ≠ seq ∨ r.extractLsb' 428 4 ≠ 0 ∨ c.spent.contains seq then none
  else (s.teams.find? fun e =>
    e.2.crew == crew && e.2.parent.isNone && e.2.x == (r.extractLsb' 352 16).toNat && e.2.y == (r.extractLsb' 368 16).toNat &&
      s.lseq e.2 == r.extractLsb' 288 64 &&
      ((e.2.groups[gi]?).map fun g => g.descheduled && g.seqs.isEmpty && !g.ended).getD false).map fun e => (e.1, gi)

/-- The group of a crew that an outstanding SEQ names. -/
def State.groupWithSeq (s : State) (crew seq : Nat) : Option (Nat × Nat) :=
  s.teams.foldl (fun acc e => acc.or (if e.2.crew = crew ∧ !e.2.ended then
    ((List.range e.2.groups.length).find? fun gi =>
      ((e.2.groups[gi]?).map fun g => g.seqs.contains seq).getD false).map fun gi => (e.1, gi) else none)) none

/-- Whether a record of a source waits for room: the source stays stopped until it is written (R333). -/
def State.recordHeld (s : State) (crew : Nat) (src : RecSource) : Bool :=
  (s.crew crew).heldRecs.any fun h => h.source == src

/-- Resume a group unless an error has made it unfit (R347) or a record of it is held (R333). -/
def State.replayGroup (s : State) (crew tid gi : Nat) : State :=
  match s.group tid gi with
  | some g => if g.noReplay || s.recordHeld crew (.group tid gi) then s else s.resumeGroup tid gi
  | none => s

/-- Resume a seat (R334). -/
def State.replaySeat (s : State) (crew tid : Nat) : State :=
  if s.recordHeld crew (.seat tid) then s
  else s.modSeat tid fun q => if q.broken then q else
    { q with st := if q.st = .trapped then .running else q.st, seqs := [], pc := q.deferred.getD q.pc, deferred := none
             entryFault := false }

/-- Resume a command, and with it its group where that has stopped for it (R334). -/
def State.replayCommand (s : State) (crew id : Nat) (c : Command) : State :=
  let s := s.modCmd id Command.resume
  match s.group c.team c.group with
  | some g => if g.descheduled then s.replayGroup crew c.team c.group else s
  | none => s

/-- REPLAY (R334): resume what a SEQ of a crew names; a SEQ that names nothing waiting has no effect. -/
def State.replay (s : State) (crew seq : Nat) : State :=
  let ofCrew (c : Command) : Bool := ((s.team c.team).map Team.crew).getD crew == crew
  match s.groupWithSeq crew seq with
  | some (tid, gi) => s.replayGroup crew tid gi
  | none =>
    match s.teams.find? fun e => e.2.crew == crew && (e.2.seat.map fun q => q.seqs.contains seq).getD false with
    | some (tid, _) => s.replaySeat crew tid
    | none =>
      match s.cmds.find? fun e => e.2.seqNo == some seq && ofCrew e.2 with
      | some (id, c) => s.replayCommand crew id c
      | none =>
        match s.groupOfRecord crew seq with
        | some (tid, gi) => s.resumeGroup tid gi
        | none => s

/-- Mark the faulted accesses of a group for another try at the instruction that depends on them (R350). -/
def Group.markAgain (g : Group) : Group :=
  let mark (a : Access) : Access := { a with again := a.again || a.faulted }
  { g with sbuf := g.sbuf.map mark, pend := g.pend.map mark }

/-- RETURNING FROM A HANDLER (R350): the registers of the trap state are restored and the path goes to `target`; the
faulted lanes of its accesses are tried again when a path reaches the instruction that depends on them. -/
def State.returnFromTrap (s : State) (tid gi pi : Nat) (target : VAddr) : State :=
  s.modGroup tid gi fun g =>
    match g.path pi with
    | none => g
    | some p =>
      let t := g.trap
      let g1 := (((g.writeUni 60 t.g60).writeUni 61 t.g61).writeUni 62 t.g62).writeUni 63 t.g63
      { (g1.setPath pi (some { p with st := .ready, pc := target, lk := t.lk, shc := t.shc, shm := t.shm, since := s.clock })).markAgain with
        em := (g.em &&& ~~~p.mask) ||| (t.em &&& p.mask), tm := false, held := g.held || !g.inflight.isEmpty }

/-! Retiring -/

/-- Whether a path may fuse (R138): ready or split-stalled, in no skip shadow. -/
def Path.fusable (p : Path) : Bool := (p.st == .ready || p.st == .splitStalled) && p.shc == 0

/-- The group after fusion of paths `pi` and `j`: the lower entry takes both masks, the other is free, and fusion acts as a
set S (R138, R71). -/
def Group.fusePair (g : Group) (pi j : Nat) (p q : Path) (clock : Nat) : Group :=
  let merged : Path := { p with mask := p.mask ||| q.mask, st := .ready, since := clock }
  { (g.setPath (max pi j) none).setPath (min pi j) (some merged) with held := g.held || !g.inflight.isEmpty }

/-- Fuse a path with every other that stands at the same landing point with the same link register, one at a time
(R138). `fuel` bounds the other paths. -/
def State.fuseFrom (s : State) (tid gi pi : Nat) : Nat → State
  | 0 => s
  | fuel + 1 =>
    match s.team tid, s.group tid gi with
    | some t, some g =>
      match g.path pi with
      | none => s
      | some p =>
        match g.valid.find? fun e => e.1 != pi && e.2.pc == p.pc && e.2.lk == p.lk && e.2.fusable with
        | none => s
        | some (j, q) =>
          if p.fusable && s.atLandingPoint t p.pc then
            let s1 := s.setGroup tid gi (g.fusePair pi j p q s.clock)
            let s2 := s1.emit t.crew (dieOf t.core) 0 (fun d => packet 2 d t.core (g.sched * 64 + g.slot) (min pi j)
              (branchBody p.pc p.mask q.mask p.pc 3)) []
            s2.fuseFrom tid gi (min pi j) fuel
          else s
    | _, _ => s

/-- Fuse a path with those that it meets (R138). -/
def State.fuse (s : State) (tid gi pi : Nat) : State := s.fuseFrom tid gi pi 7

/-- The path after an instruction: its next address, and the shadow count one lower (R144). -/
def Path.advanced (p : Path) (pc : VAddr) (clock : Nat) : Path :=
  { p with pc := pc, shc := if p.shc = 0 then 0 else p.shc - 1, begun := false, rest := 0, since := clock, moves := none,
           st := if p.st = .handler then .handler else .ready }

/-- The group after an instruction that may carry the switch marker: with S set it is held while fixed-latency results are
in flight (R29, R73). -/
def Group.marked (g : Group) (f : Fields) : Group := { g with held := g.held || (f.sw && !g.inflight.isEmpty) }

/-- Retire an instruction of a path: the group after its writes, the next address, the switch marker (R73), and the fusion
that the move may bring (R138). -/
def PathCtx.retireAt (c : PathCtx) (f : Fields) (g : Group) (pc : VAddr) : Out :=
  let g2 := (g.setPath c.pi (some (c.p.advanced pc c.s.clock))).marked f
  .next (({ c.s with fresh := c.s.fresh + 2 }.setGroup c.tid c.gi g2).fuse c.tid c.gi c.pi)

/-- Retire to the next slot. -/
def PathCtx.retire (c : PathCtx) (f : Fields) (g : Group) : Out := c.retireAt f g (nextSlot c.p.pc)

/-- Retire with another state than the context's (an instruction that changed more than its group). -/
def PathCtx.retireOn (c : PathCtx) (s : State) (f : Fields) (g : Group) : Out := { c with s := s }.retire f g

/-- An instruction that takes no effect: LR bits and the switch marker are obeyed (R79). -/
def PathCtx.skipOver (c : PathCtx) (opc fn : Nat) (f : Fields) : Out := c.retire f (c.g.freeAll (lrRegs opc fn f))

/-- Park the path on its instruction (R76); a path in the handler keeps its state. -/
def PathCtx.park (c : PathCtx) (g : Group) (begun : Bool := false) : Out :=
  .next (c.s.setGroup c.tid c.gi (g.setPath c.pi
    (some { c.p with st := if c.p.st = .handler then .handler else .parked, begun := begun || c.p.begun })))

/-- Retire an instruction of a seat: it is counted as issued (R385). -/
def SeatCtx.retireAt (c : SeatCtx) (q : Seat) (pc : VAddr) : Out :=
  .next (c.s.modSeat c.tid fun _ => { q with pc := pc, st := .running, waits := none, issued := q.issued + 1 })

/-- Retire to the next slot. -/
def SeatCtx.retire (c : SeatCtx) (q : Seat) : Out := c.retireAt q (nextSlot c.q.pc)

/-- The one-bit guard of a seat (R26, R150). -/
def SeatCtx.guard (c : SeatCtx) (f : Fields) : Bool :=
  let b := if f.pg = 7 then true else c.q.preds.getLsbD f.pg.toNat
  Bool.xor b f.neg

/-- A seat predicate; p7 reads 1. -/
def SeatCtx.pred (c : SeatCtx) (n : Nat) : Bool := if n = 7 then true else c.q.preds.getLsbD n

/-- A c register. -/
def SeatCtx.creg (c : SeatCtx) (code : BitVec 8) : Word64 := c.q.c.toArray.getD code.toNat 0

/-- Write a c register. -/
def Seat.setC (q : Seat) (code : BitVec 8) (w : Word64) : Seat := { q with c := q.c.setIfInBounds code.toNat w }

/-- Write a seat predicate. -/
def Seat.setP (q : Seat) (n : Nat) (b : Bool) : Seat :=
  { q with preds := (List.range 7).foldl (fun acc i =>
      if (if i = n then b else q.preds.getLsbD i) then acc ||| BitVec.ofNat 7 (2 ^ i) else acc) 0 }

/-- Run an instruction for whoever issues. A group-only form in a cox stream, and a cox-only form in a group stream, take
the illegal-instruction trap with cause 5 (R38, R39). -/
def dispatch (s : State) (word : BitVec 96) (path : Option (PathCtx → Out)) (seat : Option (SeatCtx → Out)) : Out :=
  match s.issuer with
  | .none => .refused .noIssuer
  | .path r =>
    match s.pathCtx r with
    | none => .refused .noIssuer
    | some c => match path with | some k => k c | none => c.illegal 5 word
  | .seat t =>
    match s.seatCtx t with
    | none => .refused .noIssuer
    | some c => match seat with | some k => k c | none => c.fault 0x01 5 (BitVec.allOnes 64) (word.setWidth 128)

/-- Run a group-only instruction. -/
def onPath (s : State) (opc fn : Nat) (f : Fields) (k : PathCtx → Out) : Out :=
  dispatch s (assemble opc fn f) (some k) none

/-- Run a cox-only instruction. -/
def onSeat (s : State) (opc fn : Nat) (f : Fields) (k : SeatCtx → Out) : Out :=
  dispatch s (assemble opc fn f) none (some k)

/-- Run an instruction that both streams have. -/
def onBoth (s : State) (opc fn : Nat) (f : Fields) (k : PathCtx → Out) (q : SeatCtx → Out) : Out :=
  dispatch s (assemble opc fn f) (some k) (some q)

/-- Run a privileged instruction (R37): without system privilege the illegal-instruction trap with cause 6. -/
def onPrivileged (s : State) (opc fn : Nat) (f : Fields) (k : PathCtx → Out) : Out :=
  onPath s opc fn f fun c => if c.s.privileged c.t then k c else c.illegal 6 (assemble opc fn f)

end Sys2Proof.Machine
end

