-- ==== Sys2Proof/Machine/Issue.lean ====
section
/-! DEFINITION. When an instruction of a path can issue: engines, latencies, the registers a word reads and writes, register
budgets, stores and releases (spec/02_encoding.md R21, R36; spec/04_registers.md R65 to R77; spec/09_ordering.md R192,
R197).

Marked in the assumption log: 9 (DEDUCED), 15 (DESIGN CHOICE), 27 (DEDUCED), 49 (DESIGN CHOICE). -/

namespace Sys2Proof.Machine

/-- Issue engines (R36, R75). -/
inductive Engine where
  | alu | fp | sfu | xl | ls | br | as_ | cx
  deriving DecidableEq, Repr

/-- A number for each engine. -/
def Engine.index : Engine → Nat
  | .alu => 0 | .fp => 1 | .sfu => 2 | .xl => 3 | .ls => 4 | .br => 5 | .as_ => 6 | .cx => 7

/-- The engine of a form (R36). -/
def engineOf (opc fn : Nat) : Engine :=
  match opc with
  | 0x11 => if fn = 5 ∨ fn = 6 then .sfu else .alu
  | 0x40 => .xl
  | 0x50 | 0x51 | 0x52 | 0x54 | 0x55 => .fp
  | 0x53 => .sfu
  | 0x70 => .br
  | 0x80 | 0x90 => .ls
  | 0x91 => if 7 ≤ fn ∧ fn ≤ 9 then .ls else .br
  | 0xA0 | 0xA8 | 0xC0 | 0xC8 | 0xD4 | 0xE0 => .as_
  | 0xB0 | 0xB1 => .cx
  | 0xD0 => .br
  | _ => .alu

/-- The latency of a fixed-latency result (R80, R92, R96, R101, R104, R109, R123, R387). -/
def latencyOf (opc fn : Nat) (f : Fields) : Nat :=
  let wide : Bool := f.ity.width == 64
  match opc with
  | 0x11 =>
    if fn = 5 ∨ fn = 6 then (if wide then 20 else 12)
    else if fn = 2 ∨ fn = 4 then (if f.ity.width = 32 then 8 else 4)
    else if wide then 8 else 4
  | 0x40 => if fn = 8 ∨ fn = 10 then 30 else if fn = 7 ∨ fn = 9 then 12 else 8
  | 0x50 | 0x51 | 0x52 | 0x54 | 0x55 => 6
  | 0x53 => 12
  | 0x81 => 12
  | _ => 4

/-- The registers that a word of a group stream reads and writes (R56): vector, uniform and predicate numbers, and whether
it reads or writes `em`. -/
structure Uses where
  vr : List Nat := []
  vw : List Nat := []
  gr : List Nat := []
  gw : List Nat := []
  pr : List Nat := []
  pw : List Nat := []
  emr : Bool := false
  emw : Bool := false
  deriving DecidableEq, Repr

/-- Vector registers of an operand field. -/
def fieldVec (code : BitVec 8) (ops : List Opd) : List Nat :=
  if isUni code then []
  else match ops with
    | .vec n :: _ => upFrom code.toNat n
    | _ => []

/-- Uniform registers of an operand field. -/
def fieldUni (code : BitVec 8) (ops : List Opd) : List Nat :=
  if isUni code ∧ ops.contains .uni then [code.toNat - 0xC0] else []

/-- Predicates of an operand field; p7 is no register. -/
def fieldPred (code : BitVec 8) (ops : List Opd) : List Nat :=
  if (ops.contains .pred ∨ ops.contains .predW) ∧ code.toNat < 7 then [code.toNat] else []

/-- Whether the form is uniform-effect, so that its lanes do not come from `em` (R26, R79). -/
def uniformEffect (opc fn : Nat) (f : Fields) : Bool :=
  match opc with
  | 0x00 => match fn with
    | 0x00 | 0x0B => isUni f.d
    | 0x01 | 0x03 | 0x04 | 0x0C | 0x0D | 0x0E => true
    | _ => false
  -- `rdlane` acts whatever `em` holds (R108) and is given no active set (R112); the model counts it as a reader of `em`
  -- (DESIGN CHOICE, assumption 49)
  | 0x10 | 0x11 | 0x12 | 0x13 | 0x15 | 0x16 | 0x50 | 0x52 | 0x53 | 0x54 | 0x55 => isUni f.d && !f.dead
  | 0x14 => fn == 6 && isUni f.d
  | 0x70 => match fn with
    | 0x01 | 0x04 | 0x06 | 0x07 => true
    | 0x03 | 0x05 => isUni f.sa
    | _ => false
  | 0x80 => match fn with
    | 0x08 | 0x0A | 0x0B | 0x0C | 0x0D => true
    | _ => false
  | 0x90 => fn == 0 || (fn != 2 && isUni f.d && !f.dead)
  | 0x91 => fn != 7 && fn != 8
  | 0xA0 | 0xA8 | 0xC0 | 0xD0 | 0xD4 | 0xD8 | 0xE0 => true
  | 0xC8 => 3 ≤ fn || (fn == 2 && isUni f.d && !f.dead)
  | _ => false

/-- What a word reads and writes (R56); `tret` reads g62 and restores g60 to g63 (R350). -/
def usesOf (opc fn : Nat) (f : Fields) : Uses :=
  match formSpec opc fn f with
  | some (some sp) =>
    let sb : List Opd := if f.useImm then [] else sp.sb
    let ldt : Bool := opc == 0x80 && fn < 2
    let chrecv : Bool := opc == 0x91 && fn == 8
    let addc : Bool := opc == 0x10 && (fn == 2 || fn == 3)
    let vfree : Bool := opc == 0x00 && fn == 0x0D
    let dops : List Opd := if f.dead then [] else sp.d
    { vr := (if vfree then [] else fieldVec f.sa sp.sa) ++
            (if ldt then (upFrom f.sb.toNat 4).filter (· < 192) else fieldVec f.sb sb) ++ fieldVec f.sc sp.sc
      vw := fieldVec f.d dops ++ (if vfree then (upFrom f.sa.toNat (f.immBits 0 8)) else [])
      gr := (if chrecv then [] else fieldUni f.sa sp.sa) ++ fieldUni f.sb sb ++ fieldUni f.sc sp.sc ++
            (if opc == 0x70 && fn == 7 then fieldUni f.d dops else []) ++
            (if opc == 0xA8 && fn == 0 then [1] else []) ++ (if opc == 0xD0 && fn == 1 then [62] else [])
      gw := fieldUni f.d dops ++ (if chrecv then fieldUni f.sa sp.sa else []) ++
            (if opc == 0xD0 && fn == 1 then [60, 61, 62, 63] else [])
      pr := (if f.pg = 7 then [] else [f.pg.toNat]) ++ fieldPred f.sa sp.sa ++ fieldPred f.sb sb ++ fieldPred f.sc sp.sc ++
            (if opc == 0x00 && fn == 0x0B && 0x13 ≤ f.immBits 0 8 && f.immBits 0 8 ≤ 0x19 then [f.immBits 0 8 - 0x13] else [])
      pw := fieldPred f.d dops ++ (if addc && !f.dead then fieldPred f.sc sp.sc else []) ++
            (if opc == 0x00 && fn == 0x0C && 0x13 ≤ f.immBits 0 8 then [f.immBits 0 8 - 0x13] else [])
      emr := (opc == 0x00 && fn == 3) || !uniformEffect opc fn f
      emw := (opc == 0x00 && fn == 4) || (opc == 0x70 && (fn == 8 || fn == 9)) }
  | _ => {}

/-- The coordinates that `ldt` and `stt` read through a handle (R162, R163); four where the handle names no record. -/
def PathCtx.coords (c : PathCtx) (f : Fields) : Nat :=
  let h : Word32 := (c.uni 0 f.sa).setWidth 32
  if h = 0 then 2 else ((c.s.record c.t.crew h).map recDims).getD 4

/-- What a word reads and writes where the path stands: `ldt` and `stt` read the coordinates that their record has. -/
def PathCtx.uses (c : PathCtx) (opc fn : Nat) (f : Fields) : Uses :=
  let u := usesOf opc fn f
  if opc = 0x80 ∧ fn < 2 then
    { u with vr := (upFrom f.sb.toNat (c.coords f)).filter (· < 192) ++ (if fn = 1 then fieldVec f.sc [.vec f.memRegs] else []) }
  else u

/-! Register budgets (R64 to R67) -/

/-- The floor and ceiling of a group's role (R12, R64). -/
def Team.budget (t : Team) (g : Group) : Nat × Nat := (t.floors.getD g.role (0, 0, 0)).2

/-- The resident groups of a core, with their teams. -/
def State.coreGroups (s : State) (core : Nat) : List (Team × Group) :=
  s.teams.flatMap fun e =>
    if e.2.core = core ∧ !e.2.ended ∧ (e.2.status = .resident ∨ e.2.status = .draining) then
      (e.2.groups.filter fun g => !g.ended).map fun g => (e.2, g)
    else []

/-- F and X of R65 over a list of budgets. -/
def floorsAndReserve (bs : List (Nat × Nat)) : Nat × Nat :=
  ((bs.map Prod.fst).sum, bs.foldl (fun m b => max m (b.2 - b.1)) 0)

/-- The registers of a core outside every floor reservation that are not drawn, and the reserve X (R65). A value above the
floor counts whether it is held in uniform or in full form (DESIGN CHOICE, assumption 49: R68 and R69 do not say whether a
value in uniform form draws a register of the pool). -/
def State.poolLeft (s : State) (core : Nat) : Nat × Nat :=
  let gs := s.coreGroups core
  let fx := floorsAndReserve (gs.map fun e => e.1.budget e.2)
  (16384 - fx.1 - (gs.map fun e => e.2.vregs.length - (e.1.budget e.2).1).sum, fx.2)

/-- Whether an address lies in a burst range of the team's kernel (R66). -/
def State.inBurst (s : State) (t : Team) (pc : VAddr) : Bool :=
  match (s.grid t.grid).bind s.gridImage with
  | some im => (im.bursts.getD t.desc []).any fun b => b.1 ≤ pc.toNat && pc.toNat < b.2
  | none => false

/-- What stands in the way of an instruction. -/
inductive Ready where
  | go | wait | stalled | stop | fault (code : BitVec 8)
  deriving DecidableEq, Repr

/-- The allocation of an instruction (R66, R67, R69). A per-lane form allocates its destination whatever its active set is
(R61, R79); a uniform-effect form that takes no effect allocates nothing. -/
def PathCtx.allocation (c : PathCtx) (opc fn : Nat) (f : Fields) : Ready :=
  let u := usesOf opc fn f
  let g := c.g.freeAll (lrRegs opc fn f)
  let news := (if opc = 0x00 ∧ fn = 0x0D then [] else u.vw).filter fun r => (aget r g.vregs).isNone
  let grow := (if opc = 0x00 ∧ (fn = 0x0D ∨ fn = 1) then [] else u.vw).filter fun r =>
    ((aget r g.vregs).map VReg.uniform).getD false && c.active f != BitVec.allOnes 32
  let b := c.t.budget c.g
  let count := g.vregs.length
  let total := count + news.length
  if uniformEffect opc fn f && !c.effect f then .go
  else if news.isEmpty ∧ (grow.isEmpty ∨ count ≤ b.1) then .go
  else if total ≤ b.1 then .go
  else if !news.isEmpty ∧ (b.2 < total ∨ !c.s.inBurst c.t c.p.pc) then .fault 0x12
  else
    let left := c.s.poolLeft c.t.core
    let need := (total - max count b.1) + grow.length
    if (c.s.core c.t.core).reserve = some ⟨c.tid, c.gi⟩ ∧ need ≤ left.1 then .go
    else if need + left.2 ≤ left.1 then .go else .stalled

/-! Memory order -/

/-- Whether the form is a release, and at which scope (R187); the forms that perform one after checks of their own (`fork`,
`launch`, `tlbinv`, `scrub`) call `PathCtx.releaseThen`. -/
def releaseScope (opc fn : Nat) (f : Fields) : Option Scope :=
  match opc with
  | 0x90 =>
    let sc := Scope.ofCode f.scopeCode
    if fn = 1 then none
    else if fn = 2 then sc
    else if f.order = 2 ∨ f.order = 3 then sc else none
  | 0x91 => if fn = 0 ∨ fn = 2 ∨ fn = 7 then some .team else if fn = 0x0B then some .clu else none
  | _ => none

/-- Whether a group has arrived in the current phase of a barrier (R202). -/
def Team.arrivedAt (t : Team) (gi b : Nat) : Bool := (t.barriers.toArray.getD b {}).arrived.getLsbD gi

/-- The release that a form of a path is where it stands: an arrival that is already counted is none (R202). -/
def PathCtx.releases (c : PathCtx) (opc fn : Nat) (f : Fields) : Option Scope :=
  if opc = 0x91 ∧ (fn = 0 ∨ fn = 2) ∧ c.t.arrivedAt c.gi (f.immBits 0 4) then none else releaseScope opc fn f

/-- The unacknowledged-store counters that a release at a scope waits for (R197): `.clu`, `.die`, `.pkg`, `.sys`. -/
def Group.acked (g : Group) (sc : Scope) : Bool :=
  match sc with
  | .grp | .team => true
  | .clu => g.unack.toArray.getD 0 0 == 0
  | .die => g.unack.toArray.getD 1 0 == 0
  | .pkg => g.unack.toArray.getD 2 0 == 0
  | .sys => g.unack.toArray.getD 3 0 == 0

/-- Whether the form is a fence (R192). -/
def isFence (opc fn : Nat) : Bool := opc == 0x90 && fn == 0

/-- Whether the form takes part in memory order, so that an acquire before it must be performed first. -/
def touchesMemory (opc fn : Nat) : Bool :=
  opc == 0x80 || opc == 0x90 || opc == 0xA0 || opc == 0xC0 || opc == 0xC8 || opc == 0xE0 || opc == 0xA8 ||
  (opc == 0x91 && fn != 5)

/-- Commands of a group that stand faulted (R218). -/
def State.faultedCmds (s : State) (tid gi : Nat) : List (Nat × Command) :=
  s.cmds.filter fun e => e.2.team == tid && e.2.group == gi && (match e.2.st with | .faulted _ => true | _ => false)

/-- The source and destination of byte `p` of a gather or scatter (R220). -/
def elemAddrs (scatter : Bool) (e src dst : Nat) (idx : List Nat) (p : Nat) : Nat × Nat :=
  let i := p / e
  let k := idx.getD i 0
  if scatter then (src + i * e + p % e, dst + k * e + p % e) else (src + k * e + p % e, dst + i * e + p % e)

/-- The address of the source byte of an index of a command's data. -/
def Command.srcAddr (c : Command) (i : Nat) : Nat :=
  match c.kind with
  | .gather sc e _ => (elemAddrs sc e c.src c.dst c.idx i).1
  | _ => c.src + i

/-- Whether an older command of a group has still to read a byte that a store lane would write: the store waits, so that the
command reads its source as it stands just after the command in program order (R212, R294). A sampler command that could not read
all of its source at issue (`desc`) holds back every younger global store. -/
def State.readsLater (s : State) (ref : GroupRef) (a : Access) (l : LaneAcc) : Bool :=
  let space := match l.target with | .line _ _ _ _ _ _ _ => 0 | .scratch _ => 1 | .vault _ => 2
  s.cmds.any fun e => e.1 < a.id && e.2.team == ref.team && e.2.group == ref.group && e.2.ssp == space && e.2.st != .complete &&
    (match e.2.kind with
      | .sampler _ _ _ _ _ _ _ _ => e.2.desc
      | _ => (List.range e.2.data.length).any fun i =>
          (e.2.data.getD i none).isNone && l.addr ≤ e.2.srcAddr i && e.2.srcAddr i < l.addr + a.bytes)

/-- The engine-counter class of a form (R193). -/
def counterOf (opc fn : Nat) : Option Nat :=
  match opc with
  | 0xA0 => some (if fn = 2 ∨ fn = 3 then 1 else if fn = 4 then 2 else if 7 ≤ fn then 5 else 0)
  | 0xC0 => some 4
  | 0xC8 => if fn ≤ 3 then some 3 else none
  | _ => none

/-- The lanes that a refill releases: active lanes that the predicate names or that hold no item (R149). -/
def PathCtx.released (c : PathCtx) (f : Fields) : Mask :=
  let p := c.pred 0 f.sa.toNat
  c.active f &&& maskOf fun l => p.getLsbD l || c.g.item.get l == BitVec.allOnes 32

/-- Whether an instruction of OPC 0x70 retires the path that issues it (R136): an `exit` of all its lanes, a divergent
transfer with an empty active set, a `refill` that leaves it no lane while its queue is closed and empty. -/
def PathCtx.retiresPath (c : PathCtx) (fn : Nat) (f : Fields) : Bool :=
  match fn with
  | 0 => c.active f == 0
  | 3 | 5 => !isUni f.sa && c.active f == 0
  | 8 => (c.p.mask &&& ~~~c.active f) == 0
  | 9 => match c.t.refill with
    | some q => (c.p.mask &&& ~~~c.released f) == 0 && q.items.isEmpty && !q.open_
    | none => false
  | _ => false

/-- Whether an instruction would retire the group's last path: the end of its run (R28, R197). -/
def PathCtx.endsRun (c : PathCtx) (opc fn : Nat) (f : Fields) : Bool :=
  opc == 0x70 && c.g.valid.length == 1 && c.retiresPath fn f

/-- The destination of an access is among the registers that an instruction reads or writes, and pending (R72). -/
def PathCtx.clashes (c : PathCtx) (u : Uses) (vfree : Bool) (a : Access) : Bool :=
  match a.dest with
  | .vec r n => !vfree && (u.vr ++ u.vw).any fun x =>
      r ≤ x && x < r + n && ((aget x c.g.vregs).map VReg.pending).getD false
  | .uni r => c.g.gPend.getLsbD r && (u.gr ++ u.gw).contains r
  | .none => false

/-- The pending results that an instruction meets (R72). -/
def PathCtx.pendingClash (c : PathCtx) (u : Uses) (vfree : Bool) : Ready :=
  let regs := (if vfree then [] else u.vr ++ u.vw).filter fun r => ((aget r c.g.vregs).map VReg.pending).getD false
  let unis := (u.gr ++ u.gw).filter fun r => c.g.gPend.getLsbD r
  if regs.isEmpty ∧ unis.isEmpty then .go
  else if c.g.pend.any fun a => c.clashes u vfree a && a.faulted then .stop else .wait

/-- Whether a faulted access stops a `wcnt` or the end of a run (R28, R197): a store, an access with a dead result, or an
atomic (assumption 9). -/
def Access.deferred (a : Access) : Bool :=
  a.dead || (match a.kind with | .load | .remoteLoad => false | _ => true)

/-- Whether an access is one of a remote form, which releases and fences do not wait for (R323). -/
def Access.remote (a : Access) : Bool := match a.kind with | .remoteLoad | .remoteAtomic _ _ => true | _ => false

/-- Whether an access of the group has still to be performed before a release or fence. -/
def Group.unperformed (g : Group) : Bool := g.pend.any fun a => !a.remote && a.lanes.any LaneAcc.waiting

/-- Whether a release of the path at a scope can be performed (R197, R323): its stores and earlier accesses performed and
acknowledged, none of them faulted. -/
def PathCtx.orderedAt (c : PathCtx) (sc : Scope) : Ready :=
  if c.g.windowFail.isSome then .fault 0x0C
  else if !c.g.faultedAccesses.isEmpty || !(c.s.faultedCmds c.tid c.gi).isEmpty then .stop
  else if !c.g.sbuf.isEmpty || !c.g.acked sc || c.g.unperformed then .wait
  else .go

/-- Whether an instruction of the path can issue (R76), and if not, why. The end of a run waits until it is known whether a
store, or an access with a dead result, faults (R28, R197). An access waits while sixteen of the group have faulted or may
still fault, so that the seventeenth faulted one does not issue (R342). -/
def PathCtx.readiness (c : PathCtx) (opc fn : Nat) (f : Fields) : Ready :=
  let u := c.uses opc fn f
  let vfree : Bool := opc == 0x00 && fn == 0x0D
  let acts : Bool := if uniformEffect opc fn f || opc == 0x91 then c.effect f else c.active f != 0
  let bad : Bool := !c.g.faultedAccesses.isEmpty
  let late : Bool := c.g.faultedAccesses.any Access.deferred
  let badCmd : Bool := !(c.s.faultedCmds c.tid c.gi).isEmpty
  let onTheWay : Bool := (c.g.sbuf ++ c.g.pend).any fun a => a.deferred && a.lanes.any LaneAcc.waiting
  let again : Bool := opc == 0xC8 && c.p.rest != 0
  let adds : Bool := (opc == 0x80 && (fn == 0 || fn == 2 || fn == 4 || fn == 6 || fn == 8)) ||
    (opc == 0x90 && fn != 0 && fn != 2) || (opc == 0xC8 && (fn == 0 || fn == 2) && !again)
  match (if again then .go else c.pendingClash u vfree) with
  | .go =>
    match (if again then .go else c.allocation opc fn f) with
    | .go =>
      if acts && touchesMemory opc fn && (c.g.pend.any fun a => a.acq && a.faulted) then .stop
      else if acts && touchesMemory opc fn && (c.g.pend.any fun a => a.acq && a.lanes.any LaneAcc.waiting) then .wait
      else if acts && (opc == 0x80 || opc == 0x90 || adds) && 16 ≤ (c.g.pend.filter Access.faulted).length then .stop
      else if acts && adds && 16 ≤ (c.g.pend.filter fun a => a.faulted || a.lanes.any LaneAcc.waiting).length then .wait
      else if acts && ((opc == 0x80 && (fn == 1 || fn == 3 || fn == 5 || fn == 7)) || (opc == 0x90 && fn == 2)) &&
          16 ≤ c.g.sbuf.length then .wait
      else if opc == 0x91 && fn == 2 && c.p.begun then .go
      else
        match (if acts then c.releases opc fn f else none) with
        | some sc =>
          c.orderedAt sc
        | none =>
          if acts && isFence opc fn then
            if bad || badCmd then .stop else if c.g.unperformed then .wait else .go
          else if acts && opc == 0x91 && fn == 5 then if late then .stop else .go
          else if c.endsRun opc fn f && (late || badCmd) then .stop
          else if c.endsRun opc fn f && onTheWay then .wait
          else match (if acts then counterOf opc fn else none) with
            | some k => if 255 ≤ c.g.counters.toArray.getD k 0 then .wait else .go
            | none => .go
    | r => r
  | r => r

/-- Count one issue event of a path against the latencies of R71. -/
def Group.tick (g : Group) (pi : Nat) : Group :=
  { g with inflight := (g.inflight.map fun e =>
      { e with wait := e.wait.setIfInBounds pi (e.wait.toArray.getD pi 0 - 1) }).filter fun e =>
        e.wait.toList.any fun n => n != 0 }

/-- The cause, of 3 and 6, for which a decoded instruction is none where its path stands: a privileged form without system
privilege (R37), a `refill` in a kernel without a refill queue (R149). It is found before anything may hold the instruction
back (R40). -/
def PathCtx.contextCause (c : PathCtx) (opc fn : Nat) (f : Fields) : Option (BitVec 4) :=
  if opc = 0x70 ∧ fn = 9 ∧ c.t.refill.isNone then some 3
  else if privileged opc fn f && !c.s.privileged c.t then some 6
  else none

/-- Whether a path runs at all (R76): neither replayable nor held by a debug stop. -/
def Path.runs (p : Path) : Bool := p.st != .replayable && p.st != .stopped

/-- The context in which a path's next issue event reads its registers: that event is counted against the latencies
(R71). -/
def PathCtx.ticked (c : PathCtx) : PathCtx := { c with g := c.g.tick c.pi }

/-- Whether a path is ready (R76): it runs, is not parked, has the entry for which it is split-stalled (R139), and its next
instruction, which stands in the instruction cache, can issue. The engines accept every instruction (assumption 15). -/
def PathCtx.ready (c : PathCtx) : Bool :=
  c.p.runs && c.p.st != .parked && (c.p.st != .splitStalled || c.g.freeEntry.isSome) &&
  match c.s.cachedLine c.t c.p.pc, slotOf c.p.pc with
  | some line, some slot =>
    match decode .group (lineSlot line slot) with
    | .ok i => match i.word with
      | some (opc, fn, f) => c.ticked.readiness opc fn f == .go
      | none => true
    | .error _ => true
  | _, _ => false

/-- Whether a path of a state is ready. -/
def State.pathReady (s : State) (r : PathRef) : Bool := ((s.pathCtx r).map PathCtx.ready).getD false

/-- The paths of a group that were not ready in an earlier state and are ready now are ready from this cycle on (R77). -/
def State.restamp (s was : State) (tid gi : Nat) : State :=
  let isNew (i : Nat) : Bool := s.pathReady ⟨tid, gi, i⟩ && !was.pathReady ⟨tid, gi, i⟩
  let mark (i : Nat) (p : Path) : Path := if isNew i then { p with since := s.clock } else p
  s.modGroup tid gi fun g => { g with paths := g.paths.mapIdx fun i o => o.map (mark i) }

/-- Whether a group halts by itself in a drain window (R339): reconverged or parked with one path, or replayable, outside its
trap handler (R337); or the window has ended. -/
def Group.halted (g : Group) : Bool :=
  g.fullSave ||
  (!g.tm && (g.descheduled || (match g.valid with
    | [(_, p)] => p.shc == 0 || p.st == .parked
    | _ => false)))

/-- Whether a group of a team may issue at all: resident on an octet that its crew owns, neither ended, held (R73),
descheduled, nor halted for pre-emption at a reconverged point (R339). -/
def State.groupRuns (s : State) (t : Team) (g : Group) : Bool :=
  !t.ended && !g.ended && !g.held && !g.descheduled && s.ownsCore t.crew t.core &&
  (t.status == .resident || (t.status == .draining && !g.halted && !g.saved))

/-- The context of a sibling path. -/
def PathCtx.sibling (c : PathCtx) (e : Nat × Path) : PathCtx := { c with pi := e.1, p := e.2 }

/-- The ready siblings of a path. -/
def PathCtx.readySiblings (c : PathCtx) : List Path :=
  (c.g.valid.filter fun e => e.1 != c.pi && (c.sibling e).ready).map Prod.snd

/-- Whether a path has been ready for 256 cycles or more, if it is ready (R77). -/
def Path.aged (p : Path) (clock : Nat) : Bool := p.since + 256 ≤ clock

/-- Whether a path yields to a ready path of its group (R77, R137): to one that has been ready for 256 cycles, and for longer
than itself; or, where neither has, to one with a lower program counter. -/
def PathCtx.yields (c : PathCtx) : Bool :=
  c.readySiblings.any fun q =>
    if q.aged c.s.clock then q.since < c.p.since || !c.p.aged c.s.clock
    else !c.p.aged c.s.clock && q.pc.toNat < c.p.pc.toNat

/-- The contexts of the ready paths of a scheduler of a core. -/
def State.readyCtxs (s : State) (core sched : Nat) : List PathCtx :=
  s.teams.flatMap fun e =>
    if e.2.core = core then
      (List.range e.2.groups.length).flatMap fun gi => (List.range 8).filterMap fun pi =>
        (s.pathCtx ⟨e.1, gi, pi⟩).filter fun c => c.g.sched == sched && s.groupRuns c.t c.g && c.ready
    else []

/-- The ready paths of a scheduler, with the cycle from which each has been ready. -/
def State.readyPaths (s : State) (core sched : Nat) : List (PathRef × Nat) :=
  (s.readyCtxs core sched).map fun c => (⟨c.tid, c.gi, c.pi⟩, c.p.since)

/-- The order in which groups were admitted to their cores (R67). -/
def State.ageOf (s : State) (r : GroupRef) : Nat := ((s.team r.team).map Team.admitted).getD 0 * 32 + r.group

/-- The instruction at which a path stands, where its line is in the instruction cache and the slot holds one. -/
def PathCtx.nextInstr (c : PathCtx) : Option (Nat × Nat × Fields) :=
  match c.s.cachedLine c.t c.p.pc, slotOf c.p.pc with
  | some line, some slot => match decode .group (lineSlot line slot) with
    | .ok i => i.word
    | .error _ => none
  | _, _ => none

/-- The cycle at which a scheduler last used the engine of a path's next instruction, none standing for never. -/
def PathCtx.engineUsed (c : PathCtx) : Option Nat :=
  c.nextInstr.bind fun w => aget (c.g.sched, (engineOf w.1 w.2.1).index) (c.s.core c.t.core).lastUsed

/-- Whether an engine has been idle longer than another, from the cycles of their last use. -/
def idleLonger : Option Nat → Option Nat → Bool
  | none, some _ => true
  | some a, some b => a < b
  | _, none => false

/-- The best of a list under a strict preference, the first of equals. -/
def bestOf {α : Type} (better : α → α → Bool) : List α → Option α
  | [] => none
  | x :: xs => match bestOf better xs with
    | some y => if better y x then some y else some x
    | none => some x

/-- Whether R77 prefers a ready path to another that is not aged either: the engine idle longest, then the oldest group, then the
lowest program counter. Of one group only the path with the lowest program counter is considered (R137). -/
def PathCtx.preferred (a b : PathCtx) : Bool :=
  if idleLonger a.engineUsed b.engineUsed then true
  else if idleLonger b.engineUsed a.engineUsed then false
  else
    let x := a.s.ageOf ⟨a.tid, a.gi⟩
    let y := b.s.ageOf ⟨b.tid, b.gi⟩
    x < y || (x == y && a.p.pc.toNat < b.p.pc.toNat)

/-- The path that a scheduler issues next (R77, R137): of those that have been ready for 256 cycles the one that has waited
longest, else the preferred one among the lowest of each group. -/
def State.picked (s : State) (core sched : Nat) : Option PathRef :=
  let cs := s.readyCtxs core sched
  let aged := cs.filter fun c => c.p.aged s.clock
  let low := cs.filter fun c => !cs.any fun d => d.tid == c.tid && d.gi == c.gi && d.p.pc.toNat < c.p.pc.toNat
  let best := if aged.isEmpty then bestOf PathCtx.preferred low
    else bestOf (fun a b => a.p.since < b.p.since) aged
  best.map fun c => ⟨c.tid, c.gi, c.pi⟩

/-- A path that cannot issue for a fault of the instruction at which it stands: its stores toward a peer have failed (0x0C)
or the register budget is spent (0x12, whose DETAIL holds the count and the ceiling). -/
def PathCtx.notReady (c : PathCtx) (opc fn : Nat) (f : Fields) (code : BitVec 8) : Out :=
  let b := c.t.budget c.g
  let s := c.s.modGroup c.tid c.gi fun g => { g with windowFail := if code = 0x0C then none else g.windowFail }
  .next (s.takeFault c.tid c.gi c.pi
    { code := code, pc := c.p.pc, rpc := c.p.pc, sub := if code = 0x0C then c.g.windowFail.getD 0 else 0,
      mask := if uniformEffect opc fn f then BitVec.allOnes 32 else c.active f,
      detail := if code = 0x12 then BitVec.ofNat 128 (c.g.vregs.length + b.2 * 256) else 0 })

/-- The group stops at an instruction for faulted accesses (R329): those that it needs and that a handler has dealt with are
performed again instead (R350). -/
def PathCtx.stopFor (c : PathCtx) (needed : Access → Bool) : State :=
  let due (a : Access) : Bool := a.again && needed a
  if c.g.faultedAccesses.any due then c.s.retryWhere c.tid c.gi due else c.s.stopDeferred c.tid c.gi c.pi

/-- The group stops at an instruction that every faulted access holds back. -/
def PathCtx.stopNow (c : PathCtx) : State := c.stopFor fun _ => true

/-- The group stops at the instruction with the given word: the accesses whose pending destinations it reads or writes hold it
back (R72), or, where there are none, all that have faulted. -/
def PathCtx.stopAt (c : PathCtx) (opc fn : Nat) (f : Fields) : State :=
  let u := c.uses opc fn f
  let vfree : Bool := opc == 0x00 && fn == 0x0D
  if c.pendingClash u vfree = .stop then c.stopFor (c.clashes u vfree) else c.stopNow

/-- A release that an instruction performs after its own checks (R279, R353, R375, R400). -/
def PathCtx.releaseThen (c : PathCtx) (opc fn : Nat) (f : Fields) (sc : Scope) (k : Out) : Out :=
  match c.orderedAt sc with
  | .go => k
  | .stop => .next c.stopNow
  | .fault code => c.notReady opc fn f code
  | _ => .next c.s

/-- Whether a group is stalled under R66: the allocation of some path's next instruction cannot proceed. -/
def State.stalledGroup (s : State) (r : GroupRef) : Bool :=
  (List.range 8).any fun pi => match s.pathCtx ⟨r.team, r.group, pi⟩ with
    | some c => match c.nextInstr with
      | some (opc, fn, f) => !c.g.ended && c.allocation opc fn f == .stalled
      | none => false
    | none => false

/-- Whether the holder of a reserve is gone from a core: the grant has then ended. -/
def State.holderGone (s : State) (core : Nat) (r : GroupRef) : Bool :=
  match s.team r.team, s.group r.team r.group with
  | some t, some g => g.ended || t.core != core || (t.status != .resident && t.status != .draining)
  | _, _ => true

/-- End the grant of a group's core once its count has fallen to its floor or below (R67): `before` is its count before. -/
def State.endGrant (s : State) (tid gi before : Nat) : State :=
  match s.team tid, s.group tid gi with
  | some t, some g =>
    if (s.core t.core).reserve = some ⟨tid, gi⟩ ∧ g.vregs.length ≤ (t.budget g).1 ∧ (t.budget g).1 < before then
      s.modCore t.core fun k => { k with reserve := none }
    else s
  | _, _ => s

/-- Grant the reserve of a core to its oldest stalled group when the pool is empty and none holds it (R67): a group that is no
longer stalled has no claim. -/
def State.grantReserve (s : State) (core : Nat) (stalled : Option GroupRef) : State :=
  let c := s.core core
  let reserve := match c.reserve with
    | none => none
    | some r => if s.holderGone core r then none else some r
  let list := match stalled with
    | some r => if c.stalled.contains r then c.stalled else c.stalled ++ [r]
    | none => c.stalled
  let age := s.ageOf
  let live := list.filter s.stalledGroup
  let oldest := live.foldl (fun acc r => match acc with
    | none => some r
    | some q => if age r < age q then some r else some q) none
  match reserve, oldest with
  | none, some r => s.setCore core { c with reserve := some r, stalled := live.erase r }
  | r, _ => s.setCore core { c with reserve := r, stalled := live }

/-- Raise a performance counter of a core in a crew's bank (R385). -/
def Core.count (c : Core) (crew sel n : Nat) : Core :=
  let old := ((c.counters.find? fun e => e.1 == crew && e.2.1 == sel).map fun e => e.2.2).getD 0
  { c with counters := (crew, sel, old + BitVec.ofNat 64 n) :: c.counters.filter fun e => !(e.1 == crew && e.2.1 == sel) }

/-- A scheduler of a core uses an issue engine (R77). -/
def Core.use (c : Core) (sched : Nat) (e : Engine) (clock : Nat) : Core :=
  { c with lastUsed := aput (sched, e.index) clock c.lastUsed }

/-- Whether two instructions of adjacent slots may issue as a pair (R21). -/
def pairable (o1 n1 : Nat) (f1 : Fields) (o2 n2 : Nat) (f2 : Fields) : Bool :=
  let e1 := engineOf o1 n1
  let e2 := engineOf o2 n2
  (e1 != e2 || e1 == .alu) && !f1.sw && !f2.sw && f1.pg == f2.pg && f1.neg == f2.neg && o1 != 0x70 &&
  !(o1 == 0xD0 && (n1 == 0 || n1 == 1 || n1 == 3))

/-- Whether a register dependence joins a pair (R56). -/
def dependent (o1 n1 : Nat) (f1 : Fields) (o2 n2 : Nat) (f2 : Fields) : Bool :=
  let a := usesOf o1 n1 f1
  let b := usesOf o2 n2 f2
  let meets (x y : List Nat) : Bool := x.any y.contains
  let freed := lrRegs o1 n1 f1
  meets (b.vr ++ b.vw) (a.vw ++ freed) || meets (b.gr ++ b.gw) a.gw || meets (b.pr ++ b.pw) a.pw ||
  (a.emw && (b.emr || b.emw)) || meets b.vw a.vr || meets b.gw a.gr || meets b.pw a.pr || (a.emr && b.emw) ||
  (o2 == 0x00 && n2 == 0x0B && f2.immBits 0 8 == 0x11) || (o2 == 0xD0 && n2 == 2)

end Sys2Proof.Machine
end

