-- ==== Sys2Proof/Machine/Operands.lean ====
section
/-! DEFINITION. The operand forms: reading the operands of a word, computing per lane, once for a uniform destination, or
once in a seat, and writing the result (spec/02_encoding.md R23 to R30; spec/04_registers.md R61 to R71, R79;
spec/05_integer.md R88, R90).

Marked in the assumption log: 45 (DEDUCED). -/

namespace Sys2Proof.Machine

/-- Whether the issuing team belongs to a determinate grid (R276). -/
def PathCtx.determinate (c : PathCtx) : Bool := match c.s.grid c.t.grid with | some g => g.det | none => false

/-- What a computation makes of one lane's operands: the typed result and its flags. Arguments: lane, a, b, c. -/
abbrev LaneFn := Nat → Nat → Nat → Nat → Int × FlagSet

/-- The shape of a form: the vector registers that the destination and the sources take, and the immediate that stands
for SB when MOD[8] is set (R30). -/
structure Shape where
  d : Nat := 1
  a : Nat := 1
  b : Nat := 1
  c : Nat := 1
  imm : Nat := 0
  deriving DecidableEq, Repr

/-- The operands of a lane. -/
def PathCtx.operands (c : PathCtx) (f : Fields) (sh : Shape) : Nat → Nat × Nat × Nat :=
  let a := c.laneOp 0 f.sa sh.a
  let b := if f.useImm then fun _ => sh.imm else c.laneOp 1 f.sb sh.b
  let d := c.laneOp 2 f.sc sh.c
  fun l => (a l, b l, d l)

/-- The results of every lane. -/
def PathCtx.results (c : PathCtx) (f : Fields) (sh : Shape) (op : LaneFn) : List (Int × FlagSet) :=
  let o := c.operands f sh
  (List.range 32).map fun l => op l (o l).1 (o l).2.1 (o l).2.2

/-- The flags that the lanes of a mask raise. -/
def flagsOf (m : Mask) (rs : List (Int × FlagSet)) : FlagSet :=
  (maskLanes m).foldl (fun fl l => fl ||| (rs.getD l (0, 0)).2) 0

/-- OR flags into a group's register (R74). -/
def Group.raise (g : Group) (fl : FlagSet) : Group := { g with flags := g.flags ||| fl }

/-- Whether a write takes uniform form (R68): it acts on all lanes, its vector sources are in uniform form, one value
stands for every lane, and the uniform store has entries free. -/
def PathCtx.uniformForm (c : PathCtx) (m : Mask) (srcs : List (BitVec 8 × Nat)) (n : Nat) (val : Nat → Nat) : Bool :=
  m == BitVec.allOnes 32 && (srcs.all fun e => c.g.inUniform e.1 e.2) && ((List.range 32).all fun l => val l == val 0) &&
    c.s.uniformUsed c.t.core + n ≤ 2048

/-- Write a vector result of `n` registers in the lanes of a mask: frees first (R62), then the write, then the note that
it is in flight (R71). A dead result writes nothing (R28). -/
def PathCtx.writeLanes (c : PathCtx) (opc fn : Nat) (f : Fields) (m : Mask) (srcs : List (BitVec 8 × Nat)) (n : Nat)
    (val : Nat → Nat) : Group :=
  let g := c.g.freeAll (lrRegs opc fn f)
  if f.dead then g
  else
    let d := f.d.toNat
    (g.writeVec d m val (c.uniformForm m srcs n val) n).note c.g ((upFrom d n).map Reg.v) (latencyOf opc fn f)

/-- Write a uniform result, noted in flight. -/
def PathCtx.writeUniform (c : PathCtx) (opc fn : Nat) (f : Fields) (w : Word64) : Group :=
  let g := c.g.freeAll (lrRegs opc fn f)
  if f.dead then g
  else
    let d := f.d.toNat - 0xC0
    (g.writeUni d w).note c.g [Reg.g d] (latencyOf opc fn f)

/-- Write a predicate result in the lanes of a mask, noted in flight. -/
def PathCtx.writePredicate (c : PathCtx) (opc fn : Nat) (f : Fields) (m v : Mask) : Group :=
  let g := c.g.freeAll (lrRegs opc fn f)
  if f.dead then g
  else
    let d := f.d.toNat
    (g.writePred d m v).note c.g [Reg.p d] (latencyOf opc fn f)

/-- The vector sources of a form (R68). -/
def Shape.sources (sh : Shape) (f : Fields) (na nb nc : Bool) : List (BitVec 8 × Nat) :=
  (if na then [(f.sa, sh.a)] else []) ++ (if nb && !f.useImm then [(f.sb, sh.b)] else []) ++
    (if nc then [(f.sc, sh.c)] else [])

/-- A lane-wise form of a group stream: per lane into a vector, or once into a uniform register (R25, R90). -/
def PathCtx.lanewise (c : PathCtx) (opc fn : Nat) (f : Fields) (sh : Shape) (srcs : List (BitVec 8 × Nat))
    (op : LaneFn) : Out :=
  if isUni f.d && !f.dead then
    if c.effect f then
      let o := c.operands f sh 0
      let r := op 0 o.1 o.2.1 o.2.2
      c.retire f ((c.writeUniform opc fn f (BitVec.ofInt 64 r.1)).raise r.2)
    else c.skipOver opc fn f
  else
    let m := c.active f
    let rs := c.results f sh op
    let val (l : Nat) : Nat := ((rs.getD l (0, 0)).1 % 2 ^ (32 * sh.d)).toNat
    c.retire f ((c.writeLanes opc fn f m srcs sh.d val).raise (flagsOf m rs))

/-- A lane-wise form that writes a predicate (R102, R127). -/
def PathCtx.lanewisePred (c : PathCtx) (opc fn : Nat) (f : Fields) (sh : Shape)
    (op : Nat → Nat → Nat → Bool × FlagSet) : Out :=
  let m := c.active f
  let rs := c.results f sh fun _ a b _ => let r := op a b 0; (if r.1 then 1 else 0, r.2)
  c.retire f ((c.writePredicate opc fn f m (maskOf fun l => (rs.getD l (0, 0)).1 == 1)).raise (flagsOf m rs))

/-- The operands of a seat's form: c registers, or the immediate (R24). -/
def SeatCtx.operands (c : SeatCtx) (f : Fields) (imm : Nat) : Nat × Nat × Nat :=
  ((c.creg f.sa).toNat, if f.useImm then imm else (c.creg f.sb).toNat, (c.creg f.sc).toNat)

/-- A computing form of a seat stream (R90): one result, extended to 64 bits. -/
def SeatCtx.compute (c : SeatCtx) (f : Fields) (imm : Nat) (op : LaneFn) : Out :=
  if c.guard f then
    let o := c.operands f imm
    let r := op 0 o.1 o.2.1 o.2.2
    let q : Seat := { c.q with flags := c.q.flags ||| r.2 }
    c.retire (q.setC f.d (BitVec.ofInt 64 r.1))
  else c.retire c.q

/-- A computing form of either stream, with its operand fields in use. -/
def computeForm (s : State) (opc fn : Nat) (f : Fields) (sh : Shape) (useA useB useC : Bool) (op : LaneFn) : Out :=
  onBoth s opc fn f (fun c => c.lanewise opc fn f sh (sh.sources f useA useB useC) op) fun c => c.compute f sh.imm op

/-- A computing form of group streams alone. -/
def computeGroup (s : State) (opc fn : Nat) (f : Fields) (sh : Shape) (useA useB useC : Bool) (op : LaneFn) : Out :=
  onPath s opc fn f fun c => c.lanewise opc fn f sh (sh.sources f useA useB useC) op

/-- The shape of an integer form whose operands are all of its type. -/
def intShape (f : Fields) : Shape :=
  { d := f.ity.regs, a := f.ity.regs, b := f.ity.regs, c := f.ity.regs, imm := immNat f.ity f.imm }

/-- A form of one or two typed operands and a typed result (R88). -/
def typed (t : ITy) (op : Int → Int → Int × FlagSet) : LaneFn := fun _ a b _ => op (readTy t a) (readTy t b)

/-- A form on unsigned operands. -/
def raw (op : Nat → Nat → Nat → Nat) (w : Nat) : LaneFn :=
  fun _ a b c => (op (a % 2 ^ w) (b % 2 ^ w) (c % 2 ^ w), 0)

end Sys2Proof.Machine
end

