-- ==== Sys2Proof/Machine/Arith.lean ====
section
/-! DEFINITION. Integer arithmetic: OPC 0x10 and 0x11 (spec/05_integer.md R92 to R95). -/

namespace Sys2Proof.Machine

/-- A result of the form's type, saturated or wrapped (R93). -/
def narrowTy (f : Fields) (x : Int) : Int × FlagSet := narrow f.bit7 f.ity.width f.ity.signed x

/-- The shape of a widening form: the destination and SC have twice the width (R92). -/
def wideShape (f : Fields) : Shape := { intShape f with d := f.ity.regs2, c := f.ity.regs2 }

/-- The low `2 w` bits of a widened result, as the widened type. -/
def wrapWide (f : Fields) (x : Int) : Int × FlagSet := plain (wrapInt (2 * f.ity.width) f.ity.signed x)

/-- `add` (R93). -/
def execAdd (f : Fields) (s : State) : Out :=
  computeForm s 0x10 0x00 f (intShape f) true true false (typed f.ity fun a b => narrowTy f (a + b))

/-- `sub` (R93). -/
def execSub (f : Fields) (s : State) : Out :=
  computeForm s 0x10 0x01 f (intShape f) true true false (typed f.ity fun a b => narrowTy f (a - b))

/-- A carry or borrow form (R94): the result from the operands and the carry in, and the carry out. A dead result writes neither
destination (R28). -/
def carryForm (s : State) (fn : Nat) (f : Fields) (op : Int → Int → Int → Int) (out : Int → Bool) : Out :=
  let t := f.ity
  onBoth s 0x10 fn f
    (fun c =>
      let m := c.active f
      let o := c.operands f (intShape f)
      let cin := c.pred 2 f.sc.toNat
      let r (l : Nat) : Int :=
        op (readTy t (o l).1) (readTy t (o l).2.1) (if cin.getLsbD l then 1 else 0)
      let val (l : Nat) : Nat := (r l % 2 ^ t.width).toNat
      let g := c.writeLanes 0x10 fn f m ((intShape f).sources f true true false) t.regs val
      let p := f.sc.toNat
      c.retire f (if f.dead then g else (g.writePred p m (maskOf fun l => out (r l))).note c.g [Reg.p p] 4))
    (fun c =>
      if c.guard f then
        let o := c.operands f (immNat t f.imm)
        let r := op (readTy t o.1) (readTy t o.2.1) (if c.pred f.sc.toNat then 1 else 0)
        c.retire ((c.q.setC f.d (BitVec.ofInt 64 (r % 2 ^ t.width))).setP f.sc.toNat (out r))
      else c.retire c.q)

/-- `addc` (R94). -/
def execAddc (f : Fields) (s : State) : Out :=
  carryForm s 0x02 f (fun a b k => a + b + k) fun r => 2 ^ f.ity.width ≤ r

/-- `subb` (R94). -/
def execSubb (f : Fields) (s : State) : Out :=
  carryForm s 0x03 f (fun a b k => a - b - k) fun r => r < 0

/-- `min` (R93). -/
def execMin (f : Fields) (s : State) : Out :=
  computeForm s 0x10 0x04 f (intShape f) true true false (typed f.ity fun a b => plain (if a < b then a else b))

/-- `max` (R93). -/
def execMax (f : Fields) (s : State) : Out :=
  computeForm s 0x10 0x05 f (intShape f) true true false (typed f.ity fun a b => plain (if b < a then a else b))

/-- `abs` (R93). -/
def execAbs (f : Fields) (s : State) : Out :=
  computeForm s 0x10 0x06 f (intShape f) true false false
    (typed f.ity fun a _ => negLike f.ity f.bit7 a (if a < 0 then -a else a))

/-- `neg` (R93). -/
def execNeg (f : Fields) (s : State) : Out :=
  computeForm s 0x10 0x07 f (intShape f) true false false (typed f.ity fun a _ => negLike f.ity f.bit7 a (-a))

/-- `mul` (R93). -/
def execMul (f : Fields) (s : State) : Out :=
  computeForm s 0x11 0x00 f (intShape f) true true false (typed f.ity fun a b => narrowTy f (a * b))

/-- `mulhi` (R93). -/
def execMulhi (f : Fields) (s : State) : Out :=
  computeForm s 0x11 0x01 f (intShape f) true true false (typed f.ity fun a b => plain (mulHi f.ity a b))

/-- `mulw` (R93). -/
def execMulw (f : Fields) (s : State) : Out :=
  computeForm s 0x11 0x02 f (wideShape f) true true false (typed f.ity fun a b => wrapWide f (a * b))

/-- `mad` (R93). -/
def execMad (f : Fields) (s : State) : Out :=
  computeForm s 0x11 0x03 f (intShape f) true true true fun _ a b c =>
    narrowTy f (readTy f.ity a * readTy f.ity b + readTy f.ity c)

/-- `madw` (R93). -/
def execMadw (f : Fields) (s : State) : Out :=
  computeForm s 0x11 0x04 f (wideShape f) true true true fun _ a b c =>
    wrapWide f (readTy f.ity a * readTy f.ity b + readInt (2 * f.ity.width) f.ity.signed c)

/-- `div` (R95). -/
def execDiv (f : Fields) (s : State) : Out :=
  computeForm s 0x11 0x05 f (intShape f) true true false (typed f.ity fun a b => divInt f.ity a b)

/-- `rem` (R95). -/
def execRem (f : Fields) (s : State) : Out :=
  computeForm s 0x11 0x06 f (intShape f) true true false (typed f.ity fun a b => remInt f.ity a b)

end Sys2Proof.Machine
end

