-- ==== Sys2Proof/Machine/Fetch.lean ====
section
/-! DEFINITION. Fetch lines that arrive, and slot contents that are not instructions (spec/02_encoding.md R18, R39, R40).

Marked in the assumption log: 20 (DEDUCED), 26 (DESIGN CHOICE). -/

namespace Sys2Proof.Machine

/-- ILLEGAL_INSTRUCTION (R39, R40): the trap of the issuing path or seat with a cause and the slot's bits. -/
def execIllegalInstruction (cause : BitVec 4) (word : BitVec 96) (s : State) : Out :=
  dispatch s word (some fun c => c.illegal cause word)
    (some fun c => c.fault 0x01 cause (BitVec.allOnes 64) (word.setWidth 128))

/-- FETCH_OVERRUN (R40): the issuing path or seat stands on a fill slot. -/
def execFetchOverrun (s : State) : Out :=
  dispatch s (BitVec.allOnes 96) (some fun c => c.faultCode 0x14) (some fun c => c.fault 0x14)

/-- A corrected error on a die (R347): ECCCNT rises, saturating, and ECCLAST names structure and location. -/
def State.corrected (s : State) (die code : Nat) (loc : BitVec 56) : State :=
  let d := s.die die
  s.setDie die { d with ecccnt := if d.ecccnt = BitVec.allOnes 32 then d.ecccnt else d.ecccnt + 1,
                        ecclast := loc ++ BitVec.ofNat 8 code }

/-- Put a line into a core's instruction cache. -/
def State.cacheLine (s : State) (t : Team) (pc : VAddr) (line : BitVec 512) : State :=
  let others := (s.core t.core).icache.filter fun e => !(e.1 == t.codeKey && e.2.1 == lineAddr pc)
  s.modCore t.core fun c => { c with icache := (t.codeKey, lineAddr pc, line) :: others }

/-- An uncorrectable error at a line (R18): the path's own record, then a machine check. -/
def PathCtx.lineError (c : PathCtx) : Out :=
  let addr : Word64 := BitVec.ofNat 64 (lineAddr c.p.pc)
  let fi : FaultInfo := { code := 0x13, addr := addr, detail := BitVec.ofNat 128 (9 + lineAddr c.p.pc * 2 ^ 64),
                          pc := c.p.pc, rpc := c.p.pc }
  .next ((c.s.queueFault c.tid c.gi c.pi fi).machineCheck c.t c.gi c.pi fi)

/-- LINE_FETCH (R18): the line of a path's next slot arrives. `flip1` and `flip2` are the bits that the two copies arrive
with inverted; a first copy that fails parity is discarded and the line is fetched again. -/
def execLineFetch (p : PathRef) (flip1 flip2 : BitVec 512) (s : State) : Out :=
  match s.pathCtx p with
  | none => .refused .notEnabled
  | some c =>
    match s.translate c.t.core c.t.crew (lineAddr c.p.pc) with
    | .error code => c.faultCode code (BitVec.ofNat 64 (lineAddr c.p.pc))
    | .ok e =>
      match s.permitted c.t.crew .exec e (lineAddr c.p.pc) with
      | .error code => c.faultCode code (BitVec.ofNat 64 (lineAddr c.p.pc))
      | .ok pa =>
        if (List.range 64).any fun i => s.poisoned (pa + i) then
          c.fault { code := 0x13, addr := BitVec.ofNat 64 (lineAddr c.p.pc),
                    detail := BitVec.ofNat 128 (7 + pa * 2 ^ 64), pc := c.p.pc, rpc := c.p.pc }
        else
          let line := BitVec.ofNat 512 (leNat ((List.range 64).map fun i =>
            s.viewByte c.t.crew c.t.view (lineAddr c.p.pc + i) (pa + i)))
          if lineParityOk (line ^^^ flip1) then .next (s.cacheLine c.t c.p.pc (line ^^^ flip1))
          else
            let s := s.corrected (dieOf c.t.core) 9 (BitVec.ofNat 56 (lineAddr c.p.pc))
            if lineParityOk (line ^^^ flip2) then .next (s.cacheLine c.t c.p.pc (line ^^^ flip2))
            else { c with s := c.s }.lineError

end Sys2Proof.Machine
end

