-- ==== Sys2Proof/Machine/Start.lean ====
section
/-! DEFINITION. What a group, a seat and a team hold when they start (spec/04_registers.md R60, spec/07_control.md R135,
spec/11_matrix.md R231, R235, spec/09_ordering.md R202 to R208).

Marked in the assumption log: 2 (DESIGN CHOICE), 48 (DEDUCED). -/

namespace Sys2Proof.Machine

/-- A group at its start: one path at the kernel's entry with every lane, nothing mapped, registers zero (R60, R135); no
lane holds an item (R149). -/
def Group.start (role ridx sched slot : Nat) (entry : VAddr) (since : Nat) : Group where
  role := role
  ridx := ridx
  sched := sched
  slot := slot
  g := Vector.replicate 64 0
  preds := Vector.replicate 7 0
  paths := (Vector.replicate 8 none).setIfInBounds 0 (some { mask := BitVec.allOnes 32, pc := entry, since := since })
  item := Lanes.all (BitVec.allOnes 32)
  unack := Vector.replicate 4 0
  counters := Vector.replicate 6 0
  lastPhase := Vector.replicate 16 0
  owed := Vector.replicate 16 false

/-- A seat at its start (R231, R235). -/
def Seat.start (num cluster : Nat) (entry : VAddr) : Seat where
  num := num
  cluster := cluster
  c := Vector.replicate 64 0
  pc := entry
  bounds := Vector.replicate 4 1
  ind := Vector.replicate 4 0
  streams := Vector.replicate 8 { coef := Vector.replicate 4 0 }

/-- A team with no groups yet. -/
def Team.start (grid crew x y core winBase winSize view desc : Nat) : Team where
  grid := grid
  crew := crew
  x := x
  y := y
  core := core
  winBase := winBase
  winSize := winSize
  view := view
  desc := desc
  barriers := Vector.replicate 16 {}
  sbars := Vector.replicate 8 {}
  channels := Vector.replicate 4 {}

/-- The scheduler that a new group of a core joins, the one with the fewest groups, and its slot there (R75). -/
def State.chooseSched (s : State) (core : Nat) (extra : List (Nat × Nat)) : Nat × Nat :=
  let used := ((s.coreGroups core).map fun e => (e.2.sched, e.2.slot)) ++ extra
  let load (k : Nat) : Nat := (used.filter fun e => e.1 == k).length
  let k := [1, 2, 3].foldl (fun b k => if load k < load b then k else b) 0
  (k, ((List.range 64).find? fun sl => !used.contains (k, sl)).getD 0)

end Sys2Proof.Machine
end

