-- ==== Sys2Proof/Machine/Lifecycle.lean ====
section
/-! DEFINITION. How groups, teams and grids end: barriers and channels at the end of a group, the kill of a team, the
completion of a grid, its record, and the launches that depend on it (spec/07_control.md R136; spec/09_ordering.md R196,
R202, R208; spec/12_views.md R269, R274, R284; spec/15_traps.md R356; spec/18_launch.md R394 to R396).

Marked in the assumption log: 10 (DESIGN CHOICE), 25 (DEDUCED), 34 (DEDUCED), 44 (DEDUCED), 49 (DESIGN CHOICE). -/

namespace Sys2Proof.Machine

/-! Barriers (R202) -/

/-- The groups that a phase mask expects: those of its roles that have not ended, as bits. -/
def Team.expected (t : Team) (m : BitVec 4) : Word32 :=
  let declared (r : Nat) : Bool := r < t.floors.length
  (List.range t.groups.length).foldl (fun acc i =>
    match t.groups[i]? with
    | some g => if !g.ended && declared g.role && (m == 0 || m.getLsbD g.role) then acc ||| BitVec.ofNat 32 (2 ^ i) else acc
    | none => acc) 0

/-- Whether a group has arrived in the current phase of a barrier: one of the phase mask stands in the arrived set, one outside it
still owes a wait on that phase. -/
def Team.opened (t : Team) (i : Nat) (b : Barrier) : Bool :=
  b.arrived != 0 || t.groups.any fun g => g.owed.toArray.getD i false && g.lastPhase.toArray.getD i 0 == b.phase

/-- Whether the current phase of a barrier is complete: some group has arrived in it, and the arrived set covers the expected set,
which may be empty (R202). That a phase in which no group has arrived does not complete is a DESIGN CHOICE (assumption 49). -/
def Team.phaseFull (t : Team) (i : Nat) (b : Barrier) : Bool := t.opened i b && t.expected b.mask &&& ~~~b.arrived == 0

/-- A barrier after the completion of its phase, where its phase is complete. -/
def Team.phaseStep (t : Team) (i : Nat) (b : Barrier) : Barrier :=
  if t.phaseFull i b then { b with phase := b.phase + 1, arrived := 0 } else b

/-- Whether a path is held as soon as a hold comes (R386): one that stands at an instruction boundary and would issue, in the
trap handler or not. -/
def Path.holdsNow (p : Path) : Bool := p.st == .ready || p.st == .splitStalled || p.st == .handler

/-- Hold every path of a group (R386): those that would issue at once, parked and replayable ones when they would become
ready. -/
def Group.holdAll (g : Group) : Group :=
  { g with paths := g.paths.map fun o => o.map fun p => match p.st with
      | .ready | .splitStalled | .handler => { p with st := .stopped }
      | .parked | .replayable => { p with holdNext := true }
      | .stopped => p }


/-- The hold of a team in step mode whose barrier completed a phase (R386), with one packet for each path held. -/
def State.stepHold (s : State) (tid : Nat) : State :=
  match s.team tid with
  | none => s
  | some t =>
    if !t.stepMode then s
    else
      let held := t.groups.flatMap fun g => (g.valid.filter fun e => e.2.holdsNow).map fun e => (g, e)
      let s := held.foldl (fun s e => s.stopPacket t e.1 e.2.1 e.2.2 1) s
      s.modTeam tid fun t => { t with groups := t.groups.map Group.holdAll }

/-- Complete the phases of a team whose arrived sets cover their expected sets. -/
def State.completePhases (s : State) (tid : Nat) : State :=
  match s.team tid with
  | none => s
  | some t =>
    let any : Bool := (List.range 16).any fun i => t.phaseFull i (t.barriers.toArray.getD i {})
    let s := s.modTeam tid fun t => { t with barriers := t.barriers.mapIdx t.phaseStep }
    if any then s.stepHold tid else s

/-! Completion records (R394) -/

/-- A completion record. -/
def completionRecord (clk fseq : Word64) (detail : Word32) (queue status : Nat) (seq : Word64) : BitVec 256 :=
  clk ++ fseq ++ detail ++ (0 : BitVec 13) ++ BitVec.ofNat 3 queue ++ BitVec.ofNat 16 status ++ seq

/-- Offsets of the indices in a queue's control block (assumption 10): TAIL 0, CONS 8, CHEAD 16, CTAIL 24. -/
def State.writeIndex (s : State) (q : Queue) (off : Nat) (v : Word64) : State :=
  s.physWriteN (q.cfg.control + off) (leBytes 8 v.toNat)

/-- A queue of a function. -/
def State.queue (s : State) (vf q : Nat) : Option Queue := aget q (s.func vf).queues

/-- Set a queue of a function. -/
def State.setQueue (s : State) (vf q : Nat) (x : Queue) : State :=
  let f := s.func vf
  s.setFunc vf { f with queues := aput q x f.queues }

/-- Whether a completion ring has room. -/
def Queue.completionRoom (q : Queue) : Bool := (q.chead - q.ctail).toNat < 2 ^ q.cfg.cqlog

/-- Write one completion record into the ring, raise CHEAD, raise the queue's vector. `count` is the record's count in the launch
ring. -/
def State.putCompletion (s : State) (vf qn count : Nat) (r : BitVec 256) : State :=
  match s.queue vf qn with
  | none => s
  | some q =>
    let s := s.physWriteN (q.cfg.completionBase + q.chead.toNat % 2 ^ q.cfg.cqlog * 32) (leBytes 32 r.toNat)
    let q1 : Queue := { q with chead := q.chead + 1, done := count :: q.done }
    ((s.setQueue vf qn q1).writeIndex q1 16 q1.chead).raise vf (1 + qn)

/-- Post a completion: at once, or behind those that wait for room. -/
def State.postCompletion (s : State) (vf qn count : Nat) (seq : Word64) (status : Nat) (r : BitVec 256) : State :=
  match s.queue vf qn with
  | none => s
  | some q =>
    let q1 : Queue := { q with outcomes := q.outcomes ++ [(seq, status)] }
    if q.heldDone.isEmpty && q.completionRoom then (s.setQueue vf qn q1).putCompletion vf qn count r
    else s.setQueue vf qn { q1 with heldDone := q1.heldDone ++ [(count, r)] }

/-! Dependences (R395 step 2) -/

/-- What an edge of a grid comes to: satisfied, failed with a status, or waiting. -/
inductive EdgeState where
  | satisfied | failed | absent | waiting
  deriving DecidableEq, Repr

/-- An edge of a launch. A DELTA above the launch's own SEQ names no record: every record consumed lies past it. -/
def State.edgeState (s : State) (g : Grid) (e : Edge) : EdgeState :=
  match s.queue g.vf e.queue with
  | none => .absent
  | some q =>
    let target : Int := (g.seq.toNat : Int) - e.delta
    let here (c : Word64 → Bool) : Bool := s.grids.any fun x => x.2.vf == g.vf && x.2.queue == e.queue && c x.2.seq
    let past (x : Word64) : Bool := target < x.toNat
    if here fun x => (x.toNat : Int) == target then .waiting
    else match q.outcomes.find? fun o => (o.1.toNat : Int) == target with
    | some (_, 0) => .satisfied
    | some _ => .failed
    | none =>
      if here past || (q.outcomes.any fun o => past o.1) || (q.lastSeq.map past).getD false then .absent else .waiting

/-- Whether a line is software-managed and meets a virtual range. -/
def smLineIn (crew base len : Nat) (k : LineKey) (l : Line) : Bool :=
  l.sm && k.crew == crew && l.cells.any fun c => base ≤ c.1 && c.1 < base + len

/-- Write back the software-managed lines in an edge's region (R196). -/
def State.writeBackRegion (s : State) (crew : Nat) (e : Edge) : State := s.writeBackIf (smLineIn crew e.base e.len)

/-- Drop the software-managed copies in an edge's region on the dies of the crew. -/
def State.dropRegion (s : State) (crew : Nat) (e : Edge) : State :=
  let ks := (s.lines.filter fun x => smLineIn crew e.base e.len x.1 x.2).map Prod.fst
  ks.foldl (fun s k => s.evictLine k) s

/-- Write back what a completed task wrote in the regions of the edges that name it (R196). -/
def State.releaseTask (s : State) (g : Grid) : State :=
  s.grids.foldl (fun s x => x.2.edges.foldl (fun s e =>
    if x.2.vf = g.vf ∧ e.queue = g.queue ∧ x.2.seq - BitVec.ofNat 64 e.delta = g.seq then s.writeBackRegion g.crew e
    else s) s) s

/-- Discard a view: its lines, granules and table entry (R280, R284). -/
def State.discardView (s : State) (crew view : Nat) : State :=
  let s1 : State := { s with lines := s.lines.filter fun e => !(e.1.crew == crew && e.1.view == view) }
  s1.modCrew crew fun c => { c with views := adel view c.views, granules := c.granules.filter fun g => g.view != view }

/-- End a grid: its record, its teams and views gone, no longer in flight. -/
def State.closeGrid (s : State) (gid status : Nat) (detail : Word32) : State :=
  match s.grid gid with
  | none => s
  | some g =>
    let s := if status = 0 then s.releaseTask g else s
    let s := g.views.foldl (fun s v => s.discardView g.crew v.2) s
    let s1 : State := { s with grids := adel gid s.grids, teams := s.teams.filter fun e => e.2.grid != gid }
    let r := completionRecord (BitVec.ofNat 64 s.clock) (BitVec.ofNat 64 g.cause) detail g.queue status g.seq
    s1.postCompletion g.vf g.queue g.order g.seq status r

/-- Resolve the edges of one waiting launch: ready, or ended with status 3 or 8. -/
def State.resolveGrid (s : State) (gid : Nat) : State :=
  match s.grid gid with
  | none => s
  | some g =>
    if g.st ≠ .waiting then s
    else
      let es := g.edges.map fun e => (e, s.edgeState g e)
      if es.any fun e => e.2 == .failed then s.closeGrid gid 3 0
      else if es.any fun e => e.2 == .absent then s.closeGrid gid 8 0
      else if es.all fun e => e.2 == .satisfied then
        let s := g.edges.foldl (fun s e => (s.writeBackRegion g.crew e).dropRegion g.crew e) s
        s.modGrid gid fun g => { g with st := .ready }
      else s

/-- Resolve every waiting launch, again and again while some may end. -/
def State.resolveAll (s : State) : Nat → State
  | 0 => s
  | n + 1 => ((s.grids.map Prod.fst).foldl (fun s i => s.resolveGrid i) s).resolveAll n

/-- Complete a grid and resolve what depends on it. -/
def State.finishGrid (s : State) (gid status : Nat) (detail : Word32) : State :=
  (s.closeGrid gid status detail).resolveAll s.grids.length

/-! Teams -/

/-- Whether nothing of a team is left to perform. -/
def State.teamSettled (s : State) (tid : Nat) (t : Team) : Bool :=
  t.status != .waiting &&
  (t.groups.all fun g => g.ended && g.sbuf.isEmpty && g.pend.isEmpty && g.unack.toList.all fun n => n == 0) &&
  (match t.seat with | some q => q.st == .exited && q.ops.isEmpty | none => true) &&
  !(s.cmds.any fun c => c.2.team == tid)

/-- A child of a set has ended (R269): its lines reach its private copies (R267); the last one ends the set. -/
def State.childEnded (s : State) (tid : Nat) (t : Team) : State :=
  let s := s.evictIf fun k => t.view != 0 && k.crew == t.crew && k.view == t.view
  match t.parent with
  | none => s
  | some p =>
    s.modTeam p fun x => { x with forkSet := x.forkSet.map fun f =>
      let live := f.live.filter fun c => c != tid
      let killed := if t.killed then f.killed ++ [t.child.getD 0] else f.killed
      { f with live := live, killed := killed, st := if f.st = .open ∧ live.isEmpty then .ended else f.st } }

/-- A grid all of whose teams have ended: complete, or left to its determinate join (R276, R396). -/
def State.gridProgress (s : State) (gid : Nat) : State :=
  match s.grid gid with
  | none => s
  | some g =>
    let total := g.gx * g.gy
    let allStarted : Bool := g.placed + g.notStarted.length == total
    let allEnded : Bool := s.teams.all fun e => e.2.grid != gid || e.2.ended
    if g.st ≠ .done ∧ allEnded ∧ g.killed then s.finishGrid gid 4 0
    else if g.st = .running ∧ allStarted ∧ allEnded then
      if g.det then s.modGrid gid fun g => { g with st := .joining } else s.finishGrid gid 0 0
    else s

/-- Note the end of a team once nothing of it is left, and what follows from it. -/
def State.progress (s : State) (tid : Nat) : State :=
  match s.team tid with
  | none => s
  | some t =>
    if t.ended || !s.teamSettled tid t then s
    else
      let s := s.modTeam tid fun t => { t with ended := true }
      let s := s.childEnded tid t
      let s := s.modGrid t.grid fun g => { g with teamsEnded := g.teamsEnded + if t.parent.isNone then 1 else 0 }
      s.gridProgress t.grid

/-! The end of a group (R136) -/

/-- A group with no valid path: registers freed, nothing held; accesses that do not stop a run are dropped. -/
def Group.finish (g : Group) : Group :=
  { g with ended := true, vregs := [], inflight := [], held := false, descheduled := false,
           paths := Vector.replicate 8 none, pend := g.pend.filter fun a => a.deferred || !a.faulted }

/-- End a group: it leaves every expected set, and its channels see that it has ended; a group that its trap handler
ended raises the error bit of its role's channel (R202, R208). -/
def State.endGroup (s : State) (tid gi : Nat) (byHandler : Bool) : State :=
  match s.group tid gi with
  | none => s
  | some g =>
    let s := s.setGroup tid gi g.finish
    let s := if byHandler then s.modTeam tid fun t =>
        { t with channels := t.channels.mapIdx fun i c => if i = g.role then { c with error := true } else c } else s
    (s.completePhases tid).progress tid

/-- A path retires: its entry is free and its lanes are vacant; without a valid path the group ends (R136). -/
def State.retirePath (s : State) (tid gi pi : Nat) (g : Group) : State :=
  match g.path pi with
  | none => s
  | some p =>
    let g1 : Group := { g.setPath pi none with em := g.em &&& ~~~p.mask }
    let s := s.setGroup tid gi g1
    if g1.valid.isEmpty then s.endGroup tid gi (p.st == .handler) else s

/-! Kills (R356) -/

/-- The record of a command's fault (R218, R332): KIND 2. The command stays outstanding. -/
def State.commandFault (s : State) (id : Nat) (c : Command) (code : BitVec 8) (sub : BitVec 4) (addr : Word64)
    (detail : BitVec 128) : State :=
  match s.team c.team with
  | none => s
  | some t =>
    let fi : FaultInfo := { code := code, sub := sub, addr := addr, detail := detail, pc := c.pc, rpc := c.pc }
    let s := s.modCmd id fun c => { c with st := .faulted code }
    s.postRecord t.crew (s.groupRecord t c.group c.path 2 fi) (.command id)

/-- The collective that a command belongs to: crew, identifier, scope set. -/
def State.collKey (s : State) (c : Command) : Option (Nat × Nat × Nat × Nat) :=
  match c.kind, s.team c.team with
  | .coll _ ident _ _, some t =>
    match c.scope with
    | .team => some (t.crew, ident, 0, c.team)
    | .clu => some (t.crew, ident, 1, clusterOf t.core)
    | _ => some (t.crew, ident, 2, dieOf t.core)
  | _, _ => none

/-- Whether a collective's result has been formed for a command. -/
def Command.formed (c : Command) : Bool := c.acked

/-- A killed rank: every other rank of its collective stops with 0x04 before its result (R222). -/
def State.killCollectives (s : State) (tid : Nat) : State :=
  let keys := (s.cmds.filter fun e => e.2.team == tid && !e.2.formed).filterMap fun e => s.collKey e.2
  s.cmds.foldl (fun s e =>
    let same : Bool := match s.collKey e.2 with
      | some k => keys.contains k
      | none => false
    if e.2.team != tid && !e.2.formed && same then s.commandFault e.1 e.2 0x04 0 (BitVec.ofNat 64 e.2.dst) 0 else s) s

/-- Drop the commands of a team; requests already sent go on without reporting (R356). -/
def State.dropCommands (s : State) (tid : Nat) : State :=
  { s with
    cmds := s.cmds.filter fun e => e.2.team != tid
    requests := (s.requests.filter fun r => r.2.sent.isSome || !((r.2.group.map fun g => g.team == tid).getD false)).map fun r =>
      if (r.2.group.map fun g => g.team == tid).getD false then (r.1, { r.2 with cmd := none, access := none, group := none }) else r }

/-- A group of a killed team. -/
def Group.kill (g : Group) : Group :=
  { g with ended := true, killed := true, vregs := [], inflight := [], held := false, descheduled := false, seqs := [],
           sbuf := [], pend := [], unack := Vector.replicate 4 0, paths := Vector.replicate 8 none }

/-- A seat of a killed team: it issues no more, and only its started operations stay. -/
def Seat.kill (q : Seat) : Seat :=
  { q with st := .exited, seqs := [], ops := q.ops.filter fun o => o.started }

/-- Free the accumulator slots of a team that no operation of its seat uses. -/
def State.freeSlots (s : State) (tid : Nat) : State :=
  let used : List (Nat × Nat) := match (s.team tid).bind Team.seat with
    | some q => q.ops.filterMap fun (o : MatOp) => o.slot.map fun k => (o.core, k)
    | none => []
  { s with cores := s.cores.map fun c =>
      (c.1, { c.2 with slots := c.2.slots.filter fun k => k.2.team != tid || used.contains (c.1, k.1),
                       queue := c.2.queue.filter fun q => q.1 != tid ||
                         (match (s.team tid).bind Team.seat with
                          | some st => st.ops.any fun o => o.id == q.2
                          | none => false) }) }

/-- The team that a record names. -/
def State.sourceTeam (s : State) : RecSource → Option Nat
  | .group t _ | .seat t => some t
  | .command id => (aget id s.cmds).map Command.team
  | _ => none

/-- Drop the records of a team that still wait for room (R284). -/
def State.dropHeldOf (s : State) (crew tid : Nat) : State :=
  s.modCrew crew fun c => { c with heldRecs := c.heldRecs.filter fun h => s.sourceTeam h.source != some tid }

/-- Kill a team: it ends at once, with no drain (R356); its set is aborted (R284). `fuel` bounds the depth of views. -/
def State.killTeam (s : State) (tid : Nat) : Nat → State
  | 0 => s
  | fuel + 1 =>
    match s.team tid with
    | none => s
    | some t =>
      if t.ended then s
      else
        let s := s.killCollectives tid
        let s := s.dropCommands tid
        let kids := match t.forkSet with
          | some f => f.children
          | none => []
        let s := kids.foldl (fun s c => (s.dropHeldOf t.crew c.1).killTeam c.1 fuel) s
        let s := kids.foldl (fun s c => s.discardView t.crew c.2) s
        let s1 : State := { s with teams := s.teams.filter fun e => !(kids.any fun c => c.1 == e.1) }
        let s := s1.modTeam tid fun t =>
          { t with killed := true, forkSet := none, groups := t.groups.map Group.kill, seat := t.seat.map Seat.kill
                   status := .resident, slots := [],
                   channels := t.channels.mapIdx fun i c =>
                     if t.groups.any fun g => g.role == i && !g.ended then { c with error := true } else c }
        let s := s.freeSlots tid
        let s := s.modGrid t.grid fun g =>
          { g with killedTeams := if t.parent.isNone then g.killedTeams ++ [t.y * g.gx + t.x] else g.killedTeams }
        s.progress tid

/-- Kill a grid: every team, and those not yet started (R356). -/
def State.killGrid (s : State) (gid : Nat) : State :=
  match s.grid gid with
  | none => s
  | some g =>
    let rest := (List.range (g.gx * g.gy)).filter fun i => g.placed ≤ i
    let s := s.modGrid gid fun g => { g with killed := true, notStarted := rest }
    let tids := (s.teams.filter fun e => e.2.grid == gid && e.2.parent.isNone).map Prod.fst
    let s := tids.foldl (fun s i => s.killTeam i 8) s
    s.gridProgress gid

/-- Abort the set of a team (R284): its children are killed, their views and granules freed, the parent unfrozen. -/
def State.abortSet (s : State) (tid : Nat) : State :=
  match s.team tid with
  | none => s
  | some t =>
    match t.forkSet with
    | none => s
    | some f =>
      let s := f.children.foldl (fun s c => (s.dropHeldOf t.crew c.1).killTeam c.1 7) s
      let s := f.children.foldl (fun s c => s.discardView t.crew c.2) s
      let s1 : State := { s with teams := s.teams.filter fun e => !(f.children.any fun c => c.1 == e.1) }
      s1.modTeam tid fun t => { t with forkSet := none, rpages := [], aborted := true }

end Sys2Proof.Machine
end

