-- ==== Sys2Proof/Machine/LoadStore.lean ====
section
/-! DEFINITION. The memory and record instructions of OPC 0x80 (spec/08_memory.md R154 to R182), and what the ordering
forms of OPC 0x90 share with them: the lanes of an access, its issue, the trace packet of R383.

Marked in the assumption log: 17 (DEDUCED), 18 (DEDUCED), 20 (DEDUCED), 22 (DEDUCED), 38 (DEDUCED). -/

namespace Sys2Proof.Machine

/-! Lanes of an access (R175) -/

/-- The offset of a memory form (R175). -/
def offset (f : Fields) : Int := if f.useImm then f.imm.toInt else 0

/-- The flat address of each lane (R175). -/
def PathCtx.flatAddr (c : PathCtx) (f : Fields) (off : Int) : Nat → Nat :=
  let base := c.laneOp 0 f.sa 2
  fun l => (((base l : Int) + off) % 2 ^ 64).toNat

/-- The flat lanes of a mask. -/
def PathCtx.flatLanes (c : PathCtx) (f : Fields) (n : Nat) (m : Mask) (off : Int) : List LaneAcc :=
  let a := c.flatAddr f off
  (maskLanes m).map fun l => flatLane n l (a l)

/-- The scratch or vault address of each lane, at unbounded width (R175). -/
def PathCtx.sideAddr (c : PathCtx) (f : Fields) : Nat → Int :=
  let base := c.laneOp 0 f.sa 1
  fun l => (base l : Int) + offset f

/-! The memory packet (R382 to R384) -/

/-- The stride that places every lane of a packet, where one exists (R383). -/
def strideOf (l0 base : Nat) (ls : List (Nat × Nat)) : Option Int :=
  match ls with
  | [] => some 0
  | (l1, a1) :: _ =>
    let s := ((a1 : Int) - base) / ((l1 : Int) - l0)
    if ls.all (fun e => (e.2 : Int) == (base : Int) + ((e.1 : Int) - l0) * s) && -(2 ^ 31) ≤ s && s < 2 ^ 31 then some s
    else none

/-- The TYPE 7 packets of form 1: eight offsets each. -/
def offsetPackets (base : Nat) (ls : List (Nat × Nat)) : List (BitVec 256) :=
  let off (l : Nat) : BitVec 32 := BitVec.ofInt 32 (((aget l ls).getD base : Nat) - (base : Int))
  [0, 1, 2, 3].map fun j => (List.range 8).foldr (fun i acc => acc <<< 32 ||| (off (8 * j + i)).setWidth 256) (0 : BitVec 256)

/-- The memory packet of an instruction: lanes with their addresses and the width code (R383). -/
def PathCtx.traceMemory (c : PathCtx) (s : State) (mask : Mask) (ls : List (Nat × Nat)) (wcode : Nat) : State :=
  match ls with
  | [] => s
  | (l0, base) :: rest =>
    let fits : Bool := ls.all fun e => -(2 ^ 31) ≤ (e.2 : Int) - base && (e.2 : Int) - base < 2 ^ 31
    let r : Nat × Int × List (BitVec 256) := match strideOf l0 base rest with
      | some s => (0, s, [])
      | none => if fits then (1, 0, offsetPackets base ls) else (2, 0, [])
    let body : BitVec 216 := (BitVec.ofNat 3 wcode ++ BitVec.ofNat 2 r.1 ++ BitVec.ofInt 32 r.2.1 ++ BitVec.ofNat 56 base ++ mask ++ c.p.pc).setWidth 216
    s.emit c.t.crew (dieOf c.t.core) 1 (fun d => packet 3 d c.t.core (c.g.sched * 64 + c.g.slot) c.pi body) r.2.2

/-- log2 of a width in bytes. -/
def widthCode (n : Nat) : Nat := if n = 1 then 0 else if n = 2 then 1 else if n = 4 then 2 else if n = 8 then 3 else 4

/-- The packet of an access (R383). -/
def PathCtx.traceAccess (c : PathCtx) (s : State) (a : Access) : State :=
  let ls := (a.lanes.filter fun l => !l.bad).map fun l => (l.lane, l.addr)
  let mask : Mask := if a.uniformEffect then BitVec.allOnes 32 else maskOf fun l => ls.any fun e => e.1 == l
  c.traceMemory s mask ls (widthCode a.bytes)

/-! Issuing an access -/

/-- Put translations that need no waiting into the caches: a write of a child view or of a frozen parent is checked when it
issues, because its faults 0x07 and 0x08 are precise (R264, R266). -/
def State.translateNow (s : State) (t : Team) (ls : List LaneAcc) : State :=
  ls.foldl (fun s l =>
    match l.target, l.st with
    | .line _ _ _ _ _ _ _, .walk =>
      if (s.tlb t.core t.crew l.addr).isSome then s
      else match s.walk t.crew l.addr with
        | .ok w => s.fillTlb t.core (tlbOf t.crew l.addr w)
        | .error _ => s
    | _, _ => s) s

/-- Mark destination registers pending, mapping those that are unmapped (R61, R72). -/
def Group.setPending (g : Group) (r n : Nat) : Group :=
  { g with vregs := (upFrom r n).foldl (fun vs k =>
      aput k { lanes := ((aget k vs).map VReg.lanes).getD (Lanes.all 0), pending := true } vs) g.vregs }

/-- Mark a uniform register pending (R176). -/
def Group.setUniPending (g : Group) (r : Nat) (b : Bool) : Group :=
  { g with gPend := if b then g.gPend ||| BitVec.ofNat 64 (2 ^ r) else g.gPend &&& ~~~(BitVec.ofNat 64 (2 ^ r)) }

/-- Map a destination, which an issue does whether or not a lane is active (R61). -/
def Group.mapDest (g : Group) : Dest → Group
  | .vec r n => { g with vregs := (upFrom r n).foldl (fun vs k =>
      if (aget k vs).isSome then vs else aput k { lanes := Lanes.all 0 } vs) g.vregs }
  | _ => g

/-- Mark a destination pending. -/
def Group.expect (g : Group) : Dest → Group
  | .none => g
  | .vec r n => g.setPending r n
  | .uni r => g.setUniPending r true

/-- Whether a fault code of a lane is precise for the instruction (R264, R266). -/
def LaneAcc.precise (l : LaneAcc) : Bool := l.st == .faulted 0x07 || l.st == .faulted 0x08

/-- Issue an access: its lanes as far as they come, the store into the buffer (R178) or the destination pending (R176).
`subs` are lanes whose value is substituted (R164); `free` are the registers that LR frees. -/
def PathCtx.issueAccess (c : PathCtx) (f : Fields) (free : List Nat) (a : Access) (subs : List LaneAcc) : Out :=
  let g := c.g.freeAll free
  if a.lanes.isEmpty && subs.isEmpty then c.retire f (g.mapDest a.dest)
  else
    let n := c.s.newId
    let a : Access := { a with id := n.1, pc := c.p.pc, path := c.pi }
    let write : Bool := a.kind.need != .read
    let now : Bool := write && (c.t.view != 0 || c.t.frozen)
    let r := (if now then n.2.translateNow c.t a.lanes else n.2).resolve c.tid c.gi c.t c.g.own a
    if r.2.lanes.any LaneAcc.precise then c.fault (r.2.faultInfo c.p.pc)
    else
      let a : Access := { r.2 with lanes := r.2.lanes ++ subs }
      let s := c.traceAccess (if now then r.1.trimTlb c.t.core c.t.crew else r.1) { a with lanes := r.2.lanes }
      let g1 : Group := if a.kind == .store then { g with sbuf := g.sbuf ++ [a] }
        else { g.expect a.dest with pend := g.pend ++ [a] }
      c.retireOn s f g1

/-- A precise fault of the active lanes of a form. -/
def PathCtx.faultLanes (c : PathCtx) (mask : Mask) (code : BitVec 8) (addr : Word64 := BitVec.allOnes 64) : Out :=
  c.fault { code := code, mask := mask, addr := addr, pc := c.p.pc, rpc := c.p.pc }

/-- The destination of a per-lane load. -/
def vecDest (f : Fields) (n : Nat) : Dest := if f.dead then .none else .vec f.d.toNat n

/-- A plain load of lanes (R175). -/
def PathCtx.plainLoad (c : PathCtx) (fn : Nat) (f : Fields) (free : List Nat) (lanes subs : List LaneAcc) : Out :=
  c.issueAccess f (free ++ lrRegs 0x80 fn f)
    { id := 0, kind := .load, pc := c.p.pc, path := c.pi, bytes := 2 ^ f.wcode, sext := f.sext,
      dest := vecDest f f.memRegs, dead := f.dead, lanes := lanes } subs

/-- A plain store of lanes: the data is read at issue (R178). -/
def PathCtx.plainStore (c : PathCtx) (fn : Nat) (f : Fields) (free : List Nat) (lanes : List LaneAcc) : Out :=
  let data := c.laneOp 2 f.sc f.memRegs
  let n := 2 ^ f.wcode
  c.issueAccess f (free ++ lrRegs 0x80 fn f)
    { id := 0, kind := .store, pc := c.p.pc, path := c.pi, bytes := n, na := f.policy == 2,
      lanes := lanes.map fun l => { l with data := data l.lane % 2 ^ (8 * n) } } []

/-! Accesses through records (R161 to R164) -/

/-- The coordinates of each lane. -/
def PathCtx.coordsOf (c : PathCtx) (f : Fields) (n : Nat) : Nat → List Int :=
  let vs := (upFrom f.sb.toNat n).map (c.vreg 1)
  fun l => vs.map fun v => (v.get l).toInt

/-- A lane through a record: accesses, and substituted lanes. -/
def recordLane (r : BitVec 512) (idx lane : Nat) (x : List Int) (store : Bool) : List LaneAcc × List LaneAcc :=
  match element r store x with
  | .at_ a t0 t1 t2 t3 =>
    ([{ lane := lane, addr := a, target := .line idx t0 t1 t2 t3 (recCls r) (recRepl r) }], [])
  | .pad v => ([], [{ lane := lane, addr := 0, target := .scratch 0, st := .ready, data := v }])
  | .drop => ([], [])
  | .bounds a => ([{ lane := lane, addr := a, target := .line idx 0 0 0 0 false false, st := .faulted 0x06 }], [])

/-- The lanes of `ldt` or `stt`: accesses and substituted lanes, or the fault of the whole instruction (R161, R163,
R175). -/
def PathCtx.tensorLanes (c : PathCtx) (f : Fields) (m : Mask) (store : Bool) :
    Except (BitVec 8) (List LaneAcc × List LaneAcc) :=
  let h : Word32 := (c.uni 0 f.sa).setWidth 32
  let n := 2 ^ f.wcode
  if h = 0 then
    let lo := c.vreg 1 f.sb.toNat
    let hi := c.vreg 1 (f.sb.toNat + 1)
    .ok ((maskLanes m).map fun l => flatLane n l ((lo.get l).toNat + 2 ^ 32 * (hi.get l).toNat), [])
  else match c.s.record c.t.crew h with
    | none => .error 0x11
    | some r =>
      if recSize r ≠ n then .error 0x05
      else if recAcc r = (if store then 1 else 2) then .error 0x04
      else
        let x := c.coordsOf f (recDims r)
        let ls := (maskLanes m).map fun l => recordLane r (h.toNat / 4096) l (x l) store
        .ok (ls.flatMap Prod.fst, ls.flatMap Prod.snd)

/-- The coordinate registers that LR[1] of `ldt` and `stt` frees (R174). -/
def PathCtx.coordFree (c : PathCtx) (f : Fields) : List Nat :=
  if f.lr.getLsbD 1 then
    let h : Word32 := (c.uni 0 f.sa).setWidth 32
    let n := if h = 0 then 2 else ((c.s.record c.t.crew h).map recDims).getD 1
    upFrom f.sb.toNat n
  else []

/-- `ldt` (R162 to R164, R175). -/
def execLdt (f : Fields) (s : State) : Out :=
  onPath s 0x80 0x00 f fun c =>
    let m := c.active f
    if m = 0 then c.retire f ((c.g.freeAll (c.coordFree f ++ lrRegs 0x80 0x00 f)).mapDest (vecDest f f.memRegs))
    else match c.tensorLanes f m false with
      | .error code => c.faultLanes m code
      | .ok ls => c.plainLoad 0x00 f (c.coordFree f) ls.1 ls.2

/-- `stt`. -/
def execStt (f : Fields) (s : State) : Out :=
  onPath s 0x80 0x01 f fun c =>
    let m := c.active f
    if m = 0 then c.retire f (c.g.freeAll (c.coordFree f ++ lrRegs 0x80 0x01 f))
    else match c.tensorLanes f m true with
      | .error code => c.faultLanes m code
      | .ok ls => c.plainStore 0x01 f (c.coordFree f) ls.1

/-- `ld`. -/
def execLd (f : Fields) (s : State) : Out :=
  onPath s 0x80 0x02 f fun c => c.plainLoad 0x02 f [] (c.flatLanes f (2 ^ f.wcode) (c.active f) (offset f)) []

/-- `st`. -/
def execSt (f : Fields) (s : State) : Out :=
  onPath s 0x80 0x03 f fun c => c.plainStore 0x03 f [] (c.flatLanes f (2 ^ f.wcode) (c.active f) (offset f))

/-- The scratch lanes of a form. -/
def PathCtx.scratchLanes (c : PathCtx) (f : Fields) : List LaneAcc :=
  let a := c.sideAddr f
  (maskLanes (c.active f)).map fun l => c.s.scratchLane c.t (2 ^ f.wcode) l (a l)

/-- The vault lanes of a form. -/
def PathCtx.vaultLanes (c : PathCtx) (f : Fields) (store : Bool) : List LaneAcc :=
  let a := c.sideAddr f
  (maskLanes (c.active f)).map fun l => c.s.vaultLane c.t (2 ^ f.wcode) l (a l) store

/-- `lds` (R172). -/
def execLds (f : Fields) (s : State) : Out :=
  onPath s 0x80 0x04 f fun c => c.plainLoad 0x04 f [] (c.scratchLanes f) []

/-- `sts`. -/
def execSts (f : Fields) (s : State) : Out :=
  onPath s 0x80 0x05 f fun c => c.plainStore 0x05 f [] (c.scratchLanes f)

/-- `ldv` (R173). -/
def execLdv (f : Fields) (s : State) : Out :=
  onPath s 0x80 0x06 f fun c => c.plainLoad 0x06 f [] (c.vaultLanes f false) []

/-- `stv`. -/
def execStv (f : Fields) (s : State) : Out :=
  onPath s 0x80 0x07 f fun c => c.plainStore 0x07 f [] (c.vaultLanes f true)

/-- `ldg` (R178, R179): one access for the group. -/
def execLdg (f : Fields) (s : State) : Out :=
  onPath s 0x80 0x08 f fun c =>
    if c.effect f then
      c.issueAccess f []
        { id := 0, kind := .load, pc := c.p.pc, path := c.pi, bytes := 2 ^ f.wcode, sext := f.sext,
          dest := if f.dead then .none else .uni (f.d.toNat - 0xC0), dead := f.dead, uniformEffect := true,
          lanes := [flatLane (2 ^ f.wcode) 0 (c.flatAddr f (offset f) 0)] } []
    else c.skipOver 0x80 0x08 f

/-- Bring the bytes of one 256-byte line into a slice, clean: absent bytes take what lies behind (R180). -/
def State.fillLine (s : State) (k : LineKey) (sm : Bool) (va pa : Nat) : State :=
  let l := (aget k s.lines).getD { sm := sm }
  let cells := (List.range 256).foldl (fun cs i =>
    if (aget (va + i) cs).isSome then cs
    else aput (va + i) { pa := pa + i, val := s.lineByte k (va + i) (pa + i), dirty := false } cs) l.cells
  { s with lines := aput k { l with cells := cells } s.lines }

/-- Prefetch one address: dropped where it is out of range, unmapped or unpermitted (R180). -/
def State.prefetch (s : State) (t : Team) (a : Nat) : State :=
  if 2 ^ 56 ≤ a then s
  else match s.translate t.core t.crew a with
    | .error _ => s
    | .ok e =>
      match s.permitted t.crew .read e a with
      | .error _ => s
      | .ok pa =>
        let va := a / 256 * 256
        let base := pa - a % 256
        let target := flatTarget a false
        let view := s.viewOf t.view target pa e.perm
        let sm := s.isSm target pa e.perm
        let home := s.homeDie pa
        let s := s.touchPage t.crew pa
        if !s.allocates t.crew home e.perm then s
        else
          let s := s.fillLine (keyOf t.crew view target .home) sm va base
          if sm ∧ dieOf t.core ≠ home then s.fillLine (keyOf t.crew view target (.localDie (dieOf t.core))) sm va base
          else s

/-- The distinct lines of some addresses. -/
def distinctLines (as : List Nat) : List Nat :=
  as.foldl (fun acc a => if acc.any fun b => b / 256 == a / 256 then acc else acc ++ [a]) []

/-- `pref` (R180). -/
def execPref (f : Fields) (s : State) : Out :=
  onPath s 0x80 0x09 f fun c =>
    let a := c.flatAddr f (offset f)
    let ls := (maskLanes (c.active f)).map fun l => (l, a l)
    let s := (distinctLines (ls.map Prod.snd)).foldl (fun s a => s.prefetch c.t a) c.s
    c.retireOn (c.traceMemory s (c.active f) ls 0) f (c.g.freeAll (lrRegs 0x80 0x09 f))

/-! Record instructions (R181, R182) -/

/-- Write a uniform result whose latency is variable: it stands at once, which is one of the latencies that R72 hides. -/
def PathCtx.late (c : PathCtx) (f : Fields) (w : Word64) : Group :=
  if f.dead then c.g else c.g.writeUni (f.d.toNat - 0xC0) w

/-- `rvalid` (R181). -/
def execRvalid (f : Fields) (s : State) : Out :=
  onPath s 0x80 0x0A f fun c =>
    if c.effect f then
      let h : Word32 := (c.uni 0 f.sa).setWidth 32
      let ok : Bool := h == 0 || (c.s.record c.t.crew h).isSome
      c.retire f (if f.dead then c.g
        else c.g.writePred f.d.toNat (BitVec.allOnes 32) (if ok then BitVec.allOnes 32 else 0))
    else c.skipOver 0x80 0x0A f

/-- The faults that an index of `rwr` or `rinval` meets before anything else (R182, R264). -/
def PathCtx.indexFault (c : PathCtx) (idx : Nat) : Option (BitVec 8) :=
  if idx = 0 ∨ idx = 0xF_FFFF then some 0x04
  else if (c.s.crew c.t.crew).recSize ≤ idx then some 0x11
  else if c.t.view ≠ 0 ∨ c.t.frozen then some 0x07
  else none

/-- The accesses of a group through a record that have not reached their slice (R182). -/
def Group.throughRecord (g : Group) (idx : Nat) : List Access :=
  let hits (l : LaneAcc) : Bool := match l.target with | .line t _ _ _ _ _ _ => t == idx | _ => false
  (g.sbuf.filter fun a => a.lanes.any hits) ++
    (g.pend.filter fun a => a.lanes.any fun l => hits l && (l.waiting || l.bad))

/-- What stands before an `rwr` or `rinval`: nothing, accesses still to come, or a faulted access of the issuing group,
at which the group stops. -/
def PathCtx.recordReady (c : PathCtx) (idx : Nat) : Ready :=
  if (c.g.throughRecord idx).any Access.faulted then .stop
  else if c.s.teams.any fun e => e.2.crew == c.t.crew && e.2.groups.any fun g => !(g.throughRecord idx).isEmpty then .wait
  else .go

/-- Write back and drop the lines of a record and its replicas; raise its generation (R182). -/
def State.installRecord (s : State) (crew idx : Nat) (r : BitVec 512) (valid : Bool) : State × BitVec 16 :=
  let s := s.evictIf fun k => k.crew == crew && k.tensor == idx
  let gen := recGen ((aget idx (s.crew crew).records).getD 0) + 1
  let body : BitVec 512 := (r &&& ~~~((BitVec.allOnes 512 <<< 448) ||| (1 <<< 63)))
  let v : BitVec 512 := if valid then 1 <<< 63 else 0
  let new := body ||| v ||| (gen.setWidth 512 <<< 448)
  (s.modCrew crew fun c => { c with records := aput idx new c.records }, gen)

/-- `rinval` (R182). -/
def execRinval (f : Fields) (s : State) : Out :=
  onPath s 0x80 0x0B f fun c =>
    if c.effect f then
      let idx := (c.uni 0 f.sa).toNat % 2 ^ 20
      match c.indexFault idx with
      | some code => c.faultCode code
      | none =>
        match c.recordReady idx with
        | .go =>
          let r := (aget idx (c.s.crew c.t.crew).records).getD 0
          c.retireOn (c.s.installRecord c.t.crew idx r false).1 f c.g
        | .stop => .next c.stopNow
        | _ => .next c.s
    else c.skipOver 0x80 0x0B f

/-- A precise fault at a read of `n` bytes of a space: a memory error names the first poisoned byte (R332). -/
def PathCtx.readFault (c : PathCtx) (code : BitVec 8) (sp a n : Nat) : Out :=
  let detail := ((upFrom a n).map fun x => c.s.errorDetail c.t code sp x).find? fun d => d != 0
  c.fault { code := code, addr := BitVec.ofNat 64 a, detail := detail.getD 0, pc := c.p.pc, rpc := c.p.pc }

/-- The 64 bytes of a record source, as a uniform load would read them, with their physical address, or the fault that the read
meets (R182). -/
def PathCtx.readSource (c : PathCtx) (a : Nat) : Except (BitVec 8) (BitVec 512 × Nat) :=
  let l := flatLane 64 0 a
  match l.st with
  | .faulted code => .error code
  | _ =>
    match c.s.translate c.t.core c.t.crew a with
    | .error code => .error code
    | .ok e =>
      match c.s.permitted c.t.crew .read e a with
      | .error code => .error code
      | .ok pa =>
        let k := c.s.accessKey c.t l.target pa e.perm false
        if (c.s.linePoison k a pa 64).isSome then .error 0x13
        else
          let acc : Access := { id := c.s.nextId, kind := .load, pc := c.p.pc, path := c.pi, bytes := 64, uniformEffect := true, lanes := [] }
          .ok (BitVec.ofNat 512 (leNat (c.s.loadBytes c.g.own acc l k pa)), pa)

/-- `rwr` (R182). -/
def execRwr (f : Fields) (s : State) : Out :=
  onPath s 0x80 0x0C f fun c =>
    if c.effect f then
      let idx := (c.uni 0 f.sa).toNat % 2 ^ 20
      let addr := c.uni 1 f.sb
      match c.indexFault idx with
      | some code => c.faultCode code
      | none =>
        match c.readSource addr.toNat with
        | .error code => c.readFault code 0 addr.toNat 64
        | .ok q =>
          let r := q.1 &&& ~~~(BitVec.allOnes 512 <<< 448)
          let s := c.traceMemory (c.s.touchPage c.t.crew q.2) (BitVec.allOnes 32) [(0, addr.toNat)] f.wcode
          if !recWellFormed r then c.retireOn s f (c.late f 0xFFFFFFFF)
          else match c.recordReady idx with
            | .go =>
              let q := s.installRecord c.t.crew idx r true
              c.retireOn q.1 f (c.late f (BitVec.ofNat 64 (idx * 4096 + q.2.toNat % 4096)))
            | .stop => .next c.stopNow
            | _ => .next c.s
    else c.skipOver 0x80 0x0C f

/-- `rrd` (R181). -/
def execRrd (f : Fields) (s : State) : Out :=
  onPath s 0x80 0x0D f fun c =>
    if c.effect f then
      let h : Word32 := (c.uni 0 f.sa).setWidth 32
      let k := (if f.useImm then f.imm.toNat else (c.uni 1 f.sb).toNat) % 8
      if h = 0 then c.retire f (c.late f 0)
      else match c.s.record c.t.crew h with
        | none => c.faultCode 0x11
        | some r => c.retire f (c.late f (r.extractLsb' (64 * k) 64))
    else c.skipOver 0x80 0x0D f

end Sys2Proof.Machine
end

