-- ==== Sys2Proof/Machine/Arrivals.lean ====
section
/-! DEFINITION. What arrives at a group after the issue of an instruction: results, translations, the draining of its store
buffer and its acknowledgements, page clears, and the wakes of waiting paths (spec/04_registers.md R72, R73, R77;
spec/08_memory.md R158, R170, R176; spec/09_ordering.md R190, R197, R205; spec/15_traps.md R333, R345).

Marked in the assumption log: 17 (DEDUCED), 18 (DEDUCED), 23 (DEDUCED), 27 (DEDUCED). -/

namespace Sys2Proof.Machine

/-! Results of loads and atomics (R72, R176) -/

/-- Bits of a destination register's value for a lane. -/
def Access.destBits (a : Access) : Nat :=
  match a.dest with
  | .uni _ => 64
  | _ => max 32 (8 * a.bytes)

/-- The value that a lane writes: narrow data is extended (R175). -/
def Access.value (a : Access) (data : Nat) : Nat :=
  let w := 8 * a.bytes
  if a.sext ∧ data / 2 ^ (w - 1) % 2 = 1 then data + 2 ^ a.destBits - 2 ^ w else data

/-- Write lanes of a vector register, leaving its pending mark. -/
def Group.writeLate (g : Group) (r : Nat) (m : Mask) (v : Lanes) : Group :=
  { g with vregs := amod r (fun x => { x with lanes := Lanes.merge m v x.lanes, uniform := false }) g.vregs }

/-- Write lanes of a run of vector registers. -/
def Group.writeLateAll (g : Group) (r : Nat) (m : Mask) (val : Nat → Nat) : Nat → Group
  | 0 => g
  | n + 1 =>
    (g.writeLate r m (Lanes.ofFn fun l => BitVec.ofNat 32 (val l))).writeLateAll (r + 1) m (fun l => val l / 2 ^ 32) n

/-- Whether an access has a destination register among vector numbers. -/
def Access.targetsVec (a : Access) (r : Nat) : Bool := match a.dest with | .vec x n => x ≤ r && r < x + n | _ => false

/-- Clear the pending mark of a vector register that no access is left to write; it is unmapped where that was put off
(R63). -/
def Group.clearPending (g : Group) (r : Nat) : Group :=
  if g.pend.any fun a => a.targetsVec r then g
  else match aget r g.vregs with
    | none => g
    | some v => if v.freeLater then { g with vregs := adel r g.vregs }
      else { g with vregs := aput r { v with pending := false } g.vregs }

/-- The ready lanes of an access are written; faulted ones stay pending (R176). -/
def Group.deliver (g : Group) (a : Access) : Group :=
  let ready := a.lanes.filter fun l => l.st == .ready
  let rest : Access := { a with lanes := a.lanes.filter fun l => l.st != .ready, flags := 0 }
  let m : Mask := maskOf fun i => ready.any fun l => l.lane == i
  let val (i : Nat) : Nat := ((ready.find? fun l => l.lane == i).map fun l => a.value l.data).getD 0
  let g : Group := { g with flags := g.flags ||| a.flags,
                            pend := if rest.lanes.isEmpty then g.pend.filter fun b => b.id != a.id
                                    else g.pend.map fun b => if b.id = a.id then rest else b }
  match a.dest with
  | .none => g
  | .uni r =>
    let w := BitVec.ofNat 64 (((ready.head?).map fun l => a.value l.data).getD 0)
    let g := if ready.isEmpty then g else g.writeUni r w
    if g.pend.any fun b => b.dest == .uni r then g else g.setUniPending r false
  | .vec r n => (upFrom r n).foldl Group.clearPending (g.writeLateAll r m val n)

/-- Deliver an access of a group; an ended group keeps nothing. -/
def State.deliverAccess (s : State) (tid gi aid : Nat) : State :=
  match s.group tid gi with
  | none => s
  | some g =>
    match g.pend.find? fun a => a.id == aid with
    | none => s
    | some a =>
      if g.ended then
        let left := a.lanes.filter fun l => l.st != .ready
        let rest (l : List Access) : List Access :=
          if left.isEmpty ∨ !a.deferred then l.filter fun b => b.id != aid
          else l.map fun b => if b.id = aid then { b with lanes := left } else b
        (s.modGroup tid gi fun g => { g with pend := rest g.pend }).progress tid
      else ((s.setGroup tid gi (g.deliver a)).endGrant tid gi g.vregs.length).restamp s tid gi

/-- LOAD_DATA_ARRIVE (R72, R176): the result of an access none of whose lanes waits any longer. -/
def execLoadDataArrive (ref : GroupRef) (access : Nat) (s : State) : Out :=
  match s.group ref.team ref.group with
  | none => .refused .notEnabled
  | some g =>
    match g.pend.find? fun a => a.id == access with
    | none => .refused .notEnabled
    | some a =>
      if (a.lanes.any LaneAcc.waiting) || !(a.lanes.any fun l => l.st == .ready) then .refused .notEnabled
      else .next (s.deliverAccess ref.team ref.group access)

/-! Translations (R345) -/

/-- Bring the waiting lanes of a list of accesses as far as they come. `own` are all accesses and buffered stores of the group. -/
def State.goOnAll (s : State) (tid gi : Nat) (t : Team) (own : List Access) : List Access → State × List Access
  | [] => (s, [])
  | a :: as =>
    let r := s.resolve tid gi t own a
    let q := r.1.goOnAll tid gi t (replaced own r.2) as
    (q.1, r.2 :: q.2)

/-- Perform one access of a group as far as it comes (R186): the turn that a load of a late issue waits for. -/
def State.performAccess (s : State) (tid gi aid : Nat) : State :=
  match s.team tid, s.group tid gi with
  | some t, some g =>
    match g.pend.find? fun a => a.id == aid with
    | none => s
    | some a =>
      let r := s.resolve tid gi t g.own a
      r.1.modGroup tid gi fun g => { g with pend := replaced g.pend r.2 }
  | _, _ => s

/-- Bring the waiting work of a group as far as it comes. -/
def State.goOn (s : State) (tid gi : Nat) : State :=
  match s.team tid, s.group tid gi with
  | some t, some g =>
    let r1 := s.goOnAll tid gi t g.own g.sbuf
    let r2 := r1.1.goOnAll tid gi t (r1.2 ++ g.pend) g.pend
    r2.1.modGroup tid gi fun g => { g with sbuf := r1.2, pend := r2.2 }
  | _, _ => s

/-- The groups that are on their cores, by team and index, of the teams that a condition picks. -/
def State.groupsWhere (s : State) (c : Team → Bool) : List (Nat × Nat) :=
  s.teams.flatMap fun e =>
    if (e.2.status = .resident ∨ e.2.status = .draining) ∧ c e.2 then (List.range e.2.groups.length).map fun i => (e.1, i) else []

/-- Go on with every group of the teams that a condition picks. -/
def State.goOnWhere (s : State) (c : Team → Bool) : State :=
  (s.groupsWhere c).foldl (fun s e => s.goOn e.1 e.2) s

/-- Change the lanes of every access of the groups of the teams that a condition picks. -/
def State.mapLanes (s : State) (c : Team → Bool) (f : LaneAcc → LaneAcc) : State :=
  let acc (a : Access) : Access := { a with lanes := a.lanes.map f }
  (s.groupsWhere c).foldl (fun s e => s.modGroup e.1 e.2 fun g => { g with sbuf := g.sbuf.map acc, pend := g.pend.map acc }) s

/-- A lane that waits for the translation of a page of 64 KiB. -/
def LaneAcc.onPage (l : LaneAcc) (page : Nat) : Bool :=
  l.st == .walk && l.addr / 65536 == page && (match l.target with | .line _ _ _ _ _ _ _ => true | _ => false)

/-- The lanes of accesses that wait for a page's walk take its fault, but for store lanes behind an entry that has faulted
(R197). -/
def failWalks (page : Nat) (code : BitVec 8) (older : List Access) : List Access → List Access
  | [] => []
  | a :: as =>
    let fail (l : LaneAcc) : LaneAcc :=
      if l.onPage page && !l.waitsBehind older a then { l with st := .faulted code } else l
    let b : Access := { a with lanes := a.lanes.map fail }
    b :: failWalks page code (older ++ [b]) as

/-- TRANSLATION_WALK_COMPLETE (R345): the entry fills the caches, or the lanes that wait for it take the walk's fault; a walk
that `tlbinv` has overtaken is discarded, and its lanes walk again (R353). The walker is free for a page for which lanes of the die
still wait, and the tables that it has read start the clears that they wait for (R158). -/
def execTranslationWalkComplete (walk : Nat) (s : State) : Out :=
  match aget walk s.walks with
  | none => .refused .notEnabled
  | some w =>
    let s : State := { s with walks := adel walk s.walks }
    let va := w.page * 65536
    let mine (t : Team) : Bool := t.crew == w.crew && dieOf t.core == w.die
    let here (t : Team) : Bool := dieOf t.core == w.die
    if w.cancelled then .next (s.goOnWhere here)
    else
      let touched := (s.walkPages w.crew va 4 (s.rootTable w.crew)).foldl (fun u p => u.touchPage w.crew (p * 65536)) s
      match s.walk w.crew va with
      | .ok r => .next (((touched.fillTlb w.core (tlbOf w.crew va r)).goOnWhere here).trimTlb w.core w.crew)
      | .error code =>
        .next (((touched.groupsWhere mine).foldl (fun s e => s.modGroup e.1 e.2 fun g =>
          { g with sbuf := failWalks w.page code [] g.sbuf, pend := failWalks w.page code [] g.pend }) touched).goOnWhere here)

/-! The store buffer (R190, R197) -/

/-- The lanes of a buffered store that can be sent, and those that are held behind a window (R313): a lane waits for the older
accesses of its lane at its bytes (R185, R197), for a lower lane of its store at the same bytes (R175), and for an older command that
has still to read them (R212). -/
def State.sendableLanes (s : State) (ref : GroupRef) (g : Group) (a : Access) : List LaneAcc × List LaneAcc :=
  let older := g.sbuf.filter fun b => b.id < a.id
  let may (l : LaneAcc) : Bool :=
    l.st == .ready && !behindOlder older a.bytes l && !l.behindLoad g.own a && !s.readsLater ref a l
  let blocked (l : LaneAcc) : Bool := a.lanes.any fun m => m.lane < l.lane && !may m && l.target.same m.target &&
    l.addr < m.addr + a.bytes && m.addr < l.addr + a.bytes
  let free := a.lanes.filter fun l => may l && !blocked l
  let held (l : LaneAcc) : Bool := match l.target with
    | .line _ _ _ _ _ _ _ => s.windowHeld l.pa
    | _ => false
  (free.filter fun l => !held l, free.filter held)

/-- Hold a store lane behind a window: a request stands for it until it is sent or fails. -/
def State.holdStore (s : State) (t : Team) (ref : GroupRef) (a : Access) (l : LaneAcc) : State :=
  if s.requests.any fun r => r.2.group == some ref && r.2.access == some a.id && r.2.lane == l.lane then s
  else
    let r : RigRequest := { crew := t.crew, group := some ref, access := some a.id, lane := l.lane, op := .write, pa := l.pa,
                            len := 0, tier := 1, arrived := s.clock }
    s.newRequest r

/-- Remove the lanes of a buffered store that have been sent. -/
def Group.drained (g : Group) (aid : Nat) (gone : List LaneAcc) : Group :=
  { g with sbuf := (g.sbuf.map fun a => if a.id = aid then { a with lanes := a.lanes.filter fun l => !gone.contains l } else a).filter
             fun a => !a.lanes.isEmpty }

/-- Send lanes of a buffered store: they are performed at home, and an acknowledgement is owed at each scope. -/
def State.sendStore (s : State) (t : Team) (ref : GroupRef) (a : Access) (ls : List LaneAcc) : State :=
  let s := (s.performAll t a ls).ownLanes t ref a ls
  let s1 : State := { s with requests := s.requests.filter fun r =>
    !(r.2.group == some ref && r.2.access == some a.id && r.2.len == 0 && ls.any fun l => l.lane == r.2.lane) }
  s1.modGroup ref.team ref.group fun g => { g.drained a.id ls with unack := g.unack.map fun n => n + 1 }

/-- STORE_DRAIN (R197): the lanes of an entry that can be sent are performed; those toward a held window wait. -/
def execStoreDrain (ref : GroupRef) (entry : Nat) (s : State) : Out :=
  match s.team ref.team, s.group ref.team ref.group with
  | some t, some g =>
    match g.sbuf.find? fun a => a.id == entry with
    | none => .refused .notEnabled
    | some a =>
      let early : Bool := match a.rel with
        | some sc => (g.sbuf.any fun b => b.id < a.id) || !g.acked sc
        | none => false
      let q := s.sendableLanes ref g a
      let s1 := q.2.foldl (fun s l => s.holdStore t ref a l) s
      if early || (t.status != .resident && t.status != .draining) || (q.1.isEmpty && s1 == s) then .refused .notEnabled
      else if q.1.isEmpty then .next s1
      else .next ((s1.sendStore t ref a q.1).progress ref.team)
  | _, _ => .refused .notEnabled

/-- The index of a scope among the counters of unacknowledged stores (R197). -/
def scopeCounter : Scope → Option Nat
  | .clu => some 0
  | .die => some 1
  | .pkg => some 2
  | .sys => some 3
  | _ => none

/-- STORE_ACK (R197): a store is performed at a scope, after the narrower ones; a saved group is credited as well (R343). -/
def execStoreAck (ref : GroupRef) (scope : Scope) (s : State) : Out :=
  match s.group ref.team ref.group, scopeCounter scope with
  | some g, some k =>
    let n (i : Nat) : Nat := g.unack.toArray.getD i 0
    if n k = 0 ∨ (k ≠ 0 ∧ n k ≤ n (k - 1)) then .refused .notEnabled
    else .next ((s.modGroup ref.team ref.group fun g =>
      { g with unack := g.unack.setIfInBounds k (g.unack.toArray.getD k 0 - 1) }).progress ref.team)
  | _, _ => .refused .notEnabled

/-! Pages and lines (R158, R170) -/

/-- Zero a page whose clear completes; what waited for it goes on. -/
def State.clearPage (s : State) (crew page : Nat) : State :=
  let s1 := s.modCrew crew fun c => { c with unscrubbed := c.unscrubbed.filter (· != page), clearing := c.clearing.filter (· != page) }
  let s2 : State := { s1 with
    hbm := s1.hbm.clear (page * 65536) 65536
    poison := s1.poison.filter fun u => match u with | .hbm k => k / 2048 != page | _ => true }
  let s3 := s2.mapLanes (fun t => t.crew == crew) fun l => if l.st = .scrubbing ∧ l.pa / 65536 = page then { l with st := .walk } else l
  s3.goOnWhere fun t => t.crew == crew

/-- PAGE_CLEAR_COMPLETE (R158). -/
def execPageClearComplete (crew page : Nat) (s : State) : Out :=
  if (s.crew crew).clearing.contains page then .next (s.clearPage crew page) else .refused .notEnabled

/-- LINE_REPLICATE (R170): 32 reads of a replicable line within 1,024 cycles from two dies push a copy to each of them. -/
def execLineReplicate (line : LineKey) (s : State) : Out :=
  let key : LineKey := { line with place := .home }
  let reads := ((aget key s.replReads).getD []).filter fun e => s.clock < e.1 + 1024
  let dies := (reads.map Prod.snd).eraseDups
  let l := (aget key s.lines).getD {}
  let copy : Line := { l with cells := l.cells.map fun c => (c.1, { c.2 with dirty := false }) }
  let homeDie : Option Nat := (l.cells.head?).map fun c => s.homeDie c.2.pa
  if reads.length < 32 ∨ dies.length < 2 then .refused .notEnabled
  else if l.cells.isEmpty then .refused .notEnabled
  else .next { s with
    lines := (dies.filter fun d => some d != homeDie).foldl (fun ls d => aput { key with place := .replica d } copy ls) s.lines
    replReads := adel key s.replReads }

/-! Waking and releasing -/

/-- A parked path that may go on is ready, or held where a stop is due for it (R386). -/
def State.wake (s : State) (r : PathRef) : State :=
  match s.pathCtx r with
  | none => s
  | some c =>
    if c.p.st ≠ .parked then s
    else if c.p.holdNext then
      (s.stopPacket c.t c.g c.pi c.p 1).modGroup r.team r.group fun g =>
        g.setPath r.path (some { c.p with st := .stopped, holdNext := false })
    else s.modGroup r.team r.group fun g => g.setPath r.path (some { c.p with st := .ready, since := s.clock })

/-- The word at which a path stands, where its page can be read. -/
def PathCtx.atWord (c : PathCtx) : Option (BitVec 96) :=
  match c.s.codeLine c.t c.p.pc, slotOf c.p.pc with
  | .ok line, some k => some (lineSlot line k)
  | _, _ => none

/-- WAITVAL_RECHECK (R205): a path parked on `waitval` reads its location again. -/
def execWaitvalRecheck (r : PathRef) (s : State) : Out :=
  match s.pathCtx r with
  | none => .refused .notEnabled
  | some c =>
    let waits : Bool := match c.atWord with
      | some w => opcOf w == 0x91 && fnOf w == 0x06
      | none => false
    if c.p.st = .parked ∧ waits then .next (s.wake r) else .refused .notEnabled

/-- A held group whose fixed-latency results are written: its paths may issue from now on (R73, R77). -/
def Group.released (g : Group) (clock : Nat) : Group :=
  { g with held := false, inflight := [], paths := g.paths.map fun o => o.map fun p => { p with since := clock } }

/-- SWITCH_MARKER_RELEASE (R73): the outstanding fixed-latency results of a held group are written. -/
def execSwitchMarkerRelease (ref : GroupRef) (s : State) : Out :=
  match s.group ref.team ref.group with
  | some g =>
    if g.held then .next (s.modGroup ref.team ref.group fun g => g.released s.clock) else .refused .notEnabled
  | none => .refused .notEnabled

/-- SCHEDULER_AGE_PRIORITY (R77): the path that has been ready longest, for at least 256 cycles, issues next. -/
def execSchedulerAgePriority (core sched : Nat) (s : State) : Out :=
  match bestOf (fun a b => a.2 < b.2) ((s.readyPaths core sched).filter fun e => e.2 + 256 ≤ s.clock) with
  | some e => .next { s with turns := .issuePath e.1 :: s.turns }
  | none => .refused .notEnabled

/-- HELD_RECORD_WRITE (R333): the oldest record held for a full queue is written once there is room. -/
def execHeldRecordWrite (crew : Nat) (s : State) : Out :=
  let c := s.crew crew
  match c.heldRecs with
  | h :: hs => if c.queueRoom then .next ((s.setCrew crew { c with heldRecs := hs }).writeRecord crew h.record h.source)
    else .refused .notEnabled
  | [] => .refused .notEnabled

end Sys2Proof.Machine
end

