-- ==== Sys2Proof/Machine/Compare.lean ====
section
/-! DEFINITION. Compare, select and address arithmetic: OPC 0x14 and 0x15 (spec/05_integer.md R101 to R103). -/

namespace Sys2Proof.Machine

/-- An integer comparison of a group or a seat (R102). -/
def compareForm (s : State) (fn : Nat) (f : Fields) : Out :=
  let t := f.ity
  onBoth s 0x14 fn f
    (fun c => c.lanewisePred 0x14 fn f (intShape f) fun a b _ => (cmpInt fn (readTy t a) (readTy t b), 0))
    (fun c =>
      if c.guard f then
        let o := c.operands f (immNat t f.imm)
        c.retire (c.q.setP f.d.toNat (cmpInt fn (readTy t o.1) (readTy t o.2.1)))
      else c.retire c.q)

/-- `cmp.eq` (R102). -/
def execCmpEq (f : Fields) (s : State) : Out := compareForm s 0x00 f

/-- `cmp.ne` (R102). -/
def execCmpNe (f : Fields) (s : State) : Out := compareForm s 0x01 f

/-- `cmp.lt` (R102). -/
def execCmpLt (f : Fields) (s : State) : Out := compareForm s 0x02 f

/-- `cmp.le` (R102). -/
def execCmpLe (f : Fields) (s : State) : Out := compareForm s 0x03 f

/-- `cmp.gt` (R102). -/
def execCmpGt (f : Fields) (s : State) : Out := compareForm s 0x04 f

/-- `cmp.ge` (R102). -/
def execCmpGe (f : Fields) (s : State) : Out := compareForm s 0x05 f

/-- `sel` (R102): a uniform destination reads bit 0 of the predicate. -/
def execSel (f : Fields) (s : State) : Out :=
  let w := f.ity.width
  onBoth s 0x14 0x06 f
    (fun c =>
      let p := c.pred 2 f.sc.toNat
      c.lanewise 0x14 0x06 f (intShape f) ((intShape f).sources f true true false) fun l a b _ =>
        ((if p.getLsbD l then a % 2 ^ w else b % 2 ^ w : Nat), 0))
    (fun c => c.compute f (immNat f.ity f.imm) fun _ a b _ =>
      ((if c.pred f.sc.toNat then a % 2 ^ w else b % 2 ^ w : Nat), 0))

/-- `lea` (R103). -/
def execLea (f : Fields) (s : State) : Out :=
  computeForm s 0x15 0x00 f {} true true false fun _ a b _ =>
    (((a % 2 ^ 32 + b % 2 ^ 32 * 2 ^ f.immBits 0 5) % 2 ^ 32 : Nat), 0)

/-- `lea64` (R103). -/
def execLea64 (f : Fields) (s : State) : Out :=
  computeForm s 0x15 0x01 f { d := 2, a := 2 } true true false fun _ a b _ =>
    (((a % 2 ^ 64 : Nat) + readTy f.ity b * 2 ^ f.immBits 0 6) % 2 ^ 64, 0)

end Sys2Proof.Machine
end

