-- ==== Sys2Proof/Machine/Ordering.lean ====
section
/-! DEFINITION. The ordering and atomic instructions of OPC 0x90 (spec/09_ordering.md R192, R198 to R200).

Marked in the assumption log: 21 (DEDUCED). -/

namespace Sys2Proof.Machine

/-- Whether a lane meets a buffered store of the group, which the access must follow (R185). -/
def Group.behindStore (g : Group) (n : Nat) (l : LaneAcc) : Bool :=
  !l.bad && buffered g.sbuf l.target l.addr n

/-- Whether that store lane has faulted, or waits behind a lane that has. -/
def Group.behindFault (g : Group) (n : Nat) (l : LaneAcc) : Bool :=
  !l.bad && buffered (g.sbuf.map fun a => { a with lanes := a.lanes.filter fun k => k.bad || k.waitsBehind g.sbuf a }) l.target l.addr n

/-- `fence` (R192, R199): a path issues it when the group's accesses are so ordered; a seat waits until its operations have
finished their scratch reads and writes. -/
def execFence (f : Fields) (s : State) : Out :=
  onBoth s 0x90 0x00 f (fun c => c.skipOver 0x90 0x00 f) fun c =>
    let waits (o : MatOp) : Bool := match o.kind with
      | .mma _ _ _ _ _ _ _ _ | .afin _ _ => true
      | _ => false
    if c.guard f && c.q.ops.any waits then .next c.s else c.retire c.q

/-- Whether the form acts once for the group (R25, R200). -/
def once (f : Fields) : Bool := isUni f.d && !f.dead && isUni f.sa

/-- The lanes that the form acts on: lane 0 stands for the group when it acts once. -/
def PathCtx.actingMask (c : PathCtx) (f : Fields) : Mask :=
  if once f then (if c.effect f then 1 else 0) else c.active f

/-- The destination of an ordering form. -/
def orderDest (f : Fields) : Dest :=
  if f.dead then .none else if isUni f.d then .uni (f.d.toNat - 0xC0) else .vec f.d.toNat f.oty.regs

/-- `ldacq` (R200). -/
def execLdacq (f : Fields) (s : State) : Out :=
  onPath s 0x90 0x01 f fun c =>
    let n := f.oty.bytes
    c.issueAccess f (lrRegs 0x90 0x01 f)
      { id := 0, kind := .load, pc := c.p.pc, path := c.pi, bytes := n, dest := orderDest f, dead := f.dead, acq := true,
        uniformEffect := once f, lanes := c.flatLanes f n (c.actingMask f) (offset f) } []

/-- `strel` (R200). -/
def execStrel (f : Fields) (s : State) : Out :=
  onPath s 0x90 0x02 f fun c =>
    let n := f.oty.bytes
    let data := c.laneOp 2 f.sc f.oty.regs
    c.issueAccess f (lrRegs 0x90 0x02 f)
      { id := 0, kind := .store, pc := c.p.pc, path := c.pi, bytes := n, rel := Scope.ofCode f.scopeCode,
        lanes := (c.flatLanes f n (c.active f) (offset f)).map fun l => { l with data := data l.lane % 2 ^ (8 * n) } } []

/-- The immediate of an ordering form (R30). -/
def orderImm (t : OTy) (imm : Word32) : Nat := if t = .s64 then (imm.signExtend 64).toNat else imm.toNat

/-- An atomic form (R191, R200): its lanes in ascending order, each at its home, after the group's own stores there. -/
def PathCtx.atomic (c : PathCtx) (fn : Nat) (f : Fields) : Out :=
  let t := f.oty
  let n := t.bytes
  let b := if f.useImm then fun _ => orderImm t f.imm else c.laneOp 1 f.sb t.regs
  let d := c.laneOp 2 f.sc t.regs
  let lanes := (c.flatLanes f n (c.actingMask f) 0).map fun l =>
    { l with data := b l.lane % 2 ^ (8 * n), data2 := d l.lane % 2 ^ (8 * n) }
  if lanes.any (c.g.behindFault n) then .next c.stopNow
  else if lanes.any (c.g.behindStore n) then .next c.s
  else
    c.issueAccess f (lrRegs 0x90 fn f)
      { id := 0, kind := .atomic fn (f.md.extractLsb' 5 3).toNat, pc := c.p.pc, path := c.pi, bytes := n,
        sext := t == .s32, dest := orderDest f, dead := f.dead, acq := f.order % 2 == 1, uniformEffect := once f,
        lanes := lanes } []

/-- `atom.add` (R200). -/
def execAtomAdd (f : Fields) (s : State) : Out := onPath s 0x90 0x03 f fun c => c.atomic 0x03 f

/-- `atom.min`. -/
def execAtomMin (f : Fields) (s : State) : Out := onPath s 0x90 0x04 f fun c => c.atomic 0x04 f

/-- `atom.max`. -/
def execAtomMax (f : Fields) (s : State) : Out := onPath s 0x90 0x05 f fun c => c.atomic 0x05 f

/-- `atom.and`. -/
def execAtomAnd (f : Fields) (s : State) : Out := onPath s 0x90 0x06 f fun c => c.atomic 0x06 f

/-- `atom.or`. -/
def execAtomOr (f : Fields) (s : State) : Out := onPath s 0x90 0x07 f fun c => c.atomic 0x07 f

/-- `atom.xor`. -/
def execAtomXor (f : Fields) (s : State) : Out := onPath s 0x90 0x08 f fun c => c.atomic 0x08 f

/-- `atom.exch`. -/
def execAtomExch (f : Fields) (s : State) : Out := onPath s 0x90 0x09 f fun c => c.atomic 0x09 f

/-- `cas` (R200): SB is the value compared, SC the new value. -/
def execCas (f : Fields) (s : State) : Out := onPath s 0x90 0x0A f fun c => c.atomic 0x0A f

end Sys2Proof.Machine
end

