-- ==== Sys2Proof/Machine/Sync.lean ====
section
/-! DEFINITION. Barriers, waits, channels and signals: OPC 0x91 (spec/09_ordering.md R201 to R211).

Marked in the assumption log: 9 (DEDUCED), 11 (DESIGN CHOICE), 20 (DEDUCED), 21 (DEDUCED), 22 (DEDUCED), 42 (DEDUCED),
45 (DEDUCED). -/

namespace Sys2Proof.Machine

/-! Team barriers (R202) -/

/-- Whether a group belongs to a phase mask. -/
def Team.masked (t : Team) (g : Group) (m : BitVec 4) : Bool :=
  g.role < t.floors.length && (m == 0 || m.getLsbD g.role)

/-- Arrive at a barrier: a group outside the phase mask adds nothing to the arrived set. -/
def Team.arrive (t : Team) (gi : Nat) (b : Nat) (m : BitVec 4) : Team :=
  let bar := t.barriers.toArray.getD b {}
  let before : Bool := match t.groups[gi]? with
    | some g => g.owed.toArray.getD b false && g.lastPhase.toArray.getD b 0 == bar.phase
    | none => false
  if bar.arrived.getLsbD gi || before then t
  else
    let mask := if bar.arrived = 0 then m else bar.mask
    let isIn : Bool := match t.groups[gi]? with
      | some g => t.masked g mask
      | none => false
    let bar1 : Barrier := { bar with mask := mask, arrived := if isIn then bar.arrived ||| BitVec.ofNat 32 (2 ^ gi) else bar.arrived }
    { t with barriers := t.barriers.setIfInBounds b bar1,
             groups := t.groups.modify gi fun g =>
               { g with lastPhase := g.lastPhase.setIfInBounds b bar.phase, owed := g.owed.setIfInBounds b true } }

/-- The barrier that a form names. -/
def barOf (f : Fields) : Nat := f.immBits 0 4

/-- The role mask that a form names. -/
def roleMask (f : Fields) : BitVec 4 := f.imm.extractLsb' 4 4

/-- The phase of a barrier. -/
def Team.phase (t : Team) (b : Nat) : Word32 := (t.barriers.toArray.getD b {}).phase

/-- The phase that a group's wait targets. -/
def Group.target (g : Group) (t : Team) (b : Nat) : Word32 :=
  if g.owed.toArray.getD b false then g.lastPhase.toArray.getD b 0 else t.phase b

/-- A wait returns: the arrival is waited on. -/
def Group.waited (g : Group) (b : Nat) : Group := { g with owed := g.owed.setIfInBounds b false }

/-- `bar.arrive` (R202). -/
def execBarArrive (f : Fields) (s : State) : Out :=
  onPath s 0x91 0x00 f fun c =>
    if c.effect f then
      let t := c.t.arrive c.gi (barOf f) (roleMask f)
      let g := ((t.groups[c.gi]?).getD c.g).setPath c.pi (some (c.p.advanced (nextSlot c.p.pc) c.s.clock))
      let g1 : Group := { g with held := g.held || (f.sw && !g.inflight.isEmpty) }
      .next (((({ c.s with fresh := c.s.fresh + 2 } : State).setTeam c.tid t).setGroup c.tid c.gi g1).fuse c.tid c.gi c.pi
        |>.completePhases c.tid)
    else c.skipOver 0x91 0x00 f

/-- Wait until a barrier has passed a phase. -/
def PathCtx.waitPhase (c : PathCtx) (f : Fields) (target : Word32) : Out :=
  if c.t.phase (barOf f) ≠ target then c.retire f (c.g.waited (barOf f))
  else { c with p := { c.p with goal := target } }.park c.g true

/-- `bar.wait` (R202): the target stands from the first test of the condition. -/
def execBarWait (f : Fields) (s : State) : Out :=
  onPath s 0x91 0x01 f fun c =>
    if c.effect f then c.waitPhase f (if c.p.begun then c.p.goal else c.g.target c.t (barOf f))
    else c.skipOver 0x91 0x01 f

/-- `bar.sync` (R202): the arrival once, then the wait. -/
def execBarSync (f : Fields) (s : State) : Out :=
  onPath s 0x91 0x02 f fun c =>
    if c.effect f then
      if c.p.begun then c.waitPhase f c.p.goal
      else
        let t := c.t.arrive c.gi (barOf f) (roleMask f)
        let target := ((t.groups[c.gi]?).getD c.g).target t (barOf f)
        let p : Path := { c.p with st := if c.p.st = .handler then .handler else .parked, begun := true, goal := target }
        let s := ((c.s.setTeam c.tid t).modGroup c.tid c.gi fun g => g.setPath c.pi (some p)).completePhases c.tid
        match s.pathCtx ⟨c.tid, c.gi, c.pi⟩ with
        | some d => if d.t.phase (barOf f) ≠ target ∧ d.p.st ≠ .stopped ∧ !d.p.holdNext then d.waitPhase f target else .next s
        | none => .next s
    else c.skipOver 0x91 0x02 f

/-! Scratch barriers and counters (R203, R204) -/

/-- The value of SB or the immediate. -/
def PathCtx.sbValue (c : PathCtx) (f : Fields) : Word64 :=
  if f.useImm then f.imm.setWidth 64 else c.uni 1 f.sb

/-- `sbar.init` (R203). -/
def execSbarInit (f : Fields) (s : State) : Out :=
  onPath s 0x91 0x03 f fun c =>
    if c.effect f then
      let e : ScratchBarrier := { expected := (c.sbValue f).setWidth 32 }
      c.retireOn (c.s.modTeam c.tid fun t => { t with sbars := t.sbars.setIfInBounds f.sc.toNat e }) f c.g
    else c.skipOver 0x91 0x03 f

/-- `sbar.wait` (R203). -/
def execSbarWait (f : Fields) (s : State) : Out :=
  onPath s 0x91 0x04 f fun c =>
    if c.effect f then
      let b := c.t.sbars.toArray.getD f.sc.toNat {}
      if b.expected.toNat ≤ b.credited.toNat then c.retire f c.g else c.park c.g
    else c.skipOver 0x91 0x04 f

/-- The commands of a class that a group has outstanding, in issue order. -/
def State.commandsOf (s : State) (tid gi cls : Nat) : List (Nat × Command) :=
  s.cmds.filter fun e => e.2.team == tid && e.2.group == gi && e.2.cls == cls

/-- Whether a command stands faulted (R218). -/
def Command.isFaulted (c : Command) : Bool := match c.st with | .faulted _ => true | _ => false

/-- `wcnt` (R204): a faulted command among those that must retire stops the group (R218). -/
def execWcnt (f : Fields) (s : State) : Out :=
  onPath s 0x91 0x05 f fun c =>
    if c.effect f then
      let cls := f.sc.toNat
      let n := min (c.sbValue f).toNat 255
      let now := c.g.counters.toArray.getD cls 0
      if now ≤ n then c.retire f c.g
      else if ((c.s.commandsOf c.tid c.gi cls).take (now - n)).any fun e => e.2.isFaulted then
        .next c.stopNow
      else c.park c.g
    else c.skipOver 0x91 0x05 f

/-! `waitval` (R205) -/

/-- The condition of `waitval` under a type. -/
def waitCond (cc : Nat) (t : OTy) (x v : Nat) : Bool :=
  let w := 8 * t.bytes
  let signed : Bool := t == .s32 || t == .s64
  let a := readInt w signed x
  let b := readInt w signed v
  match cc with
  | 0 => a == b
  | 1 => a != b
  | 2 => a < b
  | _ => b ≤ a

/-- An indivisible read of a location at home, never of a software-managed local copy; the value of a peer's memory is
none of the model's (assumption 11). In a determinate grid a software-managed page takes 0x07 (R276). -/
def PathCtx.homeRead (c : PathCtx) (n a : Nat) : Except (BitVec 8) Nat :=
  match (flatLane n 0 a).st with
  | .faulted code => .error code
  | _ =>
    match c.s.translate c.t.core c.t.crew a with
    | .error code => .error code
    | .ok e =>
      match c.s.permitted c.t.crew .read e a with
      | .error code => .error code
      | .ok pa =>
        let target := flatTarget a false
        let k := keyOf c.t.crew (c.s.viewOf c.t.view target pa e.perm) target .home
        if c.determinate && e.perm.sm then .error 0x07
        else if (c.s.linePoison k a pa n).isSome then .error 0x13
        else
          let held : Bool := (List.range n).all fun i => ((aget k c.s.lines).bind fun l => aget (a + i) l.cells).isSome
          match c.s.paClass pa with
          | .window _ => if held then .ok (leNat (c.s.lineBytes k a pa n)) else .ok ((Config.freeWord c.s.fresh).toNat % 2 ^ (8 * n))
          | _ => .ok (leNat (c.s.lineBytes k a pa n))

/-- `waitval` (R205), after the group's own stores to the location; it starts the clear of an unscrubbed page (R158). -/
def execWaitval (f : Fields) (s : State) : Out :=
  onPath s 0x91 0x06 f fun c =>
    if c.effect f then
      let t := f.oty
      let a := (c.uni 0 f.sa).toNat
      if c.g.behindFault t.bytes (flatLane t.bytes 0 a) then .next c.stopNow
      else if c.g.behindStore t.bytes (flatLane t.bytes 0 a) then .next c.s
      else match c.homeRead t.bytes a with
      | .error code => c.readFault code 0 a t.bytes
      | .ok x =>
        let c : PathCtx := { c with s := c.s.touchSource c.t 0 a 1 }
        let v := if f.useImm then orderImm t f.imm else (c.uni 1 f.sb).toNat
        if waitCond f.sc.toNat t x v then
          c.retire f (c.late f (BitVec.ofInt 64 (readInt (8 * t.bytes) (t == OTy.s32) x)))
        else { c with s := { c.s with fresh := c.s.fresh + 1 } }.park c.g
    else c.skipOver 0x91 0x06 f

/-! Role channels (R208 to R210) -/

/-- A channel of a team. -/
def Team.channel (t : Team) (ch : Nat) : Channel := t.channels.toArray.getD ch {}

/-- Set a channel. -/
def Team.setChannel (t : Team) (ch : Nat) (c : Channel) : Team := { t with channels := t.channels.setIfInBounds ch c }

/-- Whether a channel is closed for receiving: every group of its role has closed it or has ended. -/
def Team.closed (t : Team) (ch : Nat) : Bool :=
  (List.range t.groups.length).all fun i => match t.groups[i]? with
    | some g => g.role != ch || g.ended || (t.channel ch).closed.getLsbD i
    | none => true

/-- `chsend` (R209). -/
def execChsend (f : Fields) (s : State) : Out :=
  onPath s 0x91 0x07 f fun c =>
    if c.effect f then
      let ch := f.sc.toNat
      let q := c.t.channel ch
      let m := c.active f
      let others : Bool := c.t.groups.any fun g => g.role != ch && !g.ended
      if c.g.role ≠ ch ∨ q.closed.getLsbD c.gi then c.faultLanes m 0x04
      else if 16 ≤ q.entries.length then
        if others then c.park c.g else c.retire f (c.g.freeAll (lrRegs 0x91 0x07 f))
      else
        let v := c.laneOp 0 f.sa 1
        let e : ChannelEntry :=
          { words := Lanes.ofFn fun l => if m.getLsbD l then BitVec.ofNat 32 (v l) else 0, mask := m, sender := c.gi }
        let s := c.s.modTeam c.tid fun t => t.setChannel ch { q with entries := q.entries ++ [e] }
        c.retireOn s f (c.g.freeAll (lrRegs 0x91 0x07 f))
    else c.skipOver 0x91 0x07 f

/-- `chrecv` (R210). -/
def execChrecv (f : Fields) (s : State) : Out :=
  onPath s 0x91 0x08 f fun c =>
    if c.effect f then
      let ch := f.sc.toNat
      let q := c.t.channel ch
      let put (words : Lanes) (w : Word64) : Group :=
        let g := if f.dead then c.g else c.g.writeReg f.d.toNat (c.active f) words false
        g.writeUni (f.sa.toNat - 0xC0) w
      match q.entries with
      | e :: rest =>
        let s := c.s.modTeam c.tid fun t => t.setChannel ch { q with entries := rest }
        c.retireOn s f (put e.words (e.mask ++ (0 : BitVec 32)))
      | [] =>
        if c.t.closed ch then c.retire f (put (Lanes.all 0) (if q.error then 3 else 1)) else c.park c.g
    else c.skipOver 0x91 0x08 f

/-- `chclose` (R210). -/
def execChclose (f : Fields) (s : State) : Out :=
  onPath s 0x91 0x09 f fun c =>
    if c.effect f then
      let ch := f.sc.toNat
      if c.g.role ≠ ch then c.faultCode 0x04
      else
        let q := c.t.channel ch
        c.retireOn (c.s.modTeam c.tid fun t =>
          t.setChannel ch { q with closed := q.closed ||| BitVec.ofNat 32 (2 ^ c.gi) }) f c.g
    else c.skipOver 0x91 0x09 f

/-! The seat's batches and signals (R206, R207, R257) -/

/-- Whether `x` has reached `n` among counts that wrap. -/
def reached (x n : Word32) : Bool := (x - n).toNat < 2 ^ 31

/-- The seat that a `bwait` names, or none. -/
def PathCtx.seatNamed (c : PathCtx) (f : Fields) : Option Seat :=
  match c.t.seat with
  | some q => if f.sc = 8 ∨ f.sc.toNat = q.num then some q else none
  | none => none

/-- `bwait` (R206, R234, R257). -/
def execBwait (f : Fields) (s : State) : Out :=
  onPath s 0x91 0x0A f fun c =>
    if c.effect f then
      let n : Word32 := (c.sbValue f).setWidth 32
      match (if c.p.begun then c.t.seat else c.seatNamed f) with
      | none => c.faultCode 0x04
      | some q =>
        if reached q.k n then c.retire f (c.g.raise ((aget n q.batchFlags).getD 0))
        else if q.st = .exited ∧ !reached q.n n then c.faultCode 0x04
        else c.park c.g true
    else c.skipOver 0x91 0x0A f

/-- `cxsig` (R207): one event, after the group's earlier accesses. -/
def execCxsig (f : Fields) (s : State) : Out :=
  onPath s 0x91 0x0B f fun c =>
    if c.effect f then
      let a := c.uni 0 f.sa
      let l := c.s.scratchLane c.t 4 0 a.toNat
      match l.st, l.target with
      | .faulted code, _ => c.faultCode code a
      | _, .scratch cell =>
        if c.s.sramPoisoned l.target 4 then c.readFault 0x13 1 a.toNat 4
        else
          let old := BitVec.ofNat 32 (leNat (c.s.scratch.readN cell 4))
          let new := old + (c.sbValue f).setWidth 32
          c.retireOn { c.s with scratch := c.s.scratch.writeN cell (leBytes 4 new.toNat) } f c.g
      | _, _ => c.faultCode 0x06 a
    else c.skipOver 0x91 0x0B f

end Sys2Proof.Machine
end

