-- ==== Sys2Proof/Machine/Copy.lean ====
section
/-! DEFINITION. Engine commands: OPC 0xA0, and the events by which engines perform and retire them (spec/10_copy.md R212 to
R227; spec/09_ordering.md R193).

Marked in the assumption log: 11 (DESIGN CHOICE), 12 (DEDUCED), 19 (DEDUCED), 20 (DEDUCED), 47 (DEDUCED). -/

namespace Sys2Proof.Machine

/-! Bytes of the three spaces: 0 global, 1 scratch, 2 vault (R214) -/

/-- A byte of a space as a command of a team reads it, the group's buffered stores first (R193); without `carry` a poisoned
byte is a fault (R347). A byte of a peer's memory is none of the model's (assumption 11). -/
def State.srcByte (s : State) (t : Team) (sbuf : List Access) (sp a : Nat) (carry : Bool) : Except (BitVec 8) Byte :=
  match sp with
  | 0 =>
    if 2 ^ 56 ≤ a then .error 0x04
    else match s.translate t.core t.crew a with
      | .error code => .error code
      | .ok e =>
        match s.permitted t.crew .read e a with
        | .error code => .error code
        | .ok pa =>
          let target := flatTarget a false
          let k := s.accessKey t target pa e.perm false
          let held : Bool := ((aget k s.lines).bind fun l => aget a l.cells).isSome
          match forwarded sbuf none target a with
          | some b => .ok b
          | none =>
            if !carry && (s.bytePoison k a pa).isSome then .error 0x13
            else if s.inWindow pa && !held then .ok ((Config.freeWord (s.fresh * 2 ^ 64 + pa)).setWidth 8)
            else .ok (s.lineByte k a pa)
  | 1 =>
    (s.scratchCell t a).bind fun cell =>
      match forwarded sbuf none (.scratch cell) a with
      | some b => .ok b
      | none => if !carry && s.poison.contains (.scratch (cell / 8)) then .error 0x13 else .ok (s.scratch.read cell)
  | _ =>
    (s.vaultCell t.crew a).bind fun cell =>
      match forwarded sbuf none (.vault cell) a with
      | some b => .ok b
      | none => if !carry && s.poison.contains (.vault (cell / 8)) then .error 0x13 else .ok (s.vault.read cell)

/-- The physical address of a source byte that only a peer has: it stands in a window, and no line or buffered store holds it. The
engine asks the peer for it (R310, R318). -/
def State.peerByte (s : State) (t : Team) (sbuf : List Access) (sp a : Nat) : Option Nat :=
  if sp ≠ 0 ∨ 2 ^ 56 ≤ a then none
  else match s.translate t.core t.crew a with
    | .error _ => none
    | .ok e => match s.permitted t.crew .read e a with
      | .error _ => none
      | .ok pa =>
        let target := flatTarget a false
        let k := s.accessKey t target pa e.perm false
        let held : Bool := ((aget k s.lines).bind fun l => aget a l.cells).isSome
        if s.inWindow pa && !held && (forwarded sbuf none target a).isNone then some pa else none

/-- A source byte as a command takes it where it can be read at once: none where it faults, or has to come from a peer. -/
def State.takeByte (s : State) (t : Team) (sbuf : List Access) (sp a : Nat) (carry : Bool) : Option Byte :=
  if (s.peerByte t sbuf sp a).isSome then none else (s.srcByte t sbuf sp a carry).toOption

/-- The buffered stores of its group that a command reads first: the older ones (R193, R212). -/
def State.cmdBuf (s : State) (id : Nat) (c : Command) : List Access :=
  ((s.group c.team c.group).map fun g => g.sbuf.filter fun a => a.id < id).getD []

/-- What became of one byte of a command. -/
inductive ByteStep where
  | done (s : State)
  | fault (code : BitVec 8) (sp addr : Nat)
  | wait (s : State)
  deriving DecidableEq, Repr

/-- Write a byte of a space for a team (R216): global bytes through the flat tensor's tags in the group's view. A byte of
an unscrubbed page waits for the clear (R158). -/
def State.putByte (s : State) (t : Team) (sp a : Nat) (b : Byte) : ByteStep :=
  match sp with
  | 0 =>
    if 2 ^ 56 ≤ a then .fault 0x04 0 a
    else match s.translate t.core t.crew a with
      | .error code => .fault code 0 a
      | .ok e =>
        match s.permitted t.crew .write e a with
        | .error code => .fault code 0 a
        | .ok pa =>
          let target := flatTarget a false
          if s.viewFrozen t target pa e.perm then .fault 0x07 0 a
          else match s.firstWrite t.crew (s.viewOf t.view target pa e.perm) a pa e.perm.red with
            | none => .fault 0x08 0 a
            | some s =>
              if s.unscrubbed t.crew pa then .wait (s.startClear t.crew pa)
              else
                let k := s.accessKey t target pa e.perm true
                .done (s.setLineBytes k (s.isSm target pa e.perm) (s.bypasses k pa e.perm false) a pa [b])
  | 1 => match s.scratchCell t a with
    | .error code => .fault code 1 a
    | .ok cell => .done { s with scratch := s.scratch.write cell b }
  | _ => match s.vaultCell t.crew a with
    | .error code => .fault code 2 a
    | .ok cell => .done { s with vault := s.vault.write cell b }

/-- The unit of poison in which a write of a byte of a space stands, where it can be reached: a word of its line, of scratch or
of a vault. -/
def State.unitOf (s : State) (t : Team) (sp a : Nat) : Option PoisonUnit :=
  match sp with
  | 0 => match s.translate t.core t.crew a with
    | .ok e => some (.slice (s.accessKey t (flatTarget a false) (e.at_ a) e.perm true) (a / 8))
    | .error _ => none
  | 1 => match s.scratchCell t a with
    | .ok cell => some (.scratch (cell / 8))
    | .error _ => none
  | _ => match s.vaultCell t.crew a with
    | .ok cell => some (.vault (cell / 8))
    | .error _ => none

/-- Whether a byte that a command has written at an address of a space is the byte at an offset of a unit of poison. -/
def State.isByte (s : State) (t : Team) (sp a : Nat) (u : PoisonUnit) (x : Nat) : Bool :=
  match sp, u with
  | 0, .hbm _ => match s.translate t.core t.crew a with
    | .ok e => e.at_ a == x
    | .error _ => false
  | 0, .slice k _ => x == a && s.unitOf t 0 a == some (.slice k (a / 8))
  | 1, .scratch _ => match s.scratchCell t a with
    | .ok cell => cell == x
    | .error _ => false
  | 2, .vault _ => match s.vaultCell t.crew a with
    | .ok cell => cell == x
    | .error _ => false
  | _, _ => false

/-- The check at issue of a range (R216): scratch and vault byte by byte, the upper bits of a global address. -/
def State.rangeFault (s : State) (t : Team) (sp a n : Nat) : Option (BitVec 8 × Nat) :=
  if n = 0 then none
  else match sp with
  | 0 => if 2 ^ 56 ≤ a then some (0x04, a) else none
  | 1 => (upFrom a n).findSome? fun (x : Nat) => (failed (s.scratchCell t x)).map fun c => (c, x)
  | _ => (upFrom a n).findSome? fun (x : Nat) => (failed (s.vaultCell t.crew x)).map fun c => (c, x)

/-- The team whose window holds a whole scratch range (R227). -/
def State.windowTeam (s : State) (t : Team) (a n : Nat) : Option Nat :=
  let core := clusterOf t.core * 32 + a / 2 ^ 19
  let off := a % 2 ^ 19
  match s.windowOf t.grid core off with
  | some (tid, w) => if a + n ≤ 2 ^ 24 ∧ off + n ≤ w.winBase + w.winSize then some tid else none
  | none => none

/-- The checks at issue of a global destination that belongs to a child view or a frozen parent (R264, R266): granule by granule, the
view-frozen fault, the first write, the twin-budget fault. A page that has no translation, or permits no write, faults when its byte
is performed (R218). `spans` are the address and length of each piece. -/
def State.openSpans (s : State) (t : Team) : List (Nat × Nat) → Except (BitVec 8 × Nat) State
  | [] => .ok s
  | (a, n) :: rest =>
    match (upFrom (a / 256) ((a + n + 255) / 256 - a / 256)).foldl (fun (r : Except (BitVec 8 × Nat) State) g =>
      r.bind fun s =>
        let x := max a (256 * g)
        match s.translate t.core t.crew x with
        | .error _ => .ok s
        | .ok e => match s.permitted t.crew .write e x with
          | .error _ => .ok s
          | .ok pa =>
            let target := flatTarget x false
            if s.viewFrozen t target pa e.perm then .error (0x07, x)
            else match s.firstWrite t.crew (s.viewOf t.view target pa e.perm) x pa e.perm.red with
              | none => .error (0x08, x)
              | some s => .ok s) (.ok s) with
    | .error x => .error x
    | .ok s => s.openSpans t rest

/-- The checks at issue of the destination of a command. -/
def State.openDest (s : State) (t : Team) (sp : Nat) (spans : List (Nat × Nat)) : Except (BitVec 8 × Nat) State :=
  if sp = 0 ∧ (t.frozen ∨ t.view ≠ 0) then s.openSpans t (spans.filter fun e => e.2 != 0) else .ok s

/-- The scratch barrier that a command credits (R214): none, one, or a range outside one window. -/
def PathCtx.creditOf (c : PathCtx) (f : Fields) (a n : Nat) : Except (BitVec 8) (Option (Nat × Nat)) :=
  if !f.imm.getLsbD 7 || n == 0 then .ok none
  else match c.s.windowTeam c.t a n with
    | some tid => .ok (some (tid, f.immBits 4 3))
    | none => .error 0x06

/-! Issue and retirement (R193, R212) -/

/-- What a command's register receives (R219, R226). -/
def Command.result (c : Command) : Word64 :=
  match c.kind with
  | .copy _ _ => BitVec.ofNat 64 (c.src + c.done)
  | _ => BitVec.ofNat 64 c.len

/-- Retire a command: its counter falls, its register and flags are written. -/
def State.retireCommand (s : State) (id : Nat) (c : Command) : State :=
  let s1 : State := { s with cmds := adel id s.cmds }
  let s2 := s1.modGroup c.team c.group fun g =>
    let g : Group := { g with counters := g.counters.setIfInBounds c.cls (g.counters.toArray.getD c.cls 0 - 1) }
    if g.ended then g
    else
      let g := g.raise c.flags
      match c.dreg with
      | some r => (g.writeUni r c.result).setUniPending r false
      | none => g
  let s3 := match s2.team c.team with
    | some t => s2.modCrew t.crew fun k => { k with idleSince := s2.clock }
    | none => s2
  s3.progress c.team

/-- A command of the issuing path, not yet running. -/
def PathCtx.command (c : PathCtx) (f : Fields) (fn cls : Nat) (kind : CmdKind) : Command :=
  { team := c.tid, group := c.gi, path := c.pi, pc := c.p.pc, cls := cls, fn := fn, kind := kind,
    scope := (Scope.ofCode f.scopeCode).getD .pkg, ctl := f.imm, born := c.s.clock }

/-- Issue a command: it raises its counter; a command with nothing to do retires at once where it is the oldest of its
class. -/
def PathCtx.issueCommand (c : PathCtx) (f : Fields) (cmd : Command) : Out :=
  let n := c.s.newId
  let s : State := { n.2 with cmds := n.2.cmds ++ [(n.1, cmd)] }
  let g : Group := { c.g with counters := c.g.counters.setIfInBounds cmd.cls (c.g.counters.toArray.getD cmd.cls 0 + 1) }
  let g := match cmd.dreg with
    | some r => g.setUniPending r true
    | none => g
  let alone : Bool := (c.s.commandsOf c.tid c.gi cmd.cls).isEmpty
  match c.retireOn s f g with
  | .next s => .next (if alone ∧ cmd.st = .complete then s.retireCommand n.1 cmd else s)
  | o => o

/-- The register that a form's result goes to, unless it is dead. -/
def resultReg (f : Fields) : Option Nat := if f.dead then none else some (f.d.toNat - 0xC0)

/-- The first of some faults found at issue. -/
def firstFault : List (Option (BitVec 8 × Nat)) → Option (BitVec 8 × Nat)
  | [] => none
  | some x :: _ => some x
  | none :: rest => firstFault rest

/-- The bytes of a source as they stand at issue. -/
def PathCtx.snapshot (c : PathCtx) (sp : Nat) (carry : Bool) (addrs : List Nat) : List (Option Byte) :=
  addrs.map fun a => c.s.takeByte c.t c.g.sbuf sp a carry

/-- Issue a command whose destination belongs to a view: its checks first. -/
def PathCtx.opened (c : PathCtx) (sp : Nat) (spans : List (Nat × Nat)) (k : PathCtx → Out) : Out :=
  match c.s.openDest c.t sp spans with
  | .error (code, addr) => c.faultCode code (BitVec.ofNat 64 addr)
  | .ok s => k { c with s := s }

/-- `cpy` and `cpyy` (R216, R219). -/
def PathCtx.copy (c : PathCtx) (fn : Nat) (f : Fields) (yield : Bool) : Out :=
  let a := (c.uni 0 f.sa).toNat
  let b := (c.uni 1 f.sb).toNat
  let w := (c.uni 2 f.sc).toNat
  let len := w % 2 ^ 32
  let budget := if yield then w / 2 ^ 32 else 0
  let dsp := f.immBits 0 2
  let ssp := f.immBits 2 2
  let overlap : Bool := dsp == ssp && b < a + len && a < b + len && len != 0
  match firstFault [c.s.rangeFault c.t ssp b len, c.s.rangeFault c.t dsp a len,
      if yield && overlap then some (0x06, a) else none] with
  | some (code, addr) => c.faultCode code (BitVec.ofNat 64 addr)
  | none =>
    match c.creditOf f a len with
    | .error code => c.faultCode code (BitVec.ofNat 64 a)
    | .ok credit =>
      let stop := (budget + 63) / 64 * 64
      let cmd : Command :=
        { c.command f fn 0 (.copy yield budget) with
          dsp := dsp, ssp := ssp, dst := a, src := b, len := len, desc := overlap && b < a, credit := credit,
          dreg := if yield then resultReg f else none, st := if len = 0 then .complete else .running,
          data := c.snapshot ssp true (upFrom b len), yieldAt := if budget ≠ 0 ∧ stop < len then some stop else none }
      c.opened dsp [(a, len)] fun c => { c with s := c.s.touchSource c.t ssp b len }.issueCommand f cmd

/-- `cpy`. -/
def execCpy (f : Fields) (s : State) : Out :=
  onPath s 0xA0 0x00 f fun c => if c.effect f then c.copy 0x00 f false else c.skipOver 0xA0 0x00 f

/-- `cpyy`. -/
def execCpyy (f : Fields) (s : State) : Out :=
  onPath s 0xA0 0x01 f fun c => if c.effect f then c.copy 0x01 f true else c.skipOver 0xA0 0x01 f

/-- The element size of a `gath` or `scat` (R214). -/
def elemSize (f : Fields) : Nat := match f.immBits 8 2 with | 0 => 4 | 1 => 8 | 2 => 16 | _ => 64

/-- The index list of a `gath` or `scat` as it stands at issue (R220). -/
def PathCtx.indexList (c : PathCtx) (list n : Nat) : List Nat :=
  (List.range n).map fun i => leNat ((upFrom (list + 4 * i) 4).map fun x => ((c.s.srcByte c.t c.g.sbuf 1 x true).toOption).getD 0)

/-- The address and length of each piece of the destination of a `gath` or `scat`. -/
def gatherSpans (scatter : Bool) (e a : Nat) (idx : List Nat) : List (Nat × Nat) :=
  if scatter then idx.map fun k => (a + k * e, e) else [(a, idx.length * e)]

/-- `gath` and `scat` (R220): the index list is read at issue. -/
def PathCtx.gather (c : PathCtx) (fn : Nat) (f : Fields) (scatter : Bool) : Out :=
  let a := (c.uni 0 f.sa).toNat
  let b := (c.uni 1 f.sb).toNat
  let w := (c.uni 2 f.sc).toNat
  let list := w % 2 ^ 32
  let n := w / 2 ^ 32
  let e := elemSize f
  let listFault : Option (BitVec 8 × Nat) :=
    if list % 4 ≠ 0 then some (0x05, list) else if 2 ^ 24 ≤ list then some (0x06, list) else none
  match firstFault [listFault, c.s.rangeFault c.t 1 list (4 * n)] with
  | some (code, addr) => c.faultCode code (BitVec.ofNat 64 addr)
  | none =>
    match (if scatter then .ok none else c.creditOf f a (n * e)) with
    | .error code => c.faultCode code (BitVec.ofNat 64 a)
    | .ok credit =>
      let idx := c.indexList list n
      let cmd : Command :=
        { c.command f fn 1 (.gather scatter e list) with
          dsp := f.immBits 0 2, ssp := f.immBits 2 2, dst := a, src := b, len := n * e, credit := credit, idx := idx,
          st := if n = 0 then .complete else .running,
          data := c.snapshot (f.immBits 2 2) true ((List.range (n * e)).map fun p => (elemAddrs scatter e b a idx p).1) }
      c.opened (f.immBits 0 2) (gatherSpans scatter e a idx) fun c =>
        { c with s := (List.range n).foldl (fun s p =>
            s.touchSource c.t (f.immBits 2 2) (elemAddrs scatter e b a idx (p * e)).1 e) c.s }.issueCommand f cmd

/-- `gath`. -/
def execGath (f : Fields) (s : State) : Out :=
  onPath s 0xA0 0x02 f fun c => if c.effect f then c.gather 0x02 f false else c.skipOver 0xA0 0x02 f

/-- `scat`. -/
def execScat (f : Fields) (s : State) : Out :=
  onPath s 0xA0 0x03 f fun c => if c.effect f then c.gather 0x03 f true else c.skipOver 0xA0 0x03 f

/-! Collectives (R221, R222) -/

/-- The fields of a collective that its first arrival fixes: n, L, OP and the scope. -/
def Command.collShape (c : Command) : Option (Nat × Nat × Nat × Scope) :=
  match c.kind with
  | .coll op _ n _ => some (n, c.data.length, op, c.scope)
  | _ => none

/-- The rank of a collective's command. -/
def Command.rank (c : Command) : Nat := match c.kind with | .coll _ _ _ r => r | _ => 0

/-- The arrivals that the engine holds for a collective. -/
def State.arrivals (s : State) (key : Option (Nat × Nat × Nat × Nat)) : List (Nat × Command) :=
  s.cmds.filter fun e => e.2.st == .arrived && s.collKey e.2 == key

/-- Combine two contributions elementwise, with the flags of the float steps. -/
def collStep (op : Nat) (x y : List Byte) : List Byte × FlagSet :=
  let one (i : Nat) : Nat × FlagSet :=
    let a := leNat ((x.drop (4 * i)).take 4)
    let b := leNat ((y.drop (4 * i)).take 4)
    match op with
    | 0 => atomNew 0 (.int 32 true) a b 0
    | 1 => fAdd .f32 .rn a b
    | 2 => atomNew 2 (.int 32 true) a b 0
    | 3 => atomNew 1 (.int 32 true) a b 0
    | 4 => fMinMax .f32 true a b
    | _ => fMinMax .f32 false a b
  let rs := (List.range (x.length / 4)).map one
  (rs.flatMap fun r => leBytes 4 r.1, rs.foldl (fun fl r => fl ||| r.2) 0)

/-- The result of a collective from its contributions in rank order. -/
def collResult (op : Nat) (bs : List (List Byte)) : List Byte × FlagSet :=
  if op = 6 then (bs.flatten, 0)
  else match bs with
    | [] => ([], 0)
    | b :: rest => rest.foldl (fun acc y => let r := collStep op acc.1 y; (r.1, acc.2 ||| r.2)) (b, 0)

/-- Form the result of a collective when every rank has arrived. -/
def State.formCollective (s : State) (c : Command) : State :=
  let key := s.collKey c
  let here := s.arrivals key
  match c.kind with
  | .coll op _ n _ =>
    if here.length = n then
      let bs := (List.range n).map fun r =>
        ((here.find? fun e => e.2.rank == r).map fun e => e.2.data.map fun b => b.getD 0).getD []
      let r := collResult op bs
      let acc := r.1.map some
      { s with cmds := s.cmds.map fun e =>
          if here.any fun h => h.1 == e.1 then
            (e.1, { e.2 with data := acc, len := acc.length, done := 0, flags := r.2, acked := true,
                             st := if acc.isEmpty then .complete else .running })
          else e }
    else s
  | _ => s

/-- A command arrives at its collective, or stops with a fault (R221): its fields against those of the first arrival, then
its contribution. -/
def State.arriveColl (s : State) (id : Nat) : State :=
  match aget id s.cmds with
  | none => s
  | some c =>
    match c.kind with
    | .coll _ _ n r =>
      let here := s.arrivals (s.collKey c)
      let differs : Bool := here.any fun e => e.2.collShape != c.collShape
      let twice : Bool := here.any fun e => e.2.rank == r
      if differs || twice || n ≤ r then s.commandFault id c 0x04 0 (BitVec.ofNat 64 c.dst) 0
      else
        let s1 := s.modCmd id fun c => { c with st := .arrived }
        match aget id s1.cmds with
        | some c => s1.formCollective c
        | none => s1
    | _ => s

/-- Read again the source bytes that a command could not read. -/
def State.rereadSource (s : State) (id : Nat) (c : Command) (carry : Bool) : Command :=
  match s.team c.team with
  | none => c
  | some t => { c with data := c.data.mapIdx fun i b =>
      match b with
      | some x => some x
      | none => s.takeByte t (s.cmdBuf id c) c.ssp (c.srcAddr i) carry }

/-- Ask the peer for the source byte of an index of a command (R310): a read of tier 0 (R318). -/
def State.askByte (s : State) (id : Nat) (t : Team) (c : Command) (i pa : Nat) : State :=
  if s.requests.any fun r => r.2.cmd == some id && r.2.lane == i && r.2.len != 0 then s
  else s.newRequest { crew := t.crew, group := some ⟨c.team, c.group⟩, cmd := some id, lane := i, op := .read, pa := pa, len := 1,
                      tier := 0, arrived := s.clock }

/-- Ask the peers for every source byte of a command that only they have. -/
def State.askSource (s : State) (id : Nat) (c : Command) : State :=
  match s.team c.team with
  | none => s
  | some t => (List.range c.data.length).foldl (fun s i => match c.data.getD i none with
      | some _ => s
      | none => match s.peerByte t (s.cmdBuf id c) c.ssp (c.srcAddr i) with
        | some pa => s.askByte id t c i pa
        | none => s) s

/-- `coll` (R221): reserved bits of the descriptor take 0x04 and a length that is no multiple of 4 takes 0x05
(assumption 12). -/
def execColl (f : Fields) (s : State) : Out :=
  onPath s 0xA0 0x04 f fun c =>
    if c.effect f then
      let a := (c.uni 0 f.sa).toNat
      let b := (c.uni 1 f.sb).toNat
      let w := (c.uni 2 f.sc).toNat
      let len := w % 2 ^ 32
      let n := w / 2 ^ 40 % 256 + 1
      let op := f.immBits 10 4
      let out := if op = 6 then n * len else len
      let dsp := f.immBits 0 2
      let ssp := f.immBits 2 2
      match firstFault [if 2 ^ 56 ≤ w then some (0x04, w) else none, if len % 4 ≠ 0 then some (0x05, len) else none,
          c.s.rangeFault c.t ssp b len, c.s.rangeFault c.t dsp a out] with
      | some (code, addr) => c.faultCode code (BitVec.ofNat 64 addr)
      | none =>
        match c.creditOf f a out with
        | .error code => c.faultCode code (BitVec.ofNat 64 a)
        | .ok credit =>
          let cmd : Command :=
            { c.command f 0x04 2 (.coll op (w / 2 ^ 32 % 256) n (w / 2 ^ 48 % 256)) with
              dsp := dsp, ssp := ssp, dst := a, src := b, credit := credit,
              data := c.snapshot ssp false (upFrom b len) }
          let id := c.s.nextId
          c.opened dsp [(a, out)] fun c =>
            match { c with s := c.s.touchSource c.t ssp b len }.issueCommand f cmd with
            | .next s => .next (if cmd.data.all Option.isSome then s.arriveColl id else s)
            | o => o
    else c.skipOver 0xA0 0x04 f

/-! Range write-back and invalidation (R223) -/

/-- Issue a range command. -/
def PathCtx.range (c : PathCtx) (fn : Nat) (f : Fields) (inv : Bool) : Out :=
  let h : Word32 := (c.uni 0 f.sa).setWidth 32
  let all : Bool := f.imm.getLsbD 0
  if !all && h != 0 && (c.s.record c.t.crew h).isNone then c.faultCode 0x11
  else
    let len := (c.uni 2 f.sc).toNat % 2 ^ 32
    c.issueCommand f
      { c.command f fn 0 (.wbr inv all (h.toNat / 4096)) with
        dst := (c.uni 1 f.sb).toNat % 2 ^ 56, len := len, st := .running }

/-- `wbr`. -/
def execWbr (f : Fields) (s : State) : Out :=
  onPath s 0xA0 0x05 f fun c => if c.effect f then c.range 0x05 f false else c.skipOver 0xA0 0x05 f

/-- `invr`. -/
def execInvr (f : Fields) (s : State) : Out :=
  onPath s 0xA0 0x06 f fun c => if c.effect f then c.range 0x06 f true else c.skipOver 0xA0 0x06 f

/-- Whether a line falls under a range command of a team (R223): its crew and view, software-managed copies included, its tensor,
and in-bounds bytes that meet the range. -/
def State.rangeHits (s : State) (t : Team) (all : Bool) (tensor lo n : Nat) (e : LineKey × Line) : Bool :=
  e.1.crew == t.crew && (e.1.view == t.view || (e.2.sm && e.1.view == 0)) && (all || e.1.tensor == tensor) &&
    (s.rowsOf e.1).any fun r => r.1 < lo + n && lo < r.1 + r.2

/-- Write back, and for `invr` drop, the lines of a range. -/
def State.performRange (s : State) (t : Team) (inv all : Bool) (tensor lo n : Nat) : State :=
  let ks := (s.lines.filter (s.rangeHits t all tensor lo n)).map Prod.fst
  ks.foldl (fun s k => if inv then s.evictLine k else s.writeBackLine k) s

/-! Mailboxes (R224 to R226) -/

/-- The box of a box address, where the crew may use it (R224). -/
def State.boxOf (s : State) (crew : Nat) (a : Word64) : Option Nat :=
  let slice := (a.extractLsb' 8 7).toNat
  let box := (a.extractLsb' 0 6).toNat
  let key := slice * 64 + box
  let clean : Bool := a &&& ~~~(0x7F3F : Word64) == 0
  match aget key s.mailboxes with
  | some m => if clean ∧ (s.crewDies crew).contains (slice / 16) ∧ m.crew = crew then some key else none
  | none => none

/-- Whether an older `post` waits at the slice for a box: messages leave it in the order in which they reached it (R224). -/
def State.postBefore (s : State) (id box : Nat) : Bool :=
  s.cmds.any fun e => e.1 < id && e.2.kind == .post box && e.2.st == .waiting && e.2.data.all Option.isSome &&
    !((s.group e.2.team e.2.group).map Group.saved).getD false

/-- Append the message of a `post` to its box if it has room (R225). -/
def State.enqueue (s : State) (id : Nat) : State :=
  match aget id s.cmds with
  | some c =>
    match c.kind, c.st with
    | .post box, .waiting =>
      match aget box s.mailboxes with
      | some m =>
        if m.messages.length < 8 ∧ c.data.all Option.isSome ∧ !s.postBefore id box then
          let s1 : State := { s with mailboxes := aput box { m with messages := m.messages ++ [c.data.map fun b => b.getD 0] } s.mailboxes }
          s1.modCmd id fun c => { c with st := .complete }
        else s
      | none => s
    | _, _ => s
  | none => s

/-- Give the oldest message of its box to a waiting `take` (R226). -/
def State.deliver (s : State) (id : Nat) : State :=
  match aget id s.cmds with
  | some c =>
    match c.kind, c.st with
    | .take box, .waiting =>
      match aget box s.mailboxes with
      | some m =>
        match m.messages with
        | msg :: rest =>
          let s1 : State := { s with mailboxes := aput box { m with messages := rest } s.mailboxes }
          s1.modCmd id fun c => { c with st := .running, data := msg.map some, len := msg.length }
        | [] => s
      | none => s
    | _, _ => s
  | none => s

/-- `post` (R225). -/
def execPost (f : Fields) (s : State) : Out :=
  onPath s 0xA0 0x07 f fun c =>
    if c.effect f then
      let b := (c.uni 1 f.sb).toNat
      let len := (c.uni 2 f.sc).toNat % 2 ^ 32
      let ssp := f.immBits 2 2
      match c.s.boxOf c.t.crew (c.uni 0 f.sa) with
      | none => c.faultCode 0x04 (c.uni 0 f.sa)
      | some box =>
        match firstFault [if len = 0 ∨ 256 < len then some (0x06, len) else none, c.s.rangeFault c.t ssp b len] with
        | some (code, addr) => c.faultCode code (BitVec.ofNat 64 addr)
        | none =>
          let cmd : Command :=
            { c.command f 0x07 5 (.post box) with ssp := ssp, src := b, len := len, data := c.snapshot ssp false (upFrom b len) }
          let id := c.s.nextId
          match { c with s := c.s.touchSource c.t ssp b len }.issueCommand f cmd with
          | .next s => .next (s.enqueue id)
          | o => o
    else c.skipOver 0xA0 0x07 f

/-- `take` (R226): the checks at issue cover the message that waits, or the first byte where none does (assumption 12). -/
def execTake (f : Fields) (s : State) : Out :=
  onPath s 0xA0 0x08 f fun c =>
    if c.effect f then
      let b := (c.uni 1 f.sb).toNat
      let dsp := f.immBits 0 2
      match c.s.boxOf c.t.crew (c.uni 0 f.sa) with
      | none => c.faultCode 0x04 (c.uni 0 f.sa)
      | some box =>
        let len := ((((aget box c.s.mailboxes).map Mailbox.messages).getD []).head?.map List.length).getD 1
        match c.s.rangeFault c.t dsp b len with
        | some (code, addr) => c.faultCode code (BitVec.ofNat 64 addr)
        | none =>
          match c.creditOf f b len with
          | .error code => c.faultCode code (BitVec.ofNat 64 b)
          | .ok credit =>
            let cmd : Command :=
              { c.command f 0x08 5 (.take box) with dsp := dsp, dst := b, credit := credit, dreg := resultReg f }
            let id := c.s.nextId
            c.opened dsp [(b, len)] fun c =>
              match c.issueCommand f cmd with
              | .next s => .next (s.deliver id)
              | o => o
    else c.skipOver 0xA0 0x08 f

/-! The engines (R216 to R219, R227) -/

/-- Whether the team of a command is on its core, or still leaving it, so that its engines work for it. -/
def State.engineTeam (s : State) (c : Command) : Option Team :=
  match s.team c.team with
  | some t =>
    let saved : Bool := ((t.groups[c.group]?).map Group.saved).getD false
    if (t.status = .draining ∨ t.status = .resident ∧ s.ownsCore t.crew t.core) ∧ !saved then some t else none
  | none => none

/-- The addresses of the byte that a command performs next: its index among the source bytes, source and destination. -/
def Command.nextByte (c : Command) : Nat × Nat × Nat :=
  match c.kind with
  | .gather sc e _ => let r := elemAddrs sc e c.src c.dst c.idx c.done; (c.done, r.1, r.2)
  | _ =>
    let off := if c.desc then c.len - 1 - c.done else c.done
    (off, c.src + off, c.dst + off)

/-- The element alignment of a gather or scatter (R220). -/
def Command.misaligned (c : Command) : Option (Nat × Nat) :=
  match c.kind with
  | .gather sc e _ =>
    let r := elemAddrs sc e c.src c.dst c.idx c.done
    if c.done % e ≠ 0 then none
    else if r.1 % e ≠ 0 then some (c.ssp, r.1) else if r.2 % e ≠ 0 then some (c.dsp, r.2) else none
  | _ => none

/-- The destination range of a command. -/
def Command.destRange (c : Command) : Nat × Nat :=
  match c.kind with
  | .gather true e _ =>
    (c.dst + e * c.idx.foldl min (c.idx.headD 0), c.dst + e * c.idx.foldl max 0 + e)
  | _ => (c.dst, c.dst + c.len)

/-- Whether a command writes bytes of a range that an older command of its group and class has still to write (R217). -/
def State.behindCommand (s : State) (id : Nat) (c : Command) : Bool :=
  s.cmds.any fun e => e.1 < id && e.2.team == c.team && e.2.group == c.group && e.2.cls == c.cls && e.2.st != .complete &&
    e.2.dsp == c.dsp && e.2.len != 0 && (match e.2.kind with | .wbr _ _ _ | .post _ => false | _ => true) &&
    c.destRange.1 < e.2.destRange.2 && e.2.destRange.1 < c.destRange.2

/-- Whether a byte of a destination is one that a younger command of the same class has performed already (R217): an older `coll`
or `take` that waited leaves it. -/
def State.overtaken (s : State) (id : Nat) (c : Command) (a : Nat) : Bool :=
  s.cmds.any fun e => id < e.1 && e.2.team == c.team && e.2.group == c.group && e.2.cls == c.cls && e.2.dsp == c.dsp &&
    (match e.2.kind with | .coll _ _ _ _ | .take _ => true | _ => false) && e.2.dst ≤ a && a < e.2.dst + e.2.done

/-- Whether a copy carries poison along with its bytes (R347); a contribution or message does not. -/
def Command.carries (c : Command) : Bool := match c.kind with | .copy _ _ | .gather _ _ _ => true | _ => false

/-- Credit one byte to a scratch barrier (R227). -/
def State.creditByte (s : State) (credit : Option (Nat × Nat)) : State :=
  match credit with
  | none => s
  | some (tid, k) => s.modTeam tid fun t =>
      let b := t.sbars.toArray.getD k {}
      { t with sbars := t.sbars.setIfInBounds k { b with credited := b.credited + 1 } }

/-- The physical address of a held window that a destination of a command reaches (R313). -/
def State.heldAt (s : State) (t : Team) (sp a : Nat) : Option Nat :=
  if sp ≠ 0 then none
  else match s.translate t.core t.crew a with
    | .ok e => if s.windowHeld (e.at_ a) then some (e.at_ a) else none
    | .error _ => none

/-- The command's mark on what it writes. -/
def Command.owner (c : Command) : LineOwner := { group := ⟨c.team, c.group⟩, path := c.path, pc := c.pc, engine := true }

/-- Write a byte of a running command: it is credited, and its count rises. A poisoned source word that the command carries poisons
the destination (R347); a byte of a window names the command (R315). -/
def State.writeByte (s : State) (t : Team) (id : Nat) (c : Command) (dst : Nat) (b : Byte) (bad : Bool) : ByteStep :=
  let counted (s : State) : State :=
    let fin := c.done + 1
    (s.creditByte c.credit).modCmd id fun c => { c with done := fin, st := if fin = c.len then .complete else c.st }
  if s.overtaken id c dst then .done (counted s)
  else match s.putByte t c.dsp dst b with
    | .done s =>
      let s := match bad, s.unitOf t c.dsp dst with
        | true, some u => { s with poison := if s.poison.contains u then s.poison else u :: s.poison }
        | _, _ => s
      let s := match c.dsp, s.unitOf t c.dsp dst with
        | 0, some (.slice k _) => s.ownBytes k dst 1 c.owner
        | _, _ => s
      .done (counted s)
    | r => r

/-- Perform the next byte of a running command. -/
def State.engineByte (s : State) (t : Team) (id : Nat) (c : Command) : ByteStep :=
  let n := c.nextByte
  match c.misaligned, s.heldAt t c.dsp n.2.2 with
  | some (sp, a), _ => .fault 0x05 sp a
  | none, some pa => .wait (s.holdCommand id t.crew pa)
  | none, none =>
    let s := s.unholdCommand id
    let known := c.data.getD n.1 none
    match known, (if known.isSome then none else s.peerByte t (s.cmdBuf id c) c.ssp n.2.1) with
    | none, some pa => .wait (s.askByte id t c n.1 pa)
    | _, _ =>
      let src : Except (BitVec 8) Byte := match known with
        | some b => .ok b
        | none => s.srcByte t (s.cmdBuf id c) c.ssp n.2.1 c.carries
      match src with
      | .error code => .fault code c.ssp n.2.1
      | .ok b =>
        let outside : Bool := match c.credit with
          | some (tid, _) => s.windowTeam t n.2.2 1 != some tid
          | none => false
        if outside then .fault 0x06 c.dsp n.2.2
        else s.writeByte t id c n.2.2 b (c.carries && (s.poisonAt t c.ssp n.2.1).isSome)

/-- Whether a byte stands behind a yield point (R219). -/
def Command.atYield (c : Command) : Bool := c.yieldAt == some c.done && c.done < c.len

/-- Whether the next byte of a command carries poison. -/
def State.carriesPoison (s : State) (t : Team) (c : Command) : Bool :=
  c.carries && (s.poisonAt t c.ssp c.nextByte.2.1).isSome

/-- Perform up to `n` bytes of a command, in its order, while nothing stops it; the destinations performed, and whether any
byte carried poison. -/
def State.engineRun (s : State) (id : Nat) : Nat → List Nat → Bool → State × List Nat × Bool
  | 0, ds, bad => (s, ds, bad)
  | n + 1, ds, bad =>
    match aget id s.cmds with
    | none => (s, ds, bad)
    | some c =>
      match s.engineTeam c with
      | none => (s, ds, bad)
      | some t =>
        if c.st ≠ .running ∨ c.len ≤ c.done ∨ c.atYield then (s, ds, bad)
        else match s.engineByte t id c with
          | .done s1 => s1.engineRun id n (c.nextByte.2.2 :: ds) (bad || s.carriesPoison t c)
          | .wait s1 => (s1, ds, bad)
          | .fault _ _ _ => (s, ds, bad)

/-- Run a command for up to `n` bytes; units of poison that it covers whole with sound bytes are poisoned no more (R347). None where
nothing happens. -/
def State.engineGo (s : State) (id n : Nat) (t : Team) (c : Command) : Option State :=
  let r := s.engineRun id n [] false
  if r.2.1.isEmpty && r.1 == s then none
  else some (r.1.unpoisonIf fun u x => !r.2.2 && r.2.1.any fun a => s.isByte t c.dsp a u x)

/-- Whether the earlier stores of a command's group have left its buffer (R193). -/
def State.storesBefore (s : State) (id : Nat) (c : Command) : Bool :=
  match s.group c.team c.group with
  | some g => g.sbuf.any fun a => a.id < id
  | none => false

/-- ENGINE_BYTE_PERFORMED (R216, R223, R227): up to 64 bytes of a running command; a range command as a whole; the arrival
of a collective's command that a fault or an abandonment has set back. -/
def execEngineBytePerformed (id : Nat) (s : State) : Out :=
  match aget id s.cmds with
  | none => .refused .notEnabled
  | some c =>
    match s.engineTeam c with
    | none => .refused .notEnabled
    | some t =>
      match c.kind with
      | .wbr inv all tensor =>
        if c.st ≠ .running ∨ s.storesBefore id c then .refused .notEnabled
        else .next ((s.performRange t inv all tensor c.dst c.len).modCmd id fun c => { c with st := .complete })
      | .coll _ _ _ _ | .copy _ _ | .gather _ _ _ | .take _ =>
        if c.st = .waiting ∧ c.cls = 2 then
          let c1 := s.rereadSource id c false
          let s1 := (s.modCmd id fun _ => c1).askSource id c1
          if c1.data.all Option.isSome then .next (s1.arriveColl id) else if s1 == s then .refused .notEnabled else .next s1
        else if s.behindCommand id c then .refused .notEnabled
        else match s.engineGo id 64 t c with
          | some s1 => .next s1
          | none => .refused .notEnabled
      | _ => .refused .notEnabled

/-- Whether a command moves bytes one by one. -/
def Command.moves (c : Command) : Bool :=
  match c.kind with
  | .copy _ _ | .gather _ _ _ | .coll _ _ _ _ | .take _ => true
  | _ => false

/-- ENGINE_FAULT (R218): a running command stops at a byte whose access faults, or a command at the first source byte that
it could not read. -/
def execEngineFault (id : Nat) (s : State) : Out :=
  match aget id s.cmds with
  | none => .refused .notEnabled
  | some c =>
    match s.engineTeam c with
    | none => .refused .notEnabled
    | some t =>
      let stop (code : BitVec 8) (sp a : Nat) : Out :=
        .next (s.commandFault id c code 0 (BitVec.ofNat 64 a) (s.errorDetail t code sp a))
      match c.st with
      | .running =>
        if !c.moves ∨ c.len ≤ c.done ∨ c.atYield then .refused .notEnabled
        else match s.engineByte t id c with
          | .fault code sp a => stop code sp a
          | _ => .refused .notEnabled
      | .waiting =>
        match c.kind with
        | .coll _ _ _ _ | .post _ =>
          match (List.range c.data.length).findSome? fun i => match c.data.getD i none with
              | some _ => none
              | none => match s.srcByte t (s.cmdBuf id c) c.ssp (c.srcAddr i) false with
                | .error code => some (code, c.srcAddr i)
                | .ok _ => none with
          | some (code, a) => stop code c.ssp a
          | none => .refused .notEnabled
        | _ => .refused .notEnabled
      | _ => .refused .notEnabled

/-- The next yield point of a `cpyy` at or above the bytes done (R219), where it lies before the end. -/
def Command.yieldSoon (c : Command) : Command :=
  match c.kind with
  | .copy true _ =>
    let p := (c.done + 63) / 64 * 64
    if c.len ≤ p then c
    else { c with yieldAt := some (match c.yieldAt with
      | some q => min p q
      | none => p) }
  | _ => c

/-- CPYY_YIELD (R219): a `cpyy` that has reached its yield point completes there; one whose team halts for a drain window
or a pre-emption takes its next point as its yield point. -/
def execCpyyYield (id : Nat) (s : State) : Out :=
  match aget id s.cmds with
  | none => .refused .notEnabled
  | some c =>
    let halting : Bool := ((s.team c.team).map fun t => t.status == .draining).getD false
    let c1 := if halting then c.yieldSoon else c
    match c.kind, c.st with
    | .copy true _, .running =>
      if c1.atYield then .next (s.modCmd id fun _ => { c1 with len := c1.done, st := .complete })
      else if c1 = c then .refused .notEnabled
      else .next (s.modCmd id fun _ => c1)
    | _, _ => .refused .notEnabled

/-- COMMAND_RETIRE (R193): a complete command that is the oldest of its class in its group retires. -/
def execCommandRetire (id : Nat) (s : State) : Out :=
  match aget id s.cmds with
  | none => .refused .notEnabled
  | some c =>
    if c.st = .complete ∧ ((s.commandsOf c.team c.group c.cls).head?.map Prod.fst) = some id then
      .next (s.retireCommand id c)
    else .refused .notEnabled

/-- MAILBOX_POST_ENQUEUE (R225). -/
def execMailboxPostEnqueue (id : Nat) (s : State) : Out :=
  match aget id s.cmds with
  | none => .refused .notEnabled
  | some c =>
    let c1 := s.rereadSource id c false
    let s1 := ((s.modCmd id fun _ => c1).enqueue id).askSource id c1
    match c.kind, c.st with
    | .post _, .waiting => if (s.engineTeam c).isNone || s1 == s then .refused .notEnabled else .next s1
    | _, _ => .refused .notEnabled

/-- MAILBOX_TAKE_DELIVER (R226). -/
def execMailboxTakeDeliver (id : Nat) (s : State) : Out :=
  match aget id s.cmds with
  | none => .refused .notEnabled
  | some c =>
    let s1 := s.deliver id
    if (s.engineTeam c).isNone || (aget id s1.cmds).map Command.st = some c.st then .refused .notEnabled else .next s1

end Sys2Proof.Machine
end

