-- ==== Sys2Proof/Machine/Control.lean ====
section
/-! DEFINITION. Control flow: OPC 0x70 but for `exit` (spec/07_control.md R139 to R150).

Marked in the assumption log: 38 (DEDUCED), 42 (DEDUCED), 44 (DEDUCED). -/

namespace Sys2Proof.Machine

/-- The branch packet of a transfer that issues (R383): kind 0 not taken, 1 taken whole, 2 divided. -/
def PathCtx.branchTrace (c : PathCtx) (s : State) (moved : Mask) (target : VAddr) (kind : Nat) : State :=
  s.emit c.t.crew (dieOf c.t.core) 0 (fun d => packet 2 d c.t.core (c.g.sched * 64 + c.g.slot) c.pi
    (branchBody c.p.pc c.p.mask moved target kind)) []

/-- The packet of a transfer that stays on its path and moves no lane to a target: `skip`, `exit`, `refill`, a transfer with an
empty active set. R21 counts every form of OPC 0x70 as a transfer (assumption 38). -/
def PathCtx.stayTrace (c : PathCtx) (s : State) : State := c.branchTrace s 0 (nextSlot c.p.pc) 0

/-- A landing fault of a transfer (R20, R145): the code, the lanes, the target. -/
def PathCtx.landingFault (c : PathCtx) (code : BitVec 8) (mask : Mask) (target : Word64) : Out :=
  c.fault { code := code, mask := mask, addr := target, pc := c.p.pc, rpc := c.p.pc }

/-- The issuing path moves whole, with a link register (R143, R147). -/
def PathCtx.moveWhole (c : PathCtx) (f : Fields) (g : Group) (lk : VAddr) (target : VAddr) : Out :=
  let s := c.branchTrace c.s c.p.mask target 1
  { c with s := s, p := { c.p with lk := lk } }.retireAt f g target

/-- The issuing path does not transfer. -/
def PathCtx.fallThrough (c : PathCtx) (f : Fields) (g : Group) : Out :=
  { c with s := c.branchTrace c.s 0 (nextSlot c.p.pc) 0 }.retire f g

/-- A uniform-effect transfer of the whole path: the target is checked, then the path moves (R143). -/
def PathCtx.transfer (c : PathCtx) (f : Fields) (g : Group) (lk : VAddr) (target : Word64) : Out :=
  match c.s.landing c.t target with
  | some code => c.landingFault code (BitVec.allOnes 32) target
  | none => c.moveWhole f g lk (target.setWidth 56)

/-- The valid path of the lowest program counter, where all eight entries are split-stalled (R139). -/
def Group.overflow (g : Group) : Option (Nat × Path) :=
  if g.valid.length = 8 ∧ g.valid.all fun e => e.2.st == .splitStalled then
    g.valid.foldl (fun best e => match best with
      | none => some e
      | some b => if e.2.pc.toNat < b.2.pc.toNat then some e else some b) none
  else none

/-- A split that finds no free entry (R139): the path stalls, and eight stalled paths overflow. -/
def PathCtx.splitStall (c : PathCtx) (g : Group) (p : Path) : Out :=
  let g1 := g.setPath c.pi (some { p with st := if p.st = .handler then .handler else .splitStalled })
  let s := c.s.setGroup c.tid c.gi g1
  match g1.overflow with
  | some (i, q) => .next (s.takeFault c.tid c.gi i { code := 0x0B, mask := q.mask, pc := q.pc, rpc := q.pc })
  | none => .next s

/-- Store a group whose paths have moved, and fuse what now meets (R138); a move acts as a set S (R71). -/
def PathCtx.moved (c : PathCtx) (s : State) (g : Group) (entries : List Nat) : Out :=
  let s1 : State := { s with fresh := s.fresh + 2 }
  let s := s1.setGroup c.tid c.gi { g with held := g.held || !g.inflight.isEmpty }
  .next (entries.foldl (fun s i => s.fuse c.tid c.gi i) s)

/-- The lanes that a predicate operand with a sense selects (R140). -/
def PathCtx.senseMask (c : PathCtx) (f : Fields) : Mask :=
  if f.sb = 0 then c.pred 0 f.sa.toNat else ~~~c.pred 0 f.sa.toNat

/-- The branch packet of a seat's transfer (R383): it has no lanes, and its masks are zero (assumption 38). -/
def SeatCtx.branchTrace (c : SeatCtx) (target : VAddr) (kind : Nat) : State :=
  c.s.emit c.t.crew (dieOf c.t.core) 0 (fun d => packet 2 d c.t.core 0 0 (branchBody c.q.pc 0 0 target kind)) []

/-- A seat's transfer: the target is checked (R150). -/
def SeatCtx.transfer (c : SeatCtx) (q : Seat) (target : Word64) : Out :=
  match c.s.landing c.t target with
  | some code => c.fault code 0 target
  | none => { c with s := c.branchTrace (target.setWidth 56) 1 }.retireAt q (target.setWidth 56)

/-- A seat's transfer that is not taken. -/
def SeatCtx.fallThrough (c : SeatCtx) (q : Seat) : Out :=
  { c with s := c.branchTrace (nextSlot c.q.pc) 0 }.retire q

/-- The condition of a seat's `bra` (R150). -/
def SeatCtx.sense (c : SeatCtx) (f : Fields) : Bool := Bool.xor (c.pred f.sa.toNat) (f.sb != 0)

/-- `bra` (R142, R150). -/
def execBra (f : Fields) (s : State) : Out :=
  onBoth s 0x70 0x00 f
    (fun c =>
      let a := c.active f
      let target := directTarget c.p.pc f.imm
      let pt := a &&& c.senseMask f
      let pf := c.p.mask &&& ~~~pt
      if a = 0 then .next ((c.stayTrace c.s).retirePath c.tid c.gi c.pi (c.g.marked f))
      else if pt = 0 then c.fallThrough f c.g
      else match c.s.landing c.t target with
        | some code => c.landingFault code pt target
        | none =>
          if pf = 0 then c.moveWhole f c.g c.p.lk (target.setWidth 56)
          else match c.g.freeEntry with
            | none => c.splitStall c.g c.p
            | some j =>
              let stay : Path := { c.p with mask := pf }
              let take : Path := { mask := pt, pc := target.setWidth 56, lk := c.p.lk, since := c.s.clock }
              let g := (c.g.setPath c.pi (some (stay.advanced (nextSlot c.p.pc) c.s.clock))).setPath j (some take)
              c.moved (c.branchTrace c.s pt (target.setWidth 56) 2) g [j, c.pi])
    (fun c => if c.sense f then c.transfer c.q (directTarget c.q.pc f.imm) else c.fallThrough c.q)

/-- `brau` (R143, R150). -/
def execBrau (f : Fields) (s : State) : Out :=
  onBoth s 0x70 0x01 f
    (fun c => if c.effect f then c.transfer f c.g c.p.lk (directTarget c.p.pc f.imm) else c.fallThrough f c.g)
    (fun c => if c.guard f then c.transfer c.q (directTarget c.q.pc f.imm) else c.fallThrough c.q)

/-- `skip` (R144). -/
def execSkip (f : Fields) (s : State) : Out :=
  onPath s 0x70 0x02 f fun c =>
    let shm := c.active f &&& ~~~c.senseMask f
    let p := c.p.advanced (nextSlot c.p.pc) c.s.clock
    let p : Path := { p with shc := BitVec.ofNat 3 (f.immBits 0 3), shm := shm }
    let g := c.g.setPath c.pi (some p)
    .next (({ c.stayTrace c.s with fresh := c.s.fresh + 2 } : State).setGroup c.tid c.gi (g.marked f))

/-- The distinct numbers of a list, ascending. -/
def sortedDistinct (xs : List Nat) : List Nat :=
  xs.foldl (fun acc x => if acc.contains x then acc else (acc.filter (· < x)) ++ x :: acc.filter (x < ·)) []

/-- The targets of the lanes of A in ascending order, each with its lanes (R146). -/
def targetGroups (a : Mask) (target : Nat → Nat) : List (Nat × Mask) :=
  (sortedDistinct ((maskLanes a).map target)).map fun t => (t, a &&& maskOf fun l => target l == t)

/-- Move the lanes of targets, the lowest first, each into a free entry, the last with the current entry (R146): the group,
the entries that moved, the path of the current entry, and whether it stalled. -/
def peel (pi : Nat) (lk : VAddr) (clock : Nat) (p : Path) : List (Nat × Mask) → Group → List Nat →
    Group × List Nat × Path × Bool
  | [], g, es => (g, es, p, false)
  | [(t, _)], g, es => (g, pi :: es, { p.advanced (BitVec.ofNat 56 t) clock with lk := lk }, false)
  | (t, m) :: rest, g, es =>
    match g.freeEntry with
    | none => (g, es, p, true)
    | some j =>
      let take : Path := { mask := m, pc := BitVec.ofNat 56 t, lk := lk, since := clock }
      peel pi lk clock { p with mask := p.mask &&& ~~~m } rest (g.setPath j (some take)) (j :: es)

/-- A per-lane indirect transfer (R145, R146): every lane is checked before any moves, and each move acts as a set S. -/
def PathCtx.indirect (c : PathCtx) (fn : Nat) (f : Fields) (lk : VAddr) : Out :=
  let a := c.active f
  if a = 0 then
    .next ((c.stayTrace c.s).retirePath c.tid c.gi c.pi ((c.g.freeAll (lrRegs 0x70 fn f)).marked f))
  else
    let target := c.laneOp 0 f.sa 2
    let check (l : Nat) : Option (BitVec 8) := c.s.landing c.t (BitVec.ofNat 64 (target l))
    let bad := (maskLanes a).filter fun l => (check l).isSome
    match bad with
    | l0 :: _ =>
      c.landingFault ((check l0).getD 0) (maskOf bad.contains)
        (BitVec.ofNat 64 (bad.foldl (fun m l => min m (target l)) (2 ^ 64 - 1)))
    | [] =>
      let ts := targetGroups a target
      let r := peel c.pi lk c.s.clock c.p ts c.g []
      let g := r.1
      let divided : Nat := if ts.length = 1 ∧ c.p.mask = a then 1 else 2
      let first : VAddr := BitVec.ofNat 56 ((ts.map Prod.fst).headD 0)
      if r.2.2.2 then
        if r.2.1.isEmpty then c.splitStall g r.2.2.1
        else
          let stay : Path := { r.2.2.1 with st := if c.p.st = .handler then .handler else .splitStalled }
          c.moved (c.branchTrace c.s (c.p.mask &&& ~~~stay.mask) first 2) (g.setPath c.pi (some stay)) r.2.1
      else
        c.moved (c.branchTrace c.s a first divided) ((g.setPath c.pi (some r.2.2.1)).freeAll (lrRegs 0x70 fn f)) r.2.1

/-- `jmpi` (R145, R150). -/
def execJmpi (f : Fields) (s : State) : Out :=
  onBoth s 0x70 0x03 f
    (fun c =>
      if isUni f.sa then
        if c.effect f then c.transfer f c.g c.p.lk (c.uni 0 f.sa) else c.fallThrough f c.g
      else c.indirect 0x03 f c.p.lk)
    (fun c => c.transfer c.q (c.creg f.sa))

/-- `call` (R147). -/
def execCall (f : Fields) (s : State) : Out :=
  onBoth s 0x70 0x04 f
    (fun c =>
      if c.effect f then c.transfer f c.g (returnSlot c.p.pc) (directTarget c.p.pc f.imm) else c.fallThrough f c.g)
    (fun c => c.transfer { c.q with lk := returnSlot c.q.pc } (directTarget c.q.pc f.imm))

/-- `calli` (R145, R147). -/
def execCalli (f : Fields) (s : State) : Out :=
  onBoth s 0x70 0x05 f
    (fun c =>
      let lk := returnSlot c.p.pc
      if isUni f.sa then
        if c.effect f then c.transfer f c.g lk (c.uni 0 f.sa) else c.fallThrough f c.g
      else c.indirect 0x05 f lk)
    (fun c => c.transfer { c.q with lk := returnSlot c.q.pc } (c.creg f.sa))

/-- `ret` (R147). -/
def execRet (f : Fields) (s : State) : Out :=
  onBoth s 0x70 0x06 f
    (fun c => if c.effect f then c.transfer f c.g c.p.lk (c.p.lk.setWidth 64) else c.fallThrough f c.g)
    (fun c => c.transfer c.q (c.q.lk.setWidth 64))

/-- `dbnz` (R143, R150). -/
def execDbnz (f : Fields) (s : State) : Out :=
  onBoth s 0x70 0x07 f
    (fun c =>
      if c.effect f then
        let w := c.uni 3 f.d - 1
        let g := c.g.writeUni (f.d.toNat - 0xC0) w
        if w = 0 then c.fallThrough f g else c.transfer f g c.p.lk (directTarget c.p.pc f.imm)
      else c.fallThrough f c.g)
    (fun c =>
      if c.guard f then
        let w := c.creg f.d - 1
        let q := c.q.setC f.d w
        if w = 0 then c.fallThrough q else c.transfer q (directTarget c.q.pc f.imm)
      else c.fallThrough c.q)


/-- Pop one item for each lane in turn: the lanes that received one, the item vector, what is left (R149). -/
def popItems : List Nat → List Word32 → Mask → Lanes → Mask × Lanes × List Word32
  | l :: ls, w :: ws, m, v =>
    popItems ls ws (m ||| BitVec.ofNat 32 (2 ^ l)) (Lanes.ofFn fun k => if k = l then w else v.get k)
  | _, ws, m, v => (m, v, ws)

/-- `refill` (R149). -/
def execRefill (f : Fields) (s : State) : Out :=
  onPath s 0x70 0x09 f fun c =>
    match c.t.refill with
    | none => c.illegal 3 (assemble 0x70 0x09 f)
    | some rq =>
      if !c.s.atLandingPoint c.t c.p.pc then c.landingFault 0x02 (BitVec.allOnes 32) (c.p.pc.setWidth 64)
      else
        let out := c.released f
        let none_ : Word32 := BitVec.allOnes 32
        let p : Path := { c.p with mask := c.p.mask &&& ~~~out }
        let item := Lanes.ofFn fun l => if out.getLsbD l then none_ else c.g.item.get l
        let g := ({ c.g with em := c.g.em &&& ~~~out, item := item } : Group).setPath c.pi (some p)
        let v := ~~~g.live
        if v ≠ 0 ∧ rq.items.isEmpty ∧ rq.open_ then { c with p := p }.park g
        else
          let r := popItems (maskLanes v) rq.items 0 item
          let mask := p.mask ||| r.1
          let holds := mask &&& maskOf fun l => r.2.1.get l != none_
          let rq1 : RefillQueue := { rq with items := r.2.2 }
          let s := (c.stayTrace c.s).modTeam c.tid fun t => { t with refill := some rq1 }
          let g1 := ({ g with em := g.em ||| r.1, item := r.2.1 } : Group).writePred f.d.toNat (BitVec.allOnes 32) holds
          if mask = 0 ∧ !rq1.open_ ∧ rq1.items.isEmpty then .next (s.retirePath c.tid c.gi c.pi (g1.marked f))
          else { c with s := s, p := { p with mask := mask } }.retire f g1

end Sys2Proof.Machine
end

