-- ==== Sys2Proof/Machine/Descriptors.lean ====
section
/-! DEFINITION. Kernel descriptors (spec/03_assembly.md R49) and what a team takes from them.

Marked in the assumption log: 14 (DEDUCED). -/

namespace Sys2Proof.Machine

/-- ENTRY: the instruction index of the entry. -/
def descEntry (d : BitVec 512) : Nat := (d.extractLsb' 0 48).toNat

/-- Groups per team. -/
def descGroups (d : BitVec 512) : Nat := (d.extractLsb' 48 6).toNat

/-- The number of roles. -/
def descRoles (d : BitVec 512) : Nat := (d.extractLsb' 54 2).toNat + 1

/-- Whether the descriptor names a cox stream. -/
def descCox (d : BitVec 512) : Bool := d.getLsbD 56

/-- The scratch window in bytes. -/
def descWindow (d : BitVec 512) : Nat := (d.extractLsb' 64 16).toNat * 256

/-- The depth of the refill queue; 0 is none. -/
def descRefill (d : BitVec 512) : Nat := (d.extractLsb' 80 16).toNat

/-- The group count of a role. -/
def descCount (d : BitVec 512) (r : Nat) : Nat := (d.extractLsb' (96 + 8 * r) 8).toNat

/-- The floor of a role. -/
def descFloor (d : BitVec 512) (r : Nat) : Nat := (d.extractLsb' (128 + 16 * r) 8).toNat

/-- The ceiling of a role. -/
def descCeil (d : BitVec 512) (r : Nat) : Nat := (d.extractLsb' (136 + 16 * r) 8).toNat

/-- The index of the first burst entry. -/
def descBurst (d : BitVec 512) : Nat := (d.extractLsb' 320 32).toNat

/-- The number of burst entries. -/
def descBursts (d : BitVec 512) : Nat := (d.extractLsb' 352 32).toNat

/-- Count, floor and ceiling of each role (R64). -/
def descBudgets (d : BitVec 512) : List (Nat × Nat × Nat) :=
  (List.range (descRoles d)).map fun r => (descCount d r, descFloor d r, descCeil d r)

/-- A descriptor of the image that a team runs. -/
def State.descriptor (s : State) (t : Team) (idx : Nat) : Option (BitVec 512) :=
  ((s.grid t.grid).bind s.gridImage).bind fun im => im.descs[idx]?

/-- The address at which the groups of a descriptor start. -/
def State.entryOf (s : State) (t : Team) (idx : Nat) : VAddr :=
  (((s.grid t.grid).bind s.gridImage).map fun im => im.entries.getD idx 0).getD 0

end Sys2Proof.Machine
end

