-- ==== Sys2Proof/Machine/SaveArea.lean ====
section
/-! DEFINITION. The reservation of a team in its crew's save area (spec/15_traps.md R340; spec/18_launch.md R397).

Marked in the assumption log: 13 (DESIGN CHOICE). -/

namespace Sys2Proof.Machine

/-- The bytes of save area that a seat needs: itself, its bound slots, its closed and incomplete batches. -/
def Seat.saveNeed (q : Seat) : Nat := 43248 + 33800 * q.accs.length + 4 * (q.n - q.k).toNat

/-- The bytes that a team of a shape needs without the slots and batches of its seat. -/
def baseNeed (refill window groups : Nat) (seat : Bool) : Nat :=
  11232 + 4 * refill + window + 109072 * groups + if seat then 43248 else 0

/-- The reservation of a team (R397). -/
def Team.saveNeed (t : Team) : Nat :=
  baseNeed ((t.refill.map RefillQueue.depth).getD 0) t.winSize t.groups.length false + (t.seat.map Seat.saveNeed).getD 0

/-- The unreserved bytes of a crew's save area (R340). -/
def State.saveFree (s : State) (crew : Nat) : Nat :=
  (s.crew crew).savesize.toNat - (s.teams.map fun e =>
    if e.2.crew = crew ∧ !e.2.ended ∧ e.2.status ≠ .waiting ∧ e.2.status ≠ .movedOut then e.2.saveNeed else 0).sum

end Sys2Proof.Machine
end

