-- ==== Sys2Proof/Machine/Tiles.lean ====
section
/-! DEFINITION. The arithmetic of the matrix arrays: operand tiles, block scales, exact accumulation, conversion
(spec/11_matrix.md R238 to R245).

Marked in the assumption log: 29 (DEDUCED). -/

namespace Sys2Proof.Machine

/-- K of a form, by its FN (R238). -/
def matK (fn : Nat) : Nat := match fn with | 0 => 64 | 3 => 512 | _ => 128

/-- Bytes of a dense A tile. -/
def denseA : Nat := 8192

/-- Bytes of a dense B tile. -/
def denseB (fn : Nat) : Nat := if fn = 3 then 32768 else 8192

/-- Bytes of a stored operand: dense, or compressed (R240). -/
def storedBytes (fn : Nat) (sp : Bool) (dense : Nat) : Nat := if sp then 8 * matK fn + 128 + dense else dense

/-- Scale blocks (R238). -/
def scaleBlocks (fn : Nat) : Nat := matK fn / 64

/-- A signed integer as an operand. -/
def intVal (x : Int) : FVal := if x = 0 then .zero false else .fin (x < 0) x.natAbs 0

/-- The value of an element code of A or B, and whether it sets OPINV (R238). -/
def matElem (fn : Nat) (isA : Bool) (code : Nat) : FVal × Bool :=
  match fn with
  | 0 => (Fmt.bf16.unpack code, false)
  | 1 => (Fmt.f8.unpack code, false)
  | 2 => (intVal (readInt 8 true code), false)
  | _ => if isA then let r := ternValue code; (intVal r.1, r.2) else (intVal (readInt 8 true code), false)

/-- Element code `idx` of packed bytes from an offset: two bytes, one byte, or two bits. -/
def codeAt (fn : Nat) (isA : Bool) (bytes : Array Byte) (off idx : Nat) : Nat :=
  let byte (i : Nat) : Nat := (bytes.getD (off + i) 0).toNat
  match fn with
  | 0 => byte (2 * idx) + 256 * byte (2 * idx + 1)
  | 3 => if isA then byte (idx / 4) / 4 ^ (idx % 4) % 4 else byte idx
  | _ => byte idx

/-- A row of a compressed operand (R240): its elements in order of `k`, with OPINV where one asks for it. `next` is the value
index of the next stored value. -/
def sparseRow (fn : Nat) (isA : Bool) (bytes : Array Byte) (row : Nat) : Nat → Nat → Nat → List FVal × Bool
  | 0, _, _ => ([], false)
  | left + 1, k, next =>
    let kk := matK fn
    let set := (bytes.getD (row * (kk / 8) + k / 8) 0).getLsbD (k % 8)
    let v : FVal × Bool :=
      if !set then (.zero false, false)
      else if 64 * kk ≤ next then (.zero false, true)
      else matElem fn isA (codeAt fn isA bytes (8 * kk + 128) next)
    let rest := sparseRow fn isA bytes row left (k + 1) (if set then next + 1 else next)
    (v.1 :: rest.1, v.2 || rest.2)

/-- A row of A, or a column of B (R238, R240). -/
def tileRow (fn : Nat) (sp isA : Bool) (bytes : Array Byte) (row : Nat) : List FVal × Bool :=
  let kk := matK fn
  if sp then
    let o := 8 * kk + 2 * row
    sparseRow fn isA bytes row kk 0 ((bytes.getD o 0).toNat + 256 * (bytes.getD (o + 1) 0).toNat)
  else
    let es := (List.range kk).map fun k => matElem fn isA (codeAt fn isA bytes 0 (row * kk + k))
    (es.map Prod.fst, es.any Prod.snd)

/-- The contribution of one product to an element (R242, R244): `fin x e` is `x × 2^e`, nonzero. -/
inductive Term where
  | nan | inf (neg : Bool) | none | fin (x e : Int)
  deriving DecidableEq, Repr

/-- The product of two elements under the sum of their scales. -/
def term (a b : FVal) (scale : Int) : Term :=
  match a, b with
  | .nan _, _ | _, .nan _ => .nan
  | .inf _, .zero _ | .zero _, .inf _ => .nan
  | .inf x, .inf y | .inf x, .fin y _ _ | .fin x _ _, .inf y => .inf (x != y)
  | .zero _, _ | _, .zero _ => .none
  | .fin x m e, .fin y n f => .fin (if x != y then -((m * n : Nat) : Int) else ((m * n : Nat) : Int)) (e + f + scale)

/-- The terms of one element: row, column, and the scales of their blocks. -/
def terms (row col : List FVal) (scale : Nat → Int) : List Term :=
  (row.zip col).mapIdx fun k p => term p.1 p.2 (scale (k / 64))

/-- The larger of two exponents that may be absent. -/
def maxExp (a b : Option Int) : Option Int :=
  match a, b with
  | some x, some y => some (max x y)
  | some x, none => some x
  | none, y => y

/-- The product exponent of a term (R242). -/
def Term.exp : Term → Option Int
  | .fin x e => some (bitLen x.natAbs - 1 + e)
  | _ => Option.none

/-- `floor(x × 2^n)`. -/
def alignShift (x n : Int) : Int := if 0 ≤ n then x * 2 ^ n.toNat else x / 2 ^ (-n).toNat

/-- The exact sum of the aligned products (R243). -/
def termSum (e : Int) (ts : List Term) : Int :=
  ts.foldl (fun acc t => match t with
    | .fin x p => acc + alignShift x (p + 46 - e)
    | _ => acc) 0

/-- The new tag of an element and its flags (R244). -/
def termTag (old : Tag) (ts : List Term) : Tag × FlagSet :=
  let pos := ts.contains (.inf false)
  let neg := ts.contains (.inf true)
  if ts.contains .nan ∨ (pos ∧ neg) ∨ (pos ∧ old = .negInf) ∨ (neg ∧ old = .posInf) then (.nan, Flag.inv)
  else if old ≠ .finite then (old, 0)
  else if pos then (.posInf, 0)
  else if neg then (.negInf, 0)
  else (.finite, 0)

/-- The update of one element: F rescaled, the sum added and clamped, the tag set (R243, R244). -/
def accElem (e shift : Int) (f : Int) (tag : Tag) (ts : List Term) : Int × Tag × FlagSet :=
  let x := alignShift f (-shift) + termSum e ts
  let c := if x < -(2 ^ 63) then -(2 ^ 63) else if 2 ^ 63 - 1 < x then 2 ^ 63 - 1 else x
  let t := termTag tag ts
  (c, t.1, flagIf (c != x) Flag.accsat ||| t.2)

/-- The scale exponent of a row or column in a block, from the selected bytes (R239). -/
def scaleAt (bytes : Array Byte) (block row : Nat) : Int := (bytes.getD (64 * block + row) 0).toInt

/-- The operation of an array on a slot (R242 to R244), and the flags that it sets. -/
def accumulate (fn : Nat) (sp : Bool) (a b sa sb : List Byte) (slot : Slot) : Slot × FlagSet :=
  let ab := a.toArray
  let bb := b.toArray
  let rows := (List.range 64).map (tileRow fn sp true ab)
  let cols := (List.range 64).map (tileRow fn sp false bb)
  let sca := sa.toArray
  let scb := sb.toArray
  let all := rows.mapIdx fun i r => cols.mapIdx fun n c =>
    terms r.1 c.1 fun j => scaleAt sca j i + scaleAt scb j n
  let ts := all.flatten
  let m := ts.foldl (fun acc t => t.foldl (fun acc x => maxExp acc x.exp) acc) none
  let opinv : FlagSet := flagIf (rows.any Prod.snd || cols.any Prod.snd) Flag.opinv
  let exp := match m, slot.exp with
    | some x, some e => some (max x e)
    | some x, none => some x
    | none, e => e
  let shift := match exp, slot.exp with
    | some x, some e => x - e
    | _, _ => 0
  let fs := slot.f.toArray
  let tags := slot.tags.toArray
  let rs := ts.mapIdx fun i t => accElem (exp.getD 0) shift (fs.getD i 0) (tags.getD i .finite) t
  ({ slot with exp := exp, f := rs.map fun r => r.1, tags := rs.map fun r => r.2.1 },
   rs.foldl (fun fl r => fl ||| r.2.2) opinv)

/-- The conversion of one element (R245). -/
def convert (t : Fmt) (e f : Int) (tag : Tag) : Nat × FlagSet :=
  match tag with
  | .nan => (t.nan, 0)
  | .posInf => (t.inf false, 0)
  | .negInf => (t.inf true, 0)
  | .finite => if f = 0 then (0, 0) else rnd t .rn (f < 0) f.natAbs (e - 46)

/-- The output tile of an `afin` as bytes, and its flags. -/
def convertSlot (bf16 : Bool) (slot : Slot) : List Byte × FlagSet :=
  let t := if bf16 then Fmt.bf16 else Fmt.f32
  let fs := slot.f.toArray
  let tags := slot.tags.toArray
  let rs := (List.range 4096).map fun i => convert t (slot.exp.getD 0) (fs.getD i 0) (tags.getD i .finite)
  (rs.flatMap fun r => leBytes (if bf16 then 2 else 4) r.1, rs.foldl (fun fl r => fl ||| r.2) 0)

end Sys2Proof.Machine
end

