-- ==== Sys2Proof/Machine/Seats.lean ====
section
/-! DEFINITION. The cox: scratch addresses of a seat, the loop-nest unit (OPC 0xB1), `cxwait`, accumulator slots and the
batches of a seat (spec/11_matrix.md R230 to R237, R246 to R259).

Marked in the assumption log: 29 (DEDUCED), 42 (DEDUCED). -/

namespace Sys2Proof.Machine

/-! Scratch addresses of a seat (R233) -/

/-- The checks of one byte of a cluster scratch address for a seat: an octet that its crew does not own is 0x04. -/
def SeatCtx.clusterByte (c : SeatCtx) (a : Nat) : Except (BitVec 8) Nat :=
  if a < 2 ^ 24 ∧ !c.s.ownsCore c.t.crew (clusterOf c.t.core * 32 + a / 2 ^ 19) then .error 0x04 else c.s.scratchCell c.t a

/-- The checks of one byte of a seat's scratch: `i` bytes above the address in a c register. -/
def SeatCtx.coxByte (c : SeatCtx) (w : Word64) (i : Nat) : Except (BitVec 8) Nat :=
  if w.toNat / 2 ^ 25 ≠ 0 then .error 0x06
  else if w.getLsbD 24 then
    if w.toNat / 2 ^ 19 % 32 ≠ 0 ∨ c.t.winSize ≤ w.toNat % 2 ^ 19 + i then .error 0x06
    else c.clusterByte (c.t.windowAddr + w.toNat % 2 ^ 19 + i)
  else c.clusterByte (w.toNat + i)

/-- Whether the check of a byte gives a code. -/
def SeatCtx.byteFails (c : SeatCtx) (w : Word64) (code : BitVec 8) (i : Nat) : Bool := failed (c.coxByte w i) == some code

/-- The checks of an operand of `n` bytes: its range, then its alignment (R252). -/
def SeatCtx.rangeFault (c : SeatCtx) (w : Word64) (n align : Nat) : Option (BitVec 8) :=
  if (List.range n).any (c.byteFails w 0x06) then some 0x06
  else if (List.range n).any (c.byteFails w 0x04) then some 0x04
  else if w.toNat % align ≠ 0 then some 0x05
  else none

/-- The scratch cell of a byte of a seat's operand, unchecked (R258). -/
def Team.coxCell (t : Team) (w : Word64) (i : Nat) : Nat :=
  let a := if w.getLsbD 24 then t.windowAddr + w.toNat % 2 ^ 19 + i else w.toNat % 2 ^ 24 + i
  (clusterOf t.core * 32) * 2 ^ 19 + a

/-- Bytes of a seat's operand. -/
def State.coxRead (s : State) (t : Team) (w : Word64) (n : Nat) : List Byte :=
  (List.range n).map fun i => s.scratch.read (t.coxCell w i)

/-! The loop-nest unit (R235 to R237) -/

/-- The 32-bit value of SB or the immediate. -/
def SeatCtx.sbWord (c : SeatCtx) (f : Fields) : Word32 := if f.useImm then f.imm else (c.creg f.sb).setWidth 32

/-- The address of a stream. -/
def Seat.streamAddr (q : Seat) (k : LoopStream) : Word64 :=
  (List.range 4).foldl (fun acc i =>
    acc + (k.coef.toArray.getD i 0).signExtend 64 * (q.ind.toArray.getD i 0).setWidth 64) k.base

/-- Write the address of each enabled stream, in ascending order. -/
def Seat.writeStreams (q : Seat) : Seat :=
  q.streams.toList.foldl (fun r k => if k.enabled then r.setC (BitVec.ofNat 8 k.dest) (q.streamAddr k) else r) q

/-- Step the induction variables from level `k` up; whether the nest has more to do. -/
def stepNest (bounds : Vector Word32 4) : Nat → Nat → Vector Word32 4 → Vector Word32 4 × Bool
  | 0, _, v => (v, false)
  | left + 1, k, v =>
    let x := v.toArray.getD k 0 + 1
    if x.toNat < (bounds.toArray.getD k 1).toNat ∧ x ≠ 0 then (v.setIfInBounds k x, true)
    else stepNest bounds left (k + 1) (v.setIfInBounds k 0)

/-- `lnbnd`. -/
def execLnbnd (f : Fields) (s : State) : Out :=
  onSeat s 0xB1 0x00 f fun c =>
    if c.guard f then
      let b := c.sbWord f
      c.retire { c.q with bounds := c.q.bounds.setIfInBounds f.sc.toNat (if b = 0 then 1 else b) }
    else c.retire c.q

/-- Change a stream. -/
def Seat.modStream (q : Seat) (k : Nat) (f : LoopStream → LoopStream) : Seat :=
  match q.streams.toList[k]? with
  | some x => { q with streams := q.streams.setIfInBounds k (f x) }
  | none => q

/-- `lncoef`. -/
def execLncoef (f : Fields) (s : State) : Out :=
  onSeat s 0xB1 0x01 f fun c =>
    if c.guard f then
      c.retire (c.q.modStream (f.sc.toNat / 4) fun x =>
        { x with coef := x.coef.setIfInBounds (f.sc.toNat % 4) (c.sbWord f) })
    else c.retire c.q

/-- `lnbase s, cD, cA`. -/
def execLnbase (f : Fields) (s : State) : Out :=
  onSeat s 0xB1 0x02 f fun c =>
    if c.guard f then
      c.retire (c.q.modStream f.sc.toNat fun x => { x with enabled := true, base := c.creg f.sa, dest := f.d.toNat })
    else c.retire c.q

/-- `lnbase.off s`. -/
def execLnbaseOff (f : Fields) (s : State) : Out :=
  onSeat s 0xB1 0x02 f fun c =>
    if c.guard f then c.retire (c.q.modStream f.sc.toNat fun x => { x with enabled := false }) else c.retire c.q

/-- `lnstart`. -/
def execLnstart (f : Fields) (s : State) : Out :=
  onSeat s 0xB1 0x03 f fun c =>
    if c.guard f then
      let q : Seat := { c.q with ind := Vector.replicate 4 0 }
      c.retire q.writeStreams
    else c.retire c.q

/-- `lnnext`. -/
def execLnnext (f : Fields) (s : State) : Out :=
  onSeat s 0xB1 0x04 f fun c =>
    if c.guard f then
      let r := stepNest c.q.bounds 4 0 c.q.ind
      let q := ({ c.q with ind := r.1 } : Seat).setP f.d.toNat r.2
      c.retire q.writeStreams
    else c.retire c.q

/-! `cxwait` (R259) -/

/-- The word of a `cxwait`, or the fault of its address. -/
def SeatCtx.waitWord (c : SeatCtx) (w : Word64) : Except (BitVec 8) Word32 :=
  match c.rangeFault w 4 4 with
  | some code => .error code
  | none =>
    let cell := c.t.coxCell w 0
    if c.s.poison.contains (.scratch (cell / 8)) then .error 0x13
    else .ok (BitVec.ofNat 32 (leNat (c.s.coxRead c.t w 4)))

/-- `cxwait`. -/
def execCxwait (f : Fields) (s : State) : Out :=
  onSeat s 0xB0 0x08 f fun c =>
    if c.guard f then
      let w := c.creg f.sa
      match c.waitWord w with
      | .error code =>
        c.fault code 0 w (if code = 0x13 then BitVec.ofNat 128 (3 + c.t.coxCell w 0 * 2 ^ 64) else 0)
      | .ok x =>
        if reached x (c.sbWord f) then c.retire (c.q.setC f.d (x.setWidth 64))
        else .next (c.s.modSeat c.tid fun q => { q with st := .parked })
    else c.retire c.q

/-! Slots (R246 to R248) -/

/-- Whether an operation of a seat is outstanding on a slot. -/
def Seat.busy (q : Seat) (core slot : Nat) : Bool := q.ops.any fun o => o.core == core && o.slot == some slot

/-- Free the released slots of a seat on which nothing is outstanding (R254). -/
def State.freeReleased (s : State) (tid : Nat) (q : Seat) (all : Bool) : State :=
  { s with cores := s.cores.map fun c =>
      (c.1, { c.2 with slots := c.2.slots.filter fun k =>
        !(k.2.team == tid && (all || k.2.released) && !q.busy c.1 k.1) }) }

/-- The free slot of the lowest number on a core. -/
def State.freeSlot (s : State) (core : Nat) : Option Nat :=
  (List.range 16).find? fun k => (aget k (s.core core).slots).isNone

/-- Whether what a seat of a team waits for is free again; a slot has to find room in the save area too (R397). -/
def State.freed (s : State) (tid : Nat) (t : Team) : SeatWait → Bool
  | .slot core => (s.freeSlot core).isSome && 33800 ≤ s.saveFree t.crew
  | .queue core => (s.core core).queue.length < 16
  | .latch core => match (s.core core).latch with
    | some l => l.1 == tid
    | none => true
  | .room n => n ≤ s.saveFree t.crew

/-- Whether a team's seat is stalled for a slot that is not free (R230, R248). -/
def State.stalledForSlot (s : State) (tid : Nat) : Bool :=
  match s.team tid with
  | some t => match t.seat with
    | some q => q.st == .stalled && (match q.waits with
      | some (.slot core) => !s.freed tid t (.slot core)
      | _ => false)
    | none => false
  | none => false

/-- Whether a seat stalled for a slot on a core completes the condition of R248. -/
def State.exhausted (s : State) (core : Nat) : Bool :=
  (List.range 16).all fun k => match aget k (s.core core).slots with
    | some x => !x.released && s.stalledForSlot x.team
    | none => false

/-- The stalled seats whose resource is free again run (R230). -/
def State.endStalls (s : State) : State :=
  s.teams.foldl (fun u e => match e.2.seat with
    | some q => match q.waits with
      | some w => if q.st = .stalled ∧ s.freed e.1 e.2 w then u.modSeat e.1 fun q => { q with st := .running, waits := none } else u
      | none => u
    | none => u) s

/-- Stall the seat for a resource. -/
def SeatCtx.stall (c : SeatCtx) (w : SeatWait) : State :=
  c.s.modSeat c.tid fun q => { q with st := .stalled, waits := some w }

/-- Stall for a slot, with the fault 0x0A where every slot of the core is bound to a seat so stalled (R248). -/
def SeatCtx.stallSlot (c : SeatCtx) (core : Nat) : Out :=
  let s := c.stall (.slot core)
  if s.exhausted core then c.fault 0x0A else .next s

/-- The core and slot of a bound accumulator. -/
def Seat.accAt (q : Seat) (acc : Nat) : Option (Nat × Nat) := aget acc q.accs

/-- Change a slot. -/
def State.modSlot (s : State) (core slot : Nat) (f : Slot → Slot) : State :=
  s.modCore core fun c => { c with slots := amod slot f c.slots }

/-! Batches (R255 to R257) -/

/-- The flags of batch `b` with more ORed in. -/
def Seat.raiseBatch (q : Seat) (b : Word32) (fl : FlagSet) : Seat :=
  { q with flags := q.flags ||| fl, batchFlags := aput b ((aget b q.batchFlags).getD 0 ||| fl) q.batchFlags }

/-- Advance K past the batches that are complete, keeping the flags of the last 256 (R257). -/
def Seat.advance (q : Seat) : Nat → Seat
  | 0 => q
  | n + 1 =>
    if q.k = q.n ∨ (q.ops.any fun o => o.batch == q.k + 1) then q
    else ({ q with k := q.k + 1, batchFlags := adel (q.k + 1 - 256) q.batchFlags } : Seat).advance n

/-- Close the open batch (R255). -/
def Seat.close (q : Seat) : Seat :=
  ({ q with n := q.n + 1, opened := false } : Seat).advance ((q.n + 1 - q.k).toNat)

/-- An operation of a seat is complete: it leaves the list, its flags are raised, K advances, released slots become free. -/
def State.completeOp (s : State) (tid : Nat) (o : MatOp) (fl : FlagSet) : State :=
  match s.team tid with
  | none => s
  | some t =>
    match t.seat with
    | none => s
    | some q =>
      let q := ({ q with ops := q.ops.filter fun x => x.id != o.id } : Seat).raiseBatch o.batch fl
      let q := q.advance ((q.n - q.k).toNat)
      ((s.modSeat tid fun _ => q).freeReleased tid q t.killed).progress tid

/-- Empty the latches that a team's seat owns. -/
def State.emptyLatches (s : State) (tid : Nat) : State :=
  { s with cores := s.cores.map fun c =>
      (c.1, { c.2 with latch := match c.2.latch with
        | some l => if l.1 = tid then none else some l
        | none => none }) }

/-- The end of a seat at its `exit` (R234, R249). -/
def State.exitSeat (s : State) (tid : Nat) (q : Seat) : State :=
  let q := if q.opened then q.close else q
  let q : Seat := { q with st := .exited, accs := [], waits := none }
  let s := (s.modSeat tid fun _ => q).emptyLatches tid
  let s1 : State := { s with cores := s.cores.map fun c =>
      (c.1, { c.2 with slots := c.2.slots.map fun k =>
        if k.2.team = tid then (k.1, { k.2 with released := true }) else k }) }
  (s1.freeReleased tid q false).progress tid

/-- `exit` (R148, R234). -/
def execExit (f : Fields) (s : State) : Out :=
  onBoth s 0x70 0x08 f
    (fun c =>
      let a := c.active f
      let s := c.stayTrace c.s
      if a = 0 then { c with s := s }.skipOver 0x70 0x08 f
      else
        let g : Group := { c.g with em := c.g.em &&& ~~~a }
        let m := c.p.mask &&& ~~~a
        if m = 0 then .next ({ s with fresh := s.fresh + 2 }.retirePath c.tid c.gi c.pi (g.marked f))
        else { c with s := s, p := { c.p with mask := m } }.retire f g)
    fun c =>
      if c.guard f then .next ((c.branchTrace (nextSlot c.q.pc) 0).exitSeat c.tid { c.q with issued := c.q.issued + 1 })
      else c.fallThrough c.q

/-- The `cxwait` at which a seat stands. -/
def SeatCtx.parkedOn (c : SeatCtx) : Option Fields :=
  match c.s.codeLine c.t c.q.pc, slotOf c.q.pc with
  | .ok line, some k =>
    let w := lineSlot line k
    if opcOf w = 0xB0 ∧ fnOf w = 0x08 then some (fieldsOf w) else none
  | _, _ => none

/-- CXWAIT_RECHECK (R230, R259): a parked seat reads its word again; it runs again where the word has reached the value, or can no
longer be read. -/
def execCxwaitRecheck (tid : Nat) (s : State) : Out :=
  match s.seatCtx tid with
  | none => .refused .notEnabled
  | some c =>
    let goes : Bool := match c.parkedOn with
      | some f => match c.waitWord (c.creg f.sa) with
        | .ok x => reached x (c.sbWord f)
        | .error _ => true
      | none => true
    if c.q.st = .parked ∧ c.t.status = .resident ∧ goes then .next (s.modSeat tid fun q => { q with st := .running })
    else .refused .notEnabled

end Sys2Proof.Machine
end

