-- ==== Sys2Proof/Machine/Pause.lean ====
section
/-! DEFINITION. How a team leaves its core: the drain window, the save of its groups, of its seat and of itself
(spec/15_traps.md R337 to R343; spec/10_copy.md R219, R228; spec/11_matrix.md R261; spec/12_views.md R275; spec/16_crews.md
R366). A saved team stays in the machine's list of teams, with what the format of R341 holds of it (assumption 13).

Marked in the assumption log: 36 (DEDUCED). -/

namespace Sys2Proof.Machine

/-! The drain window (R338, R339) -/

/-- Open the drain window of a team: it takes no new work, a check of its fork set is abandoned (R275). -/
def State.openWindow (s : State) (tid endAt : Nat) : State :=
  match s.team tid with
  | none => s
  | some t =>
    if t.status ≠ .resident ∨ t.ended then s
    else
      let s := s.modTeam tid fun t =>
        { t with status := .draining, drainEnd := endAt, forkSet := t.forkSet.map fun f =>
            if f.st = .checking then { f with st := .ended } else f }
      { s with cmds := s.cmds.map fun e => if e.2.team = tid ∧ e.2.st = .running then (e.1, e.2.yieldSoon) else e }

/-! Saving a group (R339, R342, R228) -/

/-- The lanes of pending accesses that wait for a translation find it, or fault, and pages that they wait for are cleared. -/
def State.settleGroup (s : State) (tid gi : Nat) : State :=
  match s.team tid, s.group tid gi with
  | some t, some g =>
    let lanes := g.pend.flatMap Access.lanes
    let s := s.translateNow t lanes
    let s := (lanes.filter fun l => l.st == .scrubbing).foldl (fun s l => s.clearPage t.crew (l.pa / 65536)) s
    let s := s.goOn tid gi
    let miss (l : LaneAcc) : LaneAcc :=
      if l.st = .walk then match s.walk t.crew l.addr with
        | .error code => { l with st := .faulted code }
        | .ok _ => l
      else l
    let s := s.modGroup tid gi fun g => { g with pend := g.pend.map fun a => { a with lanes := a.lanes.map miss } }
    g.pend.foldl (fun s a => s.deliverAccess tid gi a.id) s
  | _, _ => s

/-- The stores to scratch that stand in the buffer are performed before the window is saved. -/
def State.drainScratch (s : State) (tid gi : Nat) : State :=
  match s.team tid, s.group tid gi with
  | some t, some g =>
    g.sbuf.foldl (fun s a =>
      let ls := a.lanes.filter fun l => l.st == .ready && (match l.target with | .scratch _ => true | _ => false)
      if ls.isEmpty then s else s.sendStore t ⟨tid, gi⟩ a ls) s
  | _, _ => s

/-- What a save keeps of an engine command (R228): one that has begun to write keeps the bytes that it read when it issued, so that
a split command writes what the unsplit one would have written (R229); an unstarted one reads its sources when it runs again; a
collective without its result is unstarted. -/
def Command.atSave (c : Command) : Command :=
  let afresh : Command := { c with data := c.data.map fun _ => none }
  match c.kind with
  | .copy _ _ | .gather _ _ _ => if c.done = 0 ∧ !c.isFaulted then afresh else c
  | .coll _ _ _ _ => if c.acked then c else { afresh with st := if c.isFaulted then c.st else .waiting }
  | .post _ => afresh
  | _ => c

/-- The team in whose window a scratch address of a command lies, and where that window begins (R229). -/
def State.windowHome (s : State) (t : Team) (sp a : Nat) : Option (Nat × Nat) :=
  if sp ≠ 1 then none
  else (s.windowOf t.grid (clusterOf t.core * 32 + a / 2 ^ 19) (a % 2 ^ 19)).map fun e => (e.1, e.2.windowAddr)

/-- A command of a team that leaves its core, with the windows in which its ranges lie. -/
def State.markWindows (s : State) (t : Team) (c : Command) : Command :=
  { c with dstWin := s.windowHome t c.dsp c.dst, srcWin := s.windowHome t c.ssp c.src }

/-- Whether a group has a `cpyy` that has still to yield. -/
def State.yieldsDue (s : State) (tid gi : Nat) : Bool :=
  s.cmds.any fun e => e.2.team == tid && e.2.group == gi && e.2.st == .running && (match e.2.kind with | .copy y _ => y | _ => false)

/-- Whether lanes of a group's loads and atomics that have not faulted still wait for their data from a peer (R339). -/
def Group.dataDue (g : Group) : Bool :=
  g.pend.any fun a => (match a.kind with | .load | .atomic _ _ => true | _ => false) && a.lanes.any fun l => l.st == .outside

/-- Clear the page that the next byte of a command waits for. -/
def State.clearFor (s : State) (t : Team) (c : Command) : State :=
  match c.dsp, s.translate t.core t.crew c.nextByte.2.2 with
  | 0, .ok e =>
    let pa := e.at_ c.nextByte.2.2
    if s.unscrubbed t.crew pa then s.clearPage t.crew (pa / 65536) else s
  | _, _ => s

/-- Bring a running command to its end or yield point before a save: a page that it waits for is cleared, a fault stops it. -/
def State.finishCommand (s : State) (id : Nat) : Nat → State
  | 0 => s
  | n + 1 =>
    match aget id s.cmds with
    | none => s
    | some c =>
      match s.engineTeam c with
      | none => s
      | some t =>
        if c.st ≠ .running ∨ c.len ≤ c.done then s
        else if c.atYield then s.modCmd id fun c => { c with len := c.done, st := .complete }
        else if s.behindCommand id c then s
        else match s.engineByte t id c with
          | .fault code sp a => s.commandFault id c code 0 (BitVec.ofNat 64 a) (s.errorDetail t code sp a)
          | .wait s1 => (s1.clearFor t c).finishCommand id n
          | .done _ => ((s.engineGo id 256 t c).getD s).finishCommand id n

/-- The running `cpyy` commands of a group run to their yield points (R219), the `take` commands that have their message to their
end: neither leaves a remainder (R228). -/
def State.yieldNow (s : State) (tid gi : Nat) : State :=
  (s.cmds.filter fun e => e.2.team = tid ∧ e.2.group = gi ∧ e.2.st = .running).foldl (fun s e =>
    match e.2.kind with
    | .copy true _ => (s.modCmd e.1 Command.yieldSoon).finishCommand e.1 8
    | .take _ => s.finishCommand e.1 8
    | _ => s) s

/-- The collectives to which a group's commands belong are abandoned for every rank (R222, R228). -/
def State.abandon (s : State) (tid gi : Nat) : State :=
  let keys := (s.cmds.filter fun e => e.2.team == tid && e.2.group == gi && !e.2.formed).filterMap fun e => s.collKey e.2
  { s with cmds := s.cmds.map fun e => match s.collKey e.2 with
      | some k => if keys.contains k ∧ !e.2.formed ∧ e.2.st = .arrived then (e.1, e.2.atSave) else e
      | none => e }

/-- The lanes that can be settled, the stores to scratch and the commands that leave no remainder, before a group is saved. -/
def State.readySave (s : State) (tid gi : Nat) : State := ((s.settleGroup tid gi).drainScratch tid gi).yieldNow tid gi

/-- Whether a group that has been made ready still waits for something before its save: data of a peer, a `cpyy` that has not
yielded. -/
def State.saveWaits (s : State) (tid gi : Nat) : Bool :=
  s.yieldsDue tid gi || ((s.group tid gi).map Group.dataDue).getD false

/-- Write the save of a group that has been made ready: its fixed-latency results and the lanes that have not faulted are written
(R339). -/
def State.saveGroup (s : State) (tid gi : Nat) : State :=
  match s.team tid with
  | none => s
  | some t =>
    let s := s.abandon tid gi
    let s1 : State := { s with cmds := s.cmds.map fun e =>
      if e.2.team = tid ∧ e.2.group = gi then (e.1, s.markWindows t e.2.atSave) else e }
    s1.modGroup tid gi fun g => { g with held := false, inflight := [], saved := true }

/-! Saving a team (R341, R261) -/

/-- The ranges of scratch, as first cell and length, that an operation of a team's seat reads or writes. -/
def Team.opRanges (t : Team) (o : MatOp) : List (Nat × Nat) :=
  match o.kind with
  | .azero => []
  | .afin bf16 dst => [(t.coxCell dst 0, if bf16 then 8192 else 16384)]
  | .mma fn sp a b sc scl _ _ =>
    [(t.coxCell a 0, storedBytes fn sp denseA), (t.coxCell b 0, storedBytes fn sp (denseB fn))] ++
      if scl then [(t.coxCell (sc.extractLsb' 0 25 |>.setWidth 64) 0, 256 * scaleBlocks fn),
        (t.coxCell (sc.extractLsb' 32 25 |>.setWidth 64) 0, 256 * scaleBlocks fn)] else []

/-- Whether a started operation of some seat reads or writes a range of scratch (R258). -/
def State.opsTouch (s : State) (lo n : Nat) : Bool :=
  s.teams.any fun e => match e.2.seat with
    | some q => q.ops.any fun o => o.started && (e.2.opRanges o).any fun r => r.1 < lo + n && lo < r.1 + r.2
    | none => false

/-- The first cell of a team's window in scratch. -/
def Team.windowCell (t : Team) : Nat := t.core * 2 ^ 19 + t.winBase

/-- Whether everything of a draining team is ready to be put away: its groups saved, nothing of its seat running, no operation of any
seat at work on its window (R258, R261). -/
def State.quiet (s : State) (t : Team) : Bool :=
  t.status == .draining && (t.groups.all fun g => g.ended || g.saved) &&
  (match t.seat with | some q => q.ops.all fun o => !o.started | none => true) && !s.opsTouch t.windowCell t.winSize

/-- Clear a range of scratch, its poison included. -/
def State.zeroScratch (s : State) (lo n : Nat) : State :=
  { s with
    scratch := s.scratch.clear lo n
    poison := s.poison.filter fun u => match u with | .scratch w => !(lo ≤ 8 * w && 8 * w < lo + n) | _ => true }

/-- A seat as a save keeps it: a stall ends, and a seat that `trap` has stopped stands at the instruction at which it resumes (R230,
R349). -/
def Seat.atSave (q : Seat) (latches : List (Nat × Nat × Bool × List Byte × List Byte)) : Seat :=
  { q with latches := latches, st := if q.st = .stalled then .running else q.st, waits := none
           pc := q.deferred.getD q.pc, deferred := none }

/-- The slots and latches of a team's seat, as the save keeps them, and the cores without them (R261). -/
def State.takeSeat (s : State) (tid : Nat) (t : Team) : State × Team :=
  let slots := s.cores.flatMap fun c => (c.2.slots.filter fun k => k.2.team == tid).map fun k => (c.1, k.1, k.2)
  let latches := s.cores.filterMap fun c => c.2.latch.bind fun l => if l.1 = tid then some (c.1, l.2) else none
  let cores := s.cores.map fun c =>
    (c.1, { c.2 with slots := c.2.slots.filter fun k => k.2.team != tid
                     queue := c.2.queue.filter fun e => e.1 != tid
                     latch := match c.2.latch with
                       | some l => if l.1 = tid then none else some l
                       | none => none })
  ({ s with cores := cores }, { t with slots := slots, seat := t.seat.map fun q => q.atSave latches })

/-- Put a quiet team away: its window leaves scratch, its slots leave the arrays. -/
def State.finishSave (s : State) (tid : Nat) : State :=
  match s.team tid with
  | none => s
  | some t =>
    if !s.quiet t then s
    else
      let lo := t.windowCell
      let window : Mem := (s.scratch.filter fun c => lo ≤ c.1 && c.1 < lo + t.winSize).map fun c => (c.1 - lo, c.2)
      let bad := s.poison.filterMap fun u => match u with
        | .scratch w => if lo ≤ 8 * w ∧ 8 * w < lo + t.winSize then some (w - lo / 8) else none
        | _ => none
      let r := (s.zeroScratch lo t.winSize).takeSeat tid { t with status := .saved, window := window, windowBad := bad }
      (r.1.setTeam tid r.2).endStalls

/-- Save what is left of a team at once (R339): its groups halt where they stand; one that still waits for data of a peer is saved
when it has them. Operations still queued leave the queue. -/
def State.forceSave (s : State) (tid : Nat) : State :=
  match s.team tid with
  | none => s
  | some t =>
    let s := (List.range t.groups.length).foldl (fun s gi =>
      match s.group tid gi with
      | some g => if g.ended ∨ g.saved then s
        else
          let s := (s.modGroup tid gi fun g => { g with fullSave := g.fullSave || !g.halted }).readySave tid gi
          if s.saveWaits tid gi then s else s.saveGroup tid gi
      | none => s) s
    let s1 : State := { s with cores := s.cores.map fun c => (c.1, { c.2 with queue := c.2.queue.filter fun e => e.1 != tid }) }
    s1.finishSave tid

/-- Whether a team still has a group that is not saved. -/
def Team.unsaved (t : Team) : Bool := t.groups.any fun g => !g.ended && !g.saved

/-- An octet on which every team is saved is drained (R366). -/
def State.drainedOctet (s : State) (o : Nat) : State :=
  let busy : Bool := s.teams.any fun e => octetOf e.2.core == o && !e.2.ended && (e.2.status == .resident || e.2.status == .draining)
  match aget o s.octets with
  | some (.draining, crew) => if busy then s else { s with octets := aput o (.drained, crew) s.octets }
  | _ => s

/-- GROUP_SAVE (R339): a group that has halted is saved once its `cpyy` commands have yielded and the data that it still waits for
have come. -/
def execGroupSave (ref : GroupRef) (s : State) : Out :=
  match s.team ref.team, s.group ref.team ref.group with
  | some t, some g =>
    let s1 := s.readySave ref.team ref.group
    if t.status = .draining ∧ !g.ended ∧ !g.saved ∧ g.halted ∧ !s.yieldsDue ref.team ref.group ∧ !s1.saveWaits ref.team ref.group then
      .next (((s1.saveGroup ref.team ref.group).finishSave ref.team).drainedOctet (octetOf t.core))
    else .refused .notEnabled
  | _, _ => .refused .notEnabled

/-- Open the drain window of a team; one with nothing to drain is put away at once. -/
def State.drainTeam (s : State) (tid endAt : Nat) : State := (s.openWindow tid endAt).finishSave tid

/-- Start the pre-emption of a team with a window of its crew's length (R338, R378). -/
def State.preempt (s : State) (tid : Nat) : State :=
  match s.team tid with
  | some t => s.drainTeam tid (s.clock + (s.crew t.crew).drainwinHeat)
  | none => s

end Sys2Proof.Machine
end

