-- ==== Sys2Proof/Machine/Views.lean ====
section
/-! DEFINITION. Views: OPC 0xA8 (spec/12_views.md R263 to R284), the merge of a fork set, and the join of a determinate
grid.

Marked in the assumption log: 3 (DESIGN CHOICE), 28 (DEDUCED), 37 (DEDUCED), 45 (DEDUCED). -/

namespace Sys2Proof.Machine

/-- The depth of a view (R263). -/
def State.viewDepth (s : State) (crew view : Nat) : Nat := ((aget view (s.crew crew).views).map View.depth).getD 0

/-- The free entries of a crew's view table (R263). -/
def Crew.freeViews (c : Crew) : Nat := 65535 - c.views.length

/-- A free entry of the view table; which one is open (R263): the first free one from a free value up. -/
def Crew.pickView (c : Crew) (choice : Nat) : Nat :=
  ((List.range 65535).find? fun i => (aget ((choice + i) % 65535 + 1) c.views).isNone).map
    (fun i => (choice + i) % 65535 + 1) |>.getD 0

/-! `fork` (R279) -/

/-- How many children a fork of `n` can create (R279). -/
def Crew.forkCount (c : Crew) (n r : Nat) : Nat :=
  let k := min n c.freeViews
  if r = 0 then k else min k (c.slack / r)

/-- Create one child of a team: its view, and a team that waits for a core. -/
def State.createChild (s : State) (tid : Nat) (t : Team) (desc : Nat) (d : BitVec 512) (resv idx : Nat) (arg0 arg1 : Word64) :
    State :=
  let c := s.crew t.crew
  let slot := c.pickView (Config.freeWord s.fresh).toNat
  let child := s.nextId
  let v : View := { parent := t.view, depth := s.viewDepth t.crew t.view + 1, child := idx, team := child, resv := resv,
                    rpages := t.rpages }
  let team : Team := { Team.start t.grid t.crew t.x t.y 0 0 (descWindow d) slot desc with
    child := some idx, parent := some tid, arg0 := arg0, arg1 := arg1, floors := descBudgets d, status := .waiting }
  let s1 : State := { s with nextId := s.nextId + 1, fresh := s.fresh + 1, teams := s.teams ++ [(child, team)] }
  (s1.setCrew t.crew { c with views := aput slot v c.views }).modTeam tid fun p =>
    let f : ForkSet := p.forkSet.getD { st := .open, children := [], live := [] }
    { p with forkSet := some { f with children := f.children ++ [(child, slot)], live := f.live ++ [child] } }

/-- Create children of a team by index. -/
def State.createChildren (s : State) (tid : Nat) (t : Team) (desc : Nat) (d : BitVec 512) (resv : Nat) (arg0 arg1 : Word64) :
    List Nat → State
  | [] => s
  | i :: is => (s.createChild tid t desc d resv i arg0 arg1).createChildren tid t desc d resv arg0 arg1 is

/-- `fork`. -/
def execFork (f : Fields) (s : State) : Out :=
  onPath s 0xA8 0x00 f fun c =>
    if c.effect f then
      let w := c.uni 0 f.sa
      let n := w.toNat % 512
      let b := (w.extractLsb' 16 8).toNat
      let r := ((c.uni 2 f.sc).setWidth 32 : Word32).toNat
      let desc := f.immBits 0 16
      if c.t.forkSet.isSome ∨ w &&& ~~~(0x00FF01FF : Word64) ≠ 0 ∨ 256 < n ∨ 256 < b + n ∨
          c.s.viewDepth c.t.crew c.t.view = 6 then c.faultCode 0x04
      else match c.s.descriptor c.t desc with
      | none => c.faultCode 0x04
      | some d =>
        let entry : Word64 := (c.s.entryOf c.t desc).setWidth 64
        if descCox d then c.faultCode 0x04
        else match c.s.landing c.t entry with
        | some code => c.faultCode code entry
        | none =>
          c.releaseThen 0xA8 0x00 f .pkg
            (let m := (c.s.crew c.t.crew).forkCount n r
             let s := c.s.createChildren c.tid c.t desc d r (c.uni 1 f.sb) (c.greg 6 1) (upFrom b m)
             let g := c.late f (BitVec.ofNat 64 (m + if m < n then 2 ^ 32 else 0))
             c.retireOn s f g)
    else c.skipOver 0xA8 0x00 f

/-! The merge (R270 to R274) -/

/-- Whether a child changed byte `i` of a granule (R270). -/
def Granule.changed (g : Granule) (i : Nat) : Bool :=
  g.op == 0 && g.wrote.testBit i && g.priv.getD i 0 != g.twin.getD i 0

/-- Whether a granule takes part in a commit: a byte of it changed, or on a reduction page a byte written (R271). -/
def Granule.commits (g : Granule) : Bool :=
  if g.op = 0 then (List.range 256).any g.changed else g.wrote != 0

/-- The granules of some children with their indices, by child. -/
def Crew.granulesOf (c : Crew) (kids : List (Nat × Nat)) : List (Nat × Granule) :=
  kids.flatMap fun k => (c.granules.filter fun g => g.view == k.2 && g.commits).map fun g => (k.1, g)

/-- Insert an address into a rising list. -/
def insertRising (a : Nat) : List Nat → List Nat
  | [] => [a]
  | b :: bs => if a < b then a :: b :: bs else if a = b then b :: bs else b :: insertRising a bs

/-- The addresses of some granules, rising. -/
def granuleAddrs (gs : List (Nat × Granule)) : List Nat := gs.foldl (fun acc g => insertRising g.2.addr acc) []

/-- The lowest byte that two children changed, and the two lowest of their indices (R270). -/
def findConflict (gs : List (Nat × Granule)) : Option (Nat × Nat × Nat) :=
  (granuleAddrs gs).findSome? fun a => (List.range 256).findSome? fun i =>
    match (gs.filter fun g => g.2.addr == a && g.2.changed i).map Prod.fst with
    | x :: y :: _ => some (a + i, x, y)
    | _ => none

/-- Reserve in the parent view every granule that a commit writes (R272); or the address of the first that fails. -/
def State.reserveAll (s : State) (crew view : Nat) (gs : List (Nat × Granule)) : List Nat → Except Nat State
  | [] => .ok s
  | a :: as =>
    let pa := ((gs.find? fun g => g.2.addr == a).map fun g => g.2.pa).getD 0
    match s.firstWrite crew view a pa (s.pageRed crew a) with
    | none => .error a
    | some s => s.reserveAll crew view gs as

/-- Write one byte of a view's storage: memory, or the private copy; a held line of the view takes it too. -/
def State.commitByte (s : State) (crew view va pa : Nat) (b : Byte) : State :=
  if view = 0 then s.physWrite pa b
  else
    let s := s.modCrew crew fun c => { c with granules := c.granules.map fun g =>
      if g.view = view ∧ g.addr = va / 256 * 256 then
        { g with priv := g.priv.set (va % 256) b, wrote := Nat.lor g.wrote (2 ^ (va % 256)) } else g }
    { s with lines := s.lines.map fun e =>
        if e.1.crew = crew ∧ e.1.view = view then
          (e.1, { e.2 with cells := e.2.cells.map fun x => if x.1 = va then (x.1, { x.2 with val := b }) else x })
        else e }

/-- Write bytes of a view's storage. -/
def State.commitBytes (s : State) (crew view va pa : Nat) : List Byte → State
  | [] => s
  | b :: bs => (s.commitByte crew view va pa b).commitBytes crew view (va + 1) (pa + 1) bs

/-- Fold the elements of a reduction granule into the parent, in rising order (R271). -/
def State.foldElems (s : State) (crew view : Nat) (g : Granule) : List Nat → State × FlagSet
  | [] => (s, 0)
  | e :: es =>
    let n := redBytes g.op
    let off := e * n
    let old := leNat ((List.range n).map fun i => s.viewByte crew view (g.addr + off + i) (g.pa + off + i))
    let new := foldElem g.op old (leNat ((g.priv.drop off).take n))
    let r := (s.commitBytes crew view (g.addr + off) (g.pa + off) (leBytes n new.1)).foldElems crew view g es
    (r.1, new.2 ||| r.2)

/-- Commit one granule of one child (R270). -/
def State.commitGranule (s : State) (crew view : Nat) (g : Granule) : State × FlagSet :=
  if g.op = 0 then
    ((List.range 256).foldl (fun s i =>
      if g.changed i then s.commitByte crew view (g.addr + i) (g.pa + i) (g.priv.getD i 0) else s) s, 0)
  else s.foldElems crew view g (List.range (256 / redBytes g.op))

/-- Commit granules in child-index order, ORing the flags of the folds. -/
def State.commitAll (s : State) (crew view : Nat) : List (Nat × Granule) → State × FlagSet
  | [] => (s, 0)
  | g :: gs =>
    let r := s.commitGranule crew view g.2
    let q := r.1.commitAll crew view gs
    (q.1, r.2 ||| q.2)

/-- The index of a child team. -/
def State.childIndex (s : State) (tid : Nat) : Nat := ((s.team tid).bind Team.child).getD 0

/-- The children of a set by index and view. -/
def State.setKids (s : State) (f : ForkSet) : List (Nat × Nat) := f.children.map fun k => (s.childIndex k.1, k.2)

/-- What a check finds (R270, R272, R274). -/
inductive Verdict where
  | conflict (addr : Word64) (low high : Nat)
  | short (addr : Nat)
  | pass (s : State)
  deriving DecidableEq, Repr

/-- The check of children against each other and of the parent's pool. -/
def State.judge (s : State) (crew view : Nat) (kids : List (Nat × Nat)) (killed : List Nat) : Verdict :=
  match killed with
  | k :: ks => let low := ks.foldl min k; .conflict (BitVec.allOnes 64) low low
  | [] =>
    let gs := (s.crew crew).granulesOf kids
    match findConflict gs with
    | some (a, x, y) => .conflict (BitVec.ofNat 64 a) x y
    | none =>
      match s.reserveAll crew view gs (granuleAddrs gs) with
      | .error a => .short a
      | .ok s => .pass s

/-- MASK and DETAIL of a merge conflict (R274, R276). -/
def conflictMask (low high : Nat) : Mask := BitVec.ofNat 32 (low % 2 ^ 16 + high % 2 ^ 16 * 2 ^ 16)

/-- The DETAIL of a merge conflict: both full indices. -/
def conflictDetail (low high : Nat) : BitVec 128 := BitVec.ofNat 128 (low + high * 2 ^ 32)

/-- Change the fork set of a team. -/
def State.modSet (s : State) (tid : Nat) (f : ForkSet → ForkSet) : State :=
  s.modTeam tid fun t => { t with forkSet := t.forkSet.map f }

/-- A waiter of a set takes a fault at its `join`. -/
def State.faultWaiter (s : State) (tid w : Nat) (code : BitVec 8) (mask : Mask) (addr : Word64) (detail : BitVec 128) : State :=
  let s := s.modSet tid fun f => { f with waiters := f.waiters.erase w }
  match (s.group tid (w / 8)).bind fun g => g.path (w % 8) with
  | some p => s.takeFault tid (w / 8) (w % 8)
      { code := code, mask := mask, addr := addr, detail := detail, pc := p.pc, rpc := p.pc }
  | none => s

/-- MERGE_CHECK (R270): the check of a set whose children have ended and for which a `join` waits. -/
def execMergeCheck (tid : Nat) (s : State) : Out :=
  match s.team tid with
  | none => .refused .notEnabled
  | some t =>
    match t.forkSet with
    | none => .refused .notEnabled
    | some f =>
      match f.waiters with
      | [] => .refused .notEnabled
      | w :: _ =>
        if (f.st ≠ .ended ∧ f.st ≠ .checking) ∨ t.status ≠ .resident then .refused .notEnabled
        else match s.judge t.crew t.view (s.setKids f) f.killed with
        | .conflict a x y =>
          let s := s.modSet tid fun f =>
            { f with st := .conflicted, conflict := a, low := BitVec.ofNat 32 x, high := BitVec.ofNat 32 y }
          .next (s.faultWaiter tid w 0x09 (conflictMask x y) a (conflictDetail x y))
        | .short a =>
          .next ((s.modSet tid fun f => { f with st := .ended }).faultWaiter tid w 0x08 (BitVec.allOnes 32) (BitVec.ofNat 64 a) 0)
        | .pass s => .next (s.modSet tid fun f => { f with st := .committing })

/-- Remove the views and teams of children. -/
def State.dropChildren (s : State) (crew : Nat) (kids : List (Nat × Nat)) : State :=
  let s := kids.foldl (fun s k => s.discardView crew k.2) s
  { s with teams := s.teams.filter fun e => !(kids.any fun k => k.1 == e.1) }

/-- Whether the slices of a die commit granules of a crew (R275): not while an edge has taken from it every way that it owns there in
some heat. -/
def State.mergesAt (s : State) (crew die : Nat) : Bool :=
  let ways (row : BitVec 2048) : Bool := (List.range 16).any fun w => rowWay row die w == some crew
  let bank := match (s.crew crew).set with
    | some b => (s.heat b).active
    | none => []
  ways (s.currentRow crew) || !bank.any ways

/-- The commit of a set is complete: the children are gone, the parent's view is unfrozen, the paths parked on `join` are to return
(R280). -/
def State.finishMerge (s : State) (tid : Nat) (t : Team) (f : ForkSet) (fl : FlagSet) : State :=
  let m : Word64 := BitVec.ofNat 64 f.children.length
  let give := f.waiters.mapIdx fun i w => if i = 0 then (w, m, fl) else (w, 0, 0)
  (s.dropChildren t.crew f.children).modTeam tid fun t =>
    { t with forkSet := none, rpages := [], joined := t.joined ++ give }

/-- MERGE_COMMIT (R270, R275): the slices commit the next granule of a set that has passed its check, whole and in index order, and note
it; with the last one the set is removed. -/
def execMergeCommit (tid : Nat) (s : State) : Out :=
  match s.team tid with
  | none => .refused .notEnabled
  | some t =>
    match t.forkSet with
    | none => .refused .notEnabled
    | some f =>
      if f.st ≠ .committing then .refused .notEnabled
      else
        let gs := (s.crew t.crew).granulesOf (s.setKids f)
        let left := (granuleAddrs gs).filter fun a => !f.done.contains a
        let homeOf (a : Nat) : Nat := s.homeDie (((gs.find? fun g => g.2.addr == a).map fun g => g.2.pa).getD 0)
        match left, left.find? fun a => s.mergesAt t.crew (homeOf a) with
        | [], _ => .next (s.finishMerge tid t f f.flags)
        | _, none => .refused .notEnabled
        | _, some a =>
          let r := s.commitAll t.crew t.view (gs.filter fun g => g.2.addr == a)
          if left.length = 1 then .next (r.1.finishMerge tid t f (f.flags ||| r.2))
          else .next (r.1.modSet tid fun f => { f with done := f.done ++ [a], flags := f.flags ||| r.2 })

/-! `join` (R280) and the rest of OPC 0xA8 -/

/-- `join`. -/
def execJoin (f : Fields) (s : State) : Out :=
  onPath s 0xA8 0x01 f fun c =>
    if c.effect f then
      let me := c.gi * 8 + c.pi
      match aget me c.t.joined with
      | some (w, fl) =>
        c.retireOn (c.s.modTeam c.tid fun t => { t with joined := adel me t.joined }) f ((c.late f w).raise fl)
      | none =>
        match c.t.forkSet with
        | none =>
          c.retireOn (c.s.modTeam c.tid fun t => { t with aborted := false }) f
            (c.late f (if c.t.aborted then 0x1_0000_0000 else 0))
        | some st =>
          match st.st with
          | .conflicted =>
            c.fault { code := 0x09, mask := conflictMask st.low.toNat st.high.toNat, addr := st.conflict,
                      detail := conflictDetail st.low.toNat st.high.toNat, pc := c.p.pc, rpc := c.p.pc }
          | _ =>
            let s := c.s.modSet c.tid fun x =>
              { x with waiters := if x.waiters.contains me then x.waiters else x.waiters ++ [me],
                       st := if x.st = .ended then .checking else x.st }
            { c with s := s }.park c.g true
    else c.skipOver 0xA8 0x01 f

/-- A value of `vid` (R281). -/
def PathCtx.vidValue (c : PathCtx) (sel : Nat) : Word64 :=
  let ones : Word64 := 0xFFFF_FFFF
  let view := aget c.t.view (c.s.crew c.t.crew).views
  let conf : Option ForkSet := match c.t.forkSet with
    | some f => if f.st = .conflicted then some f else none
    | none => none
  match sel with
  | 0 => (c.s.viewId c.t.crew c.t.view).setWidth 64
  | 1 => match view with
    | some v => (c.s.viewId c.t.crew v.parent).setWidth 64
    | none => ones
  | 2 => BitVec.ofNat 64 (c.s.viewDepth c.t.crew c.t.view)
  | 3 => match c.t.child with
    | some k => BitVec.ofNat 64 k
    | none => ones
  | 4 => BitVec.ofNat 64 ((c.t.forkSet.map fun f => f.live.length).getD 0)
  | 5 => match c.t.forkSet with
    | none => 0
    | some f => match f.st with
      | .open => 1 | .ended => 2 | .checking => 3 | .committing => 4 | .conflicted => 5 | .aborting => 6
  | 6 => (conf.map ForkSet.conflict).getD 0
  | 7 => (conf.map fun f => f.low.setWidth 64).getD ones
  | _ => (conf.map fun f => f.high.setWidth 64).getD ones

/-- `vid`. -/
def execVid (f : Fields) (s : State) : Out :=
  onPath s 0xA8 0x02 f fun c =>
    if c.effect f then c.retire f (c.late f (c.vidValue (f.immBits 0 4))) else c.skipOver 0xA8 0x02 f

/-- The page at which an `rpage` fails: the lowest page of the range that is unmapped, lacks W, is software-managed, or has
another operator (R282). -/
def State.rpageFails (s : State) (crew base len op : Nat) : Option Nat :=
  ((List.range (len / 65536)).map fun i => base + 65536 * i).find? fun a =>
    match s.walk crew a with
    | .error _ => true
    | .ok w => 2 ^ 56 ≤ a || !w.2.2.w || w.2.2.sm || (w.2.2.red != 0 && w.2.2.red != op)

/-- `rpage` (R282). -/
def execRpage (f : Fields) (s : State) : Out :=
  onPath s 0xA8 0x03 f fun c =>
    if c.effect f then
      let op := f.immBits 0 4
      if op = 0 then c.retireOn (c.s.modTeam c.tid fun t => { t with rpages := [] }) f c.g
      else
        let base := (c.uni 0 f.sa).toNat % 2 ^ 56
        let len := (c.uni 1 f.sb).toNat % 2 ^ 32
        if base % 65536 ≠ 0 ∨ len % 65536 ≠ 0 ∨ len = 0 ∨ 8 ≤ c.t.rpages.length ∨ c.t.forkSet.isSome then c.faultCode 0x04
        else match c.s.rpageFails c.t.crew base len op with
        | some a => c.faultCode 0x04 (BitVec.ofNat 64 a)
        | none =>
          c.retireOn (c.s.modTeam c.tid fun t => { t with rpages := t.rpages ++ [{ base := base, len := len, op := op }] }) f c.g
    else c.skipOver 0xA8 0x03 f

/-- A value of `twres` (R283). -/
def PathCtx.twresValue (c : PathCtx) (sel : Nat) : Nat :=
  let w := c.s.crew c.t.crew
  match sel with
  | 0 => w.poolSize
  | 1 => w.slack
  | 2 => ((aget c.t.view w.views).map View.resv).getD 0
  | _ => match c.t.forkSet with
    | none => 0
    | some f => (f.children.map fun k => (w.granules.filter fun g => g.view == k.2).length +
        ((aget k.2 w.views).map View.resv).getD 0).sum

/-- `twres`. -/
def execTwres (f : Fields) (s : State) : Out :=
  onPath s 0xA8 0x04 f fun c =>
    if c.effect f then c.retire f (c.late f (BitVec.ofNat 64 (c.twresValue (f.immBits 0 2)))) else c.skipOver 0xA8 0x04 f

/-- Abort a set (R284): the paths that wait on a `join` are to return with the aborted bit, which they clear. -/
def State.abortFor (s : State) (tid : Nat) : State :=
  match (s.team tid).bind Team.forkSet with
  | none => s
  | some f =>
    let give : List (Nat × Word64 × BitVec 16) := f.waiters.map fun w => (w, 0x1_0000_0000, 0)
    (s.abortSet tid).modTeam tid fun t =>
      { t with joined := t.joined ++ give, aborted := t.aborted && give.isEmpty }

/-- `vabort` (R284): a set that commits is waited for. -/
def execVabort (f : Fields) (s : State) : Out :=
  onPath s 0xA8 0x05 f fun c =>
    if c.effect f then
      match c.t.forkSet with
      | none => c.retire f c.g
      | some x =>
        if x.st = .committing then .next c.s
        else
          let s := c.s.abortFor c.tid
          match s.pathCtx ⟨c.tid, c.gi, c.pi⟩ with
          | some d => d.retire f d.g
          | none => .next s
    else c.skipOver 0xA8 0x05 f

/-! Determinate grids (R276) -/

/-- The children of a determinate grid in order of index. -/
def Grid.kids (g : Grid) : List (Nat × Nat) :=
  (List.range (g.gx * g.gy)).filterMap fun i => (aget i g.views).map fun v => (i, v)

/-- A record of a determinate grid's join (R276): KIND 4. -/
def State.gridRecord (s : State) (gid : Nat) (g : Grid) (code : BitVec 8) (mask : Mask) (addr : Word64) (detail : BitVec 128) :
    State :=
  s.postRecord g.crew (mkRecord code 0 0 4 g.crew 0 0 0 0 0 0 g.seq 0 mask addr detail) (.grid gid)

/-- The join of a determinate grid: complete, in conflict (which waits for room in the fault queue, so that its record
comes before the completion), or short of granules. -/
def State.gridJoin (s : State) (gid : Nat) (g : Grid) (first : Bool) : Out :=
  match s.judge g.crew g.launchView g.kids g.killedTeams with
  | .conflict a x y =>
    if (s.crew g.crew).heldRecs.isEmpty && (s.crew g.crew).queueRoom then
      .next ((s.gridRecord gid g 0x09 (conflictMask x y) a (conflictDetail x y)).finishGrid gid 5 0)
    else .refused .notEnabled
  | .short a =>
    if first then .next ((s.gridRecord gid g 0x08 (BitVec.allOnes 32) (BitVec.ofNat 64 a) 0).modGrid gid fun g =>
      { g with retry := true })
    else .refused .notEnabled
  | .pass s =>
    .next (((s.commitAll g.crew g.launchView ((s.crew g.crew).granulesOf g.kids)).1).finishGrid gid 0 0)

/-- DETERMINATE_JOIN (R276): the last team has ended. -/
def execDeterminateJoin (gid : Nat) (s : State) : Out :=
  match s.grid gid with
  | none => .refused .notEnabled
  | some g => if g.st ≠ .joining ∨ g.retry then .refused .notEnabled else s.gridJoin gid g true

/-- DETERMINATE_JOIN_RETRY (R276): a join that was short is tried again. -/
def execDeterminateJoinRetry (gid : Nat) (s : State) : Out :=
  match s.grid gid with
  | none => .refused .notEnabled
  | some g => if g.st = .joining ∧ g.retry then s.gridJoin gid g false else .refused .notEnabled

end Sys2Proof.Machine
end

