-- ==== Sys2Proof/Machine/Place.lean ====
section
/-! DEFINITION. The launch scheduler's placement of teams: admission to a core, the start of a team, the restore of a saved one,
pre-emption for a launch of higher priority (spec/01_machine.md R11; spec/04_registers.md R60, R65, R75; spec/11_matrix.md R231,
R262; spec/12_views.md R276; spec/15_traps.md R344; spec/18_launch.md R395, R397; spec/21_prog_tiles.md R411).

Marked in the assumption log: 14 (DEDUCED), 36 (DEDUCED), 45 (DEDUCED), 48 (DEDUCED). -/

namespace Sys2Proof.Machine

/-! Admission (R11, R65, R231) -/

/-- The teams that hold parts of a core. -/
def State.coreTeams (s : State) (core : Nat) : List Team :=
  (s.teams.filter fun e => e.2.core == core && !e.2.ended && (e.2.status == .resident || e.2.status == .draining)).map Prod.snd

/-- Whether a window of `n` bytes at `b` meets none of some windows and stays in a core's scratch. -/
def windowFits (ws : List (Nat × Nat)) (n b : Nat) : Bool :=
  b + n ≤ 2 ^ 19 && ws.all fun w => b + n ≤ w.1 || w.1 + w.2 ≤ b

/-- A place for a window: the lowest at which it fits. -/
def State.freeWindow (s : State) (core n : Nat) : Option Nat :=
  let ws := (s.coreTeams core).map fun t => (t.winBase, t.winSize)
  ((0 :: ws.map fun w => w.1 + w.2).filter (windowFits ws n)).foldl (fun (acc : Option Nat) b => match acc with
    | none => some b
    | some x => some (min x b)) none

/-- The idle seat of the lowest number of a cluster (R231). -/
def State.freeSeat (s : State) (cluster : Nat) : Option Nat :=
  let used := s.teams.filterMap fun e =>
    if e.2.ended ∨ (e.2.status ≠ .resident ∧ e.2.status ≠ .draining) then none
    else e.2.seat.bind fun q => if q.cluster = cluster then some q.num else none
  (List.range 8).find? fun k => !used.contains k

/-- What a team asks of a core: the budgets of its groups, its window, a seat, the slots and latches that its seat had saved, by
core-in-cluster. -/
structure Demand where
  budgets : List (Nat × Nat)
  window : Nat
  seat : Bool
  slots : List Nat
  latches : List Nat
  deriving DecidableEq, Repr

/-- Where a core takes a team: the base of its window and the number of its seat; none where it does not admit it. -/
def State.admits (s : State) (core : Nat) (d : Demand) : Option (Nat × Nat) :=
  let gs := (s.coreGroups core).map fun e => e.1.budget e.2
  let fx := floorsAndReserve (gs ++ d.budgets)
  let cluster := clusterOf core
  let room (cic : Nat) : Bool :=
    (d.slots.filter fun x => x == cic).length + (s.core (32 * cluster + cic)).slots.length ≤ 16
  let seat : Option Nat := if d.seat then s.freeSeat cluster else some 0
  if 256 < gs.length + d.budgets.length ∨ 16384 < fx.1 + fx.2 ∨ !d.slots.all room ∨
      !(d.latches.all fun cic => (s.core (32 * cluster + cic)).latch.isNone) then none
  else match s.freeWindow core d.window, seat with
    | some b, some k => some (b, k)
    | _, _ => none

/-- The cores on which the scheduler may place a team of a grid now: those of the running octets that the crew owns, but for
those that the grid has vacated (R355). -/
def State.openCores (s : State) (g : Grid) : List Nat :=
  (List.range 512).filter fun k => s.ownsCore g.crew k && s.octet (octetOf k) == .running && !g.vacated.contains k

/-- The core that takes a demand: of those that admit it the one with the fewest resident groups, the lowest of equals
(R395). -/
def State.bestCore (s : State) (g : Grid) (d : Demand) : Option (Nat × Nat × Nat) :=
  ((s.openCores g).filterMap fun k => (s.admits k d).map fun w => (k, w.1, w.2)).foldl
    (fun (acc : Option (Nat × Nat × Nat)) e => match acc with
      | none => some e
      | some b => if (s.coreGroups e.1).length < (s.coreGroups b.1).length then some e else some b) none

/-! Starting a team (R60, R135, R231, R395) -/

/-- The roles of a team's groups in order of group index: those of role 0 first (assumption 14). -/
def groupRoles (floors : List (Nat × Nat × Nat)) : List (Nat × Nat) :=
  (List.range floors.length).flatMap fun r => (List.range (floors.getD r (0, 0, 0)).1).map fun i => (r, i)

/-- The budgets of a team's groups. -/
def groupBudgets (floors : List (Nat × Nat × Nat)) : List (Nat × Nat) :=
  (groupRoles floors).map fun r => (floors.getD r.1 (0, 0, 0)).2

/-- The groups of a team at its start. -/
def State.startGroups (s : State) (core : Nat) (entry : VAddr) (g0 g1 g2 g3 : Word64) (roles : List (Nat × Nat)) : List Group :=
  (roles.foldl (fun (acc : List Group × List (Nat × Nat)) r =>
    let at_ := s.chooseSched core acc.2
    let g := ((((Group.start r.1 r.2 at_.1 at_.2 entry s.clock).writeUni 0 g0).writeUni 1 g1).writeUni 2 g2).writeUni 3 g3
    (acc.1 ++ [g], acc.2 ++ [at_])) ([], [])).1

/-- Put a team that has a shape on its core: its groups, its refill queue, its seat, its window of zeros (R411). -/
def State.startTeam (s : State) (t : Team) (d : BitVec 512) (g : Grid) (coxEntry : Option VAddr) (index : Nat)
    (place : Nat × Nat × Nat) : State × Team :=
  let t : Team := { t with core := place.1, winBase := place.2.1, winSize := descWindow d, status := .resident, admitted := s.clock }
  let entry := s.entryOf t t.desc
  let refill : Option RefillQueue :=
    if descRefill d = 0 then none else some { depth := descRefill d, open_ := g.handed < g.nitem }
  let groups := s.startGroups t.core entry t.arg0 t.arg1 (BitVec.ofNat 64 t.windowAddr) (BitVec.ofNat 64 index)
    (groupRoles t.floors)
  (s.zeroScratch t.windowCell t.winSize,
   { t with groups := groups, refill := refill, seat := coxEntry.map fun e => Seat.start place.2.2 (clusterOf t.core) e })

/-! Restoring a team (R344, R262, R229) -/

/-- A scratch address of a command, moved with the window in which it lies (R229). -/
def State.rebase (s : State) (win : Option (Nat × Nat)) (a : Nat) : Nat :=
  match win with
  | none => a
  | some (tid, old) => match s.team tid with
    | some t => a - old + t.windowAddr
    | none => a

/-- A command of a restored team whose own window began at an address: its ranges and its index list lie where their windows now
are. -/
def Command.rebase (c : Command) (s : State) (own : Nat × Nat) : Command :=
  { c with dst := s.rebase c.dstWin c.dst, src := s.rebase c.srcWin c.src, dstWin := none, srcWin := none
           kind := match c.kind with
             | .gather sc e l => .gather sc e (s.rebase (some own) l)
             | k => k }

/-- The seat of a restored team, its operations on the cores and slots that it now has. -/
def Seat.rebind (q : Seat) (num cluster : Nat) (map : List ((Nat × Nat) × (Nat × Nat))) : Seat :=
  let core (c : Nat) : Nat := 32 * cluster + c % 32
  { q with num := num, cluster := cluster, latches := []
           accs := q.accs.map fun a => (a.1, (aget a.2 map).getD (core a.2.1, a.2.2))
           ops := q.ops.map fun o => { o with core := core o.core, slot := o.slot.map fun k => ((aget (o.core, k) map).getD (core o.core, k)).2 } }

/-- Put the saved slots of a team onto the cores of its new cluster, each in a free one; where each has gone. -/
def State.placeSlots (s : State) (cluster : Nat) : List (Nat × Nat × Slot) → State × List ((Nat × Nat) × (Nat × Nat))
  | [] => (s, [])
  | x :: xs =>
    let core := 32 * cluster + x.1 % 32
    let k := (s.freeSlot core).getD 0
    let r := (s.modCore core fun c => { c with slots := aput k x.2.2 c.slots }).placeSlots cluster xs
    (r.1, ((x.1, x.2.1), (core, k)) :: r.2)

/-- What a saved team asks of a core. -/
def Team.demand (t : Team) : Demand where
  budgets := (t.groups.filter fun g => !g.ended).map t.budget
  window := t.winSize
  seat := t.seat.isSome
  slots := t.slots.map fun x => x.1 % 32
  latches := (t.seat.map fun q => q.latches.map fun l => l.1 % 32).getD []

/-- The groups of a restored team: each joins a scheduler, its values in uniform form while the store has room (R68, R75). -/
def State.restoreGroups (s : State) (core : Nat) (gs : List Group) : List Group :=
  let uniforms := ((gs.filter fun g => !g.ended).map fun g => (g.vregs.filter fun v => v.2.uniform).length).sum
  let keep : Bool := s.uniformUsed core + uniforms ≤ 2048
  (gs.foldl (fun (acc : List Group × List (Nat × Nat)) g =>
    let at_ := s.chooseSched core acc.2
    let g1 : Group := { g with saved := false, fullSave := false,
                               vregs := if keep then g.vregs else g.vregs.map fun v => (v.1, { v.2 with uniform := false }) }
    if g.ended then (acc.1 ++ [g1], acc.2)
    else (acc.1 ++ [{ g1 with sched := at_.1, slot := at_.2 }], acc.2 ++ [at_])) ([], [])).1

/-- Restore a saved team on a core. The operations of its seat that had not started are entered again by the seat's turns, before it
issues any instruction (R258, R262). -/
def State.restoreTeam (s : State) (tid : Nat) (t : Team) (place : Nat × Nat × Nat) : State :=
  let core := place.1
  let cluster := clusterOf core
  let old := t.windowAddr
  let s1 := s.placeSlots cluster t.slots
  let s2 := ((t.seat.map fun q => q.latches).getD []).foldl (fun s l =>
    s.modCore (32 * cluster + l.1 % 32) fun c => { c with latch := some (tid, l.2) }) s1.1
  let seat := t.seat.map fun q => q.rebind place.2.2 cluster s1.2
  let t1 : Team := { t with core := core, winBase := place.2.1, status := .resident, admitted := s.clock, seat := seat, slots := [],
                            window := [], windowBad := [], groups := s2.restoreGroups core t.groups }
  let lo := t1.windowCell
  let s4 := t.window.foldl (fun s c => { s with scratch := s.scratch.write (lo + c.1) c.2 }) (s2.zeroScratch lo t.winSize)
  let s5 : State := { s4 with poison := (t.windowBad.map fun w => PoisonUnit.scratch (lo / 8 + w)) ++ s4.poison }
  let s6 := s5.setTeam tid t1
  let s7 : State := { s6 with
    cmds := s6.cmds.map fun e => if e.2.team = tid then (e.1, e.2.rebase s6 (tid, old)) else e }
  (List.range t1.groups.length).foldl (fun s gi =>
    match s.group tid gi with
    | some g => if g.ended then s else if g.descheduled then s.goOn tid gi else s.retryGroup tid gi
    | none => s) s7

/-! The order of placement (R395) -/

/-- What the scheduler may place: a saved team, a child that waits, the next team of a grid. -/
inductive Item where
  | restore (team : Nat) | child (team : Nat) | fresh (grid : Nat)
  deriving DecidableEq, Repr

/-- The next team of a grid to be placed: the lowest linear index that is neither placed nor killed. -/
def Grid.nextIndex (g : Grid) : Option Nat :=
  (upFrom g.placed (g.gx * g.gy - g.placed)).find? fun i => !g.notStarted.contains i

/-- Whether a `ctxsave` with MOVE of a team that runs waits for a team to be put away: it copies that team before the scheduler places
it again (R354). -/
def State.claimed (s : State) (tid : Nat) : Bool :=
  s.teams.any fun e => !e.2.ended && e.2.status == .resident && e.2.groups.any fun g =>
    !g.ended && g.paths.toList.any fun p => p.any fun p => p.begun && p.moves == some tid && p.st != .replayable && p.st != .stopped

/-- The items of a grid in order: its saved teams but those that a `ctxsave` moves, its waiting children, its next new team unless a saved one still waits. -/
def State.gridItems (s : State) (e : Nat × Grid) : List Item :=
  if e.2.st ≠ .ready ∧ e.2.st ≠ .running ∨ e.2.killed then []
  else
    let mine := s.teams.filter fun t => t.2.grid == e.1 && !t.2.ended
    let saved := mine.filter fun t => t.2.status == .saved
    let kids := mine.filter fun t => t.2.status == .waiting
    ((saved.filter fun t => !s.claimed t.1).map fun t => .restore t.1) ++ (kids.map fun t => .child t.1) ++
      (if saved.isEmpty ∧ e.2.nextIndex.isSome then [.fresh e.1] else [])

/-- The items of a crew in the order in which they are tried, each with its grid: by priority, then by consumption. -/
def State.placeItems (s : State) (crew : Nat) : List (Grid × Item) :=
  let mine := s.grids.filter fun e => e.2.crew == crew
  [3, 2, 1, 0].flatMap fun p => (mine.filter fun e => e.2.prio == p).flatMap fun e => (s.gridItems e).map fun i => (e.2, i)

/-- What an item asks of a core, where it can be admitted at all (R340, R276, R397). -/
def State.itemDemand (s : State) (g : Grid) (i : Item) : Option Demand :=
  let shape (t : Team) (desc : Nat) (floors : List (Nat × Nat × Nat)) (seat : Bool) : Option Demand :=
    (s.descriptor t desc).bind fun d =>
      let need := baseNeed (descRefill d) (descWindow d) (groupRoles floors).length seat
      if need ≤ s.saveFree g.crew then
        some { budgets := groupBudgets floors, window := descWindow d, seat := seat, slots := [], latches := [] }
      else none
  match i with
  | .restore tid => (s.team tid).map Team.demand
  | .child tid => (s.team tid).bind fun t => shape t t.desc t.floors false
  | .fresh gid =>
    let c := s.crew g.crew
    if g.det ∧ (c.slack < g.resv ∨ c.freeViews = 0) then none
    else shape (Team.start gid g.crew 0 0 0 0 0 0 g.kdesc) g.kdesc g.floors g.cdesc.isSome

/-- Where an item can be placed. -/
def State.itemPlace (s : State) (e : Grid × Item) : Option (Nat × Nat × Nat) :=
  (s.itemDemand e.1 e.2).bind fun d => s.bestCore e.1 d

/-- The first item of a crew that can be placed. -/
def State.firstItem (s : State) (crew : Nat) : Option ((Grid × Item) × (Nat × Nat × Nat)) :=
  (s.placeItems crew).findSome? fun e => (s.itemPlace e).map fun p => (e, p)

/-- The grid of a crew that a launch of a higher priority pre-empts: of the lowest priority, the latest consumed. -/
def State.victim (s : State) (crew prio : Nat) : Option Nat :=
  let run := s.grids.filter fun e => e.2.crew == crew && e.2.prio < prio &&
    s.teams.any fun t => t.2.grid == e.1 && t.2.status == .resident && !t.2.ended
  (run.foldl (fun (acc : Option (Nat × Grid)) e => match acc with
    | none => some e
    | some b => if e.2.prio ≤ b.2.prio then some e else some b) none).map Prod.fst

/-- The priority at which a pre-emption is due: that of an item of a crew that cannot be placed while a grid below it runs, before
any item that can. -/
def State.preemptDue (s : State) (crew : Nat) : List (Grid × Item) → Option Nat
  | [] => none
  | e :: es =>
    if (s.itemPlace e).isSome then none
    else match s.victim crew e.1.prio with
      | some v => some v
      | none => s.preemptDue crew es

/-- The children view of a determinate grid's team (R276). -/
def State.detView (s : State) (tid : Nat) (g : Grid) (idx : Nat) : State × Nat :=
  let c := s.crew g.crew
  let slot := c.pickView (Config.freeWord s.fresh).toNat
  let v : View := { parent := g.launchView, depth := s.viewDepth g.crew g.launchView + 1, child := idx, team := tid, resv := g.resv }
  (({ s with fresh := s.fresh + 1 } : State).setCrew g.crew { c with views := aput slot v c.views }, slot)

/-- Place the next team of a grid. -/
def State.placeFresh (s : State) (gid : Nat) (g : Grid) (idx : Nat) (place : Nat × Nat × Nat) : State :=
  let tid := s.nextId
  let s1 : State := { s with nextId := s.nextId + 1 }
  let r := if g.det then s1.detView tid g idx else (s1, 0)
  let t : Team := { Team.start gid g.crew (idx % g.gx) (idx / g.gx) 0 0 0 r.2 g.kdesc with
    child := if g.det then some idx else none, arg0 := g.arg0, arg1 := g.arg1, floors := g.floors }
  match r.1.descriptor t g.kdesc with
  | none => s
  | some d =>
    let cox := g.cdesc.map fun k => r.1.entryOf t k
    let q := r.1.startTeam t d g cox idx place
    let s2 : State := { q.1 with teams := q.1.teams ++ [(tid, q.2)] }
    s2.modGrid gid fun x =>
      { x with placed := idx + 1, st := .running, notStarted := x.notStarted.filter fun i => idx < i
               views := if g.det then x.views ++ [(idx, r.2)] else x.views }

/-- TEAM_PLACE (R395): the first team that a core admits is placed; or a grid of lower priority is pre-empted for one that no core
admits. -/
def execTeamPlace (set crew : Nat) (s : State) : Out :=
  if (s.crew crew).set ≠ some set then .refused .notEnabled
  else match s.preemptDue crew (s.placeItems crew) with
  | some v =>
    .next ((s.teams.filter fun t => t.2.grid == v && t.2.status == .resident && !t.2.ended).foldl (fun s t => s.preempt t.1) s)
  | none =>
    match s.firstItem crew with
    | some ((g, .fresh gid), place) =>
      match g.nextIndex with
      | some idx => .next (s.placeFresh gid g idx place)
      | none => .refused .notEnabled
    | some ((g, .child tid), place) =>
      match s.team tid, (s.team tid).bind fun t => s.descriptor t t.desc with
      | some t, some d =>
        let q := s.startTeam t d g none (t.child.getD 0) place
        .next (q.1.setTeam tid q.2)
      | _, _ => .refused .notEnabled
    | _ => .refused .notEnabled

/-- TEAM_RESTORE (R344): a saved team whose turn it is goes back onto a core. -/
def execTeamRestore (tid : Nat) (s : State) : Out :=
  match s.team tid with
  | none => .refused .notEnabled
  | some t =>
    match s.firstItem t.crew with
    | some ((_, .restore k), place) => if k = tid then .next (s.restoreTeam tid t place) else .refused .notEnabled
    | _ => .refused .notEnabled

end Sys2Proof.Machine
end

