-- ==== Sys2Proof/Machine/Remote.lean ====
section
/-! DEFINITION. Remote access: the unprivileged forms of OPC 0xC8, the sending of requests, their answers and failures
(spec/14_riggers.md R313 to R325).

Marked in the assumption log: 3 (DESIGN CHOICE), 23 (DEDUCED), 32 (DEDUCED), 33 (DEDUCED). -/

namespace Sys2Proof.Machine

/-! Completion of remote commands (R193, R322, R323) -/

/-- Retire the complete commands at the head of a class, in issue order. -/
def State.retireHead (s : State) (tid gi cls : Nat) : Nat → State
  | 0 => s
  | n + 1 => match (s.commandsOf tid gi cls).head? with
    | some (id, c) => if c.st = .complete then (s.retireCommand id c).retireHead tid gi cls n else s
    | none => s

/-- Whether a command is not one of an engine: a remote one, or one that has retired. -/
def State.isRemote (s : State) (id : Nat) : Bool :=
  match aget id s.cmds with
  | some c => c.cls == 3
  | none => true

/-- Whether everything remote that a group issued before an identity is performed: its commands retired, its requests and the
probes of its fence answered. -/
def State.remoteClear (s : State) (tid gi id : Nat) : Bool :=
  !((s.commandsOf tid gi 3).any fun e => e.1 < id && e.2.kind != .rfence) &&
  !(s.requests.any fun r => r.2.group == some ⟨tid, gi⟩ && (r.2.cmd == some id ||
    (r.1 < id && (match r.2.cmd with | some c => s.isRemote c | none => false))))

/-- Retire what can retire among a group's remote commands: `rfence` completes when all before it is performed. -/
def State.settleRemote (s : State) (tid gi : Nat) : Nat → State
  | 0 => s
  | n + 1 =>
    let s := s.retireHead tid gi 3 256
    match (s.commandsOf tid gi 3).find? fun e => e.2.kind == .rfence && e.2.st != .complete && s.remoteClear tid gi e.1 with
    | some (id, _) => (s.modCmd id fun c => { c with st := .complete }).settleRemote tid gi n
    | none => s

/-- A remote command after a change among its requests: complete when none of them is left, and for `rst.pkg` when all are
sent. -/
def State.checkRemote (s : State) (id : Nat) : State :=
  match aget id s.cmds with
  | none => s
  | some c =>
    let mine := s.requests.filter fun r => r.2.cmd == some id
    let pkg : Bool := match c.kind with | .remote _ _ _ _ _ p => p | _ => false
    let remote : Bool := match c.kind with | .remote _ _ _ _ _ _ => true | _ => false
    let s := if remote ∧ c.st = .running ∧ (mine.isEmpty ∨ (pkg ∧ mine.all fun r => r.2.sent.isSome)) then
      s.modCmd id fun c => { c with st := .complete } else s
    s.settleRemote c.team c.group 256

/-! Issue (R320, R321) -/

/-- Insert a number into a rising list of distinct numbers. -/
def insertPeer (p : Nat) : List Nat → List Nat
  | [] => [p]
  | q :: qs => if p < q then p :: q :: qs else if p = q then q :: qs else q :: insertPeer p qs

/-- The command of one peer with its requests; a load or atomic has an access too. -/
def PathCtx.sendPeer (c : PathCtx) (s : State) (f : Fields) (fn : Nat) (a : Access) (ls : List (Nat × LaneAcc)) (p : Nat) :
    State :=
  let lanes := (ls.filter fun e => e.1 == p).map Prod.snd
  let id := s.nextId
  let aid := s.nextId + 1
  let load : Bool := fn != 1
  let op : RigOp := match a.kind with
    | .remoteAtomic aop ty => .atomic aop ty
    | .remoteLoad => .read
    | _ => .write
  let pkg : Bool := f.scopeCode == 4
  let cmd : Command :=
    { c.command f fn 3 (.remote fn (f.immBits 4 4) (f.immBits 8 4) p (f.imm.getLsbD 2) (fn == 1 && pkg)) with
      st := .running, access := if load then some aid else none }
  let reqs : List (Nat × RigRequest) := lanes.mapIdx fun i (l : LaneAcc) =>
    let r : RigRequest :=
      { crew := c.t.crew, group := some ⟨c.tid, c.gi⟩, cmd := some id, access := if load then some aid else none,
        lane := l.lane, op := op, pa := l.pa, len := a.bytes, data := l.data, data2 := l.data2,
        tier := if fn = 1 then (if f.imm.getLsbD 2 then 2 else 1) else 0, arrived := c.s.clock }
    (aid + 1 + i, s.rebound r)
  let acc : Access := { a with id := aid, lanes := lanes.map fun l => { l with st := .outside } }
  let s1 : State := { s with nextId := aid + 1 + lanes.length, cmds := s.cmds ++ [(id, cmd)], requests := s.requests ++ reqs }
  s1.modGroup c.tid c.gi fun g =>
    let g : Group := { g with counters := g.counters.setIfInBounds 3 (g.counters.toArray.getD 3 0 + 1) }
    if load then { g.expect a.dest with pend := g.pend ++ [acc] } else g

/-- The LR bits of a remote form, at the issue of its last peer (R321): a register that is its destination too is freed before it is
written (R62), so that only the lanes of `all` keep what they are to receive. -/
def Group.freeRemote (g : Group) (rs : List Nat) (dest : Dest) (all : Mask) : Group :=
  let own (r : Nat) : Bool := match dest with
    | .vec x n => x ≤ r && r < x + n
    | _ => false
  let g := g.freeAll (rs.filter fun r => !own r)
  (rs.filter own).foldl (fun (g : Group) r =>
    { g with vregs := amod r (fun v => { v with lanes := Lanes.merge all v.lanes (Lanes.all 0) }) g.vregs }) g

/-- Issue a remote form (R320, R321): one command for each peer while the counter has room; the path stays on the lanes that
are left. -/
def PathCtx.remote (c : PathCtx) (fn : Nat) (f : Fields) (a : Access) (data data2 : Nat → Nat) : Out :=
  let one : Bool := isUni f.d && !f.dead && fn == 2
  let all : Mask := if one then (if c.effect f then 1 else 0) else c.active f
  let m := if c.p.rest = 0 then all else all &&& c.p.rest
  if m = 0 then c.retire f ((c.g.freeAll (lrRegs 0xC8 fn f)).mapDest a.dest)
  else if c.determinate then c.faultLanes m 0x07
  else
    let peer : Nat → Nat := if isUni f.sa then fun _ => (c.uni 0 f.sa).toNat else c.laneOp 0 f.sa 1
    let off := c.laneOp 1 f.sb 2
    let ls := (maskLanes m).map fun l =>
      let e := c.s.remoteLane c.t.crew (fn == 2) a.bytes l (peer l) (off l)
      (e.1, { e.2 with data := data l, data2 := data2 l })
    if ls.any fun e => e.2.bad then c.fault (({ a with lanes := ls.map Prod.snd } : Access).faultInfo c.p.pc)
    else
      let peers := ls.foldl (fun acc e => insertPeer e.1 acc) []
      let now := peers.take (255 - c.g.counters.toArray.getD 3 0)
      let s := now.foldl (fun s p => c.sendPeer s f fn a ls p) c.s
      match s.pathCtx ⟨c.tid, c.gi, c.pi⟩ with
      | none => .next s
      | some d =>
        if now.length = peers.length then d.retire f (d.g.freeRemote (lrRegs 0xC8 fn f) a.dest all)
        else
          let rest := maskOf fun l => ls.any fun e => e.2.lane == l && !now.contains e.1
          .next (s.setGroup c.tid c.gi (d.g.setPath c.pi (some { c.p with rest := rest, begun := true })))

/-- The remote type of a form. -/
def rtyOf (f : Fields) : RTy := f.rty.getD .b32

/-- The destination of a remote form. -/
def remoteDest (f : Fields) : Dest :=
  if f.dead then .none else if isUni f.d then .uni (f.d.toNat - 0xC0) else .vec f.d.toNat (rtyOf f).regs

/-- `rld` (R320 to R322). -/
def execRld (f : Fields) (s : State) : Out :=
  onPath s 0xC8 0x00 f fun c =>
    c.remote 0x00 f
      { id := 0, kind := .remoteLoad, pc := c.p.pc, path := c.pi, bytes := (rtyOf f).bytes, dest := remoteDest f,
        dead := f.dead, lanes := [] } (fun _ => 0) fun _ => 0

/-- `rst`. -/
def execRst (f : Fields) (s : State) : Out :=
  onPath s 0xC8 0x01 f fun c =>
    let n := (rtyOf f).bytes
    let v := c.laneOp 2 f.sc (rtyOf f).regs
    c.remote 0x01 f { id := 0, kind := .store, pc := c.p.pc, path := c.pi, bytes := n, lanes := [] }
      (fun l => v l % 2 ^ (8 * n)) fun _ => 0

/-- `ratom`: for `cas`, SC holds the value compared and then the new value. -/
def execRatom (f : Fields) (s : State) : Out :=
  onPath s 0xC8 0x02 f fun c =>
    let t := rtyOf f
    let n := t.bytes
    let aop := f.immBits 8 4
    let v := c.laneOp 2 f.sc (if aop = 7 then 2 * t.regs else t.regs)
    c.remote 0x02 f
      { id := 0, kind := .remoteAtomic aop (f.immBits 4 4), pc := c.p.pc, path := c.pi, bytes := n, sext := t == .s32,
        dest := remoteDest f, dead := f.dead, lanes := [] }
      (fun l => v l % 2 ^ (8 * n)) fun l => v l / 2 ^ (8 * n) % 2 ^ (8 * n)

/-- The probes of an `rfence` (R318): one behind each of the group's stores that have been sent without an answer, at its place, so
that the answer comes after the store's. -/
def State.probe (s : State) (ref : GroupRef) (id : Nat) : State :=
  (s.requests.filter fun r => r.2.group == some ref && r.2.sent.isSome && r.1 < id && (match r.2.cmd with
      | some c => (aget c s.cmds).isNone
      | none => false)).foldl
    (fun s r => s.newRequest { r.2 with cmd := some id, access := none, op := .probe, tier := 0, sent := none, value := none }) s

/-- `rfence` (R323). -/
def execRfence (f : Fields) (s : State) : Out :=
  onPath s 0xC8 0x03 f fun c =>
    if c.effect f then
      if c.determinate then c.faultCode 0x07
      else
        let id := c.s.nextId
        match c.issueCommand f { c.command f 0x03 3 .rfence with st := .running } with
        | .next s => .next ((s.probe ⟨c.tid, c.gi⟩ id).settleRemote c.tid c.gi 256)
        | o => o
    else c.skipOver 0xC8 0x03 f

/-! Sending (R317, R318) -/

/-- The peer and the granule of peer offset that a physical address reaches (R310, R318); a CXL target is a peer of its own kind. -/
def State.peerGranule (s : State) (pa : Nat) : Bool × Nat × Nat :=
  match s.windowAt pa with
  | some w => (winRig w == 0, winPeerOf w pa, winOffset w pa / 256)
  | none => (true, 4096, pa / 256)

/-- Whether two requests keep their order: one crew, one peer, one granule of 256 bytes. -/
def State.ordered (s : State) (a b : RigRequest) : Bool := a.crew == b.crew && s.peerGranule a.pa == s.peerGranule b.pa

/-- Whether a request can be sent on a rigger: its lanes and state, no earlier request of its granule unsent, no `rfence`
before it. -/
def State.sendable (s : State) (k : Nat) (e : Nat × RigRequest) : Bool :=
  e.2.sent.isNone && e.2.len != 0 && s.mayCarry e.2 k &&
  !(s.requests.any fun x => x.1 < e.1 && x.2.sent.isNone && s.ordered x.2 e.2) &&
  !(s.cmds.any fun x => x.2.kind == .rfence && some (⟨x.2.team, x.2.group⟩ : GroupRef) == e.2.group && x.2.st != .complete &&
      (match e.2.cmd with | some id => x.1 < id | none => false))

/-- The head of a tier on a rigger. -/
def State.tierHead (s : State) (k tier : Nat) : Option (Nat × RigRequest) :=
  s.requests.find? fun e => e.2.tier == tier && s.sendable k e

/-- Send a request. -/
def State.sendOn (s : State) (k : Nat) (e : Nat × RigRequest) : State :=
  let out : PeerOut := match s.windowAt e.2.pa with
    | some w => .request k (winPeerOf w e.2.pa) (winOffset w e.2.pa) e.2.op e.2.data e.2.data2
    | none => .request k 0 e.2.pa e.2.op e.2.data e.2.data2
  let v : Option Nat := (s.windowAt e.2.pa).bind fun w => if winRig w = 1 then some (winV3 w e.2.pa) else none
  let s1 : State := { s with requests := amod e.1 (fun r => { r with sent := some k, value := v }) s.requests
                             peerLog := s.peerLog ++ [out] }
  match e.2.cmd with
  | some id => s1.checkRemote id
  | none => s1

/-- A head of tier 1 that has waited 512 cycles, or of tier 2 that has waited 2,048 (R318). -/
def State.agedHead (s : State) (k : Nat) : Option (Nat × RigRequest) :=
  let old (tier wait : Nat) : Option (Nat × RigRequest) :=
    (s.tierHead k tier).bind fun e => if e.2.arrived + wait ≤ s.clock then some e else none
  (old 1 512).or (old 2 2048)

/-- The next slot of a rigger (R318): a head that has waited too long, else the lowest tier that has a request ready. -/
def State.sendSlot (s : State) (k : Nat) : State :=
  match (((s.agedHead k).or (s.tierHead k 0)).or (s.tierHead k 1)).or (s.tierHead k 2) with
  | some e => s.sendOn k e
  | none => s

/-- RIGGER_TIER_AGE (R318): a head that has waited too long takes the next slot. -/
def execRiggerTierAge (k : Nat) (s : State) : Out :=
  match s.agedHead k with
  | some e => .next (s.sendOn k e)
  | none => .refused .notEnabled

/-! Answers (R322) and failures (R315) -/

/-- Change one lane of a pending access of a group. -/
def State.modLane (s : State) (g : GroupRef) (aid lane : Nat) (f : LaneAcc → LaneAcc) : State :=
  s.modGroup g.team g.group fun x => { x with pend := x.pend.map fun a =>
    if a.id = aid then { a with lanes := a.lanes.map fun l => if l.lane = lane then f l else l } else a }

/-- Fill the absent bytes of a home line from a peer's answer. -/
def State.fillFrom (s : State) (k : LineKey) (va pa : Nat) (bytes : List Byte) : State :=
  let l := (aget k s.lines).getD {}
  let cells := (List.range bytes.length).foldl (fun cs i =>
    if (aget (va + i) cs).isSome then cs
    else aput (va + i) { pa := pa + i, val := bytes.getD i 0, dirty := false } cs) l.cells
  { s with lines := aput k { l with cells := cells } s.lines }

/-- The bytes that a window load takes: its group's older buffered stores, what a line holds, the peer's answer. -/
def State.windowBytes (s : State) (t : Team) (g : Group) (a : Access) (l : LaneAcc) (bytes : List Byte) : List Byte :=
  let k := s.accessKey t l.target l.head l.perm false
  (List.range a.bytes).map fun i =>
    (forwarded (olderStores g.own a) (if a.uniformEffect then none else some l.lane) l.target (l.addr + i)).getD
      ((((aget k s.lines).bind fun x => aget (l.addr + i) x.cells).map LineByte.val).getD (bytes.getD i 0))

/-- Perform the lanes of an atomic of a window whose bytes the home line now holds, in ascending lane order (R200). -/
def State.answerAtomic (s : State) (t : Team) (ref : GroupRef) (fn ty : Nat) (a : Access) : List LaneAcc → State
  | [] => s
  | l :: ls =>
    let k := keyOf t.crew (s.viewOf t.view l.target l.head l.perm) l.target .home
    let here : Bool := l.st == .outside && (List.range a.bytes).all fun i =>
      ((aget k s.lines).bind fun ln => aget (l.addr + i) ln.cells).isSome
    if here then
      let r := s.performAtomic t fn ty a l l.perm l.pa
      let s1 := r.1.ownBytes k l.addr a.bytes { group := ref, path := a.path, pc := a.pc, engine := false }
      let s2 := (s1.modLane ref a.id l.lane fun _ => r.2.1).modGroup ref.team ref.group fun x =>
        { x with pend := x.pend.map fun b => if b.id = a.id then { b with flags := b.flags ||| r.2.2 } else b }
      s2.answerAtomic t ref fn ty a ls
    else s.answerAtomic t ref fn ty a ls

/-- A peer's answer reaches a lane: a remote form takes it, a window load merges it, a window atomic is performed at home. -/
def State.answerLane (s : State) (ref : GroupRef) (aid lane : Nat) (bytes : List Byte) : State :=
  match s.team ref.team, s.group ref.team ref.group with
  | some t, some g =>
    match g.pend.find? fun a => a.id == aid with
    | none => s
    | some a =>
      match a.lanes.find? fun l => l.lane == lane && l.st == .outside with
      | none => s
      | some l =>
        match a.kind with
        | .atomic fn ty =>
          let k := keyOf t.crew (s.viewOf t.view l.target l.head l.perm) l.target .home
          (s.fillFrom k l.addr l.pa bytes).answerAtomic t ref fn ty a a.lanes
        | .load => s.modLane ref aid lane fun l => { l with st := .ready, data := leNat (s.windowBytes t g a l bytes) }
        | _ => s.modLane ref aid lane fun l => { l with st := .ready, data := leNat (bytes.take a.bytes) }
  | _, _ => s

/-- A peer's answer to the read of a source byte of an engine command. -/
def State.answerByte (s : State) (id i : Nat) (bytes : List Byte) : State :=
  s.modCmd id fun c => { c with data := c.data.set i (some (bytes.headD 0)) }

/-- Raise FAILCNT of a rigger. -/
def State.countFail (s : State) (k : Nat) : State :=
  let r := s.rigger k
  s.setRigger k { r with failcnt := if r.failcnt = 0xFFFF then r.failcnt else r.failcnt + 1 }

/-- A failed-item record of a command (R315, R332). -/
def State.itemRecord (s : State) (o : LineOwner) (r : RigRequest) (sub : BitVec 4) : State :=
  match s.team o.group.team with
  | none => s
  | some t =>
    let w := s.windowAt r.pa
    let peer := (w.map fun w => winPeerOf w r.pa).getD 0
    let off := (w.map fun w => winOffset w r.pa).getD r.pa
    s.postRecord t.crew (s.groupRecord t o.group.group o.path 2
      { code := 0x0C, sub := sub, addr := BitVec.ofNat 64 r.pa, detail := BitVec.ofNat 128 (peer % 4096 + off * 2 ^ 64),
        pc := o.pc, rpc := o.pc }) .nothing

/-- A store lane that stands in a group's buffer leaves it as complete with failure (R315). -/
def State.dropStore (s : State) (g : GroupRef) (aid lane : Nat) (sub : BitVec 4) : State :=
  s.modGroup g.team g.group fun x =>
    { x with windowFail := some sub
             sbuf := (x.sbuf.map fun a => if a.id = aid then { a with lanes := a.lanes.filter fun l => l.lane != lane } else a).filter
               fun a => !a.lanes.isEmpty }

/-- A store lane that has been held for too long takes the port-offline fault where it stands (R313). -/
def State.faultStore (s : State) (g : GroupRef) (aid lane : Nat) (sub : BitVec 4) : State :=
  let lost (l : LaneAcc) : LaneAcc := if l.lane = lane then { l with st := .faulted 0x0C, sub := sub } else l
  s.modGroup g.team g.group fun x =>
    { x with sbuf := x.sbuf.map fun a => if a.id = aid then { a with lanes := a.lanes.map lost } else a }

/-- A write-back that is lost (R315): the group's next fence or release that covers its store faults; an engine write is recorded. -/
def State.failWrite (s : State) (r : RigRequest) (sub : BitVec 4) : State :=
  match r.owner with
  | none => s
  | some o =>
    if o.engine then s.itemRecord o r sub
    else s.modGroup o.group.team o.group.group fun g => if g.ended then g else { g with windowFail := some sub }

/-- A failed item (R315): a load lane faults, a plain store is complete with failure or faults while it is held, a command's item is
recorded. What the register of a failed `ratom` lane takes is not stated: a free value (assumption 3). -/
def State.failItem (s : State) (e : Nat × RigRequest) (sub : BitVec 4) : State :=
  let s1 : State := { s with requests := adel e.1 s.requests }
  let s := match e.2.sent.or (s1.carrier e.2.crew e.2.pa) with
    | some k => s1.countFail k
    | none => s1
  let lost (l : LaneAcc) : LaneAcc := { l with st := .faulted 0x0C, sub := sub }
  match e.2.cmd.bind fun id => (aget id s.cmds).map fun c => (id, c) with
  | some (id, c) =>
    match c.kind, e.2.group, e.2.access with
    | .remote 0 _ _ _ _ _, some g, some aid =>
      (s.modLane g aid e.2.lane lost).modCmd id fun c => { c with st := .faulted 0x0C }
    | .remote _ _ _ _ _ _, some g, some aid =>
      let s := s.itemRecord c.owner e.2 sub
      (s.modLane g aid e.2.lane fun l =>
        { l with st := .ready, data := (Config.freeWord (s.fresh * 2 ^ 64 + e.1)).toNat % 2 ^ (8 * e.2.len) }).checkRemote id
    | .remote _ _ _ _ _ _, _, _ => (s.itemRecord c.owner e.2 sub).checkRemote id
    | .rfence, _, _ => (s.itemRecord c.owner e.2 sub).settleRemote c.team c.group 256
    | _, _, _ =>
      let s := (s.itemRecord c.owner e.2 sub).modCmd id fun c => { c with st := .complete }
      let s1 : State := { s with requests := s.requests.filter fun r => r.2.cmd != some id || r.2.sent.isSome }
      s1.retireHead c.team c.group c.cls 256
  | none =>
    match e.2.group, e.2.access, e.2.op with
    | some g, some aid, .write => if sub = 1 then s.faultStore g aid e.2.lane sub else s.dropStore g aid e.2.lane sub
    | some g, some aid, _ => s.modLane g aid e.2.lane lost
    | some g, none, _ => s.settleRemote g.team g.group 256
    | none, _, _ => s.failWrite e.2 sub

/-- The sub-status of an item that is lost on a rigger: a message of Ultra Ethernet, else a response (R315). -/
def State.lostSub (s : State) (k : Nat) : BitVec 4 := if (s.rigger k).rig = 2 then 3 else 2

/-- A request has been answered: it is gone, and its command or the fences behind it may be complete. -/
def State.doneRequest (s : State) (e : Nat × RigRequest) : State :=
  let s1 : State := { s with requests := adel e.1 s.requests }
  let s2 := match e.2.cmd with
    | some id => s1.checkRemote id
    | none => s1
  match e.2.group with
  | some g => s2.settleRemote g.team g.group 256
  | none => s2

/-- REMOTE_RESPONSE (R322): the response or acknowledgement of a request that was sent; without `ok`, the item fails. -/
def execRemoteResponse (request : Nat) (ok : Bool) (data : List Byte) (s : State) : Out :=
  match aget request s.requests with
  | none => .refused .notEnabled
  | some r =>
    match r.sent with
    | none => .refused .notEnabled
    | some k =>
      if !ok then .next (s.failItem (request, r) (s.lostSub k))
      else
        let s := match r.group, r.access, r.cmd with
          | some g, some aid, _ => s.answerLane g aid r.lane data
          | some _, none, some id => if r.op = RigOp.read then s.answerByte id r.lane data else s
          | _, _, _ => s
        .next (s.doneRequest (request, r))

/-- HELD_REQUEST_TIMEOUT (R313): a request held for 170,000 cycles fails. -/
def execHeldRequestTimeout (request : Nat) (s : State) : Out :=
  match aget request s.requests with
  | none => .refused .notEnabled
  | some r =>
    let lanes : Bool := match s.carrier r.crew r.pa with
      | some k => s.ownsRigger r.crew k
      | none => true
    if r.sent.isNone && (s.windowHeld r.pa || (s.windowAt r.pa).isNone) && !r.forced && lanes && r.lostAt.isNone &&
        r.arrived + 170000 ≤ s.clock then .next (s.failItem (request, r) 1)
    else .refused .notEnabled

end Sys2Proof.Machine
end

