-- ==== Sys2Proof/Machine/Riggers.lean ====
section
/-! DEFINITION. Riggers: `rig` and `rigst`, the states of a rigger, its drains and failures, the plane map, requests of peers
(spec/14_riggers.md R307 to R327), and the entry of a die's network (spec/01_machine.md R10).

Marked in the assumption log: 30 (DEDUCED), 32 (DEDUCED), 33 (DEDUCED), 43 (DEDUCED). -/

namespace Sys2Proof.Machine

/-- The status word of a rigger (R311). -/
def Rigger.word (r : Rigger) : Word64 :=
  let lock : BitVec 2 := match r.lock with | .open => 0 | .locked => 1 | .running => 2 | .error => 3
  let st : BitVec 3 := match r.st with | .offline => 0 | .training => 1 | .live => 2 | .draining => 3
  r.failcnt ++ (0 : BitVec 16) ++ r.err ++ (0 : BitVec 12) ++ lock ++ r.rig ++ r.phase ++ (0 : BitVec 3) ++ st

/-- The die of a rigger. -/
def rigDie (k : Nat) : Nat := k / 2

/-- Whether a rigger is on the die set of a crew. -/
def State.rigInSet (s : State) (crew k : Nat) : Bool := (s.crewDies crew).contains (rigDie k)

/-! Windows (R308, R309) -/

/-- Whether two windows overlap. -/
def winMeets (a b : BitVec 128) : Bool :=
  decide (winBase a < winBase b + 2 ^ winSize b) && decide (winBase b < winBase a + 2 ^ winSize a)

/-- The number of peers of a window. -/
def winPeers (w : BitVec 128) : Nat := 2 ^ (winSize w - winPshift w)

/-- The fields of an entry that must be zero (R308). -/
def winReserved (w : BitVec 128) : Bool :=
  w.extractLsb' 52 12 != 0 || w.extractLsb' 65 5 != 0 || w.extractLsb' 121 7 != 0

/-- The conditions that a rig sets on a window (R309); a rigger that is offline carries no rig (R307). -/
def State.winRigOk (s : State) (w : BitVec 128) : Bool :=
  let ks := winRiggers w
  let all (rig : Nat) : Bool := ks.all fun k => (s.rigger k).st != .offline && (s.rigger k).rig.toNat == rig
  let shift : Bool := 21 ≤ winPshift w && winPshift w ≤ winSize w
  match winRig w with
  | 0 => winPshift w == winSize w && [1, 2, 4, 8, 16].contains ks.length && all 0
  | 1 => shift && ks.isEmpty && winPeer w + winPeers w ≤ 1024
  | 2 => shift && !ks.isEmpty && all 2 && winPeer w + winPeers w ≤ 4096
  | _ => false

/-- Whether a valid entry is legal at an index (R309). -/
def State.winLegal (s : State) (k : Nat) (w : BitVec 128) : Bool :=
  30 ≤ winSize w && winSize w ≤ 48 && winBase w % 2 ^ winSize w == 0 && 0x1000_0000_0000 ≤ winBase w &&
  winBase w + 2 ^ winSize w ≤ 0xF_0000_0000_0000 &&
  ((List.range 64).all fun i => i == k || !winV (s.window i) || !winMeets w (s.window i)) &&
  winCrew w < 40 && (s.crewDies (winCrew w)).contains (winHdie w) &&
  ((winRiggers w).all fun r => s.rigInSet (winCrew w) r) && s.winRigOk w

/-- Whether the home die and the riggers of an entry lie in the die set of a crew (R326). -/
def State.winInSet (s : State) (crew : Nat) (w : BitVec 128) : Bool :=
  (s.crewDies crew).contains (winHdie w) && (winRiggers w).all fun r => s.rigInSet crew r

/-- Whether an entry names a rigger whose lock is not open (R312). -/
def State.winLocked (s : State) (w : BitVec 128) : Bool := (winRiggers w).any fun k => (s.rigger k).lock != .open

/-! The plane map (R316, R317) -/

/-- Whether a rigger can serve a valid plane: live with rig UALink, or in configuration toward it and open. -/
def State.planeServes (s : State) (k : Nat) : Bool :=
  let r := s.rigger k
  r.rig == 1 && (r.st == .live || (r.st == .training && r.phase == 2 && r.lock == .open))

/-- Whether a plane map is accepted (R316). -/
def State.planesOk (s : State) (m : Word64) : Bool :=
  ((List.range 8).all fun v => planeValid m (planeOf m v)) &&
  ((List.range 8).all fun q => !planeValid m q || s.planeServes (planeRig m q))

/-- Whether a plane map meets the lock of a rigger (R326). -/
def State.planesLocked (s : State) (m : Word64) : Bool :=
  let held (k : Nat) : Bool := (s.rigger k).lock == .locked || (s.rigger k).lock == .running
  (List.range 8).any fun q =>
    ((planeValid m q && !planeValid s.planes q) || planeRig m q != planeRig s.planes q) &&
    (held (planeRig m q) || held (planeRig s.planes q))

/-- Whether a request in flight was sent with a value of the plane map. -/
def State.inFlightWith (s : State) (v : Nat) : Bool := s.requests.any fun r => r.2.sent.isSome && r.2.value == some v

/-- Write the plane map: a value moves to another plane when nothing is in flight with it, so that no two of its requests are in
flight on two planes (R317). -/
def State.writePlanes (s : State) (m : Word64) : State :=
  let next := (List.range 8).filterMap fun v =>
    let was := s.planeNow v
    if was ≠ planeOf m v ∧ s.inFlightWith v then some (v, was) else none
  { s with planes := m, planesNext := next }.reboundAll

/-- PLANE_MOVE_EFFECT (R317). -/
def execPlaneMoveEffect (value : BitVec 3) (s : State) : Out :=
  let v := value.toNat
  if (aget v s.planesNext).isSome && !s.inFlightWith v then .next { s with planesNext := adel v s.planesNext }.reboundAll
  else .refused .notEnabled

/-! States of a rigger (R312 to R315) -/

/-- The requests that a condition picks fail, each with a sub-status. -/
def State.failAll (s : State) (which : Nat × RigRequest → Bool) (sub : BitVec 4) : State :=
  (s.requests.filter which).foldl (fun s e => if (aget e.1 s.requests).isSome then s.failItem e sub else s) s

/-- The sub-status of what is lost with a rigger: plane dead, response lost, message failed (R315, R317). -/
def State.deadSub (s : State) (k : Nat) : BitVec 4 :=
  match (s.rigger k).rig.toNat with
  | 1 => 4
  | 2 => 3
  | _ => 2

/-- Whether a request waits for a plane of a rigger (R316). -/
def State.waitsForPlane (s : State) (k : Nat) (r : RigRequest) : Bool :=
  r.sent.isNone && (match s.windowAt r.pa with
    | some w =>
      let q := planeOf s.planes (winV3 w r.pa)
      winRig w == 1 && planeValid s.planes q && planeRig s.planes q == k
    | none => false)

/-- Begin training toward a rig. -/
def Rigger.train (r : Rigger) (rig : BitVec 2) (clock : Nat) : Rigger :=
  { r with st := .training, phase := 0, lock := .open, rig := rig, target := rig, began := clock }

/-- A rigger goes offline in error: what waits for its planes fails (R312, R316). -/
def State.rigOffline (s : State) (k : Nat) (err : BitVec 8) : State :=
  let s := s.setRigger k { s.rigger k with st := .offline, lock := .error, err := err }
  s.failAll (fun e => s.waitsForPlane k e.2) 4

/-- The lines of the windows that a rigger serves are written back and dropped, and every write-back toward it is forced
(R314, R318). -/
def State.forceWriteBacks (s : State) (k : Nat) : State :=
  let mine (pa : Nat) : Bool := match s.windowAt pa with
    | some w => winRig w == 0 && (winRiggers w).contains k
    | none => false
  let keys := (s.lines.filter fun e => e.2.cells.any fun c => mine c.2.pa).map Prod.fst
  let s := keys.foldl (fun s key => s.evictLine key) s
  { s with requests := s.requests.map fun e =>
      if e.2.group.isNone && e.2.cmd.isNone && e.2.sent.isNone && mine e.2.pa
      then (e.1, { e.2 with forced := true, tier := 2 }) else e }

/-- Begin a drain (R312 to R314). -/
def State.startDrain (s : State) (k : Nat) (target : BitVec 2) : State :=
  let r := s.rigger k
  let s := s.setRigger k { r with st := .draining, target := target, began := s.clock }
  if r.rig = 0 then s.forceWriteBacks k else s

/-- Whether a request is still to be settled when a rigger drains. -/
def State.unsettled (s : State) (k : Nat) (r : RigRequest) : Bool :=
  r.sent == some k || (r.forced && r.sent.isNone && (s.carriers r.pa).contains k)

/-- RIGGER_DRAIN_END (R314): everything is settled, or 340,000 cycles have passed and what is not fails. -/
def execRiggerDrainEnd (k : Nat) (s : State) : Out :=
  let r := s.rigger k
  let left : Bool := s.requests.any fun e => s.unsettled k e.2
  if r.st ≠ .draining ∨ (left ∧ s.clock < r.began + 340000) then .refused .notEnabled
  else
    let s1 := s.failAll (fun e => s.unsettled k e.2) (s.deadSub k)
    let r1 := s1.rigger k
    .next (s1.setRigger k (if r1.target = 3 then { r1 with st := .offline, lock := .open } else r1.train r1.target s.clock))

/-- UALINK_RESPONSE_TIMEOUT (R314): 85,000 cycles after the `rig` an unanswered request of a draining plane fails. -/
def execUalinkResponseTimeout (request : Nat) (s : State) : Out :=
  match aget request s.requests with
  | none => .refused .notEnabled
  | some e =>
    match e.sent with
    | none => .refused .notEnabled
    | some k =>
      let r := s.rigger k
      if r.st = .draining ∧ r.rig = 1 ∧ r.began + 85000 ≤ s.clock then .next (s.failItem (request, e) 4)
      else .refused .notEnabled

/-- RIGGER_LINK_TRAINED (R312). -/
def execRiggerLinkTrained (k : Nat) (s : State) : Out :=
  let r := s.rigger k
  if r.st = .training ∧ r.phase = 0 then .next (s.setRigger k { r with phase := 1 }) else .refused .notEnabled

/-- RIGGER_TRAINING_TIMEOUT (R312): 8,500,000 cycles since training began, or no supported part. -/
def execRiggerTrainingTimeout (k : Nat) (noPart : Bool) (s : State) : Out :=
  let r := s.rigger k
  if r.st = .training ∧ r.phase = 0 ∧ (noPart ∨ r.began + 8500000 ≤ s.clock) then .next (s.rigOffline k (if noPart then 4 else 1))
  else .refused .notEnabled

/-- RIGGER_ATTESTATION_PASS (R312). -/
def execRiggerAttestationPass (k : Nat) (s : State) : Out :=
  let r := s.rigger k
  if r.st = .training ∧ r.phase = 1 then .next (s.setRigger k { r with phase := 2, lock := .open }) else .refused .notEnabled

/-- RIGGER_ATTESTATION_FAIL (R312). -/
def execRiggerAttestationFail (k : Nat) (s : State) : Out :=
  let r := s.rigger k
  if r.st = .training ∧ r.phase = 1 then .next (s.rigOffline k 2) else .refused .notEnabled

/-- RIGGER_LINK_LOST (R312, R315, R317): what is in flight fails item by item. -/
def execRiggerLinkLost (k : Nat) (s : State) : Out :=
  let r := s.rigger k
  if r.st = .live then
    let s1 := s.setRigger k { r with st := .offline, lock := .error, err := 3 }
    .next (s1.failAll (fun e => e.2.sent == some k) (s.deadSub k))
  else .refused .notEnabled

/-- A held request whose window is no longer there, or no longer its crew's, takes the protection fault when it is looked up
again (R313, R310). -/
def State.lookAgain (s : State) : State :=
  let gone (r : RigRequest) : Bool := r.sent.isNone && !r.forced && (match s.windowAt r.pa with
    | some w => winCrew w != r.crew
    | none => true)
  (s.requests.filter fun e => gone e.2).foldl (fun s e =>
    match e.2.group, e.2.access, e.2.cmd with
    | some g, some aid, none =>
      let s1 : State := { s with requests := adel e.1 s.requests }
      let s2 := s1.modLane g aid e.2.lane fun l => { l with st := .faulted 0x04 }
      s2.modGroup g.team g.group fun x => { x with sbuf := x.sbuf.map fun a =>
        if a.id = aid then { a with lanes := a.lanes.map fun l => if l.lane = e.2.lane then { l with st := .faulted 0x04 } else l } else a }
    | _, _, _ => s.failItem e 1) s

/-! `rig` (R326) -/

/-- What a `rig` command comes to: a status, or a fault, or the state after it. -/
inductive RigResult where
  | status (n : Nat)
  | fault (code : BitVec 8) (addr : Word64)
  | done (s : State)
  deriving DecidableEq, Repr

/-- Read the bytes of a range of global memory as the group reads them, or the first fault. -/
def PathCtx.readGlobal (c : PathCtx) : List Nat → Except (BitVec 8 × Nat) (List Byte)
  | [] => .ok []
  | a :: as =>
    match c.s.srcByte c.t c.g.sbuf 0 a false with
    | .error code => .error (code, a)
    | .ok b => (c.readGlobal as).map fun bs => b :: bs

/-- RERIG. -/
def PathCtx.rerig (c : PathCtx) (k : Nat) (rig : BitVec 2) : RigResult :=
  let r := c.s.rigger k
  match r.st with
  | .offline => if rig = 3 then .status 4 else .done (c.s.setRigger k { r.train rig c.s.clock with err := 0 })
  | .live => .done (c.s.startDrain k rig)
  | _ => .status 4

/-- WINWR of an entry that has been read. -/
def PathCtx.writeWindow (c : PathCtx) (reserved : Bool) (k : Nat) (w : BitVec 128) : RigResult :=
  let crew := c.t.crew
  if c.s.winLocked (c.s.window k) || c.s.winLocked w then .fault 0x04 (BitVec.allOnes 64)
  else if reserved || winReserved w then .status 1
  else if 64 ≤ k ∨ !c.s.winInSet crew w then .status 2
  else if winV w ∧ !c.s.winLegal k w then .status 3
  else .done { c.s with windows := aput k w c.s.windows }.reboundAll

/-- The command of `rig` in gA with gB (R326). -/
def PathCtx.rigCommand (c : PathCtx) (a b : Word64) : RigResult :=
  let cmd := (a.extractLsb' 0 4).toNat
  let rig : BitVec 2 := a.extractLsb' 10 2
  let idx := (a.extractLsb' 16 8).toNat
  let bits : Bool := a.extractLsb' 24 40 != 0 || a.extractLsb' 12 4 != 0 || a.extractLsb' 4 6 != 0 || (cmd != 0 && rig != 0) ||
    6 ≤ cmd || (cmd != 1 && cmd != 3 && b != 0)
  let rigger (k : RigResult) : RigResult :=
    if bits then .status 1 else if 16 ≤ idx ∨ !c.s.rigInSet c.t.crew idx then .status 2 else k
  let r := c.s.rigger idx
  let config : Bool := r.st == .training && r.phase == 2
  match cmd with
  | 0 => rigger (c.rerig idx rig)
  | 1 =>
    if b.toNat % 16 ≠ 0 then .fault 0x05 b
    else match c.readGlobal (upFrom b.toNat 16) with
      | .error (code, at_) => .fault code (BitVec.ofNat 64 at_)
      | .ok bs => c.writeWindow bits idx (BitVec.ofNat 128 (leNat bs))
  | 2 =>
    let w := c.s.window idx
    if c.s.winLocked w then .fault 0x04 (BitVec.allOnes 64)
    else if bits then .status 1
    else if 64 ≤ idx ∨ !c.s.winInSet c.t.crew w then .status 2
    else .done { c.s with windows := aput idx (w &&& ~~~((1 : BitVec 128) <<< 64)) c.s.windows }
  | 3 =>
    if c.s.planesLocked b then .fault 0x04 (BitVec.allOnes 64)
    else if bits then .status 1
    else if idx ≠ 0 ∨ !((List.range 8).all fun q => !planeValid b q || c.s.rigInSet c.t.crew (planeRig b q)) then .status 2
    else if !c.s.planesOk b then .status 5
    else .done (c.s.writePlanes b)
  | 4 => rigger (if config ∧ r.lock = .open then .done (c.s.setRigger idx { r with lock := .locked }) else .status 4)
  | 5 => rigger (if config ∧ r.lock = .locked then .done (c.s.setRigger idx { r with st := .live, lock := .running }).lookAgain
                 else .status 4)
  | _ => .status 1

/-- `rig`: what its command word in gA names (R326); a determinate grid's team takes 0x07 (R320). -/
def PathCtx.rig (c : PathCtx) (f : Fields) : Out :=
  if !c.effect f then c.skipOver 0xC8 0x04 f
  else if c.determinate then c.faultCode 0x07
  else match c.rigCommand (c.uni 0 f.sa) (c.uni 1 f.sb) with
    | .fault code addr => if code = 0x13 then c.readFault code 0 addr.toNat 1 else c.faultCode code addr
    | .status n => c.retire f (c.late f (BitVec.ofNat 64 n))
    | .done s =>
      match s.group c.tid c.gi with
      | some g => { c with s := s, g := g }.retire f ({ c with g := g }.late f 0)
      | none => .next s

/-- `rig` RERIG. -/
def execRigRerig (f : Fields) (s : State) : Out := onPrivileged s 0xC8 0x04 f fun c => c.rig f

/-- `rig` WINWR. -/
def execRigWinwr (f : Fields) (s : State) : Out := onPrivileged s 0xC8 0x04 f fun c => c.rig f

/-- `rig` WINCLR. -/
def execRigWinclr (f : Fields) (s : State) : Out := onPrivileged s 0xC8 0x04 f fun c => c.rig f

/-- `rig` PMAP. -/
def execRigPmap (f : Fields) (s : State) : Out := onPrivileged s 0xC8 0x04 f fun c => c.rig f

/-- `rig` LOCK. -/
def execRigLock (f : Fields) (s : State) : Out := onPrivileged s 0xC8 0x04 f fun c => c.rig f

/-- `rig` GO. -/
def execRigGo (f : Fields) (s : State) : Out := onPrivileged s 0xC8 0x04 f fun c => c.rig f

/-- The snapshot that a selector of `rigst` names (R327). -/
def State.rigSnapshot (s : State) (a : Word64) : Word64 :=
  let k := (a.extractLsb' 0 8).toNat
  if a.extractLsb' 12 52 ≠ 0 then BitVec.allOnes 64
  else match (a.extractLsb' 8 4).toNat with
    | 0 => if k < 16 then (s.rigger k).word else BitVec.allOnes 64
    | 1 => if k < 64 then (s.window k).extractLsb' 0 64 else BitVec.allOnes 64
    | 2 => if k < 64 then (s.window k).extractLsb' 64 64 else BitVec.allOnes 64
    | 3 => if k = 0 then s.planes else BitVec.allOnes 64
    | _ => BitVec.allOnes 64

/-- `rigst` (R327): FAILCNT clears after the read of a status word. -/
def execRigst (f : Fields) (s : State) : Out :=
  onPrivileged s 0xC8 0x05 f fun c =>
    if !c.effect f then c.skipOver 0xC8 0x05 f
    else if c.determinate then c.faultCode 0x07
    else
      let a := c.uni 0 f.sa
      let k := (a.extractLsb' 0 8).toNat
      let s := if a.extractLsb' 8 56 = 0 ∧ k < 16 then c.s.setRigger k { c.s.rigger k with failcnt := 0 } else c.s
      c.retireOn s f (c.late f (c.s.rigSnapshot a))

/-! Requests of peers (R324) and the network (R10) -/

/-- The bytes of an access of an agent that addresses memory physically, whole in the HBM of the die set of a die. -/
def State.physAllowed (s : State) (die pa n : Nat) : Bool :=
  (upFrom pa n).all fun a => match s.paClass a with
    | .hbm d => (s.setOf die).contains d
    | _ => false

/-- Write bytes physically; units that they cover whole are poisoned no more (R347). -/
def State.physStore (s : State) (pa : Nat) (bs : List Byte) : State :=
  let hit (x : Nat) : Bool := pa ≤ x && x < pa + bs.length
  (s.physWriteN pa bs).unpoisonIf fun u x => match u with
    | .hbm _ => hit x
    | .slice k _ => (((aget k s.lines).bind fun l => aget x l.cells).map fun c => hit c.pa).getD false
    | _ => false

/-- Whether the standard of a rig lets a peer ask something of this part (R307): a UALink target reads, writes and performs
atomics, an Ultra Ethernet one reads and writes, and toward a CXL expander this part is the host. -/
def rigServes (rig : BitVec 2) (request : PeerRequest) : Bool :=
  match request with
  | .atomic _ _ _ _ _ => rig == 1
  | _ => rig == 1 || rig == 2

/-- PEER_REQUEST_ARRIVAL (R324): performed at home as by a `.sys` agent; one that reaches outside the die set of the rigger is
answered with nothing. -/
def execPeerRequestArrival (rigger : Nat) (request : PeerRequest) (s : State) : Out :=
  if (s.rigger rigger).st ≠ .live ∨ !rigServes (s.rigger rigger).rig request then .refused .notEnabled
  else
    let answer (s : State) (bs : List Byte) : Out := .next { s with peerLog := s.peerLog ++ [.answer rigger bs] }
    match request with
    | .read pa len => answer s (if s.physAllowed (rigDie rigger) pa len then s.physReadN pa len else [])
    | .write pa data => answer (if s.physAllowed (rigDie rigger) pa data.length then s.physStore pa data else s) []
    | .atomic pa aop ty operand compare =>
      let t := remoteTyOf ty.toNat
      let n := t.width / 8
      if s.physAllowed (rigDie rigger) pa n ∧ aop.toNat < 8 ∧ pa % n = 0 then
        let old := s.physReadN pa n
        let r : Nat × FlagSet :=
          if aop = 7 then atomNew 7 t (leNat old) compare.toNat operand.toNat else atomNew aop.toNat t (leNat old) operand.toNat 0
        answer (s.physStore pa (leBytes n r.1)) old
      else answer s []

/-- NETWORK_ENTRY_PRIORITY (R10): an entry held for 64 cycles takes priority. -/
def execNetworkEntryPriority (packet : Nat) (s : State) : Out :=
  match aget packet s.packets with
  | none => .refused .notEnabled
  | some p =>
    if !p.priority && p.ring.isNone && p.arrived + 64 ≤ s.clock then .next { s with packets := aput packet { p with priority := true } s.packets }
    else .refused .notEnabled

end Sys2Proof.Machine
end

