-- ==== Sys2Proof/Machine/System.lean ====
section
/-! DEFINITION. The instructions of OPC 0xD0 but for the saved contexts: software traps and the return from a handler, system
registers, `tlbinv`, `vacate` and `halt` (spec/15_traps.md R349 to R356, R424; spec/06_float.md R122; spec/16_crews.md R378).

Marked in the assumption log: 22 (DEDUCED), 34 (DEDUCED), 35 (DEDUCED). -/

namespace Sys2Proof.Machine

/-- Retire with a result in gD from a state in which the group may have changed; a group that is gone retires nothing. -/
def PathCtx.conclude (c : PathCtx) (s : State) (f : Fields) (w : Word64) : Out :=
  match s.pathCtx ⟨c.tid, c.gi, c.pi⟩ with
  | some d => d.retire f (d.late f w)
  | none => .next s

/-- Retire without a result from such a state. -/
def PathCtx.concludePlain (c : PathCtx) (s : State) (f : Fields) : Out :=
  match s.pathCtx ⟨c.tid, c.gi, c.pi⟩ with
  | some d => d.retire f d.g
  | none => .next s

/-- Wait on the instruction, its first part done, in a state in which the group may have changed. `goal` is kept for it, and
the team that it moves. -/
def PathCtx.waitOn (c : PathCtx) (s : State) (goal : Nat) (moves : Option Nat := none) : Out :=
  match s.pathCtx ⟨c.tid, c.gi, c.pi⟩ with
  | some d => ({ d with p := { d.p with goal := BitVec.ofNat 32 goal, moves := moves } } : PathCtx).park d.g true
  | none => .next s

/-! Software traps (R349 to R351) -/

/-- A fault that resumes at the next slot: the path has passed the instruction. -/
def PathCtx.softFault (c : PathCtx) (code : BitVec 8) (f : Fields) : Out :=
  let next := nextSlot c.p.pc
  let g := c.g.setPath c.pi (some (c.p.advanced next c.s.clock))
  .next ((c.s.setGroup c.tid c.gi { g with held := g.held || (f.sw && !g.inflight.isEmpty) }).takeFault c.tid c.gi c.pi
    { code := code, detail := (f.imm.setWidth 16).setWidth 128, pc := c.p.pc, rpc := next })

/-- The same of a seat: on replay it goes on at the next instruction. -/
def SeatCtx.softFault (c : SeatCtx) (code : BitVec 8) (f : Fields) : Out :=
  .next ((c.s.seatFault c.tid code 0 (BitVec.allOnes 64) ((f.imm.setWidth 16).setWidth 128) c.q.pc).modSeat c.tid fun q =>
    { q with deferred := some (nextSlot c.q.pc) })

/-- `trap` (R349). -/
def execTrap (f : Fields) (s : State) : Out :=
  onBoth s 0xD0 0x00 f
    (fun c => if c.effect f then c.softFault 0x0E f else c.skipOver 0xD0 0x00 f)
    fun c => if c.guard f then c.softFault 0x0E f else c.retire c.q

/-- `tret` (R350): legal on the handler's path alone; a changed resume address must be a landing point. -/
def execTret (f : Fields) (s : State) : Out :=
  onPath s 0xD0 0x01 f fun c =>
    if !c.effect f then c.skipOver 0xD0 0x01 f
    else if c.p.st ≠ .handler then c.faultCode 0x04
    else
      let t := c.greg 0 62
      let go : Out := .next ((({ c.s with fresh := c.s.fresh + 2 } : State).returnFromTrap c.tid c.gi c.pi (t.setWidth 56)).fuse
        c.tid c.gi c.pi)
      if t = c.g.trap.rpc.setWidth 64 then go
      else match c.s.landing c.t t with
        | some code => c.faultCode code t
        | none => go

/-- Whether an enabled sticky flag is set. -/
def flagsTrip (w : BitVec 16) : Bool := w.extractLsb' 0 8 &&& w.extractLsb' 8 8 != 0

/-- `tfence` (R122): a group whose fixed-latency results are not all written is held until they are; then it tests the
flags. -/
def execTfence (f : Fields) (s : State) : Out :=
  onBoth s 0xD0 0x02 f
    (fun c =>
      if !c.effect f then c.skipOver 0xD0 0x02 f
      else if !c.g.inflight.isEmpty then .next (c.s.setGroup c.tid c.gi { c.g with held := true })
      else if flagsTrip c.g.flags then c.faultCode 0x0D (c.g.flags.setWidth 64)
      else c.retire f c.g)
    fun c =>
      if c.guard f && flagsTrip c.q.flags then c.fault 0x0D 0 (c.q.flags.setWidth 64) else c.retire c.q

/-- Whether the debug stop of a crew is armed on a die (R388). -/
def State.stopArmed (s : State) (crew die : Nat) : Bool :=
  match aget die (s.crew crew).rings with
  | some r => r.on && r.ctl.getLsbD 3
  | none => false

/-- `brk` (R351): a fault, or with the debug stop armed a path held past the instruction. -/
def execBrk (f : Fields) (s : State) : Out :=
  onBoth s 0xD0 0x03 f
    (fun c =>
      if !c.effect f then c.skipOver 0xD0 0x03 f
      else if c.s.stopArmed c.t.crew (dieOf c.t.core) then
        let p := { c.p.advanced (nextSlot c.p.pc) c.s.clock with st := .stopped, byBrk := true }
        let g := c.g.setPath c.pi (some p)
        .next ((c.s.setGroup c.tid c.gi { g with held := g.held || (f.sw && !g.inflight.isEmpty) }).stopPacket c.t c.g c.pi c.p 0x0F)
      else c.softFault 0x0F f)
    fun c => if c.guard f then c.softFault 0x0F f else c.retire c.q

/-! System registers (R352, R378) -/

/-- The clamp of a value to a range. -/
def clampTo (lo hi x : Nat) : Nat := max lo (min hi x)

/-- The bits of TRAPEN that exist: those of the codes that a handler takes. -/
def trapenMask : Word64 := 0x16FBFE

/-- Whether a crew is one of an issuing crew's die set. -/
def State.crewNamed (s : State) (issuer crew : Nat) : Bool := crew < 40 && s.sameSet issuer crew

/-- Whether a selector is scoped by crew; the others are scoped by die. -/
def crewSelector (sel : Nat) : Bool := sel < 0x0200

/-- Whether a target word names a crew or a die that the issuing crew may name. -/
def State.sysTarget (s : State) (issuer sel : Nat) (w : Word64) : Bool :=
  if crewSelector sel then w.toNat < 64 && s.crewNamed issuer w.toNat
  else w.toNat < 8 && (s.crewDies issuer).contains w.toNat

/-- The cycles left in the current heat of a die set; none without a table (R378). -/
def HeatTable.left (h : HeatTable) (clock : Nat) : Nat := if h.active.isEmpty then 0 else h.started + rowLen h.current - clock

/-- The value of a selector of a crew. -/
def Crew.sysValue (c : Crew) (sel : Nat) : Word64 :=
  match sel with
  | 0x0100 => c.trapvec.setWidth 64
  | 0x0101 => c.trapen
  | 0x0102 => c.fqbase
  | 0x0103 => BitVec.ofNat 64 c.fqlog
  | 0x0104 => c.fqhead
  | 0x0105 => c.fqtail
  | 0x0106 => BitVec.ofNat 64 c.heldRecs.length
  | 0x0108 => c.savebase
  | 0x0109 => c.savesize
  | 0x0110 => BitVec.ofNat 64 c.drainwin
  | _ => BitVec.ofNat 64 c.ovrcnt

/-- The value of a selector of a die. -/
def State.dieValue (s : State) (die sel : Nat) : Word64 :=
  let d := s.die die
  let h := s.heat d.base.toNat
  match sel with
  | 0x0200 => d.ecccnt.setWidth 64
  | 0x0201 => d.ecclast
  | 0x0202 => BitVec.ofNat 64 ((s.walks.filter fun w => w.2.die == die).length % 64 + d.tcache.length / 32 * 65536)
  | _ => BitVec.ofNat 64 (h.row + h.active.length * 64 + (if h.pendingN.isSome then 2 ^ 13 else 0) +
      min (h.left s.clock) (2 ^ 32 - 1) * 2 ^ 32)

/-- `sysrd` (R352). -/
def execSysrd (f : Fields) (s : State) : Out :=
  onPrivileged s 0xD0 0x04 f fun c =>
    if !c.effect f then c.skipOver 0xD0 0x04 f
    else
      let sel := f.imm.toNat
      let w := c.uni 1 f.sb
      if !c.s.sysTarget c.t.crew sel w then c.faultCode 0x04
      else c.retire f (c.late f (if crewSelector sel then (c.s.crew w.toNat).sysValue sel else c.s.dieValue w.toNat sel))

/-- Whether a crew has a grid in flight. -/
def State.hasGrid (s : State) (crew : Nat) : Bool := s.grids.any fun e => e.2.crew == crew

/-- Write a selector of a crew (R352, R378); REPLAY is `State.replay`. -/
def State.writeCrewReg (s : State) (crew sel : Nat) (v : Word64) : State :=
  let c := s.crew crew
  match sel with
  | 0x0100 => s.setCrew crew { c with trapvec := v.setWidth 56 }
  | 0x0101 => s.setCrew crew { c with trapen := v &&& trapenMask }
  | 0x0102 => s.setCrew crew { c with fqbase := v &&& 0x000FFFFFFFFFF000 }
  | 0x0103 => if c.fqhead ≠ c.fqtail then s else s.setCrew crew { c with fqlog := clampTo 6 16 v.toNat }
  | 0x0105 => if (v - c.fqtail).toNat ≤ (c.fqhead - c.fqtail).toNat then s.setCrew crew { c with fqtail := v } else s
  | 0x0107 => s.replay crew v.toNat
  | 0x0108 => if v.toNat % 65536 ≠ 0 ∨ s.hasGrid crew then s else s.setCrew crew { c with savebase := v }
  | 0x0109 => if v.toNat % 65536 ≠ 0 ∨ s.hasGrid crew then s else s.setCrew crew { c with savesize := v }
  | _ => s.setCrew crew { c with drainwin := clampTo 1024 65536 v.toNat }

/-- `syswr`: what a selector names is written (R352). -/
def PathCtx.syswr (c : PathCtx) (f : Fields) : Out :=
  if !c.effect f then c.skipOver 0xD0 0x05 f
  else
    let sel := f.imm.toNat
    let w := c.uni 1 f.sb
    let v := c.uni 0 f.sa
    if !c.s.sysTarget c.t.crew sel w then c.faultCode 0x04
    else if crewSelector sel then c.concludePlain (c.s.writeCrewReg w.toNat sel v) f
    else c.concludePlain (c.s.setDie w.toNat { c.s.die w.toNat with ecccnt := 0 }) f

/-- `syswr` of a selector that no other row names. -/
def execSyswr (f : Fields) (s : State) : Out := onPrivileged s 0xD0 0x05 f fun c => c.syswr f

/-- `syswr` of REPLAY (R334). -/
def execReplay (f : Fields) (s : State) : Out := onPrivileged s 0xD0 0x05 f fun c => c.syswr f

/-- `syswr` of FQTAIL (R333). -/
def execFqtail (f : Fields) (s : State) : Out := onPrivileged s 0xD0 0x05 f fun c => c.syswr f

/-- `syswr` of ECCCNT (R347). -/
def execEcccnt (f : Fields) (s : State) : Out := onPrivileged s 0xD0 0x05 f fun c => c.syswr f

/-! `tlbinv` (R353) -/

/-- Whether a translation entry belongs to a crew and meets a range of addresses. -/
def TlbEntry.meets (e : TlbEntry) (crew lo n : Nat) : Bool :=
  n != 0 && e.crew == crew && e.base < lo + n && lo < e.base + e.size

/-- Remove the entries of a crew that meet a range from the TLBs and translation caches of a list of dies, and discard every walk
that is under way there. -/
def State.dropEntries (s : State) (dies : List Nat) (crew lo n : Nat) : State :=
  let keep (l : List TlbEntry) : List TlbEntry := l.filter fun e => !e.meets crew lo n
  { s with
    dies := s.dies.map fun d => if dies.contains d.1 then (d.1, { d.2 with tcache := keep d.2.tcache }) else d
    cores := s.cores.map fun c => if dies.contains (dieOf c.1) then (c.1, { c.2 with tlb := keep c.2.tlb }) else c
    walks := s.walks.map fun w =>
      if dies.contains w.2.die then (w.1, { w.2 with cancelled := true }) else w }

/-- Whether a walk that has been overtaken has still to end. -/
def State.walksLeft (s : State) (dies : List Nat) : Bool := s.walks.any fun w => dies.contains w.2.die && w.2.cancelled

/-- `tlbinv` of the entries that meet a range. -/
def PathCtx.tlbinv (c : PathCtx) (f : Fields) (lo n : Nat) : Out :=
  let crew := (c.uni 0 f.sa).toNat % 64
  let dies := c.s.crewDies c.t.crew
  if !c.effect f then c.skipOver 0xD0 0x06 f
  else if c.p.begun then
    if c.s.walksLeft dies then c.park c.g true else c.retire f c.g
  else if !c.s.crewNamed c.t.crew crew then c.faultCode 0x04
  else c.releaseThen 0xD0 0x06 f .sys
    (let s := c.s.dropEntries dies crew lo n
     if s.walksLeft dies then c.waitOn s 0 else c.concludePlain s f)

/-- `tlbinv.all`. -/
def execTlbinvAll (f : Fields) (s : State) : Out := onPrivileged s 0xD0 0x06 f fun c => c.tlbinv f 0 (2 ^ 56)

/-- `tlbinv.pg`. -/
def execTlbinvPg (f : Fields) (s : State) : Out :=
  onPrivileged s 0xD0 0x06 f fun c => c.tlbinv f ((c.uni 1 f.sb).toNat % 2 ^ 56) 1

/-- `tlbinv.rng`. -/
def execTlbinvRng (f : Fields) (s : State) : Out :=
  onPrivileged s 0xD0 0x06 f fun c => c.tlbinv f ((c.uni 1 f.sb).toNat % 2 ^ 56) ((c.uni 2 f.sc).toNat % 2 ^ 32)

/-! Grids and teams by name (R424) -/

/-- The grid that a SEQ names among the crews of a crew's die set: the one consumed first. -/
def State.namedGrid (s : State) (crew : Nat) (lseq : Word64) : Option (Nat × Grid) :=
  s.grids.find? fun e => s.sameSet crew e.2.crew && e.2.seq == lseq

/-- The team of a grid that a word names. -/
def State.namedTeam (s : State) (gid : Nat) (w : Word64) : Option (Nat × Team) :=
  s.teams.find? fun e => e.2.grid == gid && e.2.parent.isNone && e.2.x == w.toNat % 65536 && e.2.y == w.toNat / 65536 % 65536

/-- The linear index that a word names in a grid, where there is such a team (R395). -/
def Grid.namedIndex (g : Grid) (w : Word64) : Option Nat :=
  let x := w.toNat % 65536
  let y := w.toNat / 65536 % 65536
  if x < g.gx ∧ y < g.gy then some (y * g.gx + x) else none

/-! `vacate` (R355) -/

/-- A list in descending order. -/
def insertFalling (a : Nat) : List Nat → List Nat
  | [] => [a]
  | x :: xs => if x < a then a :: x :: xs else if x = a then x :: xs else x :: insertFalling a xs

/-- The teams of a grid that stand on cores. -/
def State.onCores (s : State) (gid : Nat) : List (Nat × Team) :=
  s.teams.filter fun e => e.2.grid == gid && !e.2.ended && (e.2.status == .resident || e.2.status == .draining)

/-- Empty up to `k` cores of a grid: the cores, and the state in which their teams drain. -/
def State.vacate (s : State) (gid k : Nat) : List Nat × State :=
  let cores := (s.onCores gid).foldl (fun acc e => insertFalling e.2.core acc) []
  let out := cores.take (min k (cores.length - 1))
  let s1 := s.modGrid gid fun g => { g with vacated := g.vacated ++ out }
  (out, (s1.onCores gid).foldl (fun s e => if out.contains e.2.core then s.preempt e.1 else s) s1)

/-- Whether a grid still has a team on a core that it vacates. -/
def State.vacating (s : State) (gid : Nat) : Bool :=
  match s.grid gid with
  | some g => (s.onCores gid).any fun e => g.vacated.contains e.2.core
  | none => false

/-- `vacate` (R355). -/
def execVacate (f : Fields) (s : State) : Out :=
  onPrivileged s 0xD0 0x09 f fun c =>
    if !c.effect f then c.skipOver 0xD0 0x09 f
    else match c.s.namedGrid c.t.crew (c.uni 0 f.sa) with
      | none => c.conclude c.s f (if c.p.begun then c.p.goal.setWidth 64 else 0)
      | some (gid, _) =>
        if c.p.begun then
          if c.s.vacating gid then c.park c.g true else c.conclude c.s f (c.p.goal.setWidth 64)
        else
          let r := c.s.vacate gid ((c.uni 1 f.sb).toNat % 1024)
          if r.2.vacating gid then c.waitOn r.2 r.1.length else c.conclude r.2 f (BitVec.ofNat 64 r.1.length)

/-! `halt` (R356) -/

/-- Kill the team of an index of a grid, whether it has started or not; the team, where it has. -/
def State.haltTeam (s : State) (gid : Nat) (g : Grid) (w : Word64) : Option Nat × State :=
  match s.namedTeam gid w, g.namedIndex w with
  | some (tid, t), _ => (some tid, if t.killed then s else s.killTeam tid 8)
  | none, some i =>
    if g.notStarted.contains i then (none, s)
    else (none, (s.modGrid gid fun g => { g with notStarted := g.notStarted ++ [i], killedTeams := g.killedTeams ++ [i] }).gridProgress gid)
  | none, none => (none, s)

/-- Whether a team has still to end. -/
def State.ending (s : State) (tid : Nat) : Bool := ((s.team tid).map fun t => !t.ended).getD false

/-- `halt.team`. -/
def execHaltTeam (f : Fields) (s : State) : Out :=
  onPrivileged s 0xD0 0x0A f fun c =>
    let w := c.uni 1 f.sb
    if !c.effect f then c.skipOver 0xD0 0x0A f
    else if c.p.begun then if c.s.ending c.p.goal.toNat then c.park c.g true else c.retire f c.g
    else if w.toNat / 2 ^ 32 ≠ 0 then c.faultCode 0x04
    else match c.s.namedGrid c.t.crew (c.uni 0 f.sa) with
      | none => c.retire f c.g
      | some (gid, g) =>
        match c.s.haltTeam gid g w with
        | (some tid, s) => if s.ending tid then c.waitOn s tid else c.concludePlain s f
        | (none, s) => c.concludePlain s f

/-- `halt.grid`. -/
def execHaltGrid (f : Fields) (s : State) : Out :=
  onPrivileged s 0xD0 0x0A f fun c =>
    if !c.effect f then c.skipOver 0xD0 0x0A f
    else if c.p.begun then if (c.s.grid c.p.goal.toNat).isSome then c.park c.g true else c.retire f c.g
    else match c.s.namedGrid c.t.crew (c.uni 0 f.sa) with
      | none => c.retire f c.g
      | some (gid, _) =>
        let s := c.s.killGrid gid
        if (s.grid gid).isSome then c.waitOn s gid else c.concludePlain s f

end Sys2Proof.Machine
end

