-- ==== Sys2Proof/Machine/Context.lean ====
section
/-! DEFINITION. The saved context as bytes and `ctxsave` (spec/15_traps.md R341 to R343, R354; spec/07_control.md R134;
spec/10_copy.md R228; spec/11_matrix.md R261). Offsets that the specification does not give are assumption 13's.

Marked in the assumption log: 13 (DESIGN CHOICE), 36 (DEDUCED). -/

namespace Sys2Proof.Machine

/-- Bytes followed by zeros up to a size. -/
def padTo (n : Nat) (bs : List Byte) : List Byte := (bs ++ List.replicate (n - bs.length) 0).take n

/-- A truth value as a bit. -/
def bitOf (b : Bool) : Nat := if b then 1 else 0

/-! The group part (R342) -/

/-- Codes of the states of a path (R134). -/
def PathState.code : PathState → Nat
  | .ready => 0 | .parked => 1 | .splitStalled => 2 | .replayable => 3 | .handler => 4 | .stopped => 5

/-- The code with which the state of a path is saved: one that was woken and has not tested its condition again is parked
(R211). -/
def Path.savedCode (p : Path) : Nat := if p.st = .ready ∧ p.begun then PathState.code .parked else p.st.code

/-- A path-table entry (R134). -/
def pathEntry (p : Option Path) : BitVec 256 :=
  match p with
  | none => 0
  | some p => (0 : BitVec 29) ++ p.shc ++ p.shm ++ p.lk ++ (0 : BitVec 8) ++ p.pc ++ (0 : BitVec 4) ++ (1 : BitVec 1) ++
      BitVec.ofNat 3 p.savedCode ++ (0 : BitVec 32) ++ p.mask

/-- The header of a group part. -/
def groupHeader (size : Nat) (lseq : Word64) (t : Team) (gi : Nat) (g : Group) (full : Bool) (nrem : Nat) : BitVec 512 :=
  BitVec.ofNat 16 1 ++ (0 : BitVec 16) ++ BitVec.ofNat 32 size ++ lseq ++ BitVec.ofNat 16 t.y ++ BitVec.ofNat 16 t.x ++
    BitVec.ofNat 5 gi ++ BitVec.ofNat 2 g.role ++ BitVec.ofNat 5 g.ridx ++ BitVec.ofNat 6 t.crew ++ BitVec.ofBool full ++
    BitVec.ofBool g.tm ++ BitVec.ofNat 8 g.vregs.length ++ BitVec.ofNat 5 g.sbuf.length ++ BitVec.ofNat 5 g.pend.length ++
    BitVec.ofNat 11 nrem ++ (0 : BitVec 303)

/-- A vector register: name, form, lanes. -/
def vregPart (e : Nat × VReg) : List Byte :=
  leBytes 1 e.1 ++ leBytes 1 (bitOf e.2.uniform + 2 * bitOf e.2.pending) ++ leBytes 2 0 ++
    (List.range 32).flatMap fun l => leBytes 4 (e.2.lanes.get l).toNat

/-- The trap state. -/
def trapPart (x : TrapState) : List Byte :=
  leBytes 7 x.rpc.toNat ++ leBytes 1 x.path.toNat ++ leBytes 7 x.lk.toNat ++ leBytes 1 x.shc.toNat ++ leBytes 4 x.shm.toNat ++
    leBytes 4 x.em.toNat ++ leBytes 1 x.code.toNat ++ leBytes 7 0 ++ leBytes 8 x.g60.toNat ++ leBytes 8 x.g61.toNat ++
    leBytes 8 x.g62.toNat ++ leBytes 8 x.g63.toNat

/-- Codes of the kinds of an access, with their form and type. -/
def AccKind.codes : AccKind → Nat × Nat × Nat
  | .load => (0, 0, 0)
  | .store => (1, 0, 0)
  | .atomic fn ty => (2, fn, ty)
  | .remoteLoad => (3, 0, 0)
  | .remoteAtomic aop ty => (4, aop, ty)

/-- Codes of a destination. -/
def Dest.codes : Dest → Nat × Nat × Nat
  | .none => (0, 0, 0)
  | .vec r n => (1, r, n)
  | .uni r => (2, r, 0)

/-- The code of a scope that an access releases, plus 1. -/
def relCode (r : Option Scope) : Nat :=
  match r with
  | none => 0
  | some .grp => 1 | some .team => 2 | some .clu => 3 | some .die => 4 | some .pkg => 5 | some .sys => 6

/-- The space of a target. -/
def Target.space : Target → Nat
  | .line _ _ _ _ _ _ _ => 0
  | .scratch _ => 1
  | .vault _ => 2

/-- The marks of a line target: software-managed, replicable. -/
def Target.marks : Target → Nat
  | .line _ _ _ _ _ sm r => bitOf sm + 2 * bitOf r
  | _ => 0

/-- The fault code of a lane. -/
def LaneAcc.code (l : LaneAcc) : Nat := match l.st with | .faulted c => c.toNat | _ => 0

/-- The 32-byte header of an access. -/
def accessHeader (a : Access) : List Byte :=
  let k := a.kind.codes
  let d := a.dest.codes
  let lanes (c : LaneAcc → Bool) : Nat := (maskOf fun i => a.lanes.any fun l => l.lane == i && c l).toNat
  let head := a.lanes.head?
  leBytes 7 a.pc.toNat ++ leBytes 1 a.bytes ++ leBytes 4 (lanes fun _ => true) ++
    leBytes 1 (k.1 + 16 * bitOf a.sext + 32 * bitOf a.dead + 64 * bitOf a.acq + 128 * bitOf a.uniformEffect) ++
    leBytes 1 a.path ++ leBytes 1 ((head.map fun l => l.target.marks).getD 0) ++ leBytes 1 0 ++ leBytes 4 a.handle.toNat ++
    leBytes 1 (relCode a.rel) ++ leBytes 1 ((head.map fun l => l.target.space).getD 0) ++ leBytes 1 d.1 ++ leBytes 1 d.2.1 ++
    leBytes 4 (lanes LaneAcc.bad) ++ leBytes 1 k.2.1 ++ leBytes 1 k.2.2 ++
    leBytes 1 (((a.lanes.find? LaneAcc.bad).map LaneAcc.code).getD 0) ++ leBytes 1 d.2.2

/-- A signed 32-bit coordinate. -/
def coordBytes (x : Int) : List Byte := leBytes 4 (x % 2 ^ 32).toNat

/-- Address and coordinates of a lane. -/
def lanePart (l : LaneAcc) : List Byte :=
  leBytes 8 l.addr ++ (match l.target with
    | .line _ a b c d _ _ => coordBytes a ++ coordBytes b ++ coordBytes c ++ coordBytes d
    | _ => leBytes 16 0)

/-- Each lane of an access in its place. -/
def lanesPart (a : Access) (size : Nat) (part : LaneAcc → List Byte) : List Byte :=
  (List.range 32).flatMap fun i => match a.lanes.find? fun l => l.lane == i with
    | some l => padTo size (part l)
    | none => leBytes size 0

/-- An entry of the store buffer, with the data of its lanes. -/
def storePart (a : Access) : List Byte :=
  accessHeader a ++ lanesPart a 40 fun l => lanePart l ++ leBytes 16 l.data

/-- A pending access. -/
def pendPart (a : Access) : List Byte := accessHeader a ++ lanesPart a 24 lanePart

/-- Source, destination and index fields of a remainder, by the kind of its command (R228). -/
def Command.remFields (c : Command) : Nat × Nat × Nat :=
  let step := if c.desc then 0 else c.done
  match c.kind with
  | .copy _ _ => (c.dst + step, c.src + step, 0)
  | .gather sc e list =>
    let n := c.done / e
    if sc then (c.dst, c.src + n * e, list + 4 * n) else (c.dst + n * e, c.src, list + 4 * n)
  | .coll _ ident n rank => (c.dst + step, c.src, ident + (n - 1) % 256 * 256 + rank * 65536)
  | .wbr _ _ tensor => (c.dst + step, tensor, 0)
  | .post box => (box, c.src, 0)
  | .take box => (c.dst, box, 0)
  | _ => (c.dst, c.src, 0)

/-- What is left of a command: bytes, or elements of a gather or scatter. -/
def Command.remLeft (c : Command) : Nat :=
  match c.kind with
  | .gather _ e _ => (c.len - c.done) / e
  | .coll _ _ _ _ => if c.acked then c.len - c.done else c.data.length
  | _ => c.len - c.done

/-- The state of a remainder: unstarted, split or faulted. -/
def Command.remState (c : Command) : Nat :=
  match c.st with
  | .faulted _ => 2
  | .running => if c.done = 0 ∧ !c.acked then 0 else 1
  | _ => 0

/-- A remainder (R228). -/
def Command.remainder (c : Command) : BitVec 384 :=
  let r := c.remFields
  BitVec.ofNat 56 r.1 ++ BitVec.ofNat 56 r.2.1 ++ c.pc ++ BitVec.ofNat 32 c.remLeft ++ (0 : BitVec 32) ++ c.ctl ++
    BitVec.ofNat 24 r.2.2 ++ BitVec.ofNat 8 ((c.dreg.map fun d => d + 0xC0).getD 0) ++ BitVec.ofNat 4 c.fn ++
    BitVec.ofNat 3 (relCode (some c.scope) - 1) ++ BitVec.ofBool c.desc ++ BitVec.ofNat 4 c.remState ++ (0 : BitVec 76)

/-- Whether a command leaves a remainder: an engine command that is not complete. -/
def Command.remains (c : Command) : Bool := c.st != .complete && c.cls != 3 && c.cls != 4

/-- The commands of a group that leave remainders, in issue order. -/
def State.remainders (s : State) (tid gi : Nat) : List (Nat × Command) :=
  s.cmds.filter fun e => e.2.team == tid && e.2.group == gi && e.2.remains

/-- A group part. -/
def State.groupPart (s : State) (tid : Nat) (t : Team) (gi : Nat) (g : Group) : List Byte :=
  let rems := (s.remainders tid gi).map Prod.snd
  let full : Bool := g.fullSave || g.valid.length != 1
  let paths := if full then (List.range 8).map g.path else [(g.valid.head?).map Prod.snd]
  let body := g.vregs.flatMap vregPart ++ g.g.toList.flatMap (fun w => leBytes 8 w.toNat) ++
    padTo 64 (g.preds.toList.flatMap (fun p => leBytes 4 p.toNat) ++ leBytes 4 g.em.toNat ++ leBytes 2 g.flags.toNat) ++
    paths.flatMap (fun p => leBytes 32 (pathEntry p).toNat) ++ trapPart g.trap ++ g.sbuf.flatMap storePart ++
    g.unack.toList.flatMap (leBytes 2) ++ g.pend.flatMap pendPart ++ padTo 8 (g.counters.toList.flatMap (leBytes 1)) ++
    rems.flatMap fun c => leBytes 48 c.remainder.toNat
  leBytes 64 (groupHeader (64 + body.length) (s.lseq t) t gi g full rems.length).toNat ++ body

/-! The seat (R261) -/

/-- An accumulator element's tag in two bits. -/
def Tag.code : Tag → Nat
  | .finite => 0 | .posInf => 1 | .negInf => 2 | .nan => 3

/-- The tags of 4,096 elements, four to a byte. -/
def tagBytes (tags : List Tag) : List Byte :=
  (List.range 1024).map fun i => BitVec.ofNat 8 ((List.range 4).foldl (fun acc k =>
    acc + ((tags[4 * i + k]?).map Tag.code).getD 0 * 4 ^ k) 0)

/-- A saved slot: its elements, tags, exponent and marks. -/
def slotPart (e : Nat × Nat × Slot) : List Byte :=
  let x := e.2.2
  padTo 32768 (x.f.flatMap fun v => leBytes 8 (v % 2 ^ 64).toNat) ++ tagBytes x.tags ++
    leBytes 2 ((x.exp.getD 0) % 2 ^ 16).toNat ++
    leBytes 1 (bitOf x.exp.isNone + 2 * bitOf x.released + 4 * bitOf x.wrote.isSome + 8 * bitOf x.f.isEmpty) ++
    leBytes 1 (e.1 % 32) ++ leBytes 4 ((x.wrote.map BitVec.toNat).getD 0)

/-- The number under which a slot of a core stands among the saved slots, counted from 1; 0 is none. -/
def slotIndex (slots : List (Nat × Nat × Slot)) (core num : Nat) : Nat :=
  ((slots.findIdx? fun e => e.1 == core && e.2.1 == num).map fun i => i + 1).getD 0

/-- The map of logical accumulators. -/
def accMap (q : Seat) (slots : List (Nat × Nat × Slot)) : List Byte :=
  (List.range 256).flatMap fun a => leBytes 2 (match aget a q.accs with
    | some p => slotIndex slots p.1 p.2
    | none => 0)

/-- The A tiles, with their scales, that a saved seat holds for a core: its latch's, where it owns that, and those of its unstarted
operations that the latch gave them (R249). -/
def Seat.images (q : Seat) (core : Nat) : List (List Byte × List Byte) :=
  ((q.latches.filter fun l => l.1 == core).map (fun l => l.2.2.2) ++
    ((q.ops.filter fun o => !o.started && o.latched && o.core == core).map fun o => (o.a, o.sa))).eraseDups

/-- A list in pieces of three. -/
def inThrees {α : Type} (l : List α) : List (List α) :=
  (List.range ((l.length + 2) / 3)).map fun i => (l.drop (3 * i)).take 3

/-- The latch entries of a saved seat: for each core, as many as its images need, three to an entry; the first of a core says whether
the seat owns the latch. -/
def Seat.latchEntries (q : Seat) : List (Nat × Option (Nat × Bool) × List (List Byte × List Byte)) :=
  let cores := ((q.latches.map Prod.fst) ++ ((q.ops.filter fun o => !o.started && o.latched).map MatOp.core)).eraseDups
  cores.flatMap fun core =>
    let own := (q.latches.find? fun l => l.1 == core).map fun l => (l.2.1, l.2.2.1)
    (inThrees (q.images core)).mapIdx fun i xs => (core, if i = 0 then own else none, xs)

/-- A latch entry: form, `.sp` and ownership of the latch, core, then its images. -/
def latchPart (l : Nat × Option (Nat × Bool) × List (List Byte × List Byte)) : List Byte :=
  padTo 40960 (leBytes 1 ((l.2.1.map Prod.fst).getD 0) ++ leBytes 1 (bitOf ((l.2.1.map Prod.snd).getD false) + 2 * bitOf l.2.1.isSome) ++
    leBytes 2 (l.1 % 32) ++ leBytes 4 l.2.2.length ++ leBytes 8 0 ++
    l.2.2.flatMap fun x => padTo 13648 (leBytes 4 x.1.length ++ leBytes 4 x.2.length ++ x.1 ++ x.2))

/-- The number of the image that an operation took from the latch, counted from 1 over all entries; 0 is none. -/
def Seat.imageOf (q : Seat) (o : MatOp) : Nat :=
  if !o.latched then 0
  else ((q.latchEntries.zipIdx.findSome? fun e =>
    if e.1.1 = o.core then (e.1.2.2.findIdx? fun x => x == (o.a, o.sa)).map fun i => 3 * e.2 + i else none).map fun i => i + 1).getD 0

/-- An unstarted operation with its operands as read at issue. -/
def opPart (q : Seat) (slots : List (Nat × Nat × Slot)) (o : MatOp) : List Byte :=
  let k : Nat × Nat × Nat × Nat × Nat × Nat × Nat := match o.kind with
    | .mma fn sp a b sc scl sA sB => (0, fn, bitOf sp + 2 * bitOf scl, sA % 16 + sB % 16 * 16, a.toNat, b.toNat, sc.toNat)
    | .azero => (1, 0, 0, 0, 0, 0, 0)
    | .afin bf dst => (2, 0, 4 * bitOf bf, 0, dst.toNat, 0, 0)
  leBytes 1 k.1 ++ leBytes 1 k.2.1 ++ leBytes 1 (k.2.2.1 + 8 * bitOf o.latched) ++ leBytes 1 k.2.2.2.1 ++ leBytes 1 o.acc ++
    leBytes 1 (o.core % 32) ++ leBytes 2 ((o.slot.map fun n => slotIndex slots o.core n).getD 0) ++ leBytes 8 o.pc.toNat ++
    leBytes 4 o.batch.toNat ++ leBytes 4 (q.imageOf o) ++ leBytes 8 k.2.2.2.2.1 ++ leBytes 8 k.2.2.2.2.2.1 ++ leBytes 8 k.2.2.2.2.2.2

/-- An address stream of the loop-nest unit. -/
def streamPart (k : LoopStream) : List Byte :=
  leBytes 8 k.base.toNat ++ k.coef.toList.flatMap (fun c => leBytes 4 c.toNat) ++ leBytes 1 (k.dest % 64 + 64 * bitOf k.enabled)

/-- Codes of the states of a saved seat. -/
def SeatState.code : SeatState → Nat
  | .running => 0 | .parked => 1 | .stalled => 2 | .trapped => 3 | .exited => 4

/-- The flags of a batch. -/
def Seat.flagsOf (q : Seat) (n : Word32) : Nat := ((aget n q.batchFlags).map BitVec.toNat).getD 0

/-- The closed batches that are not yet complete. -/
def Seat.lateBatches (q : Seat) : List Word32 :=
  (List.range (q.n - q.k).toNat).map fun i => q.k + BitVec.ofNat 32 (i + 1)

/-- The seat part: the flags of the open batch stand beside the predicates; the loop-nest unit needs 232 bytes (assumption 13). -/
def seatPart (t : Team) (q : Seat) : List Byte :=
  let ops := q.ops.filter fun o => !o.started
  q.c.toList.flatMap (fun w => leBytes 8 w.toNat) ++ leBytes 8 q.pc.toNat ++ leBytes 8 q.lk.toNat ++
    (leBytes 1 q.preds.toNat ++ leBytes 1 q.st.code ++ leBytes 2 q.flags.toNat ++ leBytes 1 (bitOf q.opened) ++ leBytes 1 0 ++
      leBytes 2 (q.flagsOf (q.n + 1))) ++
    q.bounds.toList.flatMap (fun w => leBytes 4 w.toNat) ++ q.ind.toList.flatMap (fun w => leBytes 4 w.toNat) ++
    q.streams.toList.flatMap streamPart ++ leBytes 4 q.n.toNat ++ leBytes 4 q.k.toNat ++
    (List.range 256).flatMap (fun i => leBytes 1 (q.flagsOf (q.k - BitVec.ofNat 32 i))) ++
    q.lateBatches.flatMap (fun n => leBytes 4 (q.flagsOf n)) ++ accMap q t.slots ++ t.slots.flatMap slotPart ++
    q.latchEntries.flatMap latchPart ++ ops.flatMap (opPart q t.slots) ++ (if q.st = .parked then leBytes 8 q.pc.toNat else [])

/-! The team part (R341) -/

/-- A barrier with the last phases and owed bits of the groups. -/
def barrierPart (t : Team) (i : Nat) : List Byte :=
  let b := t.barriers.toArray.getD i {}
  let group (k : Nat) : Option Group := t.groups[k]?
  leBytes 4 b.phase.toNat ++ leBytes 4 b.arrived.toNat ++ leBytes 4 b.mask.toNat ++
    (List.range 32).flatMap (fun k => leBytes 4 (((group k).map fun g => (g.lastPhase.toArray.getD i 0).toNat).getD 0)) ++
    leBytes 4 (maskOf fun k => ((group k).map fun g => g.owed.toArray.getD i false).getD false).toNat

/-- A channel. -/
def channelPart (c : Channel) : List Byte :=
  padTo 16 (leBytes 1 c.entries.length ++ leBytes 1 (bitOf c.error) ++ leBytes 2 0 ++ leBytes 4 c.closed.toNat) ++
    padTo 2176 (c.entries.flatMap fun e =>
      (List.range 32).flatMap (fun l => leBytes 4 (e.words.get l).toNat) ++ leBytes 4 e.mask.toNat ++ leBytes 4 e.sender)

/-- The refill queue. -/
def refillPart (r : Option RefillQueue) : List Byte :=
  match r with
  | none => leBytes 16 0
  | some r => padTo 16 (leBytes 4 (bitOf r.open_) ++ leBytes 4 r.items.length) ++
      padTo (4 * r.depth) (r.items.flatMap fun x => leBytes 4 x.toNat)

/-- The fork set: its state, and the slot of its first child's view. -/
def forkPart (f : Option ForkSet) : List Byte :=
  match f with
  | none => leBytes 16 0
  | some f =>
    let st := match f.st with
      | .open => 1 | .ended => 2 | .checking => 3 | .committing => 4 | .conflicted => 5 | .aborting => 6
    padTo 16 (leBytes 2 st ++ leBytes 2 ((f.children.head?).map Prod.snd |>.getD 0))

/-- The groups of a saved team that have a part, ascending. -/
def Team.parts (t : Team) : List (Nat × Group) :=
  (List.range t.groups.length).filterMap fun i => (t.groups[i]?).bind fun g => if g.ended then none else some (i, g)

/-- The header of the team part. -/
def teamHeader (t : Team) (lseq : Word64) (size seat : Nat) : List Byte :=
  padTo 64 (leBytes 2 1 ++ leBytes 2 0 ++ leBytes 4 size ++ leBytes 1 t.crew ++ leBytes 1 t.parts.length ++
    leBytes 1 (bitOf t.seat.isSome) ++ leBytes 1 (bitOf t.stepMode + 2 * bitOf t.aborted) ++ leBytes 2 t.x ++ leBytes 2 t.y ++
    leBytes 8 lseq.toNat ++ leBytes 4 t.winSize ++ leBytes 4 ((t.refill.map RefillQueue.depth).getD 0) ++ leBytes 4 seat ++
    leBytes 2 t.slots.length ++ leBytes 2 ((t.seat.map fun q => q.latchEntries.length).getD 0) ++
    leBytes 2 ((t.seat.map fun q => (q.ops.filter fun o => !o.started).length).getD 0) ++
    leBytes 2 ((t.seat.map fun q => q.lateBatches.length).getD 0))

/-- The context of a saved team. -/
def State.teamContext (s : State) (tid : Nat) (t : Team) : List Byte :=
  let seat := (t.seat.map (seatPart t)).getD []
  let body := (List.range 16).flatMap (barrierPart t) ++
    t.sbars.toList.flatMap (fun b => leBytes 4 b.expected.toNat ++ leBytes 4 b.credited.toNat) ++
    t.channels.toList.flatMap channelPart ++ refillPart t.refill ++ forkPart t.forkSet ++ t.window.readN 0 t.winSize ++ seat ++
    t.parts.flatMap fun e => s.groupPart tid t e.1 e.2
  teamHeader t (s.lseq t) (64 + body.length) seat.length ++ body

/-! `ctxsave` (R354) -/

/-- Write bytes to global memory for a team; the first that faults, or a page that has to be cleared, stops it. -/
def State.putContext (s : State) (t : Team) (a : Nat) : List Byte → ByteStep
  | [] => .done s
  | b :: bs =>
    match s.putByte t 0 a b with
    | .done s => s.putContext t (a + 1) bs
    | r => r

/-- Whether credits of a saved team are still outstanding (R343). -/
def State.creditsDue (s : State) (tid : Nat) (t : Team) : Bool :=
  (s.cmds.any fun e => e.2.team == tid && (e.2.cls == 3 || e.2.cls == 4)) ||
  t.groups.any fun g => (g.unack.toList.any fun n => n != 0) || g.pend.any fun a => a.lanes.any fun l => l.st == .outside

/-- Wait for a team to be put away, so that it can be moved: until then it is not restored (R354). -/
def PathCtx.parkMoving (c : PathCtx) (tid : Nat) : Out :=
  ({ c with p := { c.p with moves := some tid } } : PathCtx).park c.g true

/-- Copy the context of a saved team to memory; a moved team leaves the save area. -/
def PathCtx.copyContext (c : PathCtx) (f : Fields) (tid : Nat) (t : Team) (dst : Nat) (move : Bool) : Out :=
  if c.s.creditsDue tid t then if move then c.parkMoving tid else c.park c.g true
  else
    let bs := c.s.teamContext tid t
    match c.s.putContext c.t dst bs with
    | .fault code _ a => c.faultCode code (BitVec.ofNat 64 a)
    | .wait s => .next s
    | .done s =>
      let s := if move then s.modTeam tid fun t => { t with status := .movedOut } else s
      c.conclude s f (BitVec.ofNat 64 bs.length)

/-- `ctxsave`: a team that is not saved, and its own, cannot be copied; with MOVE a running team is first pre-empted. -/
def execCtxsave (f : Fields) (s : State) : Out :=
  onPrivileged s 0xD0 0x07 f fun c =>
    if !c.effect f then c.skipOver 0xD0 0x07 f
    else
      let w := c.uni 1 f.sb
      let dst := (c.uni 2 f.sc).toNat
      let none_ : Out := c.conclude c.s f (BitVec.allOnes 64)
      if dst % 256 ≠ 0 then c.faultCode 0x05 (BitVec.ofNat 64 dst)
      else match (c.s.namedGrid c.t.crew (c.uni 0 f.sa)).bind fun e => c.s.namedTeam e.1 w with
        | none => none_
        | some (tid, t) =>
          if t.ended ∨ tid = c.tid then none_
          else match t.status with
            | .saved => c.copyContext f tid t dst (w.getLsbD 63)
            | .resident => if w.getLsbD 63 then c.waitOn (c.s.preempt tid) 0 (some tid) else none_
            | .draining => if w.getLsbD 63 then c.parkMoving tid else none_
            | _ => none_

end Sys2Proof.Machine
end

