-- ==== Sys2Proof/Machine/ContextLoad.lean ====
section
/-! DEFINITION. Reading a saved context and `ctxld` (spec/15_traps.md R341, R342, R354; spec/07_control.md R134;
spec/10_copy.md R228, R229; spec/11_matrix.md R261). What the format does not hold comes from the team as it was moved out, where
there is one (assumption 13).

Marked in the assumption log: 13 (DESIGN CHOICE), 36 (DEDUCED). -/

namespace Sys2Proof.Machine

/-- The number of `n` bytes at an offset. -/
def numAt (b : List Byte) (o n : Nat) : Nat := leNat ((b.drop o).take n)

/-- A bit of a number. -/
def hasBit (x k : Nat) : Bool := x / 2 ^ k % 2 == 1

/-- Pieces of one size. -/
def pieces (b : List Byte) (size : Nat) : Nat → List (List Byte)
  | 0 => []
  | n + 1 => b.take size :: pieces (b.drop size) size n

/-- A signed number of `n` bits. -/
def signedOf (n x : Nat) : Int := if x < 2 ^ (n - 1) then x else (x : Int) - 2 ^ n

/-! The group part -/

/-- The state of a code (R134). -/
def pathStateOf (code : Nat) : PathState :=
  match code with
  | 0 => .ready | 1 => .parked | 2 => .splitStalled | 3 => .replayable | 4 => .handler | _ => .stopped

/-- Whether the bits of a path entry that are reserved are zero and its state is one of R134. -/
def pathEntryOk (e : BitVec 256) : Bool :=
  e.extractLsb' 227 29 == 0 && e.extractLsb' 128 8 == 0 && e.extractLsb' 68 4 == 0 && e.extractLsb' 32 32 == 0 &&
    (e.extractLsb' 64 3).toNat ≤ 5

/-- A path of an entry; what the entry does not hold comes from the path of the same address that was moved out. -/
def pathOf (old : Option Path) (e : BitVec 256) (clock : Nat) : Option Path :=
  if !e.getLsbD 67 then none
  else
    let pc : VAddr := e.extractLsb' 72 56
    let base : Path := match old with
      | some p => if p.pc = pc then p else { mask := 0, pc := pc }
      | none => { mask := 0, pc := pc }
    some { base with mask := e.extractLsb' 0 32, pc := pc, lk := e.extractLsb' 136 56, shc := e.extractLsb' 224 3,
                     shm := e.extractLsb' 192 32, st := pathStateOf (e.extractLsb' 64 3).toNat, since := clock }

/-- A vector register of a piece of 132 bytes. -/
def vregOf (b : List Byte) : Nat × VReg :=
  (numAt b 0 1, { lanes := Lanes.ofFn fun l => BitVec.ofNat 32 (numAt b (4 + 4 * l) 4), uniform := hasBit (numAt b 1 1) 0,
                  pending := hasBit (numAt b 1 1) 1 })

/-- Whether the reserved bits of a piece of a vector register are zero. -/
def vregOk (b : List Byte) : Bool := numAt b 0 1 < 192 && numAt b 1 1 < 4 && numAt b 2 2 == 0

/-- The trap state. -/
def trapOf (b : List Byte) : TrapState where
  rpc := BitVec.ofNat 56 (numAt b 0 7)
  path := BitVec.ofNat 3 (numAt b 7 1)
  lk := BitVec.ofNat 56 (numAt b 8 7)
  shc := BitVec.ofNat 3 (numAt b 15 1)
  shm := BitVec.ofNat 32 (numAt b 16 4)
  em := BitVec.ofNat 32 (numAt b 20 4)
  code := BitVec.ofNat 8 (numAt b 24 1)
  g60 := BitVec.ofNat 64 (numAt b 32 8)
  g61 := BitVec.ofNat 64 (numAt b 40 8)
  g62 := BitVec.ofNat 64 (numAt b 48 8)
  g63 := BitVec.ofNat 64 (numAt b 56 8)

/-- The kind of an access. -/
def accKindOf (k fn ty : Nat) : AccKind :=
  match k with
  | 0 => .load
  | 1 => .store
  | 2 => .atomic fn ty
  | 3 => .remoteLoad
  | _ => .remoteAtomic fn ty

/-- A destination. -/
def destOf (k r n : Nat) : Dest := match k with | 1 => .vec r n | 2 => .uni r | _ => .none

/-- The scope that an access releases. -/
def relOf (code : Nat) : Option Scope := if code = 0 then none else Scope.ofCode (BitVec.ofNat 3 (code - 1))

/-- The target of a lane from its space, marks and handle; a scratch or vault address is checked again when it is tried. -/
def targetOf (space marks tensor : Nat) (b : List Byte) : Target :=
  let co (i : Nat) : Int := signedOf 32 (numAt b (8 + 4 * i) 4)
  match space with
  | 0 => .line tensor (co 0) (co 1) (co 2) (co 3) (hasBit marks 0) (hasBit marks 1)
  | 1 => .scratch (numAt b 0 8)
  | _ => .vault (numAt b 0 8)

/-- The permissions that a lane has before it is translated. -/
def flatPerm : Perm := { r := true, w := true, x := false, c := true, sm := false, red := 0 }

/-- An access of a header and lane pieces of a size; `old` is the one that was moved out in its place, whose marks that the format
does not hold it keeps. A lane that has faulted keeps its fault, the others are translated afresh. -/
def accessOf (id : Nat) (old : Option Access) (size : Nat) (b : List Byte) : Access :=
  let pc : VAddr := BitVec.ofNat 56 (numAt b 0 7)
  let k := numAt b 12 1
  let mask := numAt b 8 4
  let bad := numAt b 24 4
  let handle : Word32 := BitVec.ofNat 32 (numAt b 16 4)
  let same : Option Access := old.bind fun a => if a.pc = pc then some a else none
  let data (i : Nat) (p : List Byte) : Nat × Nat := match (same.bind fun a => a.lanes.find? fun l => l.lane == i) with
    | some l => (if size = 40 then numAt p 24 16 else l.data, l.data2)
    | none => (if size = 40 then numAt p 24 16 else (Config.freeWord (id + i)).toNat, (Config.freeWord (id + i + 32)).toNat)
  let lanes := ((pieces (b.drop 32) size 32).zipIdx.filter fun e => hasBit mask e.2).map fun e =>
    ({ lane := e.2, addr := numAt e.1 0 8, target := targetOf (numAt b 21 1) (numAt b 14 1) (handle.toNat / 4096) e.1,
       st := if hasBit bad e.2 then .faulted (BitVec.ofNat 8 (numAt b 30 1)) else .walk,
       data := (data e.2 e.1).1, data2 := (data e.2 e.1).2
       head := ((same.bind fun a => a.lanes.find? fun l => l.lane == e.2).map LaneAcc.head).getD 0
       perm := ((same.bind fun a => a.lanes.find? fun l => l.lane == e.2).map LaneAcc.perm).getD flatPerm } : LaneAcc)
  { id := id, kind := accKindOf (k % 16) (numAt b 28 1) (numAt b 29 1), pc := pc, path := numAt b 13 1, bytes := numAt b 7 1,
    sext := hasBit k 4, dead := hasBit k 5, acq := hasBit k 6, uniformEffect := hasBit k 7, handle := handle,
    rel := relOf (numAt b 20 1), dest := destOf (numAt b 22 1) (numAt b 23 1) (numAt b 31 1), lanes := lanes,
    flags := (same.map Access.flags).getD 0, seqNo := same.bind Access.seqNo }

/-- A number of a list of bytes as a bit vector. -/
def bitsFrom (w : Nat) (b : List Byte) : BitVec w := BitVec.ofNat w (leNat b)

/-- Whether a remainder is well formed. -/
def remOk (r : BitVec 384) : Bool :=
  r.extractLsb' 152 32 == 0 && r.extractLsb' 0 76 == 0 && (r.extractLsb' 76 4).toNat ≤ 2 && (r.extractLsb' 84 4).toNat ≤ 8

/-- The counter class of an engine form (R193). -/
def remClass (fn : Nat) : Nat := if fn = 2 ∨ fn = 3 then 1 else if fn = 4 then 2 else if 7 ≤ fn then 5 else 0

/-- The kind of a remainder's command. -/
def remKind (r : BitVec 384) : CmdKind :=
  let ctl := (r.extractLsb' 120 32).toNat
  let idx := (r.extractLsb' 96 24).toNat
  let src := (r.extractLsb' 272 56).toNat
  let esz := match ctl / 256 % 4 with | 0 => 4 | 1 => 8 | 2 => 16 | _ => 64
  match (r.extractLsb' 84 4).toNat with
  | 0 => .copy false 0
  | 1 => .copy true 0
  | 2 => .gather false esz idx
  | 3 => .gather true esz idx
  | 4 => .coll (ctl / 1024 % 16) (idx % 256) (idx / 256 % 256 + 1) (idx / 65536)
  | 5 => .wbr false (hasBit ctl 0) src
  | 6 => .wbr true (hasBit ctl 0) src
  | 7 => .post (r.extractLsb' 328 56).toNat
  | _ => .take src

/-- What a remainder's command keeps of the one that was moved out in its place: its bytes, from where that had come. -/
def Command.restData (c : Command) : List (Option Byte) :=
  if c.desc then c.data.take (c.len - c.done) else c.data.drop c.done

/-- The command of a remainder that has no command in the machine, or no longer the one that was moved out: what the format does not
hold of it comes from `old`, of the same instruction, where there is one. -/
def remainderCommand (tid gi : Nat) (old : Option Command) (r : BitVec 384) : Command :=
  let fn := (r.extractLsb' 84 4).toNat
  let ctl : Word32 := r.extractLsb' 120 32
  let kind := remKind r
  let esz := match kind with | .gather _ e _ => e | _ => 1
  let len := (r.extractLsb' 184 32).toNat * esz
  let dreg := (r.extractLsb' 88 8).toNat
  let pc : VAddr := r.extractLsb' 216 56
  let same : Option Command := old.bind fun c => if c.pc = pc ∧ c.fn = fn then some c else none
  let acked := (same.map Command.acked).getD false
  let st : CmdState := match (r.extractLsb' 76 4).toNat, kind with
    | 2, _ => match same.map Command.st with
      | some (.faulted c) => .faulted c
      | _ => .faulted 0x04
    | _, .coll _ _ _ _ | _, .post _ => if acked then .running else .waiting
    | 0, .take _ => .waiting
    | _, _ => .running
  { team := tid, group := gi, path := (same.map Command.path).getD 0, pc := pc, cls := remClass fn, fn := fn, kind := kind,
    scope := (Scope.ofCode (r.extractLsb' 81 3)).getD .pkg, dsp := (ctl.extractLsb' 0 2).toNat, ssp := (ctl.extractLsb' 2 2).toNat,
    dst := (r.extractLsb' 328 56).toNat, src := (r.extractLsb' 272 56).toNat, len := len, desc := r.getLsbD 80,
    credit := match same with
      | some c => c.credit
      | none => if ctl.getLsbD 7 then some (tid, (ctl.extractLsb' 4 3).toNat) else none
    ctl := ctl, dreg := if 0xC0 ≤ dreg then some (dreg - 0xC0) else none, st := st
    data := match same with
      | some c => if r.extractLsb' 76 4 = 0 ∧ !acked then List.replicate len none else c.restData
      | none => List.replicate len none
    colour := (same.map Command.colour).getD 0, seqNo := same.bind Command.seqNo, flags := (same.map Command.flags).getD 0,
    acked := acked, dstWin := same.bind Command.dstWin, srcWin := same.bind Command.srcWin }

/-- The command of a remainder: the one that was moved out in its place, where it is what the remainder holds; a gather or scatter
reads the rest of its index list from the team's window. -/
def commandOf (tid gi : Nat) (old : Option Command) (clock : Nat) (words : Nat → Nat) (r : BitVec 384) : Command :=
  match old with
  | some c => if c.remainder = r then c else { remainderCommand tid gi old r with born := clock }
  | none =>
    let c := { remainderCommand tid gi none r with born := clock }
    match c.kind with
    | .gather _ e list => { c with idx := (List.range (c.len / e)).map fun i => words (list + 4 * i) }
    | _ => c

/-- What a group part holds. -/
structure GroupImage where
  index : Nat
  group : Group
  rems : List (BitVec 384)
  deriving DecidableEq, Repr

/-- The groups' uniform registers that the destinations of pending accesses name. -/
def pendingUni (as : List Access) : Word64 :=
  as.foldl (fun m a => match a.dest with | .uni r => m ||| ((1 : Word64) <<< r) | _ => m) 0

/-- Read a group part over a group of the same index; none where it is malformed. `id` is the first identity to use. The group waits
for its replay (R354). -/
def readGroup (t : Team) (lseq : Word64) (base : Nat → Option Group) (id clock : Nat) (b : List Byte) : Option GroupImage :=
  let h : BitVec 512 := bitsFrom 512 (b.take 64)
  let n (lo w : Nat) : Nat := (h.extractLsb' lo w).toNat
  let nreg := n 324 8
  let nsb := n 319 5
  let npa := n 314 5
  let nrem := n 303 11
  let full := h.getLsbD 333
  let npath := if full then 8 else 1
  let o1 := 64 + 132 * nreg
  let o2 := o1 + 512
  let o3 := o2 + 64
  let o4 := o3 + 32 * npath
  let o5 := o4 + 64
  let o6 := o5 + 1312 * nsb
  let o7 := o6 + 8
  let o8 := o7 + 800 * npa
  let o9 := o8 + 8
  let size := o9 + 48 * nrem
  let gi := n 347 5
  let vparts := pieces (b.drop 64) 132 nreg
  let entries := (pieces (b.drop o3) 32 npath).map (bitsFrom 256)
  let rems := (pieces (b.drop o9) 48 nrem).map (bitsFrom 384)
  match base gi with
  | none => none
  | some g =>
    if n 496 16 ≠ 1 ∨ n 480 16 ≠ 0 ∨ n 0 303 ≠ 0 ∨ n 448 32 ≠ size ∨ b.length ≠ size ∨ h.extractLsb' 384 64 ≠ lseq ∨
        n 368 16 ≠ t.y ∨ n 352 16 ≠ t.x ∨ n 334 6 ≠ t.crew ∨ n 345 2 ≠ g.role ∨ n 340 5 ≠ g.ridx ∨ 192 < nreg ∨ 16 < nsb ∨
        16 < npa ∨ 1020 < nrem ∨ !vparts.all vregOk ∨ !entries.all pathEntryOk ∨ !rems.all remOk then none
    else
      let ends (l : List Access) (i : Nat) : Option Access := l[i]?
      let sbuf := (pieces (b.drop o5) 1312 nsb).zipIdx.map fun e => accessOf (id + e.2) (ends g.sbuf e.2) 40 e.1
      let pend := (pieces (b.drop o7) 800 npa).zipIdx.map fun e => accessOf (id + 16 + e.2) (ends g.pend e.2) 24 e.1
      let paths : List (Option Path) := entries.zipIdx.map fun e => pathOf
        (if full then g.path e.2 else (g.valid.head?).map Prod.snd) e.1 clock
      some { index := gi, rems := rems, group := { g with
        vregs := vparts.map vregOf
        g := Vector.ofFn fun i : Fin 64 => BitVec.ofNat 64 (numAt b (o1 + 8 * i.val) 8)
        gPend := pendingUni pend
        preds := Vector.ofFn fun i : Fin 7 => BitVec.ofNat 32 (numAt b (o2 + 4 * i.val) 4)
        em := BitVec.ofNat 32 (numAt b (o2 + 28) 4)
        flags := BitVec.ofNat 16 (numAt b (o2 + 32) 2)
        paths := Vector.ofFn fun i : Fin 8 => (paths[i.val]?).join
        trap := trapOf (b.drop o4)
        tm := h.getLsbD 332
        sbuf := sbuf
        pend := pend
        unack := Vector.ofFn fun i : Fin 4 => numAt b (o6 + 2 * i.val) 2
        counters := Vector.ofFn fun i : Fin 6 => numAt b (o8 + i.val) 1
        ended := false
        descheduled := true
        saved := true
        fullSave := full } }

/-! The seat part -/

/-- The element tags of a saved slot. -/
def tagsOf (b : List Byte) : List Tag :=
  b.flatMap fun x => (List.range 4).map fun k => match x.toNat / 4 ^ k % 4 with
    | 0 => Tag.finite | 1 => .posInf | 2 => .negInf | _ => .nan

/-- A saved slot: its core-in-cluster, and a number of its own. -/
def slotOfPart (tid num : Nat) (b : List Byte) : Nat × Nat × Slot :=
  let m := numAt b 33794 1
  (numAt b 33795 1 % 32, num,
   { team := tid, released := hasBit m 1, wrote := if hasBit m 2 then some (BitVec.ofNat 32 (numAt b 33796 4)) else none,
     exp := if hasBit m 0 then none else some (signedOf 16 (numAt b 33792 2)),
     f := if hasBit m 3 then [] else (pieces b 8 4096).map fun e => signedOf 64 (leNat e),
     tags := if hasBit m 3 then [] else tagsOf ((b.drop 32768).take 1024) })

/-- An operation of a saved seat. -/
def opOfPart (slots : List (Nat × Nat × Slot)) (id : Nat) (b : List Byte) : MatOp :=
  let m := numAt b 2 1
  let w (o : Nat) : Word64 := BitVec.ofNat 64 (numAt b o 8)
  let sel := numAt b 3 1
  let kind : MatKind := match numAt b 0 1 with
    | 0 => .mma (numAt b 1 1) (hasBit m 0) (w 24) (w 32) (w 40) (hasBit m 1) (sel % 16) (sel / 16)
    | 1 => .azero
    | _ => .afin (hasBit m 2) (w 24)
  { id := id, kind := kind, pc := BitVec.ofNat 56 (numAt b 8 7), acc := numAt b 4 1, core := numAt b 5 1 % 32,
    slot := if numAt b 6 2 = 0 then none else (slots[numAt b 6 2 - 1]?).map fun e => e.2.1, batch := BitVec.ofNat 32 (numAt b 16 4),
    latched := hasBit m 3 }

/-- The images of a latch entry of a saved seat. -/
def imagesOf (b : List Byte) : List (List Byte × List Byte) :=
  (pieces (b.drop 16) 13648 (min 3 (numAt b 4 4))).map fun x =>
    ((x.drop 8).take (numAt x 0 4), (x.drop (8 + numAt x 0 4)).take (numAt x 4 4))

/-- A stream of the loop-nest unit. -/
def streamOf (b : List Byte) : LoopStream where
  enabled := hasBit (numAt b 24 1) 6
  base := BitVec.ofNat 64 (numAt b 0 8)
  coef := Vector.ofFn fun i : Fin 4 => BitVec.ofNat 32 (numAt b (8 + 4 * i.val) 4)
  dest := numAt b 24 1 % 64

/-- The state of a seat of a code. -/
def seatStateOf (code : Nat) : SeatState :=
  match code with
  | 0 => .running | 1 => .parked | 2 => .stalled | 3 => .trapped | _ => .exited

/-- Read a seat part over a seat: the numbers of its slots, latches, operations and late batches are the team header's. -/
def readSeat (tid : Nat) (q : Seat) (id ns nl no nb : Nat) (b : List Byte) : Seat × List (Nat × Nat × Slot) :=
  let o1 := 1032 + 4 * nb
  let o2 := o1 + 512
  let o3 := o2 + 33800 * ns
  let o4 := o3 + 40960 * nl
  let slots := (pieces (b.drop o2) 33800 ns).zipIdx.map fun e => slotOfPart tid e.2 e.1
  let entries := pieces (b.drop o3) 40960 nl
  let image (i : Nat) : List Byte × List Byte := ((entries[i / 3]?).bind fun e => (imagesOf e)[i % 3]?).getD ([], [])
  let latches := entries.zipIdx.filterMap fun e => if !hasBit (numAt e.1 1 1) 1 then none
    else some (numAt e.1 2 2 % 32, numAt e.1 0 1, hasBit (numAt e.1 1 1) 0, image (3 * e.2))
  let ops := (pieces (b.drop o4) 48 no).zipIdx.map fun e =>
    let o := opOfPart slots (id + e.2) e.1
    let x := image (numAt e.1 20 4 - 1)
    if o.latched then { o with a := x.1, sa := x.2 } else o
  let k : Word32 := BitVec.ofNat 32 (numAt b 772 4)
  let n : Word32 := BitVec.ofNat 32 (numAt b 768 4)
  let old := (List.range 256).map fun i => (k - BitVec.ofNat 32 i, BitVec.ofNat 16 (numAt b (776 + i) 1))
  let late := (List.range nb).map fun i => (k + BitVec.ofNat 32 (i + 1), BitVec.ofNat 16 (numAt b (1032 + 4 * i) 4))
  let accs := (List.range 256).filterMap fun a =>
    let x := numAt b (o1 + 2 * a) 2
    if x = 0 then none else (slots[x - 1]?).map fun e => (a, e.1, e.2.1)
  let opened := hasBit (numAt b 532 1) 0
  let open_ := if opened then [(n + 1, BitVec.ofNat 16 (numAt b 534 2))] else []
  ({ q with
     c := Vector.ofFn fun i : Fin 64 => BitVec.ofNat 64 (numAt b (8 * i.val) 8)
     pc := BitVec.ofNat 56 (numAt b 512 7), lk := BitVec.ofNat 56 (numAt b 520 7), preds := BitVec.ofNat 7 (numAt b 528 1)
     st := seatStateOf (numAt b 529 1), flags := BitVec.ofNat 16 (numAt b 530 2), opened := opened
     bounds := Vector.ofFn fun i : Fin 4 => BitVec.ofNat 32 (numAt b (536 + 4 * i.val) 4)
     ind := Vector.ofFn fun i : Fin 4 => BitVec.ofNat 32 (numAt b (552 + 4 * i.val) 4)
     streams := Vector.ofFn fun i : Fin 8 => streamOf (b.drop (568 + 25 * i.val))
     n := n, k := k, batchFlags := (old ++ late ++ open_).filter fun e => e.2 != 0
     accs := accs, ops := ops, latches := latches, waits := none, deferred := none }, slots)

/-! The team part -/

/-- The bytes of a context by part: fixed parts, refill queue, fork set, window, seat, groups. -/
def groupParts (b : List Byte) : Nat → List (List Byte)
  | 0 => []
  | n + 1 =>
    let size := max 64 (numAt b 56 4)
    b.take size :: groupParts (b.drop size) n

/-- The memory of a window. -/
def windowOfBytes (b : List Byte) : Mem := b.zipIdx.filterMap fun e => if e.1 = 0 then none else some (e.2, e.1)

/-- Read a context over a team: the team and the remainders of each group; none where it is malformed. -/
def readTeam (tid : Nat) (base : Team) (lseq : Word64) (id clock : Nat) (b : List Byte) : Option (Team × List GroupImage) :=
  let depth := (base.refill.map RefillQueue.depth).getD 0
  let nseat := numAt b 32 4
  let oRefill := 64 + 2304 + 64 + 8768
  let oFork := oRefill + 16 + 4 * depth
  let oWin := oFork + 16
  let oSeat := oWin + base.winSize
  let oGroup := oSeat + nseat
  let ngroups := numAt b 9 1
  let ns := numAt b 36 2
  let nl := numAt b 38 2
  let no := numAt b 40 2
  let nb := numAt b 42 2
  let seatSize := if base.seat.isSome then 1032 + 4 * nb + 512 + 33800 * ns + 40960 * nl + 48 * no +
    (if numAt (b.drop oSeat) 529 1 = 1 then 8 else 0) else 0
  let parts := groupParts (b.drop oGroup) ngroups
  let images := parts.zipIdx.map fun e =>
    readGroup base lseq (fun gi => base.groups[gi]?) (id + 1024 + 64 * e.2) clock e.1
  let good := images.filterMap fun x => x
  let rising : Bool := (good.map GroupImage.index).Pairwise (· < ·)
  if numAt b 0 2 ≠ 1 ∨ numAt b 2 2 ≠ 0 ∨ numAt b 4 4 ≠ b.length ∨ numAt b 8 1 ≠ base.crew ∨ numAt b 12 2 ≠ base.x ∨
      numAt b 14 2 ≠ base.y ∨ numAt b 10 1 ≠ bitOf base.seat.isSome ∨ 4 ≤ numAt b 11 1 ∨ numAt b 24 4 ≠ base.winSize ∨
      numAt b 28 4 ≠ depth ∨ numAt b 44 20 ≠ 0 ∨ nseat ≠ seatSize ∨ good.length ≠ ngroups ∨ !rising ∨
      b.length ≠ oGroup + (parts.map List.length).sum then none
  else
    let bar (i : Nat) : List Byte := b.drop (64 + 144 * i)
    let chan (i : Nat) : List Byte := b.drop (64 + 2304 + 64 + 2192 * i)
    let seat := base.seat.map fun q => readSeat tid q id ns nl no nb (b.drop oSeat)
    let groups := base.groups.mapIdx fun gi g =>
      let g := match good.find? fun x => x.index == gi with
        | some x => x.group
        | none => { g with ended := true, paths := Vector.replicate 8 none }
      { g with lastPhase := Vector.ofFn fun i : Fin 16 => BitVec.ofNat 32 (numAt (bar i.val) (12 + 4 * gi) 4)
               owed := Vector.ofFn fun i : Fin 16 => hasBit (numAt (bar i.val) 140 4) gi }
    let entry (c : List Byte) (k : Nat) : ChannelEntry :=
      let e := c.drop (16 + 136 * k)
      { words := Lanes.ofFn fun l => BitVec.ofNat 32 (numAt e (4 * l) 4), mask := BitVec.ofNat 32 (numAt e 128 4), sender := numAt e 132 4 }
    some ({ base with
      stepMode := hasBit (numAt b 11 1) 0
      aborted := hasBit (numAt b 11 1) 1
      barriers := Vector.ofFn fun i : Fin 16 =>
        { phase := BitVec.ofNat 32 (numAt (bar i.val) 0 4), arrived := BitVec.ofNat 32 (numAt (bar i.val) 4 4),
          mask := BitVec.ofNat 4 (numAt (bar i.val) 8 4) }
      sbars := Vector.ofFn fun i : Fin 8 =>
        { expected := BitVec.ofNat 32 (numAt b (64 + 2304 + 8 * i.val) 4), credited := BitVec.ofNat 32 (numAt b (64 + 2308 + 8 * i.val) 4) }
      channels := Vector.ofFn fun i : Fin 4 =>
        { entries := (List.range (min 16 (numAt (chan i.val) 0 1))).map (entry (chan i.val)),
          closed := BitVec.ofNat 32 (numAt (chan i.val) 4 4), error := hasBit (numAt (chan i.val) 1 1) 0 }
      refill := base.refill.map fun r =>
        { r with open_ := hasBit (numAt b oRefill 4) 0,
                 items := (List.range (min depth (numAt b (oRefill + 4) 4))).map fun i =>
                   BitVec.ofNat 32 (numAt b (oRefill + 16 + 4 * i) 4) }
      window := windowOfBytes ((b.drop oWin).take base.winSize)
      seat := seat.map Prod.fst
      slots := (seat.map Prod.snd).getD []
      status := .saved
      groups := groups }, good)

/-! `ctxld` (R354) -/

/-- The team over which a context is read: the one moved out, or a new one of the grid that has not started; none where the
team is present. -/
def State.contextBase (s : State) (gid : Nat) (g : Grid) (idx : Nat) : Option (State × Nat × Team) :=
  let w : Word64 := BitVec.ofNat 64 (idx % g.gx + idx / g.gx * 65536)
  match s.namedTeam gid w with
  | some (tid, t) => if t.status = .movedOut ∧ !t.ended then some (s, tid, t) else none
  | none =>
    if idx < g.placed ∨ g.notStarted.contains idx then none
    else
      let tid := s.nextId
      let s1 : State := { s with nextId := s.nextId + 1 }
      let r := if g.det then s1.detView tid g idx else (s1, 0)
      let t : Team := { Team.start gid g.crew (idx % g.gx) (idx / g.gx) 0 0 0 r.2 g.kdesc with
        child := if g.det then some idx else none, arg0 := g.arg0, arg1 := g.arg1, floors := g.floors, status := .saved }
      match r.1.descriptor t g.kdesc with
      | none => none
      | some d =>
        let roles := groupRoles g.floors
        let refill : Option RefillQueue := if descRefill d = 0 then none else some { depth := descRefill d }
        let groups := roles.map fun k => Group.start k.1 k.2 0 0 0 s.clock
        let seat := g.cdesc.map fun k => Seat.start 0 0 (r.1.entryOf t k)
        some (r.1, tid, { t with winSize := descWindow d, refill := refill, groups := groups, seat := seat })

/-- A parked path whose wait the format does not hold: an arrival already counted stays counted, a `bwait` waits on the team's seat,
a barrier wait targets its group's phase (R202, R206, R211). -/
def PathCtx.beginAgain (c : PathCtx) : Path :=
  if c.p.st ≠ .parked ∨ c.p.begun then c.p
  else match c.atWord with
    | some w =>
      if opcOf w = 0x91 ∧ (fnOf w = 1 ∨ fnOf w = 2) then
        { c.p with begun := true, goal := c.g.target c.t (barOf (fieldsOf w)) }
      else if opcOf w = 0x91 ∧ fnOf w = 0x0A then { c.p with begun := true }
      else c.p
    | none => c.p

/-- The parked paths of a group that has been read. -/
def State.beginPaths (s : State) (tid gi : Nat) : State :=
  (List.range 8).foldl (fun s pi => match s.pathCtx ⟨tid, gi, pi⟩ with
    | some c => s.modGroup tid gi fun g => g.setPath pi (some c.beginAgain)
    | none => s) s

/-- A word of the window of a team that is not on a core, at a cluster scratch address that it had there. -/
def Team.windowWord (t : Team) (a : Nat) : Nat := if a < t.windowAddr then 0 else leNat (t.window.readN (a - t.windowAddr) 4)

/-- Install a team that has been read: its commands are those of its remainders. -/
def State.installTeam (s : State) (gid idx tid : Nat) (t : Team) (images : List GroupImage) (run : Bool) : State :=
  let fresh : Bool := (s.team tid).isNone
  let s1 : State := { s with teams := if fresh then s.teams ++ [(tid, t)] else aput tid t s.teams }
  let s2 := images.foldl (fun s x =>
    let olds := s.remainders tid x.index
    let rest : State := { s with cmds := s.cmds.filter fun e => !(olds.any fun o => o.1 == e.1) }
    x.rems.zipIdx.foldl (fun s r =>
      let old : Option Command := (olds[r.2]?).map Prod.snd
      { s with cmds := s.cmds ++ [(s.nextId, commandOf tid x.index old s.clock t.windowWord r.1)], nextId := s.nextId + 1 }) rest) s1
  let s3 := if fresh then s2.modGrid gid fun g =>
      { g with notStarted := g.notStarted ++ [idx], st := if g.st = .ready then .running else g.st
               views := if g.det then g.views ++ [(idx, t.view)] else g.views } else s2
  let s4 := images.foldl (fun s x => s.beginPaths tid x.index) s3
  if run then images.foldl (fun s x => s.resumeGroup tid x.index) s4 else s4

/-- What a context that has been read comes to: its status, and the state with the team installed. -/
def State.loadContext (s : State) (crew : Nat) (b : List Byte) (run : Bool) : Nat × State :=
  let lseq : Word64 := BitVec.ofNat 64 (numAt b 16 8)
  if numAt b 0 2 ≠ 1 ∨ numAt b 2 2 ≠ 0 ∨ numAt b 44 20 ≠ 0 then (1, s)
  else match s.namedGrid crew lseq with
  | none => (2, s)
  | some (gid, g) =>
    let idx := numAt b 14 2 * g.gx + numAt b 12 2
    if numAt b 8 1 ≠ g.crew ∨ (g.st ≠ .ready ∧ g.st ≠ .running) ∨ g.killed then (2, s)
    else if g.gx ≤ numAt b 12 2 ∨ g.gy ≤ numAt b 14 2 then (1, s)
    else match s.contextBase gid g idx with
      | none => (3, s)
      | some (s1, tid, base) =>
        match readTeam tid base lseq s1.nextId s.clock b with
        | none => (1, s)
        | some (t, images) =>
          if s.saveFree g.crew < t.saveNeed then (4, s)
          else
            let s2 : State := { s1 with nextId := s1.nextId + 1024 + 64 * 33 }
            (0, s2.installTeam gid idx tid t images run)

/-- `ctxld`. -/
def execCtxld (f : Fields) (s : State) : Out :=
  onPrivileged s 0xD0 0x08 f fun c =>
    if !c.effect f then c.skipOver 0xD0 0x08 f
    else
      let src := (c.uni 0 f.sa).toNat
      let w := c.uni 1 f.sb
      if src % 256 ≠ 0 then c.faultCode 0x05 (BitVec.ofNat 64 src)
      else if w.toNat / 2 ≠ 0 then c.faultCode 0x04
      else match c.readGlobal (upFrom src 64) with
        | .error (code, a) => c.readFault code 0 a 1
        | .ok head =>
          match c.readGlobal (upFrom src (max 64 (numAt head 4 4))) with
          | .error (code, a) => c.readFault code 0 a 1
          | .ok b =>
            let r := c.s.loadContext c.t.crew b (w.getLsbD 0)
            c.conclude r.2 f (BitVec.ofNat 64 r.1)

end Sys2Proof.Machine
end

