-- ==== Sys2Proof/Machine/CrossLane.lean ====
section
/-! DEFINITION. Cross-lane instructions: OPC 0x40 (spec/05_integer.md R108 to R115). A vector source is read in all 32
lanes; results are written in lanes of A. -/

namespace Sys2Proof.Machine

/-- A form that moves lane values into a vector: the result of lane `L` from all lanes of the source (R108). -/
def moveForm (s : State) (fn : Nat) (f : Fields) (nd na nb : Nat) (op : PathCtx → (Nat → Nat) → Nat → Nat) : Out :=
  onPath s 0x40 fn f fun c =>
    let src := c.laneOp 0 f.sa na
    let srcs := (f.sa, na) :: (if nb = 0 then [] else [(f.sb, nb)])
    c.retire f (c.writeLanes 0x40 fn f (c.active f) srcs nd (op c src))

/-- The lane number that SB names: bits [4:0] of a uniform register or an immediate (R109). -/
def PathCtx.laneNumber (c : PathCtx) (f : Fields) : Nat :=
  (if f.useImm then f.imm.toNat else (c.uni 1 f.sb).toNat) % 32

/-- `slide.up` (R110). -/
def execSlideUp (f : Fields) (s : State) : Out :=
  let k := f.ity.regs
  let n := f.immBits 0 5
  moveForm s 0x00 f k k 0 fun c v l => if n ≤ l then v (l - n) else (c.uni 1 f.sb).toNat % 2 ^ (32 * k)

/-- `slide.dn` (R110). -/
def execSlideDn (f : Fields) (s : State) : Out :=
  let k := f.ity.regs
  let n := f.immBits 0 5
  moveForm s 0x01 f k k 0 fun c v l => if l + n ≤ 31 then v (l + n) else (c.uni 1 f.sb).toNat % 2 ^ (32 * k)

/-- Half `h` of lane `L` as element `2 L + h` (R111). -/
def halfOf (v : Nat → Nat) (e : Nat) : Nat := v (e / 2) / 65536 ^ (e % 2) % 65536

/-- A lane from two elements. -/
def joinHalves (out : Nat → Nat) (l : Nat) : Nat := out (2 * l) + 65536 * out (2 * l + 1)

/-- Fill element `j` of a uniform register (R111). -/
def fillElem (w j : Nat) : Nat := w / 65536 ^ j % 65536

/-- `hslide.up` (R111). -/
def execHslideUp (f : Fields) (s : State) : Out :=
  let n := f.immBits 0 3
  moveForm s 0x02 f 1 1 0 fun c v =>
    let fill := (c.uni 1 f.sb).toNat
    joinHalves fun e => if n ≤ e then halfOf v (e - n) else fillElem fill (4 - n + e)

/-- `hslide.dn` (R111). -/
def execHslideDn (f : Fields) (s : State) : Out :=
  let n := f.immBits 0 3
  moveForm s 0x03 f 1 1 0 fun c v =>
    let fill := (c.uni 1 f.sb).toNat
    joinHalves fun e => if e + n ≤ 63 then halfOf v (e + n) else fillElem fill (e + n - 64)

/-- `shfl` (R112). -/
def execShfl (f : Fields) (s : State) : Out :=
  moveForm s 0x04 f f.ity.regs f.ity.regs f.ity.regs fun c v =>
    let idx := c.laneOp 1 f.sb f.ity.regs
    fun l => v (idx l % 32)

/-- `xshfl` (R112). -/
def execXshfl (f : Fields) (s : State) : Out :=
  moveForm s 0x05 f f.ity.regs f.ity.regs 0 fun c v l => v (Nat.xor l (c.laneNumber f))

/-- `lbc` (R112). -/
def execLbc (f : Fields) (s : State) : Out :=
  moveForm s 0x06 f f.ity.regs f.ity.regs 0 fun c v _ => v (c.laneNumber f)

/-- A node of a tree: a value and the flags raised so far. -/
abbrev Node := Int × FlagSet

/-- A level of the pairwise tree (R113). -/
def pairUp (op : Int → Int → Node) : List Node → List Node
  | a :: b :: rest => ((op a.1 b.1).1, a.2 ||| b.2 ||| (op a.1 b.1).2) :: pairUp op rest
  | l => l

/-- The fixed pairwise tree over 32 lanes (R113). -/
def treeReduce (op : Int → Int → Node) (xs : List Node) : Node :=
  (pairUp op (pairUp op (pairUp op (pairUp op (pairUp op xs))))).headD (0, 0)

/-- One doubling step of the prefix tree (R114). -/
def scanStep (op : Int → Int → Node) (d : Nat) (xs : List Node) : List Node :=
  (List.range 32).map fun l =>
    let x := xs.getD l (0, 0)
    if d ≤ l then
      let y := xs.getD (l - d) (0, 0)
      let r := op y.1 x.1
      (r.1, x.2 ||| r.2)
    else x

/-- The fixed doubling tree (R114). -/
def treeScan (op : Int → Int → Node) (xs : List Node) : List Node :=
  [1, 2, 4, 8, 16].foldl (fun xs d => scanStep op d xs) xs

/-- The lanes that enter a reduction: lanes outside A hold the identity (R113). -/
def PathCtx.treeInput (c : PathCtx) (f : Fields) (n : Nat) (read : Nat → Int) (ident : Int) : List Node :=
  let v := c.laneOp 0 f.sa n
  let m := c.active f
  (List.range 32).map fun l => (if m.getLsbD l then read (v l) else ident, 0)

/-- A reduction: into a uniform register, or every lane of A (R113). -/
def reduceForm (s : State) (fn n : Nat) (f : Fields) (read : Nat → Int) (ident : Int) (op : Int → Int → Node) : Out :=
  onPath s 0x40 fn f fun c =>
    let r := treeReduce op (c.treeInput f n read ident)
    if isUni f.d && !f.dead then
      if c.effect f then c.retire f ((c.writeUniform 0x40 fn f (BitVec.ofInt 64 r.1)).raise r.2)
      else c.skipOver 0x40 fn f
    else
      c.retire f ((c.writeLanes 0x40 fn f (c.active f) [(f.sa, n)] n fun _ => (r.1 % 2 ^ (32 * n)).toNat).raise r.2)

/-- A prefix combination (R114). -/
def scanForm (s : State) (fn n : Nat) (f : Fields) (read : Nat → Int) (ident : Int) (op : Int → Int → Node) : Out :=
  onPath s 0x40 fn f fun c =>
    let xs := treeScan op (c.treeInput f n read ident)
    let at_ (l : Nat) : Int := (xs.getD l (0, 0)).1
    let y (l : Nat) : Int := if f.bit7 then (if l = 0 then ident else at_ (l - 1)) else at_ l
    c.retire f ((c.writeLanes 0x40 fn f (c.active f) [(f.sa, n)] n fun l => (y l % 2 ^ (32 * n)).toNat).raise
      (xs.foldl (fun fl x => fl ||| x.2) 0))

/-- The float node of `redf` and `scanf`. -/
def floatNode (op : Nat) (a b : Int) : Node :=
  let r := redFloat op a.toNat b.toNat
  (r.1, r.2)

/-- `red` (R113). -/
def execRed (f : Fields) (s : State) : Out :=
  reduceForm s 0x07 f.ity.regs f (readTy f.ity) (redIdent f.mid f.ity) fun a b => plain (redInt f.mid f.ity a b)

/-- `redf` (R113). -/
def execRedf (f : Fields) (s : State) : Out :=
  reduceForm s 0x08 1 f (fun n => n) (redfIdent f.mid) (floatNode f.mid)

/-- `scan` (R114). -/
def execScan (f : Fields) (s : State) : Out :=
  scanForm s 0x09 f.ity.regs f (readTy f.ity) (redIdent f.mid f.ity) fun a b => plain (redInt f.mid f.ity a b)

/-- `scanf` (R114). -/
def execScanf (f : Fields) (s : State) : Out :=
  scanForm s 0x0A 1 f (fun n => n) (redfIdent f.mid) (floatNode f.mid)

/-- A vote: every lane of A receives the result (R115). -/
def voteForm (s : State) (fn : Nat) (f : Fields) (res : Mask → Mask → Bool) : Out :=
  onPath s 0x40 fn f fun c =>
    let a := c.active f
    c.retire f (c.writePredicate 0x40 fn f a (if res a (c.pred 0 f.sa.toNat) then BitVec.allOnes 32 else 0))

/-- `vote.any` (R115). -/
def execVoteAny (f : Fields) (s : State) : Out := voteForm s 0x0B f fun a p => p &&& a != 0

/-- `vote.all` (R115). -/
def execVoteAll (f : Fields) (s : State) : Out := voteForm s 0x0C f fun a p => p &&& a == a

/-- `ballot` (R115). -/
def execBallot (f : Fields) (s : State) : Out :=
  onPath s 0x40 0x0D f fun c =>
    if c.effect f then c.retire f (c.writeUniform 0x40 0x0D f ((c.pred 0 f.sa.toNat &&& c.active f).setWidth 64))
    else c.skipOver 0x40 0x0D f

/-- `match` (R115). -/
def execMatchLanes (f : Fields) (s : State) : Out :=
  moveForm s 0x0E f 1 f.ity.regs 0 fun c v l =>
    (maskOf fun k => (c.active f).getLsbD k && v k == v l).toNat

/-- `rdlane` (R112). -/
def execRdlane (f : Fields) (s : State) : Out :=
  onPath s 0x40 0x0F f fun c =>
    if c.effect f then
      c.retire f (c.writeUniform 0x40 0x0F f (BitVec.ofNat 64 (c.laneOp 0 f.sa f.ity.regs (c.laneNumber f))))
    else c.skipOver 0x40 0x0F f

end Sys2Proof.Machine
end

