-- ==== Sys2Proof/Machine/Debug.lean ====
section
/-! DEFINITION. Trace, profiling and debug instructions: OPC 0xD8 (spec/17_trace.md R379 to R391).

Marked in the assumption log: 38 (DEDUCED). -/

namespace Sys2Proof.Machine

/-! `trctl` (R388) -/

/-- The crew and die that a target word of `trctl` names, where the issuing crew may name them. -/
def State.ringTarget (s : State) (issuer : Nat) (w : Word64) : Option (Nat × Nat) :=
  let crew := (w.extractLsb' 0 6).toNat
  let die := (w.extractLsb' 8 3).toNat
  if w.extractLsb' 6 2 ≠ 0 ∨ w.extractLsb' 11 53 ≠ 0 ∨ !s.crewNamed issuer crew ∨ !(s.crewDies issuer).contains die then none
  else some (crew, die)

/-- The ring of a crew on a die (R379). -/
def State.ring (s : State) (crew die : Nat) : Ring := (aget die (s.crew crew).rings).getD {}

/-- Set a ring. -/
def State.setRing (s : State) (crew die : Nat) (r : Ring) : State := s.modCrew crew fun c => { c with rings := aput die r c.rings }

/-- A path held by a stop goes on: in the handler where it came from there (R386). -/
def Group.letGo (g : Group) (i : Nat) (p : Path) (clock : Nat) : Path :=
  { p with st := if g.tm ∧ g.trap.path.toNat = i then PathState.handler else .ready, since := clock, byBrk := false }

/-- Let go of the held paths of a group that a condition picks. -/
def Group.release (g : Group) (clock : Nat) (which : Nat → Path → Bool) : Group :=
  { g with paths := g.paths.mapIdx fun i o => o.map fun p => if p.st = .stopped ∧ which i p then g.letGo i p clock else p }

/-- Let go of the held paths of a team. -/
def Team.release (t : Team) (clock : Nat) (which : Path → Bool) : Team :=
  { t with groups := t.groups.map fun g => g.release clock fun _ p => which p }

/-- Let go of the paths of a crew's teams on a die that `brk` holds (R388). -/
def State.releaseBrk (s : State) (crew die : Nat) : State :=
  { s with teams := s.teams.map fun e =>
      if e.2.crew = crew ∧ dieOf e.2.core = die then (e.1, e.2.release s.clock Path.byBrk) else e }

/-- Whether a control word keeps the rules of R388. -/
def ctlLegal (w : Word64) : Bool :=
  w &&& ~~~(0x1F0F : Word64) == 0 && 16 ≤ (w.extractLsb' 8 5).toNat && (w.extractLsb' 8 5).toNat ≤ 30

/-- Enable a ring. -/
def State.startRing (s : State) (crew die : Nat) (base ctl : Word64) : State :=
  let r : Ring := { base := base.toNat, ctl := ctl.extractLsb' 0 4, log := (ctl.extractLsb' 8 5).toNat, on := true, last := s.clock }
  let s1 := s.setRing crew die r
  if ctl.getLsbD 3 then s1 else s1.releaseBrk crew die

/-- A form of `trctl` on the ring that gA names. -/
def PathCtx.trctl (c : PathCtx) (f : Fields) (k : Nat → Nat → Out) : Out :=
  if !c.effect f then c.skipOver 0xD8 0x00 f
  else match c.s.ringTarget c.t.crew (c.uni 0 f.sa) with
    | none => c.faultCode 0x04
    | some (crew, die) => k crew die

/-- `trctl.set`. -/
def execTrctlSet (f : Fields) (s : State) : Out :=
  onPrivileged s 0xD8 0x00 f fun c => c.trctl f fun crew die =>
    let b := c.uni 1 f.sb
    let w := c.uni 2 f.sc
    if b.toNat % 65536 ≠ 0 then c.faultCode 0x05 b
    else if !ctlLegal w then c.conclude c.s f 1
    else c.conclude (c.s.startRing crew die b w) f 0

/-- `trctl.head`. -/
def execTrctlHead (f : Fields) (s : State) : Out :=
  onPrivileged s 0xD8 0x00 f fun c => c.trctl f fun crew die => c.conclude c.s f (c.s.ring crew die).head

/-- `trctl.tail`. -/
def execTrctlTail (f : Fields) (s : State) : Out :=
  onPrivileged s 0xD8 0x00 f fun c => c.trctl f fun crew die =>
    let r := c.s.ring crew die
    let v := c.uni 1 f.sb
    if (v - r.tail).toNat ≤ (r.head - r.tail).toNat ∧ v.toNat % 32 = 0 then c.conclude (c.s.setRing crew die { r with tail := v }) f 0
    else c.conclude c.s f 1

/-- `trctl.lost`. -/
def execTrctlLost (f : Fields) (s : State) : Out :=
  onPrivileged s 0xD8 0x00 f fun c => c.trctl f fun crew die =>
    c.conclude c.s f (BitVec.ofNat 64 (c.s.ring crew die).lost)

/-! `trmark` (R389) -/

/-- The body of a mark (R382). -/
def markBody (n : BitVec 16) (pc : VAddr) (seat : Nat) (cox : Bool) : BitVec 216 :=
  (BitVec.ofBool cox ++ BitVec.ofNat 3 seat ++ pc ++ n).setWidth 216

/-- `trmark`. -/
def execTrmark (f : Fields) (s : State) : Out :=
  let n : BitVec 16 := f.imm.setWidth 16
  onBoth s 0xD8 0x01 f
    (fun c =>
      if c.effect f then
        c.concludePlain (c.s.emit c.t.crew (dieOf c.t.core) 2 (fun d =>
          packet 4 d c.t.core (c.g.sched * 64 + c.g.slot) c.pi (markBody n c.p.pc 0 false)) []) f
      else c.skipOver 0xD8 0x01 f)
    fun c =>
      if c.guard f then
        let s := c.s.emit c.t.crew (dieOf c.t.core) 2 (fun d => packet 4 d c.t.core 0 0 (markBody n c.q.pc c.q.num true)) []
        { c with s := s }.retire c.q
      else c.retire c.q

/-! `pcnt` (R390) -/

/-- The value of a counter of a core in a crew's bank. -/
def Core.counter (k : Core) (crew sel : Nat) : Word64 :=
  ((k.counters.find? fun e => e.1 == crew && e.2.1 == sel).map fun e => e.2.2).getD 0

/-- Set a counter of a core to 0. -/
def Core.clearCounter (k : Core) (crew sel : Nat) : Core :=
  { k with counters := k.counters.filter fun e => !(e.1 == crew && e.2.1 == sel) }

/-- `pcnt`. -/
def execPcnt (f : Fields) (s : State) : Out :=
  let sel := f.immBits 0 8
  onBoth s 0xD8 0x02 f
    (fun c =>
      if c.effect f then
        let s := if f.imm.getLsbD 8 then c.s.modCore c.t.core fun k => k.clearCounter c.t.crew sel else c.s
        c.retireOn s f (c.writeUniform 0xD8 0x02 f ((c.s.core c.t.core).counter c.t.crew sel))
      else c.skipOver 0xD8 0x02 f)
    fun c =>
      if c.guard f then
        let v := BitVec.ofNat 64 (if sel = 0x20 then c.q.issued else c.q.cycles)
        let q := if !f.imm.getLsbD 8 then c.q else if sel = 0x20 then { c.q with issued := 0 } else { c.q with cycles := 0 }
        c.retire (q.setC f.d v)
      else c.retire c.q

/-! `step` (R391) -/

/-- A form of `step` on the team that gA and gB name; 2 where there is none. -/
def PathCtx.step (c : PathCtx) (f : Fields) (k : Nat → Team → Out) : Out :=
  let w := c.uni 1 f.sb
  if !c.effect f then c.skipOver 0xD8 0x03 f
  else if w.toNat / 2 ^ 32 ≠ 0 then c.faultCode 0x04
  else match (c.s.namedGrid c.t.crew (c.uni 0 f.sa)).bind fun e => c.s.namedTeam e.1 w with
    | none => c.conclude c.s f 2
    | some (tid, t) => if t.ended then c.conclude c.s f 2 else k tid t

/-- `step.stop`. -/
def execStepStop (f : Fields) (s : State) : Out :=
  onPrivileged s 0xD8 0x03 f fun c => c.step f fun tid _ =>
    c.conclude (c.s.modTeam tid fun t => { t with stepMode := true }) f 0

/-- `step.go`. -/
def execStepGo (f : Fields) (s : State) : Out :=
  onPrivileged s 0xD8 0x03 f fun c => c.step f fun tid t =>
    if t.stepMode then c.conclude (c.s.modTeam tid fun t => t.release c.s.clock fun _ => true) f 0 else c.conclude c.s f 1

/-- A team that leaves step mode: nothing is held, and nothing will be. -/
def Team.runFree (t : Team) (clock : Nat) : Team :=
  let t1 := t.release clock fun _ => true
  { t1 with stepMode := false, groups := t1.groups.map fun g =>
      { g with paths := g.paths.map fun o => o.map fun p => { p with holdNext := false } } }

/-- `step.run`. -/
def execStepRun (f : Fields) (s : State) : Out :=
  onPrivileged s 0xD8 0x03 f fun c => c.step f fun tid _ => c.conclude (c.s.modTeam tid fun t => t.runFree c.s.clock) f 0

/-- `step.path`: a word with other bits takes 0x04, as gB does. -/
def execStepPath (f : Fields) (s : State) : Out :=
  onPrivileged s 0xD8 0x03 f fun c => c.step f fun tid t =>
    let w := c.uni 2 f.sc
    let gi := (w.extractLsb' 0 5).toNat
    let pi := (w.extractLsb' 8 3).toNat
    let held : Bool := ((t.groups[gi]?).bind fun g => (g.path pi).map fun p => p.st == .stopped).getD false
    if w.toNat / 2 ^ 11 ≠ 0 ∨ w.extractLsb' 5 3 ≠ 0 then c.faultCode 0x04
    else if !held then c.conclude c.s f 1
    else c.conclude (c.s.modGroup tid gi fun g => g.release c.s.clock fun i _ => i == pi) f 0

end Sys2Proof.Machine
end

