-- ==== Sys2Proof/Machine/FloatOps.lean ====
section
/-! DEFINITION. Floating-point and conversion instructions: OPC 0x50 to 0x55 (spec/06_float.md R123 to R133). -/

namespace Sys2Proof.Machine

/-- A float result as a lane result. -/
def bitsOf (r : Nat × FlagSet) : Int × FlagSet := (r.1, r.2)

/-- The shape of a float form. -/
def floatShape (f : Fields) : Shape := { imm := f.imm.toNat }

/-- The rounding mode of a word. -/
def modeOf (f : Fields) : RMode := RMode.ofCode f.mid

/-- A form on the elements of up to three sources (R124). -/
def elemForm (s : State) (opc fn : Nat) (f : Fields) (useB useC : Bool)
    (op : Fmt → Nat → Nat → Nat → Nat × FlagSet) : Out :=
  computeGroup s opc fn f (floatShape f) true useB useC fun _ a b c =>
    bitsOf (fElems f.fty fun t j => op t (t.elem a j) (t.elem b j) (t.elem c j))

/-- `add` (R124). -/
def execFAdd (f : Fields) (s : State) : Out := elemForm s 0x50 0x00 f true false fun t a b _ => fAdd t (modeOf f) a b

/-- `sub` (R124). -/
def execFSub (f : Fields) (s : State) : Out := elemForm s 0x50 0x01 f true false fun t a b _ => fSub t (modeOf f) a b

/-- `mul` (R124). -/
def execFMul (f : Fields) (s : State) : Out := elemForm s 0x50 0x02 f true false fun t a b _ => fMul t (modeOf f) a b

/-- `fma` (R124). -/
def execFma (f : Fields) (s : State) : Out := elemForm s 0x50 0x03 f true true fun t a b c => fFma t (modeOf f) a b c

/-- `min` (R125). -/
def execFMin (f : Fields) (s : State) : Out := elemForm s 0x50 0x04 f true false fun t a b _ => fMinMax t false a b

/-- `max` (R125). -/
def execFMax (f : Fields) (s : State) : Out := elemForm s 0x50 0x05 f true false fun t a b _ => fMinMax t true a b

/-- `fdot2` (R126). -/
def execFdot2 (f : Fields) (s : State) : Out :=
  computeGroup s 0x50 0x06 f {} true true true fun _ a b c => bitsOf (fDot2 (fmtOf f.srcFty) (modeOf f) a b c)

/-- A float comparison (R127). -/
def fcompareForm (s : State) (fn : Nat) (f : Fields) : Out :=
  onPath s 0x51 fn f fun c =>
    let t := fmtOf f.fty
    c.lanewisePred 0x51 fn f (floatShape f) fun a b _ => fCmp t fn (t.elem a 0) (t.elem b 0)

/-- `cmp.eq` (R127). -/
def execFCmpEq (f : Fields) (s : State) : Out := fcompareForm s 0x00 f

/-- `cmp.ne` (R127). -/
def execFCmpNe (f : Fields) (s : State) : Out := fcompareForm s 0x01 f

/-- `cmp.lt` (R127). -/
def execFCmpLt (f : Fields) (s : State) : Out := fcompareForm s 0x02 f

/-- `cmp.le` (R127). -/
def execFCmpLe (f : Fields) (s : State) : Out := fcompareForm s 0x03 f

/-- `cmp.gt` (R127). -/
def execFCmpGt (f : Fields) (s : State) : Out := fcompareForm s 0x04 f

/-- `cmp.ge` (R127). -/
def execFCmpGe (f : Fields) (s : State) : Out := fcompareForm s 0x05 f

/-- `cmp.un` (R127). -/
def execFCmpUn (f : Fields) (s : State) : Out := fcompareForm s 0x06 f

/-- `class` (R127). -/
def execFclass (f : Fields) (s : State) : Out :=
  onPath s 0x51 0x07 f fun c =>
    let t := fmtOf f.fty
    c.lanewisePred 0x51 0x07 f (floatShape f) fun a _ _ => ((f.immBits 0 10).testBit (fClass t (t.elem a 0)), 0)

/-- `scale` (R128). -/
def execScale (f : Fields) (s : State) : Out :=
  let t := fmtOf f.fty
  computeGroup s 0x52 0x00 f (floatShape f) true true false fun _ a b _ =>
    bitsOf (fScale t (modeOf f) (t.elem a 0) (readInt 32 true b))

/-- `getexp` (R128). -/
def execGetexp (f : Fields) (s : State) : Out :=
  let t := fmtOf f.fty
  computeGroup s 0x52 0x01 f {} true false false fun _ a _ _ => fGetexp t (t.elem a 0)

/-- `getman` (R128). -/
def execGetman (f : Fields) (s : State) : Out :=
  let t := fmtOf f.fty
  computeGroup s 0x52 0x02 f {} true false false fun _ a _ _ => bitsOf (fGetman t (t.elem a 0))

/-- A special function of an f32 (R129). -/
def specialForm (s : State) (fn : Nat) (f : Fields) (op : RMode → Nat → Nat × FlagSet) : Out :=
  computeGroup s 0x53 fn f {} true false false fun _ a _ _ => bitsOf (op (modeOf f) (a % 2 ^ 32))

/-- `rcp` (R129). -/
def execRcp (f : Fields) (s : State) : Out := specialForm s 0x00 f fRcp

/-- `rsq` (R129). -/
def execRsq (f : Fields) (s : State) : Out := specialForm s 0x01 f fRsq

/-- `sqrt` (R129). -/
def execSqrt (f : Fields) (s : State) : Out := specialForm s 0x02 f fSqrt

/-- `exp2` (R129). -/
def execExp2 (f : Fields) (s : State) : Out := specialForm s 0x03 f fExp2

/-- `log2` (R129). -/
def execLog2 (f : Fields) (s : State) : Out := specialForm s 0x04 f fLog2

/-- `sinpi` (R129). -/
def execSinpi (f : Fields) (s : State) : Out := specialForm s 0x05 f fun m a => fSinCos m false a

/-- `cospi` (R129). -/
def execCospi (f : Fields) (s : State) : Out := specialForm s 0x06 f fun m a => fSinCos m true a

/-- `cvt` (R130). -/
def execCvt (f : Fields) (s : State) : Out :=
  let st := f.srcFty
  computeGroup s 0x54 0x00 f { d := f.fty.regs, a := st.regs } true false false fun _ a _ _ =>
    fCvt f.fty st (modeOf f) (if st.isInt then a else (fmtOf st).elem a 0)

/-- `fpack` (R132). -/
def execFpack (f : Fields) (s : State) : Out :=
  let four : Bool := f.fty == .f8x4
  computeGroup s 0x55 0x00 f {} true true four fun _ a b c =>
    bitsOf (if four then fPack4 (a % 2 ^ 32) (b % 2 ^ 32) (c % 2 ^ 32) (f.immBits 0 1)
      else fPack2 (fmtOf f.fty) (a % 2 ^ 32) (b % 2 ^ 32))

/-- `funpk` (R132). -/
def execFunpk (f : Fields) (s : State) : Out :=
  computeGroup s 0x55 0x01 f {} true false false fun _ a _ _ => bitsOf (fUnpack (fmtOf f.srcFty) a (f.immBits 4 2))

/-- `ternpk` (R133). -/
def execTernpk (f : Fields) (s : State) : Out :=
  computeGroup s 0x55 0x02 f {} true false true fun _ a _ c => (ternPack a (c % 2 ^ 32) (f.immBits 0 2), 0)

/-- `ternunpk` (R133). -/
def execTernunpk (f : Fields) (s : State) : Out :=
  computeGroup s 0x55 0x03 f {} true false false fun _ a _ _ => bitsOf (ternUnpack a (f.immBits 0 2))

end Sys2Proof.Machine
end

