-- ==== Sys2Proof/Machine/Sampling.lean ====
section
/-! DEFINITION. The sampling arrays: OPC 0xC0 and the events of a context (spec/13_sampling.md R285 to R305).

Marked in the assumption log: 3 (DESIGN CHOICE), 7 (DEDUCED), 26 (DESIGN CHOICE), 31 (DEDUCED). -/

namespace Sys2Proof.Machine

/-! Contexts (R285 to R288) -/

/-- The quarters of a die that a crew holds in the rows of a table: the same nonzero number in each row that gives any
(R286). -/
def quartersIn (rows : List (BitVec 2048)) (crew die : Nat) : Nat :=
  (rows.findSome? fun r => match (rowQuarters r crew die).length with
    | 0 => none
    | n => some n).getD 0

/-- The rows that a pending switch will install (R374). -/
def HeatTable.coming (h : HeatTable) : List (BitVec 2048) :=
  match h.pendingN with
  | some n => (List.range n).filterMap fun i => aget i h.shadow
  | none => []

/-- The quarters that a crew's context on a die has: those of the active table, or else of the one to come (R297). -/
def State.contextQuarters (s : State) (crew die : Nat) : Nat :=
  match (s.crew crew).set with
  | none => 0
  | some b =>
    let n := quartersIn (s.heat b).active crew die
    if n = 0 then quartersIn (s.heat b).coming crew die else n

/-- A crew's context on a die (R288). -/
def State.context (s : State) (crew die : Nat) : Sampler :=
  (aget die (s.crew crew).samplers).getD { q := s.contextQuarters crew die }

/-- Set a context. -/
def State.setContext (s : State) (crew die : Nat) (x : Sampler) : State :=
  s.modCrew crew fun c => { c with samplers := aput die x c.samplers }

/-- Whether the array of a die holds a crew's context now (R303). -/
def State.arrayHolds (s : State) (crew die : Nat) : Bool := !(rowQuarters (s.currentRow crew) crew die).isEmpty

/-- A cell of a context. -/
def Sampler.cell (x : Sampler) (i : Nat) : Cell := (aget i x.cells).getD {}

/-- Set a cell. -/
def Sampler.setCell (x : Sampler) (i : Nat) (c : Cell) : Sampler := { x with cells := aput i c x.cells }

/-! The update of a cell (R291 to R293) -/

/-- An entry of the default table (R291). -/
def defaultEntry (k : Int) : Nat :=
  let e := expSeries (k.natAbs * (fixOne / 128)) 300 1 fixOne
  let x := if 0 ≤ k then e else fixOne * fixOne / e
  min ((2 * 65536 * x + (x + fixOne)) / (2 * (x + fixOne))) 65535

/-- An entry of a context's table. -/
def Sampler.entry (x : Sampler) (k : Int) : Nat :=
  match x.table with
  | some t => (t.getD (k + 2048).toNat 0).toNat
  | none => defaultEntry k

/-- The seeded draw of a cell (R292). -/
def seededDraw (seed : Word64) (i : Nat) (n : Word32) : Nat :=
  let x := seed ^^^ (BitVec.ofNat 64 i <<< 32) ^^^ n.setWidth 64
  let x := x * 0x9E3779B97F4A7C15
  let x := x ^^^ (x >>> 29)
  let x := x * 0xD1B54A32D192ED03
  let x := x ^^^ (x >>> 32)
  x.toNat % 65536

/-- The draw of a cell: seeded, or one of the noise source (R292). `fresh` numbers the phases. -/
def Sampler.draw (x : Sampler) (fresh i : Nat) : Nat :=
  if x.entropy then (Config.entropyDraw (fresh * 65536 + i)).toNat else seededDraw x.seed i x.s

/-- The field of a cell: its bias and its weighted neighbours, a neighbour past the context counting as −1 (R291, R287). -/
def Sampler.field (x : Sampler) (c : Cell) : Int :=
  c.nbrs.foldl (fun h n => h + if n.1 < 16384 * x.q ∧ (x.cell n.1).state then n.2.toInt else -n.2.toInt) c.bias.toInt

/-- The new cell at the end of a phase, and whether its counter was saturated (R291). -/
def Sampler.update (x : Sampler) (fresh i : Nat) (c : Cell) : Cell × Bool :=
  let k := (x.beta.toNat * x.field c) / 256
  let k := min (max k (-2048)) 2047
  let s : Bool := x.draw fresh i < x.entry k
  if s then ({ c with state := true, counter := if c.counter = 0xFFFF then c.counter else c.counter + 1 }, c.counter == 0xFFFF)
  else ({ c with state := false }, false)

/-- The cells of a colour that a phase updates. -/
def Sampler.unclamped (x : Sampler) (colour : Nat) : List (Nat × Cell) :=
  x.cells.filter fun e => !e.2.clamp && e.2.colour.toNat == colour && e.1 < 16384 * x.q

/-- The next colour from one up that a sweep visits (R293). -/
def Sampler.nextColour (x : Sampler) (from_ : Nat) : Option Nat :=
  (List.range 8).find? fun c => from_ ≤ c && !(x.unclamped c).isEmpty

/-- The phase of one colour: every cell from the states at its start (R293). -/
def Sampler.phase (x : Sampler) (fresh colour : Nat) : Sampler :=
  let new := (x.unclamped colour).map fun e => (e.1, x.update fresh e.1 e.2)
  { x with cells := new.foldl (fun cs e => aput e.1 e.2.1 cs) x.cells, csat := x.csat || new.any fun e => e.2.2 }

/-! Issue (R294 to R302) -/

/-- The whole-context forms, whose range bits are zero (R297): `smseed`, `smbeta`, `smtable`, `smsweep`, `smstat.info`. -/
def wholeContext (fn sub : Nat) : Bool := (2 ≤ fn && fn ≤ 5) || (fn == 7 && sub == 3)

/-- The checks of a range word (R297). -/
def PathCtx.samplerFault (c : PathCtx) (fn sub : Nat) (w : Word64) : Option (BitVec 8) :=
  let die := (w.extractLsb' 32 3).toNat
  let last := (w.extractLsb' 0 16).toNat + (w.extractLsb' 16 16).toNat
  if !(c.s.teamClass c.t).getLsbD 1 ∨ w.toNat / 2 ^ 35 ≠ 0 ∨ (wholeContext fn sub ∧ w.toNat % 2 ^ 32 ≠ 0) ∨
      !(c.s.crewDies c.t.crew).contains die ∨ c.s.contextQuarters c.t.crew die = 0 then some 0x04
  else if !wholeContext fn sub ∧ 16384 * c.s.contextQuarters c.t.crew die ≤ last then some 0x06
  else none

/-- Global bytes as the issuing group reads them, each with its address, up to the first that faults; and whether none does. -/
def PathCtx.globalBytes (c : PathCtx) : List Nat → List (Nat × Byte) × Bool
  | [] => ([], true)
  | a :: as =>
    match c.s.srcByte c.t c.g.sbuf 0 a false with
    | .ok b => let r := c.globalBytes as; ((a, b) :: r.1, r.2)
    | .error _ => ([], false)

/-- The number of bytes read. -/
def readNat (l : List (Nat × Byte)) : Nat := leNat (l.map Prod.snd)

/-- The header address of cell `r` under a nest descriptor (R298). -/
def nestHeader (d : List Byte) (r : Nat) : Nat :=
  let h : Int := leNat (d.take 8)
  ((h + r * readInt 32 true (leNat ((d.drop 16).take 4))) % 2 ^ 64).toNat

/-- The address of coupling entry `j` of cell `r`. -/
def nestEntry (d : List Byte) (r j : Nat) : Nat :=
  let b : Int := leNat ((d.drop 8).take 8)
  ((b + j * readInt 32 true (leNat ((d.drop 20).take 4)) + r * readInt 32 true (leNat ((d.drop 24).take 4))) % 2 ^ 64).toNat

/-- DEG of a header. -/
def headerDeg (h : Nat) : Nat := h / 2 ^ 21 % 64

/-- The addresses of the entries of a cell. -/
def entryAddrs (d : List Byte) (r deg : Nat) : List Nat :=
  (List.range deg).flatMap fun j => upFrom (nestEntry d r j) 4

/-- What an `smload` reads, in its order, as the issuing group reads it: the cells from `r` up, until something faults or a header is
malformed; and whether nothing has faulted. -/
def PathCtx.nestBytes (c : PathCtx) (d : List Byte) : Nat → Nat → List (Nat × Byte) × Bool
  | 0, _ => ([], true)
  | left + 1, r =>
    let h := c.globalBytes (upFrom (nestHeader d r) 8)
    let deg := headerDeg (readNat h.1)
    if !h.2 ∨ 32 < deg then h
    else
      let es := c.globalBytes (entryAddrs d r deg)
      if !es.2 then (h.1 ++ es.1, false)
      else
        let rest := c.nestBytes d left (r + 1)
        (h.1 ++ es.1 ++ rest.1, rest.2)

/-- One list of reads after another. -/
def thenRead (x y : List (Nat × Byte) × Bool) : List (Nat × Byte) × Bool := if x.2 then (x.1 ++ y.1, y.2) else x

/-- The bytes that a command finds at its sources. -/
def PathCtx.samplerSource (c : PathCtx) (fn sub : Nat) (n : Nat) (b v : Word64) : List (Nat × Byte) × Bool :=
  match fn with
  | 0 =>
    let d := c.globalBytes (upFrom b.toNat 32)
    thenRead d (c.nestBytes (d.1.map Prod.snd) n 0)
  | 1 =>
    let m := (n + 7) / 8
    let ms := c.globalBytes (upFrom b.toNat m)
    if sub = 1 then ms else thenRead ms (c.globalBytes (upFrom v.toNat m))
  | 4 => if sub = 1 then ([], true) else c.globalBytes (upFrom b.toNat 8192)
  | _ => ([], true)

/-- What a command writes to memory (R301): the length of its result. -/
def samplerResult (fn sub n : Nat) : Nat :=
  match fn, sub with
  | 6, _ => (n + 7) / 8
  | 7, 3 => 8
  | 7, 1 => 0
  | 7, _ => 2 * n
  | _, _ => 0

/-- Issue a sampler command. -/
def PathCtx.sample (c : PathCtx) (fn sub : Nat) (f : Fields) (b v : Word64) : Out :=
  let w := c.uni 0 f.sa
  match c.samplerFault fn sub w with
  | some code => c.faultCode code
  | none =>
    if (fn = 0 ∧ b.toNat % 32 ≠ 0) ∨ (fn = 4 ∧ sub = 0 ∧ b.toNat % 2 ≠ 0) then c.faultCode 0x05 b
    else
      let die := (w.extractLsb' 32 3).toNat
      let cnt := (w.extractLsb' 16 16).toNat
      let n := cnt + 1
      let src := c.samplerSource fn sub n b v
      let pages := (src.1.map fun e => e.1 / 65536).eraseDups
      let cmd : Command :=
        { c.command f fn 4 (.sampler fn sub c.t.crew die (w.extractLsb' 0 16).toNat cnt b v) with
          sweeps := if fn = 5 then b.toNat % 2 ^ 32 else 0
          st := if fn = 5 ∧ b.toNat % 2 ^ 32 = 0 then .complete else .waiting
          data := src.1.map fun e => some e.2
          desc := !src.2 }
      c.opened 0 [(b.toNat, samplerResult fn sub n)] fun c =>
        { c with s := pages.foldl (fun s p => s.touchSource c.t 0 (p * 65536) 1) c.s }.issueCommand f cmd

/-- `smload`. -/
def execSmload (f : Fields) (s : State) : Out :=
  onPath s 0xC0 0x00 f fun c => if c.effect f then c.sample 0 0 f (c.uni 1 f.sb) 0 else c.skipOver 0xC0 0x00 f

/-- `smclamp.on`. -/
def execSmclampOn (f : Fields) (s : State) : Out :=
  onPath s 0xC0 0x01 f fun c =>
    if c.effect f then c.sample 1 0 f (c.uni 1 f.sb) (c.uni 2 f.sc) else c.skipOver 0xC0 0x01 f

/-- `smclamp.off`. -/
def execSmclampOff (f : Fields) (s : State) : Out :=
  onPath s 0xC0 0x01 f fun c =>
    if c.effect f then c.sample 1 1 f (c.uni 1 f.sb) 0 else c.skipOver 0xC0 0x01 f

/-- `smseed`. -/
def execSmseed (f : Fields) (s : State) : Out :=
  onPath s 0xC0 0x02 f fun c =>
    if c.effect f then c.sample 2 (f.immBits 0 1) f (c.uni 1 f.sb) 0 else c.skipOver 0xC0 0x02 f

/-- `smbeta`. -/
def execSmbeta (f : Fields) (s : State) : Out :=
  onPath s 0xC0 0x03 f fun c => if c.effect f then c.sample 3 0 f (c.sbValue f) 0 else c.skipOver 0xC0 0x03 f

/-- `smtable`. -/
def execSmtable (f : Fields) (s : State) : Out :=
  onPath s 0xC0 0x04 f fun c =>
    if c.effect f then c.sample 4 0 f (c.uni 1 f.sb) 0 else c.skipOver 0xC0 0x04 f

/-- `smtable.def`. -/
def execSmtableDef (f : Fields) (s : State) : Out :=
  onPath s 0xC0 0x04 f fun c => if c.effect f then c.sample 4 1 f 0 0 else c.skipOver 0xC0 0x04 f

/-- `smsweep`. -/
def execSmsweep (f : Fields) (s : State) : Out :=
  onPath s 0xC0 0x05 f fun c => if c.effect f then c.sample 5 0 f (c.sbValue f) 0 else c.skipOver 0xC0 0x05 f

/-- `smread`. -/
def execSmread (f : Fields) (s : State) : Out :=
  onPath s 0xC0 0x06 f fun c => if c.effect f then c.sample 6 0 f (c.uni 1 f.sb) 0 else c.skipOver 0xC0 0x06 f

/-- `smstat.rd`. -/
def execSmstatRd (f : Fields) (s : State) : Out :=
  onPath s 0xC0 0x07 f fun c =>
    if c.effect f then c.sample 7 0 f (c.uni 1 f.sb) 0 else c.skipOver 0xC0 0x07 f

/-- `smstat.clr`. -/
def execSmstatClr (f : Fields) (s : State) : Out :=
  onPath s 0xC0 0x07 f fun c =>
    if c.effect f then c.sample 7 1 f 0 0 else c.skipOver 0xC0 0x07 f

/-- `smstat.rdclr`. -/
def execSmstatRdclr (f : Fields) (s : State) : Out :=
  onPath s 0xC0 0x07 f fun c =>
    if c.effect f then c.sample 7 2 f (c.uni 1 f.sb) 0 else c.skipOver 0xC0 0x07 f

/-- `smstat.info`. -/
def execSmstatInfo (f : Fields) (s : State) : Out :=
  onPath s 0xC0 0x07 f fun c =>
    if c.effect f then c.sample 7 3 f (c.uni 1 f.sb) 0 else c.skipOver 0xC0 0x07 f

/-! The array at work (R295, R302) -/

/-- The oldest command of a context that is not complete. -/
def State.contextCommand (s : State) (crew die : Nat) : Option (Nat × Command) :=
  s.cmds.find? fun e => e.2.st != .complete && (match e.2.kind with
    | .sampler _ _ k d _ _ _ _ => k == crew && d == die
    | _ => false)

/-- The buffered stores that a running command's reads of memory meet: the group's older ones, and after a replay all of them. -/
def State.samplerBuf (s : State) (id : Nat) (c : Command) : List Access :=
  if c.acked then ((s.group c.team c.group).map Group.sbuf).getD [] else s.cmdBuf id c

/-- Bytes that a command reads: what stands in its source, or memory where nothing is left there. -/
def State.takeBytes (s : State) (t : Team) (id : Nat) (c : Command) (addrs : List Nat) :
    Except (BitVec 8 × Nat) (List Byte × Command) :=
  let n := addrs.length
  if n ≤ c.data.length then .ok ((c.data.take n).map fun b => b.getD 0, { c with data := c.data.drop n })
  else
    let step (acc : Except (BitVec 8 × Nat) (List Byte)) (a : Nat) : Except (BitVec 8 × Nat) (List Byte) :=
      match acc with
      | .error e => .error e
      | .ok bs => match s.srcByte t (s.samplerBuf id c) 0 a false with
        | .ok b => .ok (bs ++ [b])
        | .error code => .error (code, a)
    match addrs.foldl step (.ok []) with
    | .ok bs => .ok (bs, { c with data := [] })
    | .error e => .error e

/-- What became of one cell of a command: done, stopped by a fault, or waiting for a page to be cleared. -/
inductive CellStep where
  | done (s : State) (x : Sampler) (c : Command)
  | fault (code : BitVec 8) (addr : Word64) (c : Command)
  | wait (s : State)
  deriving DecidableEq, Repr

/-- The couplings of a cell in ascending order (R298): the first entry that faults or is malformed stops the command. -/
def State.loadEntries (s : State) (t : Team) (id q : Nat) (c : Command) :
    List Nat → Except (BitVec 8 × Nat) (List (Nat × BitVec 8) × Command)
  | [] => .ok ([], c)
  | a :: as =>
    match s.takeBytes t id c (upFrom a 4) with
    | .error e => .error e
    | .ok (bs, c1) =>
      let e := leNat bs
      if e / 2 ^ 24 ≠ 0 ∨ 16384 * q ≤ e % 65536 then .error (0x06, a)
      else (s.loadEntries t id q c1 as).map fun r => ((e % 65536, BitVec.ofNat 8 (e / 65536)) :: r.1, r.2)

/-- Load one cell (R290, R298): its header is checked before its couplings are read. `d` is the nest descriptor. -/
def State.loadCell (s : State) (t : Team) (id : Nat) (x : Sampler) (c : Command) (d : List Byte) (first : Nat) : CellStep :=
  let ha := nestHeader d c.done
  match s.takeBytes t id c (upFrom ha 8) with
  | .error (code, a) => .fault code (BitVec.ofNat 64 a) c
  | .ok (hb, c1) =>
    let h := leNat hb
    let deg := headerDeg h
    if h / 2 ^ 27 ≠ 0 ∨ 32 < deg then .fault 0x06 (BitVec.ofNat 64 ha) c
    else match s.loadEntries t id x.q c1 ((List.range deg).map (nestEntry d c.done)) with
      | .error (code, a) => .fault code (BitVec.ofNat 64 a) c
      | .ok (nbrs, c2) =>
        let cell : Cell := { state := h.testBit 20, bias := BitVec.ofNat 16 h, colour := BitVec.ofNat 3 (h / 2 ^ 16),
                             clamp := h.testBit 19, nbrs := nbrs }
        .done s (x.setCell (first + c.done) cell) { c2 with done := c.done + 1 }

/-- Write bytes of a result; the first that cannot be written decides. -/
def State.putBytes (s : State) (t : Team) (a : Nat) : List Byte → ByteStep
  | [] => .done s
  | b :: bs => match s.putByte t 0 a b with
    | .done s => s.putBytes t (a + 1) bs
    | r => r

/-- Go on after the bytes of a cell. -/
def afterBytes (c : Command) (x : Sampler) : ByteStep → CellStep
  | .done s => .done s x { c with done := c.done + 1 }
  | .fault code _ a => .fault code (BitVec.ofNat 64 a) c
  | .wait s => .wait s

/-- Clamp or release one cell from the bits of the bitmaps (R299). -/
def clampCell (c : Cell) (off m v : Bool) : Cell :=
  if !m then c else if off then { c with clamp := false } else { c with clamp := true, state := v }

/-- A bit of a bitmap at an address: from the snapshot at offset `skip` bytes, else from memory. -/
def State.bitmapBit (s : State) (t : Team) (id : Nat) (c : Command) (skip : Nat) (base r : Nat) : Except (BitVec 8 × Nat) Bool :=
  match c.data[skip + r / 8]? with
  | some b => .ok ((b.getD 0).getLsbD (r % 8))
  | none => match s.srcByte t (s.samplerBuf id c) 0 (base + r / 8) false with
    | .ok b => .ok (b.getLsbD (r % 8))
    | .error code => .error (code, base + r / 8)

/-- One cell of a command (R298 to R301). -/
def State.performCell (s : State) (t : Team) (id : Nat) (x : Sampler) (c : Command) : CellStep :=
  match c.kind with
  | .sampler fn sub _ _ first cnt b v =>
    let i := first + c.done
    let n := cnt + 1
    if 16384 * x.q ≤ i then .fault 0x06 (BitVec.allOnes 64) c
    else match fn with
    | 0 => s.loadCell t id x c (c.idx.map fun k => BitVec.ofNat 8 k) first
    | 1 =>
      match s.bitmapBit t id c 0 b.toNat c.done with
      | .error (code, a) => .fault code (BitVec.ofNat 64 a) c
      | .ok m =>
        match (if sub = 1 || !m then .ok false else s.bitmapBit t id c ((n + 7) / 8) v.toNat c.done) with
        | .error (code, a) => .fault code (BitVec.ofNat 64 a) c
        | .ok bit => .done s (if m then x.setCell i (clampCell (x.cell i) (sub == 1) m bit) else x) { c with done := c.done + 1 }
    | 6 =>
      if c.done % 8 = 0 then
        let byte := (List.range 8).foldl (fun acc k =>
          if c.done + k < n ∧ (x.cell (i + k)).state then acc + 2 ^ k else acc) 0
        afterBytes c x (s.putBytes t (b.toNat + c.done / 8) [BitVec.ofNat 8 byte])
      else .done s x { c with done := c.done + 1 }
    | _ =>
      let cell := x.cell i
      let y := if sub = 0 then x else x.setCell i { cell with counter := 0 }
      if sub = 1 then .done s y { c with done := c.done + 1 }
      else afterBytes c y (s.putBytes t (b.toNat + 2 * c.done) (leBytes 2 cell.counter.toNat))
  | _ => .wait s

/-- Store a command and its context. -/
def State.keep (s : State) (id : Nat) (c : Command) (crew die : Nat) (x : Sampler) : State :=
  (s.modCmd id fun _ => c).setContext crew die x

/-- Perform the cells of a command that are left, up to `n`. -/
def State.performCells (s : State) (t : Team) (id : Nat) (crew die : Nat) (x : Sampler) (c : Command) :
    Nat → State × Option (BitVec 8 × Word64)
  | 0 => (s.keep id c crew die x, none)
  | n + 1 => match s.performCell t id x c with
    | .done s1 y d => s1.performCells t id crew die y d n
    | .fault code a d => (s.keep id d crew die x, some (code, a))
    | .wait s1 => (s1.keep id c crew die x, none)

/-- The status word of a context (R301). -/
def Sampler.info (x : Sampler) : Word64 :=
  x.s ++ (0 : BitVec 25) ++ BitVec.ofNat 3 x.q ++ (0 : BitVec 1) ++ BitVec.ofBool x.table.isSome ++ BitVec.ofBool x.csat ++
    BitVec.ofBool x.entropy

/-- A command that has done everything: complete, its counter falling in issue order (R193). -/
def State.finishSampler (s : State) (id : Nat) : State :=
  let s := s.modCmd id fun c => { c with st := .complete }
  match aget id s.cmds with
  | some c =>
    if ((s.commandsOf c.team c.group c.cls).head?.map Prod.fst) = some id then s.retireCommand id c else s
  | none => s

/-- SAMPLER_COMMAND_START (R295): the oldest command of a context starts. -/
def execSamplerCommandStart (crew die : Nat) (s : State) : Out :=
  match s.contextCommand crew die with
  | none => .refused .notEnabled
  | some (id, c) =>
    if c.st ≠ .waiting ∨ !s.arrayHolds crew die then .refused .notEnabled
    else .next ((s.modCmd id fun c => { c with st := .running }).setContext crew die (s.context crew die))

/-- A soft error of the array stops its running command (R302, R347). -/
def State.samplerBroken (s : State) (crew die id : Nat) (c : Command) : State :=
  let x := s.context crew die
  let loc := x.broken.getD 0
  (s.setContext crew die { x with broken := none }).commandFault id c 0x13 0 (BitVec.allOnes 64) (BitVec.ofNat 128 (8 + loc * 2 ^ 64))

/-- SAMPLER_COLOUR_PHASE (R293): the next phase of a running sweep; the last of a sweep raises S. -/
def execSamplerColourPhase (crew die : Nat) (s : State) : Out :=
  match s.contextCommand crew die with
  | none => .refused .notEnabled
  | some (id, c) =>
    if c.st ≠ .running ∨ c.fn ≠ 5 ∨ c.sweeps = 0 ∨ !s.arrayHolds crew die then .refused .notEnabled
    else
      let x := s.context crew die
      if x.broken.isSome then .next (s.samplerBroken crew die id c)
      else
        let y := match x.nextColour c.colour with
          | some k => x.phase s.fresh k
          | none => x
        let next := (x.nextColour c.colour).map fun k => k + 1
        let more : Bool := match next with
          | some k => (y.nextColour k).isSome
          | none => false
        let s1 : State := { s with fresh := s.fresh + 1 }
        .next (if more then s1.keep id { c with colour := next.getD 0 } crew die y
          else s1.keep id { c with colour := 0, sweeps := c.sweeps - 1 } crew die { y with s := y.s + 1 })

/-- SAMPLER_COMMAND_COMPLETE (R294, R298 to R302): a running command does what is left of it and retires, or stops at a
cell. -/
def execSamplerCommandComplete (crew die : Nat) (s : State) : Out :=
  match s.contextCommand crew die with
  | none => .refused .notEnabled
  | some (id, c) =>
    match s.team c.team, c.kind with
    | some t, .sampler fn sub _ _ first cnt b _ =>
      let x := s.context crew die
      if c.st ≠ .running ∨ !s.arrayHolds crew die then .refused .notEnabled
      else if x.broken.isSome then .next (s.samplerBroken crew die id c)
      else match fn, sub with
      | 2, _ => .next ((s.setContext crew die { x with seed := b, s := 0, entropy := sub == 1 }).finishSampler id)
      | 3, _ => .next ((s.setContext crew die { x with beta := b.setWidth 16 }).finishSampler id)
      | 4, 1 => .next ((s.setContext crew die { x with table := none }).finishSampler id)
      | 4, _ =>
        match s.takeBytes t id c (upFrom b.toNat 8192) with
        | .error (code, a) => .next (s.commandFault id c code 0 (BitVec.ofNat 64 a) (s.errorDetail t code 0 a))
        | .ok (bytes, _) =>
          let table := (List.range 4096).map fun k => BitVec.ofNat 16 (leNat ((bytes.drop (2 * k)).take 2))
          .next ((s.setContext crew die { x with table := some table }).finishSampler id)
      | 5, _ => if c.sweeps = 0 then .next (s.finishSampler id) else .refused .notEnabled
      | 7, 3 =>
        match s.putBytes t b.toNat (leBytes 8 x.info.toNat) with
        | .done s => .next (s.finishSampler id)
        | .fault code _ a => .next (s.commandFault id c code 0 (BitVec.ofNat 64 a) 0)
        | .wait s => .next s
      | _, _ =>
        let begin_ : Except (BitVec 8 × Nat) Command :=
          if fn = 0 ∧ c.idx.isEmpty then
            match s.takeBytes t id c (upFrom b.toNat 32) with
            | .error e => .error e
            | .ok (d, c1) => if leNat (d.drop 28) ≠ 0 then .error (0x06, b.toNat) else .ok { c1 with idx := d.map BitVec.toNat }
          else .ok c
        match begin_ with
        | .error (code, a) => .next (s.commandFault id c code 0 (BitVec.ofNat 64 a) (s.errorDetail t code 0 a))
        | .ok c =>
          let r := s.performCells t id crew die x c (cnt + 1 - c.done)
          match r.2, aget id r.1.cmds with
          | some (code, a), some d => .next (r.1.commandFault id d code 0 a (r.1.errorDetail t code 0 a.toNat))
          | _, some d =>
            if d.done = cnt + 1 then
              let whole : Bool := first == 0 && cnt + 1 == 16384 * x.q
              let y := r.1.context crew die
              let s := if fn = 7 ∧ sub ≠ 0 ∧ whole then r.1.setContext crew die { y with csat := false } else r.1
              .next (s.finishSampler id)
            else .next r.1
          | _, none => .next r.1
    | _, _ => .refused .notEnabled

end Sys2Proof.Machine
end

