-- ==== Sys2Proof/Machine/Heats.lean ====
section
/-! DEFINITION. The heat table and its edges, drain windows and donations, and the instructions of OPC 0xD4 (spec/16_crews.md
R361 to R378; spec/13_sampling.md R287, R303; spec/15_traps.md R338, R339).

Marked in the assumption log: 3 (DESIGN CHOICE), 37 (DEDUCED). -/

namespace Sys2Proof.Machine

/-! Rows (R363, R364) -/

/-- The used share entries of a row: crew and share. -/
def rowShares (row : BitVec 2048) : List (Nat × Nat) :=
  ((List.range 8).map fun e => ((row.extractLsb' (16 + 14 * e) 6).toNat, (row.extractLsb' (22 + 14 * e) 8).toNat)).filter
    fun e => e.2 != 0

/-- The owner fields of a row, each with the die on which its resource stands. -/
def rowFields (row : BitVec 2048) : List (Nat × Option Nat) :=
  ((List.range 64).map fun o => (o / 8, rowOct row o)) ++
  ((List.range 8).flatMap fun d => (List.range 16).map fun w => (d, rowWay row d w)) ++
  ((List.range 8).flatMap fun d => (List.range 4).map fun q => (d, rowQtr row d q)) ++
  ((List.range 16).map fun r => (rigDie r, rowRig row r))

/-- Whether a crew is bound to the die set of a first die. -/
def State.boundTo (s : State) (set crew : Nat) : Bool := crew < 40 && (s.crew crew).set == some set

/-- Whether an owner may stand in a field of a die of a set. -/
def State.ownerOk (s : State) (set : Nat) (e : Nat × Option Nat) : Bool :=
  match e.2 with
  | none => true
  | some c => s.boundTo set c && (s.setOf set).contains e.1

/-- Whether a list has no element twice. -/
def distinct (l : List Nat) : Bool := l.eraseDups.length == l.length

/-- Whether a row is legal on its own (R364). -/
def State.rowLegal (s : State) (set : Nat) (row : BitVec 2048) : Bool :=
  let k := (row.extractLsb' 0 5).toNat
  row.extractLsb' 1568 480 == 0 && row.extractLsb' 5 3 == 0 && 14 ≤ k && k ≤ 24 && (rowFields row).all (s.ownerOk set) &&
    distinct ((rowShares row).map Prod.fst) && rowPol row != 3 &&
    (match rowDonee row with | none => true | some d => s.boundTo set d && rowPol row != 0)

/-- Whether two rows give some crew different nonzero numbers of quarters of a die (R286). -/
def quartersClash (a b : BitVec 2048) : Bool :=
  (List.range 40).any fun c => (List.range 8).any fun d =>
    let x := (rowQuarters a c d).length
    let y := (rowQuarters b c d).length
    x != 0 && y != 0 && x != y

/-- The crews bound to a die set. -/
def State.crewsOf (s : State) (set : Nat) : List Nat := (List.range 40).filter fun c => s.boundTo set c

/-! What comes next -/

/-- The active row of the current heat as the table has it. -/
def HeatTable.scheduled (h : HeatTable) : BitVec 2048 := h.active.getD h.row h.current

/-- The cycle of the coming edge. -/
def HeatTable.edgeAt (h : HeatTable) : Nat := h.started + rowLen h.scheduled

/-- The bank, the row number and the row of the next heat (R362, R365). -/
def HeatTable.next (h : HeatTable) : List (BitVec 2048) × Nat × BitVec 2048 :=
  if h.row + 1 < h.active.length then (h.active, h.row + 1, h.active.getD (h.row + 1) 0)
  else
    let bank := if h.pendingN.isSome then h.coming else h.active
    (bank, 0, bank.getD 0 0)

/-- Whether a crew loses an octet from one row to another. -/
def losesOctet (old new : BitVec 2048) (crew : Nat) : Bool :=
  (List.range 64).any fun o => rowOct old o == some crew && rowOct new o != some crew

/-- The octets that change owner. -/
def movedOctets (old new : BitVec 2048) : List Nat := (List.range 64).filter fun o => rowOct old o != rowOct new o

/-- The octets that a seat's operations and slots stand on. -/
def State.seatOctets (s : State) (tid : Nat) (t : Team) : List Nat :=
  match t.seat with
  | none => []
  | some q => (q.ops.map fun o => octetOf o.core) ++ (q.accs.map fun a => octetOf a.2.1) ++
      (s.cores.filter fun c => (c.2.latch.map Prod.fst) == some tid).map fun c => octetOf c.1

/-- Whether a team of a crew is affected when the crew loses octets. -/
def State.affected (s : State) (crew : Nat) (octets : List Nat) (e : Nat × Team) : Bool :=
  e.2.crew == crew && !e.2.ended && (e.2.status == .resident || e.2.status == .draining) &&
    (octets.contains (octetOf e.2.core) || (s.seatOctets e.1 e.2).any octets.contains)

/-- The octets that a crew loses from one row to another. -/
def lostOctets (old new : BitVec 2048) (crew : Nat) : List Nat :=
  (movedOctets old new).filter fun o => rowOct old o == some crew

/-! Drain windows (R365, R366) -/

/-- Open the drain window of a crew on some octets. -/
def State.openDrain (s : State) (crew endAt : Nat) (octets : List Nat) : State :=
  let s1 : State := { s with octets := octets.foldl (fun os o => aput o (.draining, crew) os) s.octets }
  (s1.teams.filter (s1.affected crew octets)).foldl (fun s e => s.drainTeam e.1 endAt) s1

/-- The cycle at which the drain window of a crew opens before the coming edge. -/
def State.windowAt_ (s : State) (h : HeatTable) (crew : Nat) : Nat :=
  max (h.edgeAt - (s.crew crew).drainwinHeat) (h.started + (h.edgeAt - h.started) / 2)

/-- DRAIN_WINDOW_OPEN (R365). -/
def execDrainWindowOpen (set crew : Nat) (s : State) : Out :=
  let h := s.heat set
  let lost := lostOctets h.current h.next.2.2 crew
  if h.active.isEmpty ∨ lost.isEmpty ∨ h.opened.contains crew ∨ s.clock < s.windowAt_ h crew ∨ !s.boundTo set crew then
    .refused .notEnabled
  else .next ((s.setHeat set { h with opened := h.opened ++ [crew] }).openDrain crew h.edgeAt lost)

/-! What changes owner (R366, R368, R369) -/

/-- The die on which a line stands. -/
def State.lineDie (s : State) (e : LineKey × Line) : Option Nat :=
  match e.1.place with
  | .localDie d | .replica d => some d
  | .home => (e.2.cells.head?).map fun c => s.homeDie c.2.pa

/-- The way of its slice in which a line of a crew stands, among those that the crew owns on its die: which one is open, and a line that
is in the crew's slices is in one of them. -/
def lineWay (choice : Nat) (ways : List Nat) (i : Nat) : Option Nat :=
  ways[(Config.freeWord (choice * 2 ^ 64 + i)).toNat % ways.length]?

/-- Write back and drop the lines in ways that change owner (R368); those that keep theirs are left alone (R365). -/
def State.passWays (s : State) (old new : BitVec 2048) : State :=
  let ways (d crew : Nat) : List Nat := (List.range 16).filter fun w => rowWay old d w == some crew
  let passes (e : (LineKey × Line) × Nat) : Bool := match s.lineDie e.1 with
    | some d =>
      let mine := ways d e.1.1.crew
      let lost := mine.filter fun w => rowWay new d w != some e.1.1.crew
      if lost.isEmpty then false
      else if lost.length = mine.length then true
      else (lineWay s.fresh mine e.2).any lost.contains
    | none => false
  let ks := (s.lines.zipIdx.filter passes).map fun e => e.1.1
  ks.foldl (fun s k => s.evictLine k) ({ s with fresh := s.fresh + 1 } : State)

/-- Clear the caches of the cores of octets that change owner (R369). -/
def State.clearCores (s : State) (octets : List Nat) : State :=
  { s with cores := s.cores.map fun c =>
      if octets.contains (octetOf c.1) then (c.1, { c.2 with icache := [], tlb := [], reserve := none, stalled := [] }) else c }

/-- Pass octets to their new owners: what is still there is saved; then the crews that had something to save so (R366). -/
def State.passOctets (s : State) (old new : BitVec 2048) : State × List Nat :=
  let octets := movedOctets old new
  let owners := (octets.filterMap (rowOct old)).eraseDups
  let r := owners.foldl (fun (acc : State × List Nat) crew =>
    let teams := acc.1.teams.filter (acc.1.affected crew (lostOctets old new crew))
    let late : Bool := teams.any fun e => e.2.unsaved
    (teams.foldl (fun s e => (s.openWindow e.1 s.clock).forceSave e.1) acc.1, if late then acc.2 ++ [crew] else acc.2)) (s, [])
  let s1 := r.1.clearCores octets
  ({ s1 with octets := octets.foldl (fun os o => aput o (.saving, (rowOct new o).getD 0x3F) os) s1.octets }, r.2)

/-- Everything that changes owner between two rows. -/
def State.passRow (s : State) (old new : BitVec 2048) : State × List Nat :=
  let r := s.passOctets old new
  (r.1.passWays old new, r.2)

/-- The contexts of a crew in the quarters that a new bank gives it (R287). -/
def Crew.reshape (c : Crew) (crew : Nat) (bank : List (BitVec 2048)) : Crew :=
  { c with samplers := c.samplers.map fun e =>
      let q := quartersIn bank crew e.1
      if q = 0 ∨ q = e.2.q then e
      else (e.1, { e.2 with q := q, cells := e.2.cells.filter fun x => x.1 < 16384 * min q e.2.q }) }

/-- A crew's record of a heat overrun (R367). -/
def State.overrunRecord (s : State) (crew row : Nat) : State :=
  s.postRecord crew (mkRecord 0x10 0 0 4 crew 0 0 0 0 0 0 0 0 (BitVec.allOnes 32) (BitVec.allOnes 64)
    (BitVec.ofNat 128 (row + 3 * 256))) .nothing

/-- Count the edges at which a crew is late (R367). -/
def State.countOverrun (s : State) (crew row : Nat) (late : Bool) : State :=
  let n := if late then (s.crew crew).ovrcnt + 1 else 0
  if n = 3 then (s.modCrew crew fun c => { c with ovrcnt := 0 }).overrunRecord crew row
  else s.modCrew crew fun c => { c with ovrcnt := n }

/-- The first cycle of a heat for the crews of its set: their windows of this heat, their donations, the held vectors of the
functions that now run (R365, R370, R361). -/
def State.beginHeat (s : State) (set : Nat) : State :=
  let s := (s.crewsOf set).foldl (fun s c => s.modCrew c fun x => { x with drainwinHeat := x.drainwin, donated := false }) s
  ((List.range 512).filter fun v => s.boundTo set (s.func v).crew.toNat).foldl (fun s v => s.sendHeld v) s

/-- HEAT_EDGE (R365): resources change owner, what is left is saved, the next heat begins. A donation that has begun passes first
(R370). -/
def execHeatEdge (set : Nat) (s : State) : Out :=
  let h := s.heat set
  let old := h.current
  let nx := h.next
  let new := nx.2.2
  let losing := (s.crewsOf set).filter (losesOctet old new)
  if h.active.isEmpty ∨ s.clock < h.edgeAt ∨ !(losing.all h.opened.contains) ∨ !h.donations.isEmpty then .refused .notEnabled
  else
    let r := s.passRow old new
    let s1 := r.1
    let switch : Bool := nx.2.1 == 0 && h.pendingN.isSome
    let s2 := if switch then (s1.crewsOf set).foldl (fun s c => s.modCrew c fun x => x.reshape c nx.1) s1 else s1
    let h1 : HeatTable := { h with active := nx.1, row := nx.2.1, started := h.edgeAt, current := new, opened := [], donations := [],
                                   pendingN := if switch then none else h.pendingN }
    .next ((losing.foldl (fun s c => s.countOverrun c h.row (r.2.contains c)) (s2.setHeat set h1).reboundAll).beginHeat set)

/-- OCTET_HANDOVER (R366): everything of an octet is saved and cleared, and its new owner may use it. -/
def execOctetHandover (octet : Nat) (s : State) : Out :=
  let teams := s.teams.filter fun e => !e.2.ended && (e.2.status == .resident || e.2.status == .draining) &&
    (octetOf e.2.core == octet || (s.seatOctets e.1 e.2).contains octet)
  match aget octet s.octets with
  | some (.saving, crew) | some (.clearing, crew) =>
    if (teams.any fun e => e.2.crew != crew) ∨ s.opsTouch (8 * octet * 2 ^ 19) (8 * 2 ^ 19) then .refused .notEnabled
    else
      let cores := upFrom (8 * octet) 8
      let s1 := cores.foldl (fun s k => s.zeroScratch (k * 2 ^ 19) (2 ^ 19)) s
      let s2 := cores.foldl (fun s k => s.modCore k fun c => { c with slots := [], queue := [], latch := none }) s1
      .next { s2 with octets := adel octet s2.octets }
  | _ => .refused .notEnabled

/-! Donation (R370, R376) -/

/-- A row in which a donee owns what a crew owned. -/
def donateRow (row : BitVec 2048) (crew : Nat) (donee : Option Nat) : BitVec 2048 :=
  let give : BitVec 6 := match donee with
    | some d => BitVec.ofNat 6 d
    | none => 0x3F
  let fields := ((List.range 64).map fun o => 128 + 6 * o) ++ ((List.range 176).map fun i => 512 + 6 * i)
  fields.foldl (fun r lo => if rowOwner r lo = some crew then
    (r &&& ~~~((0x3F : BitVec 2048) <<< lo)) ||| (give.setWidth 2048 <<< lo) else r) row

/-- Whether a crew owns anything in a row. -/
def ownsAny (row : BitVec 2048) (crew : Nat) : Bool := (rowFields row).any fun e => e.2 == some crew

/-- The status of a donation requested now (R376). -/
def State.donateStatus (s : State) (set crew : Nat) : Nat :=
  let h := s.heat set
  let row := h.current
  if rowPol row = 0 then 1
  else if !ownsAny row crew ∨ rowDonee row = some crew then 2
  else if (s.crew crew).donated ∨ h.edgeAt < s.clock + 1024 then 3
  else 0

/-- Begin a donation: a window of 1,024 cycles opens, at whose end the crew's resources pass. -/
def State.beginDonation (s : State) (set crew : Nat) : State :=
  let h := s.heat set
  let endAt := s.clock + 1024
  let s1 := s.modCrew crew fun c => { c with donated := true }
  let s2 := s1.setHeat set { h with donations := h.donations ++ [(crew, endAt)] }
  s2.openDrain crew endAt ((List.range 64).filter fun o => rowOct h.current o == some crew)

/-- `donate`. -/
def execDonate (f : Fields) (s : State) : Out :=
  onPath s 0xD4 0x02 f fun c =>
    if !c.effect f then c.skipOver 0xD4 0x02 f
    else match (c.s.crew c.t.crew).set with
      | none => c.conclude c.s f 2
      | some set =>
        let n := c.s.donateStatus set c.t.crew
        c.conclude (if n = 0 then c.s.beginDonation set c.t.crew else c.s) f (BitVec.ofNat 64 n)

/-- Whether a crew is idle (R370): its groups are parked, no seat of it runs, no engine command is outstanding. -/
def State.idle (s : State) (crew : Nat) : Bool :=
  (s.teams.all fun e => e.2.crew != crew || e.2.ended || (e.2.status != .resident && e.2.status != .draining) ||
    ((e.2.groups.all fun g => g.ended || (g.valid.all fun p => p.2.st == .parked)) &&
      (match e.2.seat with | some q => q.st != .running | none => true))) &&
  s.cmds.all fun e => ((s.team e.2.team).map Team.crew) != some crew

/-- IDLE_DONATION (R370). -/
def execIdleDonation (set crew : Nat) (s : State) : Out :=
  if (s.heat set).active.isEmpty ∨ rowPol (s.heat set).current ≠ 2 ∨ !s.boundTo set crew ∨ s.donateStatus set crew ≠ 0 ∨
      !s.idle crew ∨ s.clock < (s.crew crew).idleSince + 1024 then .refused .notEnabled
  else .next (s.beginDonation set crew)

/-- Pass the resources of a crew whose donation is due to the donee (R370). -/
def State.passDonation (s : State) (set crew : Nat) : State :=
  let h := s.heat set
  let new := donateRow h.current crew (rowDonee h.current)
  let s1 := (s.passRow h.current new).1
  let h1 := s1.heat set
  let s2 := (s1.setHeat set { h1 with current := new, donations := h1.donations.filter fun e => e.1 != crew }).reboundAll
  match rowDonee new with
  | some d => (s2.functionsOf d).foldl (fun s v => s.sendHeld v) s2
  | none => s2

/-- The teams of a crew whose drain window has ended, but for those that the coming edge is to save. -/
def State.overdue (s : State) (set crew : Nat) : List (Nat × Team) :=
  let h := s.heat set
  let lost := if h.opened.contains crew then lostOctets h.current h.next.2.2 crew else []
  s.teams.filter fun e => e.2.crew == crew && e.2.status == .draining && !e.2.ended && e.2.drainEnd ≤ s.clock &&
    e.2.unsaved && !s.affected crew lost e

/-- PREEMPT_WINDOW_END (R339): at the end of a drain window what is left halts at once; a donation takes effect. -/
def execPreemptWindowEnd (set crew : Nat) (s : State) : Out :=
  let due := (s.heat set).donations.any fun e => e.1 == crew && e.2 ≤ s.clock
  let late := s.overdue set crew
  if !due ∧ (late.isEmpty ∨ !s.boundTo set crew) then .refused .notEnabled
  else
    let s1 := late.foldl (fun s e => s.forceSave e.1) s
    .next (if due then s1.passDonation set crew else s1)

/-! `heatw`, `heatsw`, `scrub` (R374, R375) -/

/-- `heatw`. -/
def execHeatw (f : Fields) (s : State) : Out :=
  onPrivileged s 0xD4 0x00 f fun c =>
    let i := (c.uni 0 f.sa).toNat
    let a := (c.uni 1 f.sb).toNat
    let status (n : Nat) : Out := c.conclude c.s f (BitVec.ofNat 64 n)
    if !c.effect f then c.skipOver 0xD4 0x00 f
    else if a % 256 ≠ 0 then c.faultCode 0x05 (BitVec.ofNat 64 a)
    else match (c.s.crew c.t.crew).set with
    | none => c.skipOver 0xD4 0x00 f
    | some set =>
      let h := c.s.heat set
      if 63 < i then status 1
      else if h.pendingN.isSome then status 5
      else match c.readGlobal (upFrom a 256) with
        | .error (code, at_) => c.readFault code 0 at_ 1
        | .ok bs =>
          let row := BitVec.ofNat 2048 (leNat bs)
          if !c.s.rowLegal set row then status 2
          else if h.shadow.any fun e => e.1 != i && quartersClash row e.2 then status 3
          else c.conclude (c.s.setHeat set { h with shadow := aput i row h.shadow }) f 0

/-- `heatsw`. -/
def execHeatsw (f : Fields) (s : State) : Out :=
  onPrivileged s 0xD4 0x01 f fun c =>
    let n := (c.uni 0 f.sa).toNat
    let status (n : Nat) : Out := c.conclude c.s f (BitVec.ofNat 64 n)
    if !c.effect f then c.skipOver 0xD4 0x01 f
    else match (c.s.crew c.t.crew).set with
    | none => c.skipOver 0xD4 0x01 f
    | some set =>
      let h := c.s.heat set
      if n = 0 ∨ 64 < n then status 1
      else if h.pendingN.isSome then status 5
      else if !((List.range n).all fun i => (aget i h.shadow).isSome) then status 4
      else c.conclude (c.s.setHeat set { h with pendingN := some n }) f 0

/-- Whether a physical range lies in the HBM of a crew's die set (R155). -/
def State.inSetHbm (s : State) (crew b len : Nat) : Bool :=
  let die (pa : Nat) : Nat := pa / 0x30_0000_0000
  b + len ≤ 0x0180_0000_0000 && (upFrom (die b) (die (b + len - 1) - die b + 1)).all (s.crewDies crew).contains

/-- Bytes that stand from an address up, those in a range zero. -/
def zeroIn (lo b len : Nat) (bs : List Byte) : List Byte :=
  bs.mapIdx fun i x => if b ≤ lo + i ∧ lo + i < b + len then 0 else x

/-- Bytes of a crew's twin pool that are scrubbed while in use read as zero (R375): a pool granule holds its twin, then the private
copy. -/
def Crew.scrubPool (c : Crew) (b len : Nat) : Crew :=
  let at_ (g : Granule) : Nat := c.poolBase.toNat + 512 * g.place
  { c with granules := c.granules.map fun g =>
      { g with twin := zeroIn (at_ g) b len g.twin, priv := zeroIn (at_ g + 256) b len g.priv } }

/-- Where the reservation of a team begins in its crew's save area: reservations follow one another in the order of the teams
(assumption 37). -/
def State.saveAt (s : State) (crew tid : Nat) : Nat :=
  (s.crew crew).savebase.toNat + ((s.teams.takeWhile fun e => e.1 != tid).map fun e =>
    if e.2.crew = crew ∧ !e.2.ended ∧ e.2.status ≠ .waiting ∧ e.2.status ≠ .movedOut then e.2.saveNeed else 0).sum

/-- Bytes of a saved team's context that are scrubbed read as zero (R375); a context that would no longer be one stays as it is
(assumption 37). -/
def State.scrubTeam (s : State) (b len tid : Nat) (t : Team) : State :=
  let lo := s.saveAt t.crew tid
  if b + len ≤ lo ∨ lo + t.saveNeed ≤ b then s
  else
    let old := s.teamContext tid t
    let new := zeroIn lo b len old
    if new = old then s
    else match readTeam tid t (s.lseq t) s.nextId s.clock new with
      | none => s
      | some (u, images) =>
        let u1 : Team := { u with groups := u.groups.zipWith (fun g h =>
          { g with descheduled := h.descheduled, fullSave := h.fullSave }) t.groups }
        ({ s with nextId := s.nextId + 1024 + 64 * 33 } : State).installTeam t.grid 0 tid u1 images false

/-- Scrub a range of a crew (R375, R158): its lines there are discarded, the unscrubbed bits of its pages set; bytes of its twin pool
and save area there read as zero. -/
def State.scrub (s : State) (crew b len : Nat) : State :=
  let s1 : State := { s with lines := s.lines.filter fun e =>
    !(e.1.crew == crew && e.2.cells.any fun c => b ≤ c.2.pa && c.2.pa < b + len) }
  let add (us : List Nat) (p : Nat) : List Nat := if us.contains p then us else us ++ [p]
  let s2 := s1.modCrew crew fun c =>
    { c.scrubPool b len with unscrubbed := (upFrom (b / 65536) (len / 65536)).foldl add c.unscrubbed }
  (s2.teams.filter fun e => e.2.crew == crew && e.2.status == .saved && !e.2.ended).foldl (fun s e => s.scrubTeam b len e.1 e.2) s2

/-- Whether a range has the form that `scrub` takes. -/
def scrubForm (b len : Nat) : Bool := b % 65536 == 0 && len % 65536 == 0 && len != 0

/-- `scrub`. -/
def execScrub (f : Fields) (s : State) : Out :=
  onPrivileged s 0xD4 0x03 f fun c =>
    let crew := (c.uni 0 f.sa).toNat
    let b := (c.uni 1 f.sb).toNat
    let w := (c.uni 2 f.sc).toNat
    let status (n : Nat) : Out := c.conclude c.s f (BitVec.ofNat 64 n)
    if !c.effect f then c.skipOver 0xD4 0x03 f
    else if 64 ≤ crew ∨ !c.s.crewNamed c.t.crew crew then c.faultCode 0x04
    else if 2 ^ 32 ≤ w ∨ !scrubForm b w then status 1
    else if !c.s.inSetHbm c.t.crew b w then status 2
    else c.releaseThen 0xD4 0x03 f .sys (c.conclude (c.s.scrub crew b w) f 0)

end Sys2Proof.Machine
end

