-- ==== Sys2Proof/Machine/Launch.lean ====
section
/-! DEFINITION. Launch queues, launch records, the launch scheduler's consumption and work items, and the instructions of OPC 0xE0
(spec/18_launch.md R392 to R401; spec/12_views.md R276).

Marked in the assumption log: 39 (DESIGN CHOICE), 44 (DEDUCED). -/

namespace Sys2Proof.Machine

/-! Launch records (R393) -/

/-- Fields of a launch record. -/
def lrSeq (r : BitVec 1024) : Word64 := r.extractLsb' 0 64
/-- KDESC. -/
def lrKdesc (r : BitVec 1024) : Nat := (r.extractLsb' 96 16).toNat
/-- CDESC. -/
def lrCdesc (r : BitVec 1024) : Nat := (r.extractLsb' 112 16).toNat
/-- PRIO. -/
def lrPrio (r : BitVec 1024) : Nat := (r.extractLsb' 160 2).toNat
/-- DET. -/
def lrDet (r : BitVec 1024) : Bool := r.getLsbD 162
/-- NEDGE. -/
def lrEdges (r : BitVec 1024) : Nat := (r.extractLsb' 164 4).toNat
/-- NITEM. -/
def lrItems (r : BitVec 1024) : Nat := (r.extractLsb' 168 24).toNat
/-- RESV. -/
def lrResv (r : BitVec 1024) : Nat := (r.extractLsb' 384 32).toNat
/-- Floor and ceiling of a role in ROLES. -/
def lrRole (r : BitVec 1024) (k : Nat) : Nat × Nat := ((r.extractLsb' (320 + 16 * k) 8).toNat, (r.extractLsb' (328 + 16 * k) 8).toNat)

/-- An edge of a record, as its 75 bits. -/
def lrEdge (r : BitVec 1024) (e : Nat) : BitVec 75 := r.extractLsb' (424 + 75 * e) 75

/-- An edge from its bits. -/
def edgeOf (b : BitVec 75) : Edge where
  queue := (b.extractLsb' 72 3).toNat
  delta := (b.extractLsb' 60 12).toNat
  base := (b.extractLsb' 20 40).toNat * 65536
  len := (b.extractLsb' 0 20).toNat * 65536

/-- What makes a record malformed whatever its kernel is (R394). -/
def lrMalformed (r : BitVec 1024) : Bool :=
  let n := lrEdges r
  r.extractLsb' 416 8 != 0 || r.getLsbD 163 || 8 < n || (lrResv r != 0 && !lrDet r) ||
    ((List.range 8).any fun e => if e < n then (edgeOf (lrEdge r e)).delta == 0 else lrEdge r e != 0) ||
    (List.range 4).any fun k => (lrRole r k).2 < (lrRole r k).1 || 192 < (lrRole r k).2

/-- The budgets of the roles of a launch (R393): each role's own pair, or the descriptor's. -/
def lrFloors (r : BitVec 1024) (d : BitVec 512) : List (Nat × Nat × Nat) :=
  (List.range (descRoles d)).map fun k =>
    (descCount d k, if lrRole r k = (0, 0) then (descFloor d k, descCeil d k) else lrRole r k)

/-- What makes a record malformed for its kernel and seat (R394). -/
def lrUnfit (r : BitVec 1024) (d : BitVec 512) (cox : Option (BitVec 512)) : Bool :=
  descCox d || (match cox with | some c => !descCox c | none => false) || (lrItems r != 0 && descRefill d == 0) ||
    (List.range 4).any fun k => descRoles d ≤ k && lrRole r k != (0, 0)

/-- Whether no core or save area could ever take a team (R394). -/
def Crew.neverFits (c : Crew) (d : BitVec 512) (floors : List (Nat × Nat × Nat)) (cox : Bool) : Bool :=
  let fx := floorsAndReserve (groupBudgets floors)
  16384 < fx.1 + fx.2 || 2 ^ 19 < descWindow d ||
    c.savesize.toNat < baseNeed (descRefill d) (descWindow d) (groupRoles floors).length cox

/-! Queues (R392, R398) -/

/-- The place of a launch record. -/
def Queue.entry (q : Queue) (count : Word64) : Nat := q.cfg.launchBase + count.toNat % 2 ^ q.cfg.lqlog * 128

/-- The record at a count. -/
def State.launchRecord (s : State) (q : Queue) (count : Word64) : BitVec 1024 :=
  BitVec.ofNat 1024 (leNat (s.physReadN (q.entry count) 128))

/-- The frontier F: every record below it has its completion record (R398). -/
def Queue.frontier (q : Queue) : Nat := ((List.range q.cons.toNat).find? fun i => !q.done.contains i).getD q.cons.toNat

/-- The records consumed whose completion record is not written. -/
def Queue.inFlight (q : Queue) : Nat := q.cons.toNat - q.done.length

/-- The queues of the functions that are bound to the crews of a die set. -/
def State.setQueues (s : State) (set : Nat) : List (Nat × Nat × Queue) :=
  (List.range 512).flatMap fun v =>
    let f := s.func v
    if f.en && s.boundTo set f.crew.toNat then
      (List.range 8).filterMap fun k => (aget k f.queues).map fun q => (v, k, q)
    else []

/-- The launches of a die set in flight. -/
def State.setInFlight (s : State) (set : Nat) : Nat := ((s.setQueues set).map fun e => e.2.2.inFlight).sum

/-- The element of a list that comes next after a number in rotation. -/
def nextAfter (last : Nat) (l : List Nat) : Option Nat :=
  let after := l.filter fun x => last < x
  ((if after.isEmpty then l else after).foldl (fun (acc : Option Nat) x => match acc with
    | none => some x
    | some y => some (min x y)) none)

/-- The queue that the scheduler serves next (R395): of those with the highest priority at their head, the next function in
rotation, and of it the next queue. -/
def State.nextQueue (s : State) (set : Nat) : Option (Nat × Nat × Queue) :=
  let waiting := (s.setQueues set).filter fun e => e.2.2.cons != e.2.2.tail
  let prio (e : Nat × Nat × Queue) : Nat := lrPrio (s.launchRecord e.2.2 e.2.2.cons)
  let best := waiting.foldl (fun m e => max m (prio e)) 0
  let cands := waiting.filter fun e => prio e == best
  (nextAfter (s.heat set).lastVf (cands.map Prod.fst)).bind fun v =>
    (nextAfter (s.func v).lastQueue ((cands.filter fun e => e.1 == v).map fun e => e.2.1)).bind fun k =>
      cands.find? fun e => e.1 == v && e.2.1 == k

/-- A launch that ends at its consumption, with a status and DETAIL. -/
def State.refuseLaunch (s : State) (v k count : Nat) (seq : Word64) (status : Nat) (detail : Word32) : State :=
  (s.postCompletion v k count seq status (completionRecord (BitVec.ofNat 64 s.clock) 0 detail k status seq)).resolveAll s.grids.length

/-- The grid of a record. -/
def launchGrid (set v k count : Nat) (r : BitVec 1024) (crew view : Nat) (floors : List (Nat × Nat × Nat)) : Grid where
  vf := v
  queue := k
  seq := lrSeq r
  crew := crew
  set := set
  image := (r.extractLsb' 64 32).toNat
  kdesc := lrKdesc r
  cdesc := if lrCdesc r = 0xFFFF then none else some (lrCdesc r)
  gx := (r.extractLsb' 128 16).toNat + 1
  gy := (r.extractLsb' 144 16).toNat + 1
  arg0 := r.extractLsb' 192 64
  arg1 := r.extractLsb' 256 64
  prio := lrPrio r
  det := lrDet r
  resv := lrResv r
  nitem := lrItems r
  edges := (List.range (lrEdges r)).map fun e => edgeOf (lrEdge r e)
  floors := floors
  order := count
  launchView := view

/-- The view from which a launch comes (R276): the root, where that view is gone. -/
def State.launchViewOf (s : State) (crew : Nat) (q : Queue) (count : Nat) : Nat :=
  let v := (aget count q.views).getD 0
  if (aget v (s.crew crew).views).isSome then v else 0

/-- Take a record that has been consumed: it becomes a grid in flight, or ends with a status (R394, R395). DETAIL of an image that no
crew has is free, and that of a missing descriptor of a loaded image is 0, the image's load status (assumption 39). -/
def State.takeLaunch (s : State) (set v k : Nat) (q : Queue) (r : BitVec 1024) (crew view : Nat) : State :=
  let count := q.cons.toNat
  let seq := lrSeq r
  let c := s.crew crew
  let handle := (r.extractLsb' 64 32).toNat
  let low : Bool := match q.lastSeq with
    | some l => seq.toNat ≤ l.toNat
    | none => false
  if low || lrMalformed r then s.refuseLaunch v k count seq 1 0
  else match c.images.find? fun i => i.handle == handle with
    | none =>
      if s.crews.any fun e => e.2.images.any fun i => i.handle == handle then s.refuseLaunch v k count seq 2 0x0501
      else ({ s with fresh := s.fresh + 1 } : State).refuseLaunch v k count seq 2
        ((Config.freeWord s.fresh).extractLsb' 0 16 |>.setWidth 32)
    | some im =>
      match im.descs[lrKdesc r]?, (if lrCdesc r = 0xFFFF then some none else (im.descs[lrCdesc r]?).map some) with
      | some d, some cox =>
        let floors := lrFloors r d
        if lrUnfit r d cox then s.refuseLaunch v k count seq 1 0
        else if c.neverFits d floors cox.isSome || (lrDet r && s.viewDepth crew view == 6) then s.refuseLaunch v k count seq 6 0
        else
          let gid := s.nextId
          let g := launchGrid set v k count r crew view floors
          ({ s with grids := s.grids ++ [(gid, g)], nextId := s.nextId + 1 } : State).resolveAll (s.grids.length + 1)
      | _, _ => s.refuseLaunch v k count seq 2 0

/-- LAUNCH_CONSUME (R395): the head of the chosen queue is consumed; CONS is written before the launch has any effect. -/
def execLaunchConsume (set : Nat) (s : State) : Out :=
  if (s.heat set).active.isEmpty ∨ s.boot ≠ .running ∨ 1024 ≤ s.setInFlight set then .refused .notEnabled
  else match s.nextQueue set with
  | none => .refused .notEnabled
  | some (v, k, q) =>
    let crew := (s.func v).crew.toNat
    let r := s.launchRecord q q.cons
    let view := s.launchViewOf crew q q.cons.toNat
    let q1 : Queue := { q with cons := q.cons + 1, lastSeq := some (lrSeq r), views := adel q.cons.toNat q.views }
    let s1 := (s.setQueue v k q1).writeIndex q1 8 q1.cons
    let s2 := s1.setFunc v { s1.func v with lastQueue := k }
    let s3 := s2.setHeat set { s2.heat set with lastVf := v }
    .next (s3.takeLaunch set v k q r crew view)

/-- HELD_COMPLETION_WRITE (R394): the oldest completion held for a full ring is written once there is room. -/
def execHeldCompletionWrite (vf queue : Nat) (s : State) : Out :=
  match s.queue vf queue with
  | none => .refused .notEnabled
  | some q =>
    match q.heldDone with
    | [] => .refused .notEnabled
    | h :: hs =>
      if q.completionRoom then .next ((s.setQueue vf queue { q with heldDone := hs }).putCompletion vf queue h.1 h.2)
      else .refused .notEnabled

/-- Close the refill queues of a grid (R395): its counter has reached NITEM. -/
def State.closeRefills (s : State) (gid : Nat) : State :=
  { s with teams := s.teams.map fun e => if e.2.grid = gid then
      (e.1, { e.2 with refill := e.2.refill.map fun r => { r with open_ := false } }) else e }

/-- REFILL_QUEUE_FILL (R149, R395): items of the grid's counter go into a team's queue; it closes at NITEM. -/
def execRefillQueueFill (team count : Nat) (s : State) : Out :=
  match s.team team with
  | none => .refused .notEnabled
  | some t =>
    match t.refill, s.grid t.grid with
    | some r, some g =>
      if t.ended ∨ (t.status ≠ .resident ∧ t.status ≠ .draining) ∨ !r.open_ ∨ count = 0 ∨ r.depth < r.items.length + count ∨
          g.nitem < g.handed + count then .refused .notEnabled
      else
        let items := (upFrom g.handed count).map (BitVec.ofNat 32)
        let s1 := s.modTeam team fun t => { t with refill := some { r with items := r.items ++ items } }
        let s2 := s1.modGrid t.grid fun g => { g with handed := g.handed + count }
        .next (if g.handed + count = g.nitem then s2.closeRefills t.grid else s2)
    | _, _ => .refused .notEnabled

/-! The instructions (R399 to R401) -/

/-- The queue that a queue word names, where the issuing crew may feed or read it. -/
def State.queueNamed (s : State) (crew : Nat) (w : Word64) : Option (Nat × Nat × Queue) :=
  let v := (w.extractLsb' 3 9).toNat
  let k := (w.extractLsb' 0 3).toNat
  let f := s.func v
  if w.toNat / 2 ^ 12 = 0 ∧ f.en ∧ f.crew.toNat = crew then (aget k f.queues).map fun q => (v, k, q) else none

/-- Add an edge to a record (R400). A record whose NEDGE is above 8 is malformed, and stays so. -/
def addEdge (r : BitVec 1024) (queue : Nat) (delta : Word64) (region : Word64) : BitVec 1024 :=
  let n := lrEdges r
  let e : BitVec 75 := BitVec.ofNat 3 queue ++ delta.setWidth 12 ++ region.setWidth 60
  let r1 := r &&& ~~~(((0x7FFFFFFFFFFFFFFFFFF : BitVec 1024)) <<< (424 + 75 * n))
  let r2 := r1 ||| (e.setWidth 1024 <<< (424 + 75 * n))
  (r2 &&& ~~~((0xF : BitVec 1024) <<< 164)) ||| (BitVec.ofNat 1024 (min (n + 1) 15) <<< 164)

/-- Append a record to a queue. -/
def State.appendLaunch (s : State) (v k : Nat) (q : Queue) (r : BitVec 1024) (view : Nat) : State :=
  let s1 := s.physWriteN (q.entry q.tail) (leBytes 128 r.toNat)
  let q1 : Queue := { q with tail := q.tail + 1, views := if view = 0 then q.views else aput q.tail.toNat view q.views }
  (s1.setQueue v k q1).writeIndex q1 0 q1.tail

/-- The record at an address, as `launch` and `launchd` read it. -/
def PathCtx.recordAt (c : PathCtx) (a : Nat) (k : BitVec 1024 → Out) : Out :=
  match c.readGlobal (upFrom a 128) with
  | .error (code, at_) => c.readFault code 0 at_ 1
  | .ok bs => k (BitVec.ofNat 1024 (leNat bs))

/-- `launch`, and with a region `launchd`, which looks at its record before the fence. -/
def PathCtx.launch (c : PathCtx) (fn : Nat) (f : Fields) (region : Option Word64) : Out :=
  let a := (c.uni 0 f.sa).toNat
  let status (n : Nat) : Out := c.conclude c.s f (BitVec.ofNat 64 n)
  if !c.effect f then c.skipOver 0xE0 fn f
  else if a % 128 ≠ 0 then c.faultCode 0x05 (BitVec.ofNat 64 a)
  else match c.s.queueNamed c.t.crew (c.uni 1 f.sb) with
  | none => status 2
  | some (v, k, q) =>
    if !q.cfg.feeder then status 2
    else
      let full : Bool := 2 ^ q.cfg.lqlog ≤ (q.tail - q.cons).toNat
      let append (r : BitVec 1024) : Out := c.conclude (c.s.appendLaunch v k q r c.t.view) f 0
      match region with
      | none => c.releaseThen 0xE0 fn f .pkg (if full then status 1 else c.recordAt a append)
      | some w => c.recordAt a fun r =>
        let g := c.s.grid c.t.grid
        let delta : Word64 := lrSeq r - c.s.lseq c.t
        let apart : Bool := (g.map Grid.vf) == some v && delta.toNat != 0 && delta.toNat ≤ 4095
        if lrEdges r = 8 then status 3
        else if !apart then status 4
        else c.releaseThen 0xE0 fn f .pkg (if full then status 1 else append (addEdge r ((g.map Grid.queue).getD 0) delta w))

/-- `launch`. -/
def execLaunch (f : Fields) (s : State) : Out := onPath s 0xE0 0x00 f fun c => c.launch 0x00 f none

/-- `launchd`. -/
def execLaunchd (f : Fields) (s : State) : Out := onPath s 0xE0 0x01 f fun c => c.launch 0x01 f (some (c.uni 2 f.sc))

/-- `lqst` (R401). -/
def execLqst (f : Fields) (s : State) : Out :=
  onPath s 0xE0 0x02 f fun c =>
    if !c.effect f then c.skipOver 0xE0 0x02 f
    else match c.s.queueNamed c.t.crew (c.uni 1 f.sb) with
      | none => c.conclude c.s f (BitVec.allOnes 64)
      | some (_, _, q) =>
        c.conclude c.s f (match f.immBits 0 2 with
          | 0 => q.cons
          | 1 => BitVec.ofNat 64 q.frontier
          | 2 => BitVec.ofNat 64 q.inFlight
          | _ => q.tail)

end Sys2Proof.Machine
end

