-- ==== Sys2Proof/Machine/Loader.lean ====
section
/-! DEFINITION. The Oanel loader: the image format, its signature, the checks of admission and the translation rule
(spec/03_assembly.md R44 to R59).

Marked in the assumption log: 3 (DESIGN CHOICE), 4 (DESIGN CHOICE), 16 (DESIGN CHOICE), 46 (DEDUCED), 49 (DESIGN CHOICE). -/

namespace Sys2Proof.Machine

/-! SHA-256 and the signature (R46, R47) -/

/-- The largest number below `acc + 2 ^ bits` whose `e`th power is at most `x`, bit by bit. -/
def rootBits (e x : Nat) : Nat → Nat → Nat
  | 0, acc => acc
  | bits + 1, acc =>
    let next := acc + 2 ^ bits
    rootBits e x bits (if next ^ e ≤ x then next else acc)

/-- The first 32 bits of the fraction of the `e`th root of `p`: SHA-256 takes its constants from the primes so. -/
def rootFraction (e p : Nat) : Word32 := BitVec.ofNat 32 (rootBits e (p * 2 ^ (32 * e)) 35 0)

/-- The first 64 primes. -/
def shaPrimes : List Nat :=
  [2, 3, 5, 7, 11, 13, 17, 19, 23, 29, 31, 37, 41, 43, 47, 53, 59, 61, 67, 71, 73, 79, 83, 89, 97, 101, 103, 107, 109, 113, 127, 131] ++
  [137, 139, 149, 151, 157, 163, 167, 173, 179, 181, 191, 193, 197, 199, 211, 223, 227, 229, 233, 239, 241, 251, 257, 263, 269, 271,
   277, 281, 283, 293, 307, 311]

/-- The exclusive or of a word's rotations. -/
def rotations (x : Word32) (rs : List Nat) : Word32 := rs.foldl (fun y r => y ^^^ x.rotateRight r) 0

/-- One round over the eight working words, with its constant and its word of the message schedule. -/
def shaRound (st : List Word32) (k w : Word32) : List Word32 :=
  match st with
  | [a, b, c, d, e, f, g, h] =>
    let choice := g ^^^ (e &&& (f ^^^ g))
    let majority := (a &&& (b ||| c)) ||| (b &&& c)
    let t := h + k + w + choice + rotations e [6, 11, 25]
    [t + majority + rotations a [2, 13, 22], a, b, c, d + t, e, f, g]
  | _ => st

/-- The word that follows sixteen words of the message schedule. -/
def scheduleWord (ws : List Word32) : Word32 :=
  let early := ws.getD 1 0
  let late := ws.getD 14 0
  ws.getD 0 0 + ws.getD 9 0 + (rotations early [7, 18] ^^^ early >>> 3) + (rotations late [17, 19] ^^^ late >>> 10)

/-- The rounds of a block, one for each prime; `ws` holds the next sixteen words of the message schedule. -/
def shaRounds : List Nat → List Word32 → List Word32 → List Word32
  | [], _, st => st
  | p :: ps, ws, st => shaRounds ps (ws.drop 1 ++ [scheduleWord ws]) (shaRound st (rootFraction 3 p) (ws.getD 0 0))

/-- A number from bytes, the most significant first. -/
def beNat (bs : List Byte) : Nat := bs.foldl (fun n b => 256 * n + b.toNat) 0

/-- The `n` bytes of a number, the most significant first. -/
def beBytes (n x : Nat) : List Byte := (leBytes n x).reverse

/-- Pieces of `n` elements of a list; `fuel` bounds their number. -/
def piecesOf {α : Type} (n : Nat) : Nat → List α → List (List α)
  | 0, _ => []
  | fuel + 1, l => if l.isEmpty then [] else l.take n :: piecesOf n fuel (l.drop n)

/-- Pieces of `n` elements of a list. -/
def chunksOf {α : Type} (n : Nat) (l : List α) : List (List α) := piecesOf n l.length l

/-- One block of SHA-256. -/
def shaBlock (st : List Word32) (block : List Byte) : List Word32 :=
  let words := (chunksOf 4 block).map fun b => BitVec.ofNat 32 (beNat b)
  List.zipWith (fun x y => x + y) st (shaRounds shaPrimes words st)

/-- SHA-256. -/
def sha256 (m : List Byte) : List Byte :=
  let pad := List.replicate ((119 - m.length % 64) % 64) (0 : Byte)
  let start := (shaPrimes.take 8).map (rootFraction 2)
  ((chunksOf 64 (m ++ [0x80] ++ pad ++ beBytes 8 (8 * m.length))).foldl shaBlock start).flatMap fun w => beBytes 4 w.toNat

/-- `b ^ e` modulo `n`; `fuel` is the number of bits of `e`. -/
def powMod (n : Nat) : Nat → Nat → Nat → Nat
  | 0, _, _ => 1 % n
  | fuel + 1, b, e =>
    let r := powMod n fuel (b * b % n) (e / 2)
    if e % 2 = 1 then b * r % n else r

/-- MGF1 with SHA-256. -/
def mgf1 (seed : List Byte) (n : Nat) : List Byte :=
  ((List.range ((n + 31) / 32)).flatMap fun i => sha256 (seed ++ beBytes 4 i)).take n

/-- RSASSA-PSS with SHA-256, MGF1 and a salt of 32 bytes under an RSA key of 3,072 bits (R47). -/
def pssValid (key : PublicKey) (message signature : List Byte) : Bool :=
  let n := key.modulus
  let x := beNat signature
  let em := beBytes 384 (powMod n (Nat.log2 key.exponent + 1) x key.exponent)
  let h := (em.drop 351).take 32
  let masked := em.take 351
  let db := List.zipWith (fun a b => a ^^^ b) masked (mgf1 h 351)
  let db1 := ((db.headD 0) &&& 0x7F) :: db.drop 1
  signature.length == 384 && 2 ^ 3071 ≤ n && n < 2 ^ 3072 && x < n && em.getLast? == some 0xBC &&
    (masked.headD 0).toNat < 0x80 && (db1.take 318).all (· == 0) && db1.getD 318 0 == 1 &&
    sha256 (List.replicate 8 0 ++ sha256 message ++ db1.drop 319) == h

/-! The image (R45, R46) -/

/-- `n` bytes of an image. -/
def bytesAt (im : List Byte) (lo n : Nat) : List Byte := (im.drop lo).take n

/-- A field of an image. -/
def fieldAt (im : List Byte) (lo n : Nat) : Nat := leNat (bytesAt im lo n)

/-- The number of sections. -/
def imgSections (im : List Byte) : Nat := fieldAt im 24 2

/-- A section entry. -/
structure SectionEntry where
  ty : Nat
  off : Nat
  len : Nat
  zeros : Bool
  digest : List Byte
  deriving DecidableEq, Repr

/-- Section entry `i`. -/
def imgEntry (im : List Byte) (i : Nat) : SectionEntry :=
  let e := bytesAt im (32 + 64 * i) 64
  { ty := fieldAt e 0 4, off := fieldAt e 8 8, len := fieldAt e 16 8
    zeros := fieldAt e 4 4 == 0 && fieldAt e 24 8 == 0, digest := bytesAt e 32 32 }

/-- The section entries. -/
def imgEntries (im : List Byte) : List SectionEntry := (List.range (imgSections im)).map (imgEntry im)

/-- The section of a type. -/
def imgSection (im : List Byte) (ty : Nat) : Option (List Byte) :=
  ((imgEntries im).find? fun e => e.ty == ty).map fun e => bytesAt im e.off e.len

/-- The bytes of a section; none where the image has no such section. -/
def imgBytes (im : List Byte) (ty : Nat) : List Byte := (imgSection im ty).getD []

/-- The canonical words of a code section (R48). -/
def imgWords (im : List Byte) (ty : Nat) : List (BitVec 96) := (chunksOf 12 (imgBytes im ty)).map slotWord

/-- The kernel descriptors (R49). -/
def imgDescs (im : List Byte) : List (BitVec 512) := (chunksOf 64 (imgBytes im 8)).map fun b => BitVec.ofNat 512 (leNat b)

/-- The entries of the landing list (R50). -/
def imgLandings (im : List Byte) : List (List Byte) := chunksOf 8 (imgBytes im 7)

/-- The burst list: first index and index after (R49). -/
def imgBursts (im : List Byte) : List (Nat × Nat) := (chunksOf 8 (imgBytes im 9)).map fun b => (fieldAt b 0 4, fieldAt b 4 4)

/-- The class flags (R45). -/
def imgClass (im : List Byte) : BitVec 3 := BitVec.ofNat 3 (fieldAt im 16 4)

/-! Admission (R51) -/

/-- Check 1. -/
def imgHeaderOk (im : List Byte) : Bool :=
  let n := imgSections im
  32 ≤ im.length && bytesAt im 0 4 == [0x4F, 0x41, 0x4E, 0x4C] && fieldAt im 4 2 == 1 && fieldAt im 26 6 == 0 &&
    fieldAt im 16 4 < 8 && 1 ≤ n && n ≤ 16

/-- Check 5: the signature of header and section entries. -/
def imgSigned (im : List Byte) (key : PublicKey) : Bool :=
  let n := 32 + 64 * imgSections im
  n + 384 ≤ im.length && pssValid key (im.take n) (bytesAt im n 384)

/-- Sections in order, aligned and inside, from an offset on. -/
def sectionsFollow (size : Nat) : Nat → List SectionEntry → Bool
  | _, [] => true
  | lo, e :: es => lo ≤ e.off && e.off % 8 == 0 && e.off + e.len ≤ size && sectionsFollow size (e.off + e.len) es

/-- Check 6. -/
def imgSectionsOk (im : List Byte) : Bool :=
  sectionsFollow im.length (32 + 64 * imgSections im + 384) (imgEntries im) &&
    (imgEntries im).all fun e => sha256 (bytesAt im e.off e.len) == e.digest

/-- The unit of a section's length (R46). -/
def sectionUnit (ty : Nat) : Nat :=
  match ty with
  | 1 | 2 => 12
  | 5 | 8 => 64
  | 6 => 16
  | 7 | 9 => 8
  | _ => 1

/-- A name: ASCII, padded with zeros (R49). -/
def nameOk : List Byte → Bool
  | [] => true
  | b :: bs => if b = 0 then bs.all (· == 0) else b.toNat < 128 && nameOk bs

/-- The code section of a descriptor's stream. -/
def descSection (d : BitVec 512) : Nat := if descCox d then 2 else 1

/-- The burst regions of a descriptor (R49). -/
def descRegions (im : List Byte) (d : BitVec 512) : List (Nat × Nat) := ((imgBursts im).drop (descBurst d)).take (descBursts d)

/-- The burst regions lie in order inside a section of `n` instructions, none nests in another, and none crosses the entry of a
descriptor of its stream (R44: regions neither nest nor cross a `.kernel`; R49). -/
def regionsOk (im : List Byte) (n : Nat) (d : BitVec 512) : Bool :=
  let entries := ((imgDescs im).filter fun x => descCox x == descCox d).map descEntry
  let regions := descRegions im d
  regions.length == descBursts d && (regions.all fun r => r.1 ≤ r.2 && r.2 ≤ n && entries.all fun e => e ≤ r.1 || r.2 ≤ e) &&
    regions.zipIdx.all fun a => regions.zipIdx.all fun b => a.2 == b.2 || a.1.2 ≤ b.1.1 || b.1.2 ≤ a.1.1

/-- A descriptor is well formed and legal (R44, R49). `.team` is a group stream's: a cox descriptor may have no group. -/
def descLegal (im : List Byte) (d : BitVec 512) : Bool :=
  let n := (imgWords im (descSection d)).length
  let used := List.range (descRoles d)
  (d.extractLsb' 57 7) == 0 && (d.extractLsb' 192 128) == 0 && descEntry d < n &&
    (descCox d || 1 ≤ descGroups d) && descGroups d ≤ 32 && (used.map (descCount d)).sum == descGroups d &&
    descWindow d ≤ 524288 && descRefill d ≤ 4096 && nameOk (leBytes 16 (d.extractLsb' 384 128).toNat) &&
    ((List.range 4).all fun r => if used.contains r then descFloor d r ≤ descCeil d r && descCeil d r ≤ 192
      else descCount d r == 0 && descFloor d r == 0 && descCeil d r == 0) &&
    regionsOk im n d

/-- A landing-list entry is well formed (R50). -/
def landingOk (im : List Byte) (e : List Byte) : Bool :=
  let ty := fieldAt e 0 1
  (ty == 1 || ty == 2) && fieldAt e 1 1 < 4 && fieldAt e 2 2 == 0 && fieldAt e 4 4 < (imgWords im ty).length

/-- Check 9. -/
def imgContentsOk (im : List Byte) : Bool :=
  let es := imgEntries im
  let tys := es.map SectionEntry.ty
  (es.all fun e => e.zeros && 1 ≤ e.ty && e.ty ≤ 9 && e.len % sectionUnit e.ty == 0) && tys.eraseDups.length == tys.length &&
    (!(tys.contains 1 || tys.contains 2) || tys.contains 8) &&
    ([1, 2].all fun t => (imgWords im t).all fun w => w != BitVec.allOnes 96) &&
    (imgDescs im).all (descLegal im) && (imgLandings im).all (landingOk im)

/-! The translation rule (R53 to R56) -/

/-- Whether a canonical word is a direct transfer (R55). -/
def isDirect (w : BitVec 96) : Bool := opcOf w == 0x70 && [0, 1, 4, 7].contains (fnOf w).toNat

/-- The index that the direct transfer of an index names. -/
def directIndex (i : Nat) (w : BitVec 96) : Int := (i : Int) + (fieldsOf w).imm.toInt

/-- Check 10. -/
def directsOk (ws : List (BitVec 96)) : Bool :=
  ws.zipIdx.all fun e => !isDirect e.1 || (0 ≤ directIndex e.2 e.1 && directIndex e.2 e.1 < (ws.length : Int))

/-- The landing-list indices of a section whose kind has a bit set. -/
def listed (im : List Byte) (ty bit : Nat) : List Nat :=
  (imgLandings im).filterMap fun e =>
    if fieldAt e 0 1 = ty ∧ (fieldAt e 1 1).testBit bit then some (fieldAt e 4 4) else none

/-- The landing set of a section (R54). -/
def landingSet (im : List Byte) (ty : Nat) (ws : List (BitVec 96)) : List Nat :=
  (ws.zipIdx.filterMap fun e => if isDirect e.1 then some (directIndex e.2 e.1).toNat else none) ++
  ((imgDescs im).filterMap fun d => if descSection d = ty then some (descEntry d) else none) ++
  (ws.zipIdx.filterMap fun e =>
    if opcOf e.1 = 0x70 ∧ (fnOf e.1 = 4 ∨ fnOf e.1 = 5) ∧ e.2 + 1 < ws.length then some (e.2 + 1) else none) ++
  (ws.zipIdx.filterMap fun e => if opcOf e.1 = 0x70 ∧ fnOf e.1 = 9 then some e.2 else none) ++ listed im ty 0

/-- Check 11 (R53). -/
def shadowsOk (ws : List (BitVec 96)) (land starts : List Nat) : Bool :=
  ws.zipIdx.all fun e =>
    !(opcOf e.1 == 0x70 && fnOf e.1 == 2) ||
      (let n := (fieldsOf e.1).immBits 0 3
       e.2 + n < ws.length && (upFrom (e.2 + 1) n).all fun k =>
         !land.contains k && !starts.contains k && !([0x70, 0xA8, 0xB0, 0xB1].contains (opcOf (ws.getD k 0)).toNat))

/-- The canonical `nop` (R41). -/
def nopWord : BitVec 96 := 0x0038E000_00000000_00000000

/-- The slots of a section in order, each with the index of its image instruction; `k` is the next index, `p` the slot
pointer (R54). -/
def packFrom (land starts : List Nat) : List (BitVec 96) → Nat → Nat → List (Option Nat × BitVec 96)
  | [], _, p => List.replicate ((5 - p % 5) % 5) (none, BitVec.allOnes 96)
  | w :: ws, k, p =>
    let pad1 := if starts.contains k then (5 - p % 5) % 5 else 0
    let pad2 := if land.contains k ∧ (p + pad1) % 5 = 4 then 1 else 0
    List.replicate (pad1 + pad2) (none, nopWord) ++ (some k, w) :: packFrom land starts ws (k + 1) (p + pad1 + pad2 + 1)

/-- The slot numbers of the indices of a packed section. -/
def slotNumbers (slots : List (Option Nat × BitVec 96)) : List Nat :=
  slots.zipIdx.filterMap fun e => e.1.1.map fun _ => e.2

/-- The address of a slot number of a section. -/
def slotAddr (base : VAddr) (p : Nat) : Nat := base.toNat + 64 * (p / 5) + 12 * (p % 5)

/-- A word with another IMM. -/
def withImm (w : BitVec 96) (imm : Word32) : BitVec 96 := (w >>> 32).setWidth 64 ++ imm

/-- Rewrite the direct transfers of a section (R55, R31). -/
def rewriteDirects (pos : List Nat) (ws : List (BitVec 96)) : List (BitVec 96) :=
  ws.zipIdx.map fun e =>
    if isDirect e.1 then
      let t := pos.getD (directIndex e.2 e.1).toNat 0
      let i := pos.getD e.2 0
      withImm e.1 (BitVec.ofInt 32 (((t / 5 : Nat) : Int) - ((i / 5 : Nat) : Int)) <<< 3 ||| BitVec.ofNat 32 (t % 5))
    else e.1

/-- Whether two adjacent image instructions of group code may carry a PAIR bit (R56). -/
def mayPair (system : Bool) (a b : BitVec 96) : Bool :=
  let ok (w : BitVec 96) : Bool := (match decode .group w with | .ok _ => true | .error _ => false) &&
    (system || !privileged (opcOf w).toNat (fnOf w).toNat (fieldsOf w))
  let o1 := (opcOf a).toNat
  let n1 := (fnOf a).toNat
  let o2 := (opcOf b).toNat
  let n2 := (fnOf b).toNat
  ok a && ok b && pairable o1 n1 (fieldsOf a) o2 n2 (fieldsOf b) && !dependent o1 n1 (fieldsOf a) o2 n2 (fieldsOf b)

/-- A fetch line over five slots of a packed section (R56). -/
def lineOf (group system : Bool) (land : List Nat) (row : List (Option Nat × BitVec 96)) : BitVec 512 :=
  let at_ (i : Nat) : Option Nat × BitVec 96 := row.getD i (none, BitVec.allOnes 96)
  let tgt (i : Nat) : Bool := match (at_ i).1 with
    | some k => land.contains k
    | none => false
  let pair (i : Nat) : Bool := group && (at_ i).1.isSome && (at_ (i + 1)).1.isSome && mayPair system (at_ i).2 (at_ (i + 1)).2
  let bits (f : Nat → Bool) (n : Nat) : Nat := ((List.range n).map fun i => if f i then 2 ^ i else 0).sum
  makeLine (row.map Prod.snd) (bits tgt 5) (bits pair 4)

/-! Relocations (R57, R58) -/

/-- The sections as the loader has them: canonical words with the slot numbers of the two code sections, data and const. -/
structure LoadWork where
  group : List (BitVec 96)
  cox : List (BitVec 96)
  groupPos : List Nat
  coxPos : List Nat
  data : List Byte
  const : List Byte
  deriving DecidableEq, Repr

/-- The canonical words of a code section. -/
def LoadWork.words (w : LoadWork) (ty : Nat) : List (BitVec 96) := if ty = 1 then w.group else if ty = 2 then w.cox else []

/-- Base(source) + A (R57). -/
def LoadWork.address (w : LoadWork) (b : LoadBases) (src a : Nat) : Word64 :=
  BitVec.ofNat 64 (match src with
    | 1 => slotAddr b.group (w.groupPos.getD a 0)
    | 2 => slotAddr b.cox (w.coxPos.getD a 0)
    | 3 => b.data.toNat + a
    | _ => b.const.toNat + a)

/-- The relocation entries. -/
def imgRelocs (im : List Byte) : List (List Byte) := chunksOf 16 (imgBytes im 6)

/-- Forms without an immediate variant whose IMM is used. -/
def usesImm (opc fn : Nat) (f : Fields) : Bool :=
  match opc with
  | 0x00 => 0x0B ≤ fn && fn ≤ 0x0D
  | 0x12 => fn == 4
  | 0x15 | 0xA0 | 0xD8 => true
  | 0x16 => fn == 8
  | 0x40 => fn ≤ 3
  | 0x50 => fn == 6
  | 0x51 => fn == 7
  | 0x54 => true
  | 0x55 => fn != 0 || f.fty == .f8x4
  | 0x70 => [0, 1, 2, 4, 7].contains fn
  | 0x91 => fn ≤ 2
  | 0xA8 => [0, 2, 3, 4].contains fn
  | 0xB0 => fn ≤ 6
  | 0xB1 => fn == 2
  | 0xC0 => [1, 2, 4, 7].contains fn
  | 0xC8 => fn ≤ 2
  | 0xD0 => [0, 3, 4, 5, 6, 0x0A].contains fn
  | 0xE0 => fn == 2
  | _ => false

/-- Whether a word is of a form that takes IMM (R58). DEDUCED (assumption 49): the form decides, whatever MOD[8] of the word is. -/
def takesImm (w : BitVec 96) : Bool :=
  let o := (opcOf w).toNat
  let n := (fnOf w).toNat
  match formSpec o n (fieldsOf w) with
  | some (some p) => p.immSb || usesImm o n (fieldsOf w)
  | _ => false

/-- The region of a relocation of kind 5: start and length in the data section, operator. -/
def regionOf (e : List Byte) : Option (Nat × Nat × Nat) :=
  if fieldAt e 0 1 = 5 then some (fieldAt e 4 4, fieldAt e 8 4, fieldAt e 12 4) else none

/-- Whether a relocation is legal after those before it (R57, R58). DESIGN CHOICE (assumption 49), all 0x0404: a kind 5 region
that runs past the data section; a source of kinds 1 to 3 that names a section of type 5 to 9, which has no virtual address. -/
def relocOk (im : List Byte) (before : List (List Byte)) (e : List Byte) : Bool :=
  let kind := fieldAt e 0 1
  let dst := fieldAt e 1 1
  let src := fieldAt e 2 1
  let site := fieldAt e 4 4
  let a := fieldAt e 8 8
  let source : Bool := match src with
    | 1 | 2 => a < (imgWords im src).length
    | 3 | 4 => (imgSection im src).isSome
    | _ => false
  let codeSite : Bool := (dst == 1 || dst == 2) && site < (imgWords im dst).length && takesImm ((imgWords im dst).getD site 0)
  fieldAt e 3 1 == 0 && match kind with
  | 1 | 2 => source && codeSite
  | 3 => source && (dst == 3 || dst == 4) && site % 8 == 0 && site + 8 ≤ (imgBytes im dst).length
  | 4 => codeSite && 64 * a < (imgBytes im 5).length
  | 5 =>
    let len := a % 2 ^ 32
    let op := a / 2 ^ 32
    src == 3 && dst == 3 && site % 65536 == 0 && len % 65536 == 0 && 1 ≤ op && op ≤ 10 && site + len ≤ (imgBytes im 3).length &&
      (before.filterMap regionOf).all fun r => site + len ≤ r.1 || r.1 + r.2.1 ≤ site
  | _ => false

/-- Check 12: every relocation in order. -/
def relocsOk (im : List Byte) (before : List (List Byte)) : List (List Byte) → Bool
  | [] => true
  | e :: es => relocOk im before e && relocsOk im (before ++ [e]) es

/-- Put bytes into a section. -/
def putAt (l : List Byte) (lo : Nat) (bs : List Byte) : List Byte := l.take lo ++ bs ++ l.drop (lo + bs.length)

/-- Apply one relocation. -/
def LoadWork.relocate (w : LoadWork) (b : LoadBases) (rb : Nat) (e : List Byte) : LoadWork :=
  let dst := fieldAt e 1 1
  let site := fieldAt e 4 4
  let a := fieldAt e 8 8
  let x := w.address b (fieldAt e 2 1) a
  let patch (imm : Word32) : LoadWork :=
    if dst = 1 then { w with group := w.group.modify site (withImm · imm) } else { w with cox := w.cox.modify site (withImm · imm) }
  match fieldAt e 0 1 with
  | 1 => patch (x.setWidth 32)
  | 2 => patch ((x.extractLsb' 32 24).setWidth 32)
  | 3 =>
    let bs := leBytes 8 x.toNat
    if dst = 3 then { w with data := putAt w.data site bs } else { w with const := putAt w.const site bs }
  | 4 => patch (BitVec.ofNat 32 ((rb + a) * 4096))
  | _ => w

/-! The load -/

/-- R51: the load status of an image for a crew. -/
def Crew.loadStatus (c : Crew) (im : List Byte) (rb : Nat) : Nat :=
  let keyid := fieldAt im 20 4
  let g := imgWords im 1
  let x := imgWords im 2
  if !imgHeaderOk im then 0x0101
  else if fieldAt im 6 2 ≠ 1 then 0x0102
  else if Config.loaderVersion.toNat < fieldAt im 12 4 then 0x0103
  else match aget keyid c.keys with
  | none => 0x0201
  | some key =>
    if !imgSigned im key then 0x0202
    else if !imgSectionsOk im then 0x0203
    else if fieldAt im 8 4 < ((aget keyid c.floors).getD 0).toNat then 0x0204
    else if imgClass im &&& ~~~c.cls ≠ 0 then 0x0301
    else if !imgContentsOk im then 0x0401
    else if !(directsOk g && directsOk x) then 0x0402
    else if !(shadowsOk g (landingSet im 1 g) (listed im 1 1) && shadowsOk x (landingSet im 2 x) (listed im 2 1)) then 0x0403
    else if !relocsOk im [] (imgRelocs im) then 0x0404
    else if !((upFrom rb ((imgBytes im 5).length / 64)).all fun i => 1 ≤ i && i < c.recSize && i != 0xF_FFFF) then 0x0405
    else 0

/-- A section packed under R54. -/
def packSection (im : List Byte) (ty : Nat) (ws : List (BitVec 96)) : List (Option Nat × BitVec 96) :=
  packFrom (landingSet im ty (imgWords im ty)) (listed im ty 1) ws 0 0

/-- The sections of an image, translated and relocated (R55, R57). -/
def loadWork (im : List Byte) (b : LoadBases) (rb : Nat) : LoadWork :=
  let g := imgWords im 1
  let x := imgWords im 2
  let gp := slotNumbers (packSection im 1 g)
  let xp := slotNumbers (packSection im 2 x)
  (imgRelocs im).foldl (fun w e => w.relocate b rb e)
    { group := rewriteDirects gp g, cox := rewriteDirects xp x, groupPos := gp, coxPos := xp,
      data := imgBytes im 3, const := imgBytes im 4 }

/-- The fetch lines of a code section (R56). -/
def codeLines (im : List Byte) (ty : Nat) (ws : List (BitVec 96)) : List (BitVec 512) :=
  (chunksOf 5 (packSection im ty ws)).map
    (lineOf (ty == 1) ((imgClass im).getLsbD 0) (landingSet im ty (imgWords im ty)))

/-- Write bytes physically for a crew; a page of it that is unscrubbed is cleared first (R158). -/
def State.crewStore (s : State) (crew pa : Nat) (bs : List Byte) : State :=
  let pages := ((upFrom pa bs.length).map fun a => a / 65536).eraseDups
  let s1 := pages.foldl (fun s p => if (s.crew crew).unscrubbed.contains p then s.clearPage crew p else s) s
  s1.physStore pa bs

/-- Write pieces of 64 bytes at virtual addresses of a crew, in the memory of its die set; what is not mapped is not written. -/
def State.virtStore (s : State) (crew va : Nat) : List (List Byte) → State
  | [] => s
  | bs :: rest =>
    let s1 := match s.walk crew va with
      | .error _ => s
      | .ok w =>
        let pa := (tlbOf crew va w).at_ va
        match s.paClass pa with
        | .hbm d => if (s.crewDies crew).contains d then s.crewStore crew pa bs else s
        | _ => s
    s1.virtStore crew (va + 64) rest

/-- The physical address of the leaf entry of level 3 that maps an address; none where there is none. -/
def State.leafEntry (s : State) (va : Nat) : Nat → Nat → Option Nat
  | 0, _ => none
  | n + 1, table =>
    let at_ := table + 8 * ((va >>> (16 + 10 * n)) % 1024)
    match pteStep (3 - n) (BitVec.ofNat 64 (leNat (s.physReadN at_ 8))) with
    | .table pa => s.leafEntry va n pa
    | .leaf _ _ _ => if n = 0 then some at_ else none
    | .fault _ => none

/-- Write the operator of a page into the RED field of its entry (R58, R157). -/
def State.setRed (s : State) (crew va op : Nat) : State :=
  match s.leafEntry va 4 (((s.crew crew).root.extractLsb' 16 36).toNat * 65536) with
  | none => s
  | some pa =>
    let e := BitVec.ofNat 64 (leNat (s.physReadN pa 8))
    s.physStore pa (leBytes 8 ((e &&& ~~~(0x1E0 : Word64)) ||| BitVec.ofNat 64 (op * 32)).toNat)

/-- Write the operators of the reduction regions. -/
def State.setReds (s : State) (crew : Nat) (data : VAddr) (rs : List (Nat × Nat × Nat)) : State :=
  rs.foldl (fun s r => (List.range (r.2.1 / 65536)).foldl (fun s i =>
    s.setRed crew (data.toNat + r.1 + 65536 * i) r.2.2) s) s

/-- The image that a load gives, under a handle. -/
def loadedImage (im : List Byte) (b : LoadBases) (w : LoadWork) (handle : Nat) : Image :=
  let at_ (d : BitVec 512) (k : Nat) : Nat :=
    if descCox d then slotAddr b.cox (w.coxPos.getD k 0) else slotAddr b.group (w.groupPos.getD k 0)
  { handle := handle, cls := imgClass im, svn := BitVec.ofNat 32 (fieldAt im 8 4), groupBase := b.group, coxBase := b.cox
    descs := imgDescs im
    entries := (imgDescs im).map fun d => BitVec.ofNat 56 (at_ d (descEntry d))
    bursts := (imgDescs im).map fun d => (((imgBursts im).drop (descBurst d)).take (descBursts d)).filterMap fun r =>
      if r.1 < r.2 then some (at_ d r.1, at_ d (r.2 - 1) + 12) else none }

/-- Lines as pieces of 64 bytes. -/
def linesBytes (ls : List (BitVec 512)) : List (List Byte) := ls.map fun l => leBytes 64 l.toNat

/-- A handle that no image has: which one is the loader's choice (assumption 3). -/
def State.pickHandle (s : State) (choice : Nat) : Nat :=
  let used := s.crews.flatMap fun c => c.2.images.map Image.handle
  ((List.range (used.length + 1)).map fun i => (choice + 1 + i) % 2 ^ 32).find? (fun h => !used.contains h) |>.getD 0

/-- Load an admitted image for a crew: its bytes are placed, its records installed, its handle given. -/
def State.loadImage (s : State) (crew : Nat) (im : List Byte) (rb : Nat) (b : LoadBases) : State :=
  let w := loadWork im b rb
  let s1 := s.virtStore crew b.group.toNat (linesBytes (codeLines im 1 w.group))
  let s2 := s1.virtStore crew b.cox.toNat (linesBytes (codeLines im 2 w.cox))
  let s3 := s2.virtStore crew b.data.toNat (chunksOf 64 w.data)
  let s4 := s3.virtStore crew b.const.toNat (chunksOf 64 w.const)
  let s5 := s4.setReds crew b.data ((imgRelocs im).filterMap regionOf)
  let c := s5.crew crew
  let handle := s.pickHandle (Config.freeWord s.fresh).toNat
  let recs := ((chunksOf 64 (imgBytes im 5)).map fun r => BitVec.ofNat 512 (leNat r)).zipIdx
  let mask : BitVec 512 := ~~~((0xFFFF : BitVec 512) <<< 448)
  let s6 := s5.setCrew crew { c with
    images := c.images ++ [loadedImage im b w handle]
    records := recs.foldl (fun rs r => aput (rb + r.2) (r.1 &&& mask) rs) c.records }
  { s6 with hostLog := s6.hostLog ++ [.status 0, .bytes (leBytes 4 handle)], fresh := s6.fresh + 1 }

/-- Whether the load addresses stand on the boundaries of R57. -/
def basesOk (b : LoadBases) : Bool :=
  b.group.toNat % 64 == 0 && b.cox.toNat % 64 == 0 && b.data.toNat % 65536 == 0 && b.const.toNat % 65536 == 0

/-- IMAGE_LOAD (R51): the load status goes to the host; a rejected image leaves nothing behind. -/
def execImageLoad (crew : Nat) (image : List Byte) (recordBase : Nat) (bases : LoadBases) (s : State) : Out :=
  if s.boot ≠ .running ∨ !basesOk bases ∨ 40 ≤ crew then .next { s with hostLog := s.hostLog ++ [.status 1] }
  else
    let n := (s.crew crew).loadStatus image recordBase
    if n ≠ 0 then .next { s with hostLog := s.hostLog ++ [.status n] }
    else .next (s.loadImage crew image recordBase bases)

end Sys2Proof.Machine
end

