-- ==== Sys2Proof/Machine/Host.lean ====
section
/-! DEFINITION. What the host does over the host port, and what happens to the part from outside: configuration of die sets, crews,
functions, heat tables, memory and queues; commands; boot and power (spec/16_crews.md R357 to R362; spec/18_launch.md R392, R396,
R398, R402 to R404). A command answers 0 where it takes effect and 1 where it is refused, in the host log.

Marked in the assumption log: 4 (DESIGN CHOICE), 10 (DESIGN CHOICE), 16 (DESIGN CHOICE), 40 (DEDUCED), 41 (DESIGN
CHOICE). -/

namespace Sys2Proof.Machine

/-- A host command answered with an error: no other effect. -/
def State.hostError (s : State) : Out := .next { s with hostLog := s.hostLog ++ [.status 1] }

/-- A host command that has taken effect. -/
def State.hostDone (s : State) : Out := .next { s with hostLog := s.hostLog ++ [.status 0] }

/-- A host command: refused while the device does not run (R403) or where its conditions fail. -/
def State.command (s : State) (ok : Bool) (t : State) : Out := if s.boot = .running ∧ ok then t.hostDone else s.hostError

/-! Launch queues and grids (R392, R396, R398) -/

/-- HOST_TAIL_WRITE (R392): ignored where `launch` feeds the queue, and beyond CONS + 2^LQLOG. -/
def execHostTailWrite (vf queue : Nat) (tail : Word64) (s : State) : Out :=
  match s.queue vf queue with
  | none => .next s
  | some q =>
    if q.cfg.feeder ∨ 2 ^ q.cfg.lqlog < (tail - q.cons).toNat then .next s
    else .next ((s.setQueue vf queue { q with tail := tail }).writeIndex q 0 tail)

/-- HOST_CTAIL_WRITE (R392): records that are written are read. -/
def execHostCtailWrite (vf queue : Nat) (ctail : Word64) (s : State) : Out :=
  match s.queue vf queue with
  | none => .next s
  | some q =>
    if (q.chead - q.ctail).toNat < (ctail - q.ctail).toNat then .next s
    else .next ((s.setQueue vf queue { q with ctail := ctail }).writeIndex q 24 ctail)

/-- LAUNCH_QUEUE_CONFIGURE (R392): a queue without records in flight starts with every index zero. -/
def execLaunchQueueConfigure (vf queue : Nat) (config : QueueConfig) (s : State) : Out :=
  let idle : Bool := match s.queue vf queue with
    | some q => q.inFlight == 0
    | none => true
  let q : Queue := { cfg := config }
  let ok : Bool := vf < 512 && queue < 8 && 4 ≤ config.lqlog && config.lqlog ≤ 16 && 4 ≤ config.cqlog && config.cqlog ≤ 16 && idle
  s.command ok (((((s.setQueue vf queue q).writeIndex q 0 0).writeIndex q 8 0).writeIndex q 16 0).writeIndex q 24 0)

/-- HOST_KILL_GRID (R396). -/
def execHostKillGrid (vf : Nat) (seq : Word64) (s : State) : Out :=
  match s.grids.find? fun e => e.2.vf == vf && e.2.seq == seq with
  | none => s.hostError
  | some e => s.command true (s.killGrid e.1)

/-- HOST_REPLAY (R334). -/
def execHostReplay (crew : Nat) (seq : Word64) (s : State) : Out := s.command (crew < 40) (s.replay crew seq.toNat)

/-- A completion that waits for room, made one of a record that a restart ends. -/
def restartRecord (r : BitVec 256) : BitVec 256 := (r &&& ~~~((0xFFFF : BitVec 256) <<< 64)) ||| ((7 : BitVec 256) <<< 64)

/-- A queue after a restart: the outcomes of its records that had no completion record are 7. -/
def Queue.restarted (q : Queue) : Queue :=
  let held := q.heldDone.map fun h => (h.2.extractLsb' 0 64)
  { q with heldDone := q.heldDone.map fun h => (h.1, restartRecord h.2)
           outcomes := q.outcomes.map fun o => if held.contains o.1 then (o.1, 7) else o }

/-- DEVICE_RESTART (R398): a restart that keeps the crews ends every record in flight with status 7. -/
def execDeviceRestart (s : State) : Out :=
  let s1 : State := { s with
    functions := s.functions.map fun f => (f.1, { f.2 with queues := f.2.queues.map fun q => (q.1, q.2.restarted) })
    cmds := []
    walks := []
    octets := []
    packets := []
    requests := s.requests.filter fun r => r.2.group.isNone
    crews := s.crews.map fun c => (c.1, { c.2 with heldRecs := c.2.heldRecs.map fun h => { h with source := .nothing } })
    cores := s.cores.map fun c => (c.1, { c.2 with icache := [], tlb := [], reserve := none, slots := [], queue := [], latch := none, stalled := [] }) }
  let s2 := (s1.grids.map Prod.fst).foldl (fun s g => s.closeGrid g 7 0) s1
  let s3 := (List.range 40).foldl (fun s c => ((s.crew c).views.map Prod.fst).foldl (fun s v => s.discardView c v) s) s2
  s.command true { s3 with teams := [] }

/-! Keys, floors, classes (R52, R402) -/

/-- KEY_PROVISION (R52). -/
def execKeyProvision (crew slot : Nat) (key : PublicKey) (s : State) : Out :=
  s.command (crew < 40 && slot < 16) (s.modCrew crew fun c => { c with keys := aput slot key c.keys })

/-- ROLLBACK_FLOOR_WRITE (R52): a floor only rises. -/
def execRollbackFloorWrite (crew slot : Nat) (floor : Word32) (s : State) : Out :=
  s.command (crew < 40 && slot < 16 && ((aget slot (s.crew crew).floors).getD 0).toNat ≤ floor.toNat)
    (s.modCrew crew fun c => { c with floors := aput slot floor c.floors })

/-- CREW_CLASS_GRANT (R402). -/
def execCrewClassGrant (crew : Nat) (cls : BitVec 3) (s : State) : Out :=
  s.command (crew < 40) (s.modCrew crew fun c => { c with cls := cls })

/-! Die sets (R357) -/

/-- A die after a list of writes. -/
def State.dieAfter (s : State) (ws : List DieWrite) (d : Nat) : BitVec 2 × BitVec 3 :=
  match ws.find? fun w => w.die == d with
  | some w => (w.size, w.base)
  | none => ((s.die d).size, (s.die d).base)

/-- Whether a configuration may take effect. -/
def State.configOk (s : State) (ws : List DieWrite) : Bool :=
  let dies := ws.map DieWrite.die
  let new (d : Nat) : List Nat := setDies (s.dieAfter ws d).1 (s.dieAfter ws d).2.toNat
  distinct dies && dies.all (· < 8) &&
    ((List.range 8).all fun d => (new d).contains d && (s.dieAfter ws d).2.toNat % 2 ^ (s.dieAfter ws d).1.toNat == 0 &&
      (new d).all fun e => e < 8 && s.dieAfter ws e == s.dieAfter ws d) &&
    (dies.all fun d => new d == s.setOf d || ((s.setOf d ++ new d).all dies.contains)) &&
    (s.grids.all fun g => !(s.crewDies g.2.crew).any dies.contains) &&
    (List.range 16).all fun r => !dies.contains (rigDie r) || (s.rigger r).st == .offline

/-- Write a configuration: the crews and the heat table of a set that is no more are left without a set. -/
def State.configure (s : State) (ws : List DieWrite) : State :=
  let gone (b : Nat) : Bool := ws.any fun w => (s.setOf b).contains w.die && setDies w.size w.base.toNat != s.setOf b
  let s1 := ws.foldl (fun s w => s.setDie w.die { s.die w.die with size := w.size, base := w.base }) s
  { s1 with
    heats := s1.heats.filter fun h => !gone h.1
    crews := s1.crews.map fun c => match c.2.set with
      | some b => if gone b then (c.1, { c.2 with set := none }) else c
      | none => c }

/-- DIE_SET_CONFIGURE (R357): refused as a whole unless every set it leaves is consistent and the dies are idle. -/
def execDieSetConfigure (writes : List DieWrite) (s : State) : Out := s.command (s.configOk writes) (s.configure writes)

/-! Crews (R359, R156, R158, R161, R173, R224, R265) -/

/-- CREW_BIND (R359): its contexts take the shape that the set's table gives them (R285). -/
def execCrewBind (crew base : Nat) (s : State) : Out :=
  s.command (crew < 40 && base < 8 && (s.die base).base.toNat == base && !s.hasGrid crew)
    (s.modCrew crew fun c => { c.reshape crew (s.heat base).active with set := some base })

/-- Zero the vaults of a crew. -/
def State.scrubVaults (s : State) (crew : Nat) : State :=
  { s with vault := (s.vaultCrew.filter fun v => v.2 == crew).foldl (fun m v => m.clear (v.1 * 2 ^ 22) (2 ^ 22)) s.vault
           poison := s.poison.filter fun u => match u with
             | .vault w => aget (w * 8 / 2 ^ 22) s.vaultCrew != some crew
             | _ => true }

/-- Kill the grids of a crew. -/
def State.killGrids (s : State) (crew : Nat) : State :=
  ((s.grids.filter fun g => g.2.crew == crew).map Prod.fst).foldl (fun s g => s.killGrid g) s

/-- CREW_RESET (R359). -/
def execCrewReset (crew : Nat) (s : State) : Out :=
  let s1 := s.killGrids crew
  let s2 := ((s1.crew crew).views.map Prod.fst).foldl (fun s v => s.discardView crew v) s1
  let s3 : State := { s2 with
    mailboxes := s2.mailboxes.map fun m => if m.2.crew = crew then (m.1, { m.2 with messages := [] }) else m }
  let s4 := (s3.crew crew).pages.foldl (fun s p => s.scrub crew (p * 65536) 65536) (s3.scrubVaults crew)
  s.command (crew < 40) (s4.modCrew crew fun c =>
    { c with views := [], granules := [], samplers := [], fqhead := 1, fqtail := 1, heldRecs := [] })

/-- PAGE_TABLE_ROOT_SET (R156). -/
def execPageTableRootSet (crew : Nat) (root : Word64) (s : State) : Out :=
  s.command (crew < 40) (s.modCrew crew fun c => { c with root := root })

/-- VAULT_ASSIGN (R173). -/
def execVaultAssign (die vault crew : Nat) (s : State) : Out :=
  s.command (die < 8 && vault < 64 && crew < 40) { s with vaultCrew := aput (die * 64 + vault) crew s.vaultCrew }

/-- MAILBOX_ASSIGN (R224). -/
def execMailboxAssign (slice box crew : Nat) (s : State) : Out :=
  s.command (slice < 128 && box < 64 && crew < 40) { s with mailboxes := aput (slice * 64 + box) { crew := crew } s.mailboxes }

/-- TWIN_POOL_SET (R265): not below what is held and reserved. -/
def execTwinPoolSet (crew : Nat) (base : Word64) (size : Nat) (s : State) : Out :=
  let c := s.crew crew
  s.command (crew < 40 && c.granules.length + (c.views.map fun v => v.2.resv).sum ≤ size)
    (s.setCrew crew { c with poolBase := base, poolSize := size })

/-- RECORD_TABLE_SET (R161). -/
def execRecordTableSet (crew : Nat) (size : Nat) (base : Word64) (s : State) : Out :=
  s.command (crew < 40 && size ≤ 1048575) (s.modCrew crew fun c => { c with recSize := size, recBase := base })

/-- PEER_REGISTER (R309). -/
def execPeerRegister (peer : Nat) (endpoint key : Word64) (s : State) : Out :=
  s.command (peer < 4096) { s with peers := aput peer (endpoint, key) s.peers }

/-- Note the pages of a range as given to a crew. -/
def State.givePages (s : State) (crew lo n : Nat) : State :=
  s.modCrew crew fun c => { c with pages := (upFrom lo n).foldl (fun ps p => if ps.contains p then ps else ps ++ [p]) c.pages }

/-- Clear the unscrubbed bit of a page: what waited for its clear goes on. -/
def State.clearBit (s : State) (crew page : Nat) : State :=
  let s1 := s.modCrew crew fun c => { c with unscrubbed := c.unscrubbed.filter (· != page), clearing := c.clearing.filter (· != page) }
  let s2 := s1.mapLanes (fun t => t.crew == crew) fun l => if l.st = .scrubbing ∧ l.pa / 65536 = page then { l with st := .walk } else l
  s2.goOnWhere fun t => t.crew == crew

/-- UNSCRUBBED_BITMAP_WRITE (R158, R375). -/
def execUnscrubbedBitmapWrite (crew page : Nat) (bit : Bool) (s : State) : Out :=
  let s1 := s.givePages crew page 1
  s.command (crew < 40) (if bit then s1.scrub crew (page * 65536) 65536 else s1.clearBit crew page)

/-- HOST_SCRUB (R375): 1 for a range that is none, 2 for one that leaves the HBM of the crew's die set. -/
def execHostScrub (crew : Nat) (base : Word64) (len : Nat) (s : State) : Out :=
  if s.boot ≠ .running ∨ 40 ≤ crew ∨ 2 ^ 32 ≤ len ∨ !scrubForm base.toNat len then s.hostError
  else if !s.inSetHbm crew base.toNat len then .next { s with hostLog := s.hostLog ++ [.status 2] }
  else ((s.givePages crew (base.toNat / 65536) (len / 65536)).scrub crew base.toNat len).hostDone

/-- HOST_TLBINV (R353): all entries of a crew, those of a page, or those of a range. -/
def execHostTlbinv (crew : Nat) (kind : BitVec 2) (va : VAddr) (len : Word32) (s : State) : Out :=
  let dies := s.crewDies crew
  s.command (crew < 40 && kind != 3) (match kind.toNat with
    | 0 => s.dropEntries dies crew 0 (2 ^ 56)
    | 1 => s.dropEntries dies crew va.toNat 1
    | _ => s.dropEntries dies crew va.toNat len.toNat)

/-- HOST_VACATE (R355): the number of cores goes to the host. -/
def execHostVacate (crew : Nat) (lseq : Word64) (count : Nat) (s : State) : Out :=
  if s.boot ≠ .running ∨ 40 ≤ crew then s.hostError
  else match s.namedGrid crew lseq with
  | none => .next { s with hostLog := s.hostLog ++ [.bytes (leBytes 8 0)] }
  | some (gid, _) =>
    let r := s.vacate gid (count % 1024)
    .next { r.2 with hostLog := r.2.hostLog ++ [.bytes (leBytes 8 r.1.length)] }

/-! Functions (R360, R361) -/

/-- The control word of a function as the host reads it (R360). -/
def State.functionControl (s : State) (vf : Nat) : Word64 :=
  let f := s.func vf
  let st : BitVec 2 := if !f.en then 3 else if f.paused then 2 else if s.crewRuns f.crew.toNat then 0 else 1
  f.inc ++ f.drop ++ (0 : BitVec 22) ++ st ++ BitVec.ofBool f.en ++ (0 : BitVec 1) ++ f.crew

/-- FUNCTION_CONTROL_WRITE (R360): EN and CREW are the host's; a crew that does not exist is bound by no function. -/
def execFunctionControlWrite (vf : Nat) (control : Word64) (s : State) : Out :=
  let en := control.getLsbD 7
  let crew : BitVec 6 := control.extractLsb' 0 6
  let ok : Bool := vf < 512 && control.extractLsb' 10 22 == 0 && !control.getLsbD 6 && (!en || crew.toNat < 40)
  s.command ok ((s.setFunc vf { s.func vf with en := en, crew := crew }).sendHeld vf)

/-- FUNCTION_RESET (R360): held events are stale from now on. -/
def execFunctionReset (vf : Nat) (s : State) : Out :=
  let f := s.func vf
  s.command (vf < 512) (s.setFunc vf { f with inc := f.inc + 1, drop := 0 })

/-- FUNCTION_MIGRATION_PAUSE (R361). -/
def execFunctionMigrationPause (vf : Nat) (s : State) : Out :=
  s.command (vf < 512) (s.setFunc vf { s.func vf with paused := true })

/-- FUNCTION_MIGRATION_RESUME (R361): the saved pending word is posted again. -/
def execFunctionMigrationResume (vf : Nat) (s : State) : Out :=
  s.command (vf < 512 && (s.func vf).paused) ((s.setFunc vf { s.func vf with paused := false }).sendHeld vf)

/-! Heat tables (R362, R364) -/

/-- Whether a table may be installed. -/
def State.tableLegal (s : State) (set : Nat) (rows : List (BitVec 2048)) : Bool :=
  rows != [] && rows.length ≤ 64 && rows.all (s.rowLegal set) &&
    rows.all fun a => rows.all fun b => !quartersClash a b

/-- HEAT_TABLE_INSTALL (R362): the first table of a die set; contexts take its shape (R285) and its first heat begins. -/
def execHeatTableInstall (set : Nat) (rows : List (BitVec 2048)) (s : State) : Out :=
  let h := s.heat set
  let shaped := (s.crewsOf set).foldl (fun s c => s.modCrew c fun x => x.reshape c rows) s
  s.command (set < 8 && (s.die set).base.toNat == set && h.active.isEmpty && s.tableLegal set rows)
    ((shaped.setHeat set { h with active := rows, row := 0, started := s.clock, current := rows.headD 0 }).reboundAll.beginHeat set)

/-! The host port (R358) -/

/-- Whether a physical range lies in the HBM of a crew's die set, byte by byte. -/
def State.hostReaches (s : State) (crew pa n : Nat) : Bool := n == 0 || s.inSetHbm crew pa n

/-- A byte as the host reads it for a crew: zero in a page that is unscrubbed (R158). -/
def State.hostByte (s : State) (crew pa : Nat) : Byte := if s.unscrubbed crew pa then 0 else s.physRead pa

/-- HOST_PORT_ACCESS (R358): one that names a die outside the crew's set is discarded and counted. -/
def execHostPortAccess (crew : Nat) (access : HostAccess) (s : State) : Out :=
  let discard : Out := .next { s with hostErrors := s.hostErrors + 1 }
  if s.boot ≠ .running ∨ 40 ≤ crew then s.hostError
  else match access with
  | .read pa len =>
    if s.hostReaches crew pa len then .next { s with hostLog := s.hostLog ++ [.bytes ((upFrom pa len).map (s.hostByte crew))] }
    else discard
  | .write pa data => if s.hostReaches crew pa data.length then .next (s.crewStore crew pa data) else discard

/-! Boot and power (R403, R404) -/

/-- POWER_ON_BOOT (R403): the boot ROM waits for a firmware image. -/
def execPowerOnBoot (s : State) : Out :=
  match s.boot with
  | .unpowered | .waiting => .next { s with boot := .waiting }
  | .recovery _ | .running => .refused .notEnabled

/-- The hash of a firmware key (assumption 4). -/
def keyHash (k : PublicKey) : BitVec 256 := BitVec.ofNat 256 (beNat (sha256 (beBytes 384 k.modulus ++ beBytes 4 k.exponent)))

/-- FIRMWARE_IMAGE (R403): checked against the fused key; a failure leaves the device in recovery and reports the reason: 1 the key,
2 the signature. -/
def execFirmwareImage (image signature : List Byte) (key : PublicKey) (s : State) : Out :=
  let fail (n : Nat) : Out := .next { s with boot := .recovery n, hostLog := s.hostLog ++ [.status n] }
  match s.boot with
  | .running => s.hostError
  | .unpowered => .refused .notEnabled
  | .waiting | .recovery _ =>
    if keyHash key ≠ Config.fusedKeyHash then fail 1
    else if !pssValid key image signature then fail 2
    else ({ s with boot := .running, firmware := BitVec.ofNat 256 (beNat (sha256 image)) } : State).hostDone

/-- HOST_SPDM_REQUEST (R403). -/
def execHostSpdmRequest (message : List Byte) (s : State) : Out :=
  .next { s with hostLog := s.hostLog ++ [.spdm (Config.spdmAnswer message s.firmware Config.loaderVersion Config.fusedKeyHash)] }

/-- POWER_LIMIT_INPUT (R404): the dies on which idle issue cycles are inserted count it. -/
def execPowerLimitInput (board : Bool) (hot : BitVec 8) (s : State) : Out :=
  let s1 := (List.range 8).foldl (fun s d =>
    let on : Bool := board || hot.getLsbD d
    s.setDie d { s.die d with hot := hot.getLsbD d, idle := (s.die d).idle + if on then 1 else 0 }) s
  .next { s1 with powerLimit := board }

/-- POWER_REMOVAL (R404): everything is lost but what is not the device's, and the fuses. -/
def execPowerRemoval (s : State) : Out :=
  .next { State.reset with
    boot := .unpowered, turns := s.turns, hostMem := s.hostMem, hostLog := s.hostLog, peerLog := s.peerLog, clock := s.clock,
    fresh := s.fresh, nextId := s.nextId }

end Sys2Proof.Machine
end

