-- ==== Sys2Proof/Machine/Logic.lean ====
section
/-! DEFINITION. Logic, shifts and bit fields: OPC 0x12 and 0x13 (spec/05_integer.md R96 to R100). -/

namespace Sys2Proof.Machine

/-- The shape of a form whose SB is a 32-bit count or field word (R96). -/
def countShape (f : Fields) : Shape := { intShape f with b := 1, imm := f.imm.toNat }

/-- `and` (R97). -/
def execAnd (f : Fields) (s : State) : Out :=
  computeForm s 0x12 0x00 f (intShape f) true true false (raw (fun a b _ => Nat.land a b) f.ity.width)

/-- `or` (R97). -/
def execOr (f : Fields) (s : State) : Out :=
  computeForm s 0x12 0x01 f (intShape f) true true false (raw (fun a b _ => Nat.lor a b) f.ity.width)

/-- `xor` (R97). -/
def execXor (f : Fields) (s : State) : Out :=
  computeForm s 0x12 0x02 f (intShape f) true true false (raw (fun a b _ => Nat.xor a b) f.ity.width)

/-- `not` (R97). -/
def execNot (f : Fields) (s : State) : Out :=
  computeForm s 0x12 0x03 f (intShape f) true false false
    (raw (fun a _ _ => 2 ^ f.ity.width - 1 - a) f.ity.width)

/-- `lop3` (R97). -/
def execLop3 (f : Fields) (s : State) : Out :=
  computeForm s 0x12 0x04 f (intShape f) true true true
    (raw (fun a b c => lop3Nat (f.immBits 0 8) f.ity.width a b c) f.ity.width)

/-- `shl` (R98). -/
def execShl (f : Fields) (s : State) : Out :=
  computeForm s 0x12 0x05 f (countShape f) true true false fun _ a b _ =>
    (shlNat f.ity.width (a % 2 ^ f.ity.width) (shiftCount b), 0)

/-- `shr` (R98). -/
def execShr (f : Fields) (s : State) : Out :=
  computeForm s 0x12 0x06 f (countShape f) true true false fun _ a b _ =>
    (shrNat f.ity.width (a % 2 ^ f.ity.width) (shiftCount b), 0)

/-- `sar` (R98). -/
def execSar (f : Fields) (s : State) : Out :=
  computeForm s 0x12 0x07 f (countShape f) true true false fun _ a b _ =>
    (sarInt f.ity.width (readTy f.ity a) (shiftCount b), 0)

/-- `fshl` (R98): the count comes from SC. -/
def execFshl (f : Fields) (s : State) : Out :=
  let w := f.ity.width
  computeForm s 0x12 0x08 f { intShape f with c := 1 } true true true fun _ a b c =>
    (fshlNat w (a % 2 ^ w) (b % 2 ^ w) (shiftCount c), 0)

/-- `fshr` (R98). -/
def execFshr (f : Fields) (s : State) : Out :=
  let w := f.ity.width
  computeForm s 0x12 0x09 f { intShape f with c := 1 } true true true fun _ a b c =>
    (fshrNat w (a % 2 ^ w) (b % 2 ^ w) (shiftCount c), 0)

/-- `rsh` (R99). -/
def execRsh (f : Fields) (s : State) : Out :=
  computeForm s 0x12 0x0A f (countShape f) true true false fun _ a b _ =>
    (rshInt (readTy f.ity a) (shiftCount b), 0)

/-- A counting form: the destination is 32 bits wide (R96, R100). -/
def countForm (s : State) (fn : Nat) (f : Fields) (op : Nat → Nat → Nat) : Out :=
  computeForm s 0x13 fn f { intShape f with d := 1 } true false false (raw (fun a _ _ => op f.ity.width a) f.ity.width)

/-- `popc` (R100). -/
def execPopc (f : Fields) (s : State) : Out := countForm s 0x00 f popcNat

/-- `clz` (R100). -/
def execClz (f : Fields) (s : State) : Out := countForm s 0x01 f clzNat

/-- `ctz` (R100). -/
def execCtz (f : Fields) (s : State) : Out := countForm s 0x02 f ctzNat

/-- `brev` (R100). -/
def execBrev (f : Fields) (s : State) : Out :=
  computeForm s 0x13 0x03 f (intShape f) true false false (raw (fun a _ _ => brevNat f.ity.width a) f.ity.width)

/-- `bfx` (R100). -/
def execBfx (f : Fields) (s : State) : Out :=
  computeForm s 0x13 0x04 f (countShape f) true true false fun _ a b _ =>
    (bfxInt f.ity (a % 2 ^ f.ity.width) b, 0)

/-- `bfi` (R100). -/
def execBfi (f : Fields) (s : State) : Out :=
  let w := f.ity.width
  computeForm s 0x13 0x05 f (countShape f) true true true fun _ a b c =>
    (bfiNat w (a % 2 ^ w) b (c % 2 ^ w), 0)

end Sys2Proof.Machine
end

