-- ==== Sys2Proof/Machine/Matrix.lean ====
section
/-! DEFINITION. The matrix instructions of OPC 0xB0 but `cxwait`, and the events of the arrays (spec/11_matrix.md R246 to
R257).

Marked in the assumption log: 26 (DESIGN CHOICE), 29 (DEDUCED). -/

namespace Sys2Proof.Machine

/-- The target core of a form (R251). -/
def SeatCtx.target (c : SeatCtx) (f : Fields) : Nat :=
  if f.imm.getLsbD 13 then c.t.core else clusterOf c.t.core * 32 + f.immBits 8 5

/-- The logical accumulator of a form. -/
def accOf (f : Fields) : Nat := f.immBits 0 8

/-- What the reuse latch of an array gives an `mma` (R249). -/
inductive LatchUse where
  | unused | hit (a sa : List Byte) | fill | other
  deriving DecidableEq, Repr

/-- The latch of a core for a form with or without `.r`. -/
def SeatCtx.latchUse (c : SeatCtx) (core fn : Nat) (sp r : Bool) : LatchUse :=
  if !r then .unused
  else match (c.s.core core).latch with
    | none => .fill
    | some (tid, fn', sp', a, sa) =>
      if tid ≠ c.tid then .other else if fn' = fn ∧ sp' = sp then .hit a sa else .fill

/-- The scale addresses in an SC register (R239). -/
def scaleA (w : Word64) : Word64 := (w.extractLsb' 0 25).setWidth 64

/-- The B scale address. -/
def scaleB (w : Word64) : Word64 := (w.extractLsb' 32 25).setWidth 64

/-- The bytes of the scales that an operation uses: byte `sel` of each word (R239). -/
def State.scaleBytes (s : State) (t : Team) (w : Word64) (blocks sel : Nat) : List Byte :=
  (List.range (64 * blocks)).map fun i => s.scratch.read (t.coxCell w (4 * i + sel))

/-- The checks of an operand at an address: the first that fails, with the address. -/
def SeatCtx.operandFault (c : SeatCtx) (w : Word64) (n align : Nat) : Option (BitVec 8 × Word64) :=
  (c.rangeFault w n align).map fun code => (code, w)

/-- The checks of an operation's operands (R252, R253). -/
def SeatCtx.kindFault (c : SeatCtx) (k : MatKind) (latched : Bool) : Option (BitVec 8 × Word64) :=
  match k with
  | .azero => none
  | .afin bf16 dst => c.operandFault dst (if bf16 then 8192 else 16384) 256
  | .mma fn sp a b sc scl _ _ =>
    let n := 256 * scaleBlocks fn
    let fa := if latched then none else c.operandFault a (storedBytes fn sp denseA) 256
    let fb := c.operandFault b (storedBytes fn sp (denseB fn)) 256
    let dirty : Bool := sc.toNat / 2 ^ 25 % 2 ^ 7 ≠ 0 || sc.toNat / 2 ^ 57 ≠ 0
    let fs := if !scl then none
      else if dirty then some ((0x06 : BitVec 8), sc)
      else ((if latched then none else c.operandFault (scaleA sc) n 4)).or (c.operandFault (scaleB sc) n 4)
    (fa.or fb).or fs

/-- Enter an operation into the queue of its core, in the open batch (R255, R256). -/
def State.enterOp (s : State) (tid : Nat) (q : Seat) (o : MatOp) : State × Seat :=
  let s := s.modCore o.core fun c => { c with queue := c.queue ++ [(tid, o.id)] }
  (s, { q with ops := q.ops ++ [o], opened := true })

/-- A new operation of the seat. -/
def SeatCtx.newOp (c : SeatCtx) (kind : MatKind) (acc core : Nat) (slot : Option Nat) : MatOp :=
  { id := c.s.nextId, kind := kind, pc := c.q.pc, acc := acc, core := core, slot := slot, batch := c.q.n + 1 }

/-- Whether a binding, or a batch left open, would raise the team's reservation past the free space (R397). -/
def SeatCtx.saveRoom (c : SeatCtx) (n : Nat) : Bool := n ≤ c.s.saveFree c.t.crew

/-- Enter an operation whose slot is bound into the queue of its core, or stall the seat for the queue with the slot bound (R252,
R256). `k` goes on with the state, the seat and the slot. -/
def SeatCtx.onQueue (c : SeatCtx) (core : Nat) (s : State) (q : Seat) (slot : Nat) (k : State → Seat → Nat → Out) : Out :=
  if 16 ≤ (c.s.core core).queue.length then .next ({ c with s := s.modSeat c.tid fun _ => q }.stall (.queue core)) else k s q slot

/-- Issue an operation that writes a slot: bind its accumulator where it is unbound, or stall for a slot (R246), then enter the
queue. -/
def SeatCtx.onSlot (c : SeatCtx) (acc core : Nat) (k : State → Seat → Nat → Out) : Out :=
  match c.q.accAt acc with
  | some (_, slot) => c.onQueue core c.s c.q slot k
  | none =>
    match c.s.freeSlot core with
    | none => c.stallSlot core
    | some slot =>
      if !c.saveRoom 33800 then c.stallSlot core
      else
        let s := c.s.modCore core fun x => { x with slots := aput slot { team := c.tid } x.slots }
        c.onQueue core s { c.q with accs := aput acc (core, slot) c.q.accs } slot k

/-- The issue of an `mma` (R252). -/
def SeatCtx.mma (c : SeatCtx) (fn : Nat) (f : Fields) : Out :=
  if !c.guard f then c.retire c.q
  else
    let core := c.target f
    let acc := accOf f
    let sp := f.md.getLsbD 0
    let scl := f.imm.getLsbD 14
    let sc := if scl then c.creg f.sc else 0
    let kind : MatKind := .mma fn sp (c.creg f.sa) (c.creg f.sb) sc scl (f.immBits 15 2) (f.immBits 17 2)
    let use := c.latchUse core fn sp (f.md.getLsbD 1)
    let hit : Bool := match use with | .hit _ _ => true | _ => false
    let elsewhere : Bool := match c.q.accAt acc with | some (x, _) => x != core | none => false
    if !c.s.ownsCore c.t.crew core || elsewhere then c.fault 0x04
    else match c.kindFault kind hit with
    | some (code, a) => c.fault code 0 a
    | none =>
      if use = .other then .next (c.stall (.latch core))
      else c.onSlot acc core fun s q slot =>
        let a := s.coxRead c.t (c.creg f.sa) (storedBytes fn sp denseA)
        let sa := if scl then s.scaleBytes c.t (scaleA sc) (scaleBlocks fn) (f.immBits 15 2) else []
        let o := c.newOp kind acc core (some slot)
        let o : MatOp := match use with
          | .hit a sa => { o with latched := true, a := a, sa := sa }
          | .fill => { o with latched := true, a := a, sa := sa }
          | _ => o
        let latch := match use with
          | .fill => some (c.tid, fn, sp, a, sa)
          | .unused => match (s.core core).latch with
            | some l => if l.1 = c.tid then none else some l
            | none => none
          | _ => (s.core core).latch
        let s1 := ({ s with nextId := s.nextId + 1 } : State).modCore core fun x => { x with latch := latch }
        let s2 := s1.modSlot core slot fun x => { x with wrote := some (q.n + 1) }
        let r := s2.enterOp c.tid q o
        { c with s := r.1 }.retire r.2

/-- `mma.bf16`. -/
def execMmaBf16 (f : Fields) (s : State) : Out := onSeat s 0xB0 0x00 f fun c => c.mma 0 f

/-- `mma.f8`. -/
def execMmaF8 (f : Fields) (s : State) : Out := onSeat s 0xB0 0x01 f fun c => c.mma 1 f

/-- `mma.s8`. -/
def execMmaS8 (f : Fields) (s : State) : Out := onSeat s 0xB0 0x02 f fun c => c.mma 2 f

/-- `mma.tern`. -/
def execMmaTern (f : Fields) (s : State) : Out := onSeat s 0xB0 0x03 f fun c => c.mma 3 f

/-- `azero` (R253). -/
def execAzero (f : Fields) (s : State) : Out :=
  onSeat s 0xB0 0x04 f fun c =>
    if !c.guard f then c.retire c.q
    else
      let core := c.target f
      let acc := accOf f
      let elsewhere : Bool := match c.q.accAt acc with | some (x, _) => x != core | none => false
      if !c.s.ownsCore c.t.crew core || elsewhere then c.fault 0x04
      else c.onSlot acc core fun s q slot =>
        let s1 := ({ s with nextId := s.nextId + 1 } : State).modSlot core slot fun x => { x with wrote := none }
        let r := s1.enterOp c.tid q (c.newOp .azero acc core (some slot))
        { c with s := r.1 }.retire r.2

/-- `afin` (R253): that of an unbound accumulator runs on the bound team's core. -/
def execAfin (f : Fields) (s : State) : Out :=
  onSeat s 0xB0 0x05 f fun c =>
    if !c.guard f then c.retire c.q
    else
      let kind : MatKind := .afin (f.imm.getLsbD 8) (c.creg f.sa)
      match c.kindFault kind false with
      | some (code, a) => c.fault code 0 a
      | none =>
        let at_ := c.q.accAt (accOf f)
        let core := (at_.map Prod.fst).getD c.t.core
        if 16 ≤ (c.s.core core).queue.length then .next (c.stall (.queue core))
        else
          let s1 : State := { c.s with nextId := c.s.nextId + 1 }
          let r := s1.enterOp c.tid c.q (c.newOp kind (accOf f) core (at_.map Prod.snd))
          { c with s := r.1 }.retire r.2

/-- `arel` (R254). -/
def execArel (f : Fields) (s : State) : Out :=
  onSeat s 0xB0 0x06 f fun c =>
    if !c.guard f then c.retire c.q
    else match c.q.accAt (accOf f) with
      | none => c.retire { c.q with opened := true }
      | some (core, slot) =>
        let q : Seat := { c.q with accs := adel (accOf f) c.q.accs, opened := true }
        let s := c.s.modSlot core slot fun x => { x with released := true }
        { c with s := s.freeReleased c.tid q false }.retire q

/-- `mbatch` (R255): a batch that stays incomplete needs room in the save area (R397). -/
def execMbatch (f : Fields) (s : State) : Out :=
  onSeat s 0xB0 0x07 f fun c =>
    if !c.guard f then c.retire c.q
    else
      let q := c.q.close
      if q.k ≠ q.n ∧ !c.saveRoom 4 then .next (c.stall (.room 4))
      else c.retire (q.setC f.d (q.n.setWidth 64))

/-! Operations that a save removed (R258, R262) -/

/-- The first unstarted operation of a seat that stands in no queue. -/
def State.toEnter (s : State) (tid : Nat) (q : Seat) : Option MatOp :=
  q.ops.find? fun o => !o.started && !(s.core o.core).queue.contains (tid, o.id)

/-- Whether a seat may enter its operations again: not while it is trapped at one of them, or unfit (R258, R347). -/
def Seat.mayEnter (q : Seat) : Bool := !q.broken && !(q.st == .trapped && q.entryFault)

/-- An operation is entered again, before the seat issues any instruction: its operands are checked as at its issue, and a check that
fails traps the seat at the operation's own instruction (R258). -/
def SeatCtx.reenter (c : SeatCtx) (o : MatOp) : State :=
  match c.kindFault o.kind o.latched with
  | some (code, a) => (c.s.seatFault c.tid code 0 a 0 o.pc).modSeat c.tid fun q => { q with entryFault := true }
  | none =>
    if 16 ≤ (c.s.core o.core).queue.length then c.s
    else c.s.modCore o.core fun x => { x with queue := x.queue ++ [(c.tid, o.id)] }

/-! The arrays (R256, R258) -/

/-- An operation of a core's queue. -/
def State.queued (s : State) (e : Nat × Nat) : Option MatOp :=
  ((s.team e.1).bind Team.seat).bind fun q => q.ops.find? fun o => o.id == e.2

/-- Whether an operation uses the drain port of its array. -/
def MatOp.drains (o : MatOp) : Bool := match o.kind with | .afin _ _ => true | _ => false

/-- The operations that have started on a core, with their teams. -/
def State.startedOn (s : State) (core : Nat) : List (Nat × MatOp) :=
  s.teams.flatMap fun e => match e.2.seat with
    | some q => (q.ops.filter fun o => o.started && o.core == core).map fun o => (e.1, o)
    | none => []

/-- Whether an operation can start: nothing earlier of its seat is outstanding on its slot, and its port is free. -/
def State.canStart (s : State) (e : Nat × Nat) : Bool :=
  match s.queued e, (s.team e.1).bind Team.seat with
  | some o, some q =>
    ((s.team e.1).map fun t => s.ownsCore t.crew o.core).getD false &&
    !(q.ops.any fun x => x.id < o.id && x.core == o.core && x.slot == o.slot && x.slot.isSome) &&
      !((s.startedOn o.core).any fun x => x.2.drains == o.drains)
  | _, _ => false

/-- An operation with its operands read (R252). -/
def State.loadOp (s : State) (t : Team) (o : MatOp) : MatOp :=
  match o.kind with
  | .mma fn sp a b sc scl selA selB =>
    { o with started := true
             a := if o.latched then o.a else s.coxRead t a (storedBytes fn sp denseA)
             b := s.coxRead t b (storedBytes fn sp (denseB fn))
             sa := if o.latched then o.sa else if scl then s.scaleBytes t (scaleA sc) (scaleBlocks fn) selA else []
             sb := if scl then s.scaleBytes t (scaleB sc) (scaleBlocks fn) selB else [] }
  | _ => { o with started := true }

/-- The first poisoned cell under the operands that an operation reads from scratch (R347). -/
def State.badOperand (s : State) (t : Team) (o : MatOp) : Option Nat :=
  let bad (w : Word64) (n : Nat) : Option Nat :=
    ((List.range n).find? fun i => s.poison.contains (.scratch (t.coxCell w i / 8))).map fun i => t.coxCell w i
  match o.kind with
  | .mma fn sp a b sc scl _ _ =>
    let n := 256 * scaleBlocks fn
    ((if o.latched then none else bad a (storedBytes fn sp denseA)).or (bad b (storedBytes fn sp (denseB fn)))).or
      (if scl then (if o.latched then none else bad (scaleA sc) n).or (bad (scaleB sc) n) else none)
  | _ => none

/-- A word that an operation reads is uncorrectable: the operation takes no effect and its seat is trapped with 0x13 at the
operation's instruction. Replay enters the operation again; after an error in an accumulator the seat cannot be replayed (R347). -/
def State.opBroken (s : State) (tid : Nat) (o : MatOp) (code loc : Nat) : State :=
  (s.seatFault tid 0x13 0 (BitVec.allOnes 64) (BitVec.ofNat 128 (code + loc * 2 ^ 64)) o.pc).modSeat tid fun q =>
    { q with entryFault := true, broken := q.broken || code == 4
             ops := q.ops.map fun x => if x.id = o.id then { x with started := false } else x }

/-- MATRIX_OP_START (R256): the first operation of a core's queue that can start leaves the queue and reads its operands. -/
def execMatrixOpStart (core : Nat) (s : State) : Out :=
  match (s.core core).queue.find? s.canStart with
  | none => .refused .notEnabled
  | some e =>
    match s.team e.1, s.queued e with
    | some t, some o =>
      let s := (s.modCore core fun c => { c with queue := c.queue.erase e }).endStalls
      match s.badOperand t o with
      | some loc => .next (s.opBroken e.1 o 3 loc)
      | none => .next (s.modSeat e.1 fun q => { q with ops := q.ops.map fun o => if o.id = e.2 then s.loadOp t o else o })
    | _, _ => .refused .notEnabled

/-- What follows the end of an operation: the stalls that it ends, the draining teams that are now quiet (R261, R366). -/
def State.afterOp (s : State) : State :=
  let s := s.endStalls
  (s.teams.filter fun e => e.2.status == .draining).foldl (fun s e => (s.finishSave e.1).drainedOctet (octetOf e.2.core)) s

/-- MATRIX_OP_COMPLETE (R243, R247): the operation that has started in the array of a core updates its slot, or empties it. -/
def execMatrixOpComplete (core : Nat) (s : State) : Out :=
  match (s.startedOn core).find? fun e => !e.2.drains with
  | none => .refused .notEnabled
  | some (tid, o) =>
    let slot := o.slot.getD 0
    match o.kind, aget slot (s.core core).slots with
    | .mma fn sp _ _ _ _ _ _, some x =>
      match x.broken with
      | some loc => .next (s.opBroken tid o 4 loc).afterOp
      | none =>
        let r := accumulate fn sp o.a o.b o.sa o.sb x
        .next ((s.modSlot core slot fun _ => r.1).completeOp tid o r.2).afterOp
    | _, _ =>
      .next ((s.modSlot core slot fun x => { x with exp := none, f := [], tags := [], broken := none }).completeOp tid o 0).afterOp

/-- Write bytes of scratch at the cells of a seat's destination. -/
def State.coxWrite (s : State) (t : Team) (w : Word64) (bytes : List Byte) : State :=
  { s with scratch := s.scratch.writeN (t.coxCell w 0) bytes }

/-- AFIN_COMPLETE (R245): the converted tile is performed in scratch; poison that it covers is cleared (R347). -/
def execAfinComplete (core : Nat) (s : State) : Out :=
  match (s.startedOn core).find? fun e => e.2.drains with
  | none => .refused .notEnabled
  | some (tid, o) =>
    match o.kind, s.team tid with
    | .afin bf16 dst, some t =>
      let empty : Slot := { team := tid }
      let slot := (o.slot.bind fun k => aget k (s.core core).slots).getD empty
      match slot.broken with
      | some loc => .next (s.opBroken tid o 4 loc).afterOp
      | none =>
        let r := convertSlot bf16 slot
        let s := (s.coxWrite t dst r.1).unpoisonIf fun u x =>
          (match u with | .scratch _ => true | _ => false) && t.coxCell dst 0 ≤ x && x < t.coxCell dst 0 + r.1.length
        .next (s.completeOp tid o r.2).afterOp
    | _, _ => .refused .notEnabled

end Sys2Proof.Machine
end

