-- ==== Sys2Proof/Machine/Packed.lean ====
section
/-! DEFINITION. Packed arithmetic: OPC 0x16 (spec/05_integer.md R104 to R107). -/

namespace Sys2Proof.Machine

/-- The shape of a packed form: single registers, and the packed immediate (R104). -/
def packedShape (f : Fields) : Shape := { imm := f.imm.toNat }

/-- An element-by-element form (R105). -/
def packedForm (s : State) (fn : Nat) (f : Fields) (op : Int → Int → Int) : Out :=
  computeGroup s 0x16 fn f (packedShape f) true true false fun _ a b _ => packedOp f.ity f.bit7 op a b

/-- `padd` (R105). -/
def execPadd (f : Fields) (s : State) : Out := packedForm s 0x00 f fun a b => a + b

/-- `psub` (R105). -/
def execPsub (f : Fields) (s : State) : Out := packedForm s 0x01 f fun a b => a - b

/-- `pmul` (R105). -/
def execPmul (f : Fields) (s : State) : Out := packedForm s 0x02 f fun a b => a * b

/-- `pmin` (R105). -/
def execPmin (f : Fields) (s : State) : Out := packedForm s 0x03 f fun a b => if a < b then a else b

/-- `pmax` (R105). -/
def execPmax (f : Fields) (s : State) : Out := packedForm s 0x04 f fun a b => if b < a then a else b

/-- `mac2` (R106). -/
def execMac2 (f : Fields) (s : State) : Out :=
  computeGroup s 0x16 0x05 f (packedShape f) true true true fun _ a b c => macPacked f.ity a b c

/-- `dot4` (R106). -/
def execDot4 (f : Fields) (s : State) : Out :=
  computeGroup s 0x16 0x06 f (packedShape f) true true true fun _ a b c => macPacked f.ity a b c

/-- `packs` (R107). -/
def execPacks (f : Fields) (s : State) : Out :=
  computeGroup s 0x16 0x07 f (packedShape f) true true false fun _ a b _ => packsNat f.ity a b

/-- `unpk` (R107). -/
def execUnpk (f : Fields) (s : State) : Out :=
  computeGroup s 0x16 0x08 f (packedShape f) true false false fun _ a _ _ =>
    plain (elemRead f.ity.width f.ity.signed a (f.immBits 0 2))

end Sys2Proof.Machine
end

