-- ==== Sys2Proof/Machine/Registers.lean ====
section
/-! DEFINITION. The register and mask instructions of OPC 0x00 (spec/04_registers.md R80 to R87).

Marked in the assumption log: 8 (DEDUCED). -/

namespace Sys2Proof.Machine

/-- The 32-bit form of an index that may be absent. -/
def orNone (x : Option Nat) : Word64 := (x.map (BitVec.ofNat 64)).getD 0xFFFFFFFF

/-- The value of a special register of a team, the same in group and cox streams (R86). -/
def State.teamSpecial (s : State) (t : Team) (sel : Nat) : Word64 :=
  let g := s.grid t.grid
  match sel with
  | 0x02 => BitVec.ofNat 64 t.x
  | 0x03 => BitVec.ofNat 64 t.y
  | 0x04 => BitVec.ofNat 64 ((g.map Grid.gx).getD 0)
  | 0x05 => BitVec.ofNat 64 ((g.map Grid.gy).getD 0)
  | 0x09 => BitVec.ofNat 64 (clusterOf t.core)
  | 0x0A => BitVec.ofNat 64 (dieOf t.core)
  | 0x0B => BitVec.ofNat 64 t.crew
  | 0x0C => (s.viewId t.crew t.view).setWidth 64
  | 0x0F => orNone (t.seat.map Seat.num)
  | _ => BitVec.ofNat 64 s.clock

/-- The value of a special register that is the same in every lane (R86). -/
def PathCtx.special (c : PathCtx) (sel : Nat) : Word64 :=
  match sel with
  | 0x01 => BitVec.ofNat 64 c.gi
  | 0x06 => BitVec.ofNat 64 c.g.role
  | 0x07 => BitVec.ofNat 64 c.g.ridx
  | 0x08 => BitVec.ofNat 64 c.t.core
  | 0x0D => orNone c.t.child
  | 0x0E => BitVec.ofNat 64 c.pi
  | 0x10 => c.p.lk.setWidth 64
  | 0x11 => c.g.flags.setWidth 64
  | n => if 0x13 ≤ n ∧ n ≤ 0x19 then (c.pred 3 (n - 0x13)).setWidth 64 else c.s.teamSpecial c.t n

/-- The immediate of `mov` and `bcast` by its type (R30, R81): sign-extended for the signed types. -/
def movImm (f : Fields) (w : Nat) : Nat :=
  if f.ity.signed then (f.imm.signExtend 64).toNat % 2 ^ w else f.imm.toNat

/-- `mov` (R81). Into a uniform register a 32-bit register source is zero-extended (assumption 8). -/
def execMov (f : Fields) (s : State) : Out :=
  let n := f.ity.regs
  onBoth s 0x00 0x00 f
    (fun c =>
      if isUni f.d && !f.dead then
        if c.effect f then
          let w := if f.useImm then movImm f 64 else c.laneOp 1 f.sb n 0
          c.retire f (c.writeUniform 0x00 0x00 f (BitVec.ofNat 64 w))
        else c.skipOver 0x00 0x00 f
      else
        let src := if f.useImm then fun _ => movImm f (32 * n) else c.laneOp 1 f.sb n
        let srcs := if f.useImm then [] else [(f.sb, n)]
        c.retire f (c.writeLanes 0x00 0x00 f (c.active f) srcs n src))
    (fun c =>
      if c.guard f then
        let w := if f.useImm then movImm f 64 else (c.creg f.sb).toNat % 2 ^ (32 * n)
        c.retire (c.q.setC f.d (BitVec.ofNat 64 w))
      else c.retire c.q)

/-- `bcast` (R82). -/
def execBcast (f : Fields) (s : State) : Out :=
  let n := f.ity.regs
  onPath s 0x00 0x01 f fun c =>
    let w := if f.useImm then movImm f (32 * n) else c.laneOp 1 f.sb n 0
    let m : Mask := if c.effect f then BitVec.allOnes 32 else 0
    if c.effect f then c.retire f (c.writeLanes 0x00 0x01 f m [] n fun _ => w) else c.skipOver 0x00 0x01 f

/-- `movu` (R83). -/
def execMovu (f : Fields) (s : State) : Out :=
  onPath s 0x00 0x02 f fun c =>
    match lowestLane (c.active f) with
    | some l => c.retire f (c.writeUniform 0x00 0x02 f (BitVec.ofNat 64 (c.laneOp 1 f.sb 1 l)))
    | none => c.skipOver 0x00 0x02 f

/-- `emrd` (R84). -/
def execEmrd (f : Fields) (s : State) : Out :=
  onPath s 0x00 0x03 f fun c =>
    if c.effect f then c.retire f (c.writeUniform 0x00 0x03 f (c.em.setWidth 64)) else c.skipOver 0x00 0x03 f

/-- `emwr` (R84): within the issuing path's mask. -/
def execEmwr (f : Fields) (s : State) : Out :=
  onPath s 0x00 0x04 f fun c =>
    if c.effect f then
      let src : Mask := if f.useImm then f.imm else (c.uni 1 f.sb).setWidth 32
      let g : Group := { c.g with em := (c.g.em &&& ~~~c.p.mask) ||| (src &&& c.p.mask) }
      c.retire f (g.note c.g [Reg.em] 4)
    else c.skipOver 0x00 0x04 f

/-- The second mask of a predicate form: a predicate or an immediate (R85). -/
def PathCtx.maskB (c : PathCtx) (f : Fields) : Mask := if f.useImm then f.imm else c.pred 1 f.sb.toNat

/-- A predicate form: its result in lanes of A (R85). -/
def PathCtx.predForm (c : PathCtx) (fn : Nat) (f : Fields) (v : Mask) : Out :=
  c.retire f (c.writePredicate 0x00 fn f (c.active f) v)

/-- `pand` (R85). -/
def execPand (f : Fields) (s : State) : Out :=
  onPath s 0x00 0x05 f fun c => c.predForm 0x05 f (c.pred 0 f.sa.toNat &&& c.maskB f)

/-- `por` (R85). -/
def execPor (f : Fields) (s : State) : Out :=
  onPath s 0x00 0x06 f fun c => c.predForm 0x06 f (c.pred 0 f.sa.toNat ||| c.maskB f)

/-- `pxor` (R85). -/
def execPxor (f : Fields) (s : State) : Out :=
  onPath s 0x00 0x07 f fun c => c.predForm 0x07 f (c.pred 0 f.sa.toNat ^^^ c.maskB f)

/-- `pandn` (R85). -/
def execPandn (f : Fields) (s : State) : Out :=
  onPath s 0x00 0x08 f fun c => c.predForm 0x08 f (c.pred 0 f.sa.toNat &&& ~~~c.maskB f)

/-- `ptog` (R85). -/
def execPtog (f : Fields) (s : State) : Out :=
  onPath s 0x00 0x09 f fun c => c.predForm 0x09 f (~~~c.pred 0 f.sa.toNat)

/-- `gtop` (R85). -/
def execGtop (f : Fields) (s : State) : Out :=
  onPath s 0x00 0x0A f fun c =>
    c.predForm 0x0A f (if f.useImm then f.imm else (c.uni 1 f.sb).setWidth 32)

/-- `sread` (R86). -/
def execSread (f : Fields) (s : State) : Out :=
  let sel := f.immBits 0 8
  let n := if sel = 0x10 ∨ sel = 0x12 then 2 else 1
  onBoth s 0x00 0x0B f
    (fun c =>
      if isUni f.d && !f.dead then
        if c.effect f then c.retire f (c.writeUniform 0x00 0x0B f (c.special sel)) else c.skipOver 0x00 0x0B f
      else
        let val : Nat → Nat := match sel with
          | 0x00 => fun l => l
          | 0x1A => fun l => (c.g.item.get l).toNat
          | _ => fun _ => (c.special sel).toNat
        c.retire f (c.writeLanes 0x00 0x0B f (c.active f) [] n val))
    (fun c => if c.guard f then c.retire (c.q.setC f.d (c.s.teamSpecial c.t sel)) else c.retire c.q)

/-- `swrite` (R86): the issuing path's link register, the flags, or a whole predicate. -/
def execSwrite (f : Fields) (s : State) : Out :=
  let sel := f.immBits 0 8
  onPath s 0x00 0x0C f fun c =>
    if c.effect f then
      let w := c.uni 0 f.sa
      match sel with
      | 0x10 => { c with p := { c.p with lk := w.setWidth 56 } }.retire f c.g
      | 0x11 => c.retire f { c.g with flags := w.setWidth 16 }
      | n => c.retire f ((c.g.writePred (n - 0x13) (BitVec.allOnes 32) (w.setWidth 32)).note c.g [Reg.p (n - 0x13)] 4)
    else c.skipOver 0x00 0x0C f

/-- `vfree` (R87): whatever the guard and masks hold. -/
def execVfree (f : Fields) (s : State) : Out :=
  onPath s 0x00 0x0D f fun c =>
    c.retire f ((c.g.freeAll (upFrom f.sa.toNat (f.immBits 0 8))).freeAll (lrRegs 0x00 0x0D f))

/-- `nop` (R41, R87). -/
def execNop (f : Fields) (s : State) : Out :=
  onBoth s 0x00 0x0E f (fun c => c.skipOver 0x00 0x0E f) fun c => c.retire c.q

end Sys2Proof.Machine
end

