-- ==== Sys2Proof/Machine/Dispatch.lean ====
section
/-! DEFINITION. The dispatch of the instructions and events to their meanings: one arm per constructor. -/

namespace Sys2Proof.Machine

/-- The meaning of every instruction and event of spec/opcode_table.json. -/
def exec (i : Instr) (s : State) : Host.Outcome State Fault Refusal :=
  match i with
  | .mov f => Sys2Proof.Machine.execMov f s
  | .bcast f => Sys2Proof.Machine.execBcast f s
  | .movu f => Sys2Proof.Machine.execMovu f s
  | .emrd f => Sys2Proof.Machine.execEmrd f s
  | .emwr f => Sys2Proof.Machine.execEmwr f s
  | .pand f => Sys2Proof.Machine.execPand f s
  | .por f => Sys2Proof.Machine.execPor f s
  | .pxor f => Sys2Proof.Machine.execPxor f s
  | .pandn f => Sys2Proof.Machine.execPandn f s
  | .ptog f => Sys2Proof.Machine.execPtog f s
  | .gtop f => Sys2Proof.Machine.execGtop f s
  | .sread f => Sys2Proof.Machine.execSread f s
  | .swrite f => Sys2Proof.Machine.execSwrite f s
  | .vfree f => Sys2Proof.Machine.execVfree f s
  | .nop f => Sys2Proof.Machine.execNop f s
  | .add f => Sys2Proof.Machine.execAdd f s
  | .sub f => Sys2Proof.Machine.execSub f s
  | .addc f => Sys2Proof.Machine.execAddc f s
  | .subb f => Sys2Proof.Machine.execSubb f s
  | .min f => Sys2Proof.Machine.execMin f s
  | .max f => Sys2Proof.Machine.execMax f s
  | .abs f => Sys2Proof.Machine.execAbs f s
  | .neg f => Sys2Proof.Machine.execNeg f s
  | .mul f => Sys2Proof.Machine.execMul f s
  | .mulhi f => Sys2Proof.Machine.execMulhi f s
  | .mulw f => Sys2Proof.Machine.execMulw f s
  | .mad f => Sys2Proof.Machine.execMad f s
  | .madw f => Sys2Proof.Machine.execMadw f s
  | .div f => Sys2Proof.Machine.execDiv f s
  | .rem f => Sys2Proof.Machine.execRem f s
  | .and f => Sys2Proof.Machine.execAnd f s
  | .or f => Sys2Proof.Machine.execOr f s
  | .xor f => Sys2Proof.Machine.execXor f s
  | .not f => Sys2Proof.Machine.execNot f s
  | .lop3 f => Sys2Proof.Machine.execLop3 f s
  | .shl f => Sys2Proof.Machine.execShl f s
  | .shr f => Sys2Proof.Machine.execShr f s
  | .sar f => Sys2Proof.Machine.execSar f s
  | .fshl f => Sys2Proof.Machine.execFshl f s
  | .fshr f => Sys2Proof.Machine.execFshr f s
  | .rsh f => Sys2Proof.Machine.execRsh f s
  | .popc f => Sys2Proof.Machine.execPopc f s
  | .clz f => Sys2Proof.Machine.execClz f s
  | .ctz f => Sys2Proof.Machine.execCtz f s
  | .brev f => Sys2Proof.Machine.execBrev f s
  | .bfx f => Sys2Proof.Machine.execBfx f s
  | .bfi f => Sys2Proof.Machine.execBfi f s
  | .cmpEq f => Sys2Proof.Machine.execCmpEq f s
  | .cmpNe f => Sys2Proof.Machine.execCmpNe f s
  | .cmpLt f => Sys2Proof.Machine.execCmpLt f s
  | .cmpLe f => Sys2Proof.Machine.execCmpLe f s
  | .cmpGt f => Sys2Proof.Machine.execCmpGt f s
  | .cmpGe f => Sys2Proof.Machine.execCmpGe f s
  | .sel f => Sys2Proof.Machine.execSel f s
  | .lea f => Sys2Proof.Machine.execLea f s
  | .lea64 f => Sys2Proof.Machine.execLea64 f s
  | .padd f => Sys2Proof.Machine.execPadd f s
  | .psub f => Sys2Proof.Machine.execPsub f s
  | .pmul f => Sys2Proof.Machine.execPmul f s
  | .pmin f => Sys2Proof.Machine.execPmin f s
  | .pmax f => Sys2Proof.Machine.execPmax f s
  | .mac2 f => Sys2Proof.Machine.execMac2 f s
  | .dot4 f => Sys2Proof.Machine.execDot4 f s
  | .packs f => Sys2Proof.Machine.execPacks f s
  | .unpk f => Sys2Proof.Machine.execUnpk f s
  | .slideUp f => Sys2Proof.Machine.execSlideUp f s
  | .slideDn f => Sys2Proof.Machine.execSlideDn f s
  | .hslideUp f => Sys2Proof.Machine.execHslideUp f s
  | .hslideDn f => Sys2Proof.Machine.execHslideDn f s
  | .shfl f => Sys2Proof.Machine.execShfl f s
  | .xshfl f => Sys2Proof.Machine.execXshfl f s
  | .lbc f => Sys2Proof.Machine.execLbc f s
  | .red f => Sys2Proof.Machine.execRed f s
  | .redf f => Sys2Proof.Machine.execRedf f s
  | .scan f => Sys2Proof.Machine.execScan f s
  | .scanf f => Sys2Proof.Machine.execScanf f s
  | .voteAny f => Sys2Proof.Machine.execVoteAny f s
  | .voteAll f => Sys2Proof.Machine.execVoteAll f s
  | .ballot f => Sys2Proof.Machine.execBallot f s
  | .matchLanes f => Sys2Proof.Machine.execMatchLanes f s
  | .rdlane f => Sys2Proof.Machine.execRdlane f s
  | .fAdd f => Sys2Proof.Machine.execFAdd f s
  | .fSub f => Sys2Proof.Machine.execFSub f s
  | .fMul f => Sys2Proof.Machine.execFMul f s
  | .fma f => Sys2Proof.Machine.execFma f s
  | .fMin f => Sys2Proof.Machine.execFMin f s
  | .fMax f => Sys2Proof.Machine.execFMax f s
  | .fdot2 f => Sys2Proof.Machine.execFdot2 f s
  | .fCmpEq f => Sys2Proof.Machine.execFCmpEq f s
  | .fCmpNe f => Sys2Proof.Machine.execFCmpNe f s
  | .fCmpLt f => Sys2Proof.Machine.execFCmpLt f s
  | .fCmpLe f => Sys2Proof.Machine.execFCmpLe f s
  | .fCmpGt f => Sys2Proof.Machine.execFCmpGt f s
  | .fCmpGe f => Sys2Proof.Machine.execFCmpGe f s
  | .fCmpUn f => Sys2Proof.Machine.execFCmpUn f s
  | .fclass f => Sys2Proof.Machine.execFclass f s
  | .scale f => Sys2Proof.Machine.execScale f s
  | .getexp f => Sys2Proof.Machine.execGetexp f s
  | .getman f => Sys2Proof.Machine.execGetman f s
  | .rcp f => Sys2Proof.Machine.execRcp f s
  | .rsq f => Sys2Proof.Machine.execRsq f s
  | .sqrt f => Sys2Proof.Machine.execSqrt f s
  | .exp2 f => Sys2Proof.Machine.execExp2 f s
  | .log2 f => Sys2Proof.Machine.execLog2 f s
  | .sinpi f => Sys2Proof.Machine.execSinpi f s
  | .cospi f => Sys2Proof.Machine.execCospi f s
  | .cvt f => Sys2Proof.Machine.execCvt f s
  | .fpack f => Sys2Proof.Machine.execFpack f s
  | .funpk f => Sys2Proof.Machine.execFunpk f s
  | .ternpk f => Sys2Proof.Machine.execTernpk f s
  | .ternunpk f => Sys2Proof.Machine.execTernunpk f s
  | .bra f => Sys2Proof.Machine.execBra f s
  | .brau f => Sys2Proof.Machine.execBrau f s
  | .skip f => Sys2Proof.Machine.execSkip f s
  | .jmpi f => Sys2Proof.Machine.execJmpi f s
  | .call f => Sys2Proof.Machine.execCall f s
  | .calli f => Sys2Proof.Machine.execCalli f s
  | .ret f => Sys2Proof.Machine.execRet f s
  | .dbnz f => Sys2Proof.Machine.execDbnz f s
  | .exit f => Sys2Proof.Machine.execExit f s
  | .refill f => Sys2Proof.Machine.execRefill f s
  | .ldt f => Sys2Proof.Machine.execLdt f s
  | .stt f => Sys2Proof.Machine.execStt f s
  | .ld f => Sys2Proof.Machine.execLd f s
  | .st f => Sys2Proof.Machine.execSt f s
  | .lds f => Sys2Proof.Machine.execLds f s
  | .sts f => Sys2Proof.Machine.execSts f s
  | .ldv f => Sys2Proof.Machine.execLdv f s
  | .stv f => Sys2Proof.Machine.execStv f s
  | .ldg f => Sys2Proof.Machine.execLdg f s
  | .pref f => Sys2Proof.Machine.execPref f s
  | .rvalid f => Sys2Proof.Machine.execRvalid f s
  | .rinval f => Sys2Proof.Machine.execRinval f s
  | .rwr f => Sys2Proof.Machine.execRwr f s
  | .rrd f => Sys2Proof.Machine.execRrd f s
  | .fence f => Sys2Proof.Machine.execFence f s
  | .ldacq f => Sys2Proof.Machine.execLdacq f s
  | .strel f => Sys2Proof.Machine.execStrel f s
  | .atomAdd f => Sys2Proof.Machine.execAtomAdd f s
  | .atomMin f => Sys2Proof.Machine.execAtomMin f s
  | .atomMax f => Sys2Proof.Machine.execAtomMax f s
  | .atomAnd f => Sys2Proof.Machine.execAtomAnd f s
  | .atomOr f => Sys2Proof.Machine.execAtomOr f s
  | .atomXor f => Sys2Proof.Machine.execAtomXor f s
  | .atomExch f => Sys2Proof.Machine.execAtomExch f s
  | .cas f => Sys2Proof.Machine.execCas f s
  | .barArrive f => Sys2Proof.Machine.execBarArrive f s
  | .barWait f => Sys2Proof.Machine.execBarWait f s
  | .barSync f => Sys2Proof.Machine.execBarSync f s
  | .sbarInit f => Sys2Proof.Machine.execSbarInit f s
  | .sbarWait f => Sys2Proof.Machine.execSbarWait f s
  | .wcnt f => Sys2Proof.Machine.execWcnt f s
  | .waitval f => Sys2Proof.Machine.execWaitval f s
  | .chsend f => Sys2Proof.Machine.execChsend f s
  | .chrecv f => Sys2Proof.Machine.execChrecv f s
  | .chclose f => Sys2Proof.Machine.execChclose f s
  | .bwait f => Sys2Proof.Machine.execBwait f s
  | .cxsig f => Sys2Proof.Machine.execCxsig f s
  | .cpy f => Sys2Proof.Machine.execCpy f s
  | .cpyy f => Sys2Proof.Machine.execCpyy f s
  | .gath f => Sys2Proof.Machine.execGath f s
  | .scat f => Sys2Proof.Machine.execScat f s
  | .coll f => Sys2Proof.Machine.execColl f s
  | .wbr f => Sys2Proof.Machine.execWbr f s
  | .invr f => Sys2Proof.Machine.execInvr f s
  | .post f => Sys2Proof.Machine.execPost f s
  | .take f => Sys2Proof.Machine.execTake f s
  | .fork f => Sys2Proof.Machine.execFork f s
  | .join f => Sys2Proof.Machine.execJoin f s
  | .vid f => Sys2Proof.Machine.execVid f s
  | .rpage f => Sys2Proof.Machine.execRpage f s
  | .twres f => Sys2Proof.Machine.execTwres f s
  | .vabort f => Sys2Proof.Machine.execVabort f s
  | .mmaBf16 f => Sys2Proof.Machine.execMmaBf16 f s
  | .mmaF8 f => Sys2Proof.Machine.execMmaF8 f s
  | .mmaS8 f => Sys2Proof.Machine.execMmaS8 f s
  | .mmaTern f => Sys2Proof.Machine.execMmaTern f s
  | .azero f => Sys2Proof.Machine.execAzero f s
  | .afin f => Sys2Proof.Machine.execAfin f s
  | .arel f => Sys2Proof.Machine.execArel f s
  | .mbatch f => Sys2Proof.Machine.execMbatch f s
  | .cxwait f => Sys2Proof.Machine.execCxwait f s
  | .lnbnd f => Sys2Proof.Machine.execLnbnd f s
  | .lncoef f => Sys2Proof.Machine.execLncoef f s
  | .lnbase f => Sys2Proof.Machine.execLnbase f s
  | .lnbaseOff f => Sys2Proof.Machine.execLnbaseOff f s
  | .lnstart f => Sys2Proof.Machine.execLnstart f s
  | .lnnext f => Sys2Proof.Machine.execLnnext f s
  | .smload f => Sys2Proof.Machine.execSmload f s
  | .smclampOn f => Sys2Proof.Machine.execSmclampOn f s
  | .smclampOff f => Sys2Proof.Machine.execSmclampOff f s
  | .smseed f => Sys2Proof.Machine.execSmseed f s
  | .smbeta f => Sys2Proof.Machine.execSmbeta f s
  | .smtable f => Sys2Proof.Machine.execSmtable f s
  | .smtableDef f => Sys2Proof.Machine.execSmtableDef f s
  | .smsweep f => Sys2Proof.Machine.execSmsweep f s
  | .smread f => Sys2Proof.Machine.execSmread f s
  | .smstatRd f => Sys2Proof.Machine.execSmstatRd f s
  | .smstatClr f => Sys2Proof.Machine.execSmstatClr f s
  | .smstatRdclr f => Sys2Proof.Machine.execSmstatRdclr f s
  | .smstatInfo f => Sys2Proof.Machine.execSmstatInfo f s
  | .rld f => Sys2Proof.Machine.execRld f s
  | .rst f => Sys2Proof.Machine.execRst f s
  | .ratom f => Sys2Proof.Machine.execRatom f s
  | .rfence f => Sys2Proof.Machine.execRfence f s
  | .rigRerig f => Sys2Proof.Machine.execRigRerig f s
  | .rigst f => Sys2Proof.Machine.execRigst f s
  | .trap f => Sys2Proof.Machine.execTrap f s
  | .tret f => Sys2Proof.Machine.execTret f s
  | .tfence f => Sys2Proof.Machine.execTfence f s
  | .brk f => Sys2Proof.Machine.execBrk f s
  | .sysrd f => Sys2Proof.Machine.execSysrd f s
  | .syswr f => Sys2Proof.Machine.execSyswr f s
  | .replay f => Sys2Proof.Machine.execReplay f s
  | .fqtail f => Sys2Proof.Machine.execFqtail f s
  | .ecccnt f => Sys2Proof.Machine.execEcccnt f s
  | .tlbinvAll f => Sys2Proof.Machine.execTlbinvAll f s
  | .tlbinvPg f => Sys2Proof.Machine.execTlbinvPg f s
  | .tlbinvRng f => Sys2Proof.Machine.execTlbinvRng f s
  | .ctxsave f => Sys2Proof.Machine.execCtxsave f s
  | .ctxld f => Sys2Proof.Machine.execCtxld f s
  | .vacate f => Sys2Proof.Machine.execVacate f s
  | .haltTeam f => Sys2Proof.Machine.execHaltTeam f s
  | .haltGrid f => Sys2Proof.Machine.execHaltGrid f s
  | .heatw f => Sys2Proof.Machine.execHeatw f s
  | .heatsw f => Sys2Proof.Machine.execHeatsw f s
  | .donate f => Sys2Proof.Machine.execDonate f s
  | .scrub f => Sys2Proof.Machine.execScrub f s
  | .trctlSet f => Sys2Proof.Machine.execTrctlSet f s
  | .trctlHead f => Sys2Proof.Machine.execTrctlHead f s
  | .trctlTail f => Sys2Proof.Machine.execTrctlTail f s
  | .trctlLost f => Sys2Proof.Machine.execTrctlLost f s
  | .trmark f => Sys2Proof.Machine.execTrmark f s
  | .pcnt f => Sys2Proof.Machine.execPcnt f s
  | .stepStop f => Sys2Proof.Machine.execStepStop f s
  | .stepGo f => Sys2Proof.Machine.execStepGo f s
  | .stepRun f => Sys2Proof.Machine.execStepRun f s
  | .stepPath f => Sys2Proof.Machine.execStepPath f s
  | .launch f => Sys2Proof.Machine.execLaunch f s
  | .launchd f => Sys2Proof.Machine.execLaunchd f s
  | .lqst f => Sys2Proof.Machine.execLqst f s
  | .rigWinwr f => Sys2Proof.Machine.execRigWinwr f s
  | .rigWinclr f => Sys2Proof.Machine.execRigWinclr f s
  | .rigPmap f => Sys2Proof.Machine.execRigPmap f s
  | .rigLock f => Sys2Proof.Machine.execRigLock f s
  | .rigGo f => Sys2Proof.Machine.execRigGo f s
  | .illegalInstruction cause word => Sys2Proof.Machine.execIllegalInstruction cause word s
  | .fetchOverrun => Sys2Proof.Machine.execFetchOverrun s
  | .lineFetch p flip1 flip2 => Sys2Proof.Machine.execLineFetch p flip1 flip2 s
  | .switchMarkerRelease g => Sys2Proof.Machine.execSwitchMarkerRelease g s
  | .schedulerAgePriority core sched => Sys2Proof.Machine.execSchedulerAgePriority core sched s
  | .loadDataArrive g access => Sys2Proof.Machine.execLoadDataArrive g access s
  | .translationWalkComplete walk => Sys2Proof.Machine.execTranslationWalkComplete walk s
  | .heldRecordWrite crew => Sys2Proof.Machine.execHeldRecordWrite crew s
  | .storeDrain g entry => Sys2Proof.Machine.execStoreDrain g entry s
  | .storeAck g scope => Sys2Proof.Machine.execStoreAck g scope s
  | .lineReplicate line => Sys2Proof.Machine.execLineReplicate line s
  | .pageClearComplete crew page => Sys2Proof.Machine.execPageClearComplete crew page s
  | .waitvalRecheck p => Sys2Proof.Machine.execWaitvalRecheck p s
  | .engineBytePerformed cmd => Sys2Proof.Machine.execEngineBytePerformed cmd s
  | .commandRetire cmd => Sys2Proof.Machine.execCommandRetire cmd s
  | .engineFault cmd => Sys2Proof.Machine.execEngineFault cmd s
  | .cpyyYield cmd => Sys2Proof.Machine.execCpyyYield cmd s
  | .mailboxPostEnqueue cmd => Sys2Proof.Machine.execMailboxPostEnqueue cmd s
  | .mailboxTakeDeliver cmd => Sys2Proof.Machine.execMailboxTakeDeliver cmd s
  | .matrixOpStart core => Sys2Proof.Machine.execMatrixOpStart core s
  | .matrixOpComplete core => Sys2Proof.Machine.execMatrixOpComplete core s
  | .afinComplete core => Sys2Proof.Machine.execAfinComplete core s
  | .cxwaitRecheck team => Sys2Proof.Machine.execCxwaitRecheck team s
  | .mergeCheck team => Sys2Proof.Machine.execMergeCheck team s
  | .mergeCommit team => Sys2Proof.Machine.execMergeCommit team s
  | .determinateJoin grid => Sys2Proof.Machine.execDeterminateJoin grid s
  | .determinateJoinRetry grid => Sys2Proof.Machine.execDeterminateJoinRetry grid s
  | .samplerCommandStart crew die => Sys2Proof.Machine.execSamplerCommandStart crew die s
  | .samplerColourPhase crew die => Sys2Proof.Machine.execSamplerColourPhase crew die s
  | .samplerCommandComplete crew die => Sys2Proof.Machine.execSamplerCommandComplete crew die s
  | .riggerLinkTrained rigger => Sys2Proof.Machine.execRiggerLinkTrained rigger s
  | .riggerTrainingTimeout rigger noPart => Sys2Proof.Machine.execRiggerTrainingTimeout rigger noPart s
  | .riggerAttestationPass rigger => Sys2Proof.Machine.execRiggerAttestationPass rigger s
  | .riggerAttestationFail rigger => Sys2Proof.Machine.execRiggerAttestationFail rigger s
  | .riggerLinkLost rigger => Sys2Proof.Machine.execRiggerLinkLost rigger s
  | .riggerDrainEnd rigger => Sys2Proof.Machine.execRiggerDrainEnd rigger s
  | .ualinkResponseTimeout request => Sys2Proof.Machine.execUalinkResponseTimeout request s
  | .heldRequestTimeout request => Sys2Proof.Machine.execHeldRequestTimeout request s
  | .planeMoveEffect value => Sys2Proof.Machine.execPlaneMoveEffect value s
  | .riggerTierAge rigger => Sys2Proof.Machine.execRiggerTierAge rigger s
  | .remoteResponse request ok data => Sys2Proof.Machine.execRemoteResponse request ok data s
  | .networkEntryPriority packet => Sys2Proof.Machine.execNetworkEntryPriority packet s
  | .drainWindowOpen set crew => Sys2Proof.Machine.execDrainWindowOpen set crew s
  | .heatEdge set => Sys2Proof.Machine.execHeatEdge set s
  | .octetHandover octet => Sys2Proof.Machine.execOctetHandover octet s
  | .idleDonation set crew => Sys2Proof.Machine.execIdleDonation set crew s
  | .preemptWindowEnd set crew => Sys2Proof.Machine.execPreemptWindowEnd set crew s
  | .groupSave g => Sys2Proof.Machine.execGroupSave g s
  | .teamRestore team => Sys2Proof.Machine.execTeamRestore team s
  | .launchConsume set => Sys2Proof.Machine.execLaunchConsume set s
  | .teamPlace set crew => Sys2Proof.Machine.execTeamPlace set crew s
  | .heldCompletionWrite vf queue => Sys2Proof.Machine.execHeldCompletionWrite vf queue s
  | .hostTailWrite vf queue tail => Sys2Proof.Machine.execHostTailWrite vf queue tail s
  | .hostCtailWrite vf queue ctail => Sys2Proof.Machine.execHostCtailWrite vf queue ctail s
  | .hostKillGrid vf seq => Sys2Proof.Machine.execHostKillGrid vf seq s
  | .hostReplay crew seq => Sys2Proof.Machine.execHostReplay crew seq s
  | .deviceRestart => Sys2Proof.Machine.execDeviceRestart s
  | .imageLoad crew image recordBase bases => Sys2Proof.Machine.execImageLoad crew image recordBase bases s
  | .keyProvision crew slot key => Sys2Proof.Machine.execKeyProvision crew slot key s
  | .rollbackFloorWrite crew slot floor => Sys2Proof.Machine.execRollbackFloorWrite crew slot floor s
  | .dieSetConfigure writes => Sys2Proof.Machine.execDieSetConfigure writes s
  | .crewBind crew base => Sys2Proof.Machine.execCrewBind crew base s
  | .crewReset crew => Sys2Proof.Machine.execCrewReset crew s
  | .functionControlWrite vf control => Sys2Proof.Machine.execFunctionControlWrite vf control s
  | .functionReset vf => Sys2Proof.Machine.execFunctionReset vf s
  | .functionMigrationPause vf => Sys2Proof.Machine.execFunctionMigrationPause vf s
  | .heatTableInstall set rows => Sys2Proof.Machine.execHeatTableInstall set rows s
  | .pageTableRootSet crew root => Sys2Proof.Machine.execPageTableRootSet crew root s
  | .vaultAssign die vault crew => Sys2Proof.Machine.execVaultAssign die vault crew s
  | .mailboxAssign slice box crew => Sys2Proof.Machine.execMailboxAssign slice box crew s
  | .twinPoolSet crew base size => Sys2Proof.Machine.execTwinPoolSet crew base size s
  | .recordTableSet crew size base => Sys2Proof.Machine.execRecordTableSet crew size base s
  | .peerRegister peer endpoint key => Sys2Proof.Machine.execPeerRegister peer endpoint key s
  | .unscrubbedBitmapWrite crew page bit => Sys2Proof.Machine.execUnscrubbedBitmapWrite crew page bit s
  | .hostTlbinv crew kind va len => Sys2Proof.Machine.execHostTlbinv crew kind va len s
  | .hostVacate crew lseq count => Sys2Proof.Machine.execHostVacate crew lseq count s
  | .powerOnBoot => Sys2Proof.Machine.execPowerOnBoot s
  | .firmwareImage image signature key => Sys2Proof.Machine.execFirmwareImage image signature key s
  | .powerLimitInput board hot => Sys2Proof.Machine.execPowerLimitInput board hot s
  | .powerRemoval => Sys2Proof.Machine.execPowerRemoval s
  | .refillQueueFill team count => Sys2Proof.Machine.execRefillQueueFill team count s
  | .peerRequestArrival rigger request => Sys2Proof.Machine.execPeerRequestArrival rigger request s
  | .hostPortAccess crew access => Sys2Proof.Machine.execHostPortAccess crew access s
  | .launchQueueConfigure vf queue config => Sys2Proof.Machine.execLaunchQueueConfigure vf queue config s
  | .functionMigrationResume vf => Sys2Proof.Machine.execFunctionMigrationResume vf s
  | .crewClassGrant crew cls => Sys2Proof.Machine.execCrewClassGrant crew cls s
  | .hostScrub crew base len => Sys2Proof.Machine.execHostScrub crew base len s
  | .hostSpdmRequest message => Sys2Proof.Machine.execHostSpdmRequest message s

end Sys2Proof.Machine
end

