-- ==== Sys2Proof/Machine/Network.lean ====
section
/-! DEFINITION. The network of a die: the way of a packet through its routers, and what a packet waits for (spec/01_machine.md
R8 to R10, R14).

Marked in the assumption log: 4 (DESIGN CHOICE), 43 (DEDUCED). -/

namespace Sys2Proof.Machine

/-- The length of a ring: 8 routers along x, 6 along y. -/
def ringLength (alongX : Bool) : Nat := if alongX then 8 else 6

/-- The direction from `a` to `b` on a ring of `n` routers: the shorter way, the rising one where both are equal (R9). -/
def rising (n a b : Nat) : Bool :=
  let d := (b + n - a % n) % n
  2 * d ≤ n

/-- One hop on a ring of `n` routers. -/
def hop (n a : Nat) (up : Bool) : Nat := if up then (a + 1) % n else (a + n - 1) % n

/-- Whether a packet stands at its destination. -/
def Packet.there (p : Packet) : Bool := p.x == p.dx && p.y == p.dy

/-- The ring on which a packet goes on: first along x, then along y (R9). -/
def Packet.wants (p : Packet) : Bool × Bool :=
  if p.x ≠ p.dx then (true, rising 8 p.x p.dx) else (false, rising 6 p.y p.dy)

/-- The router to which a packet goes next. -/
def Packet.nextRouter (p : Packet) : Nat × Nat :=
  let r := p.wants
  if r.1 then (hop 8 p.x r.2, p.y) else (p.x, hop 6 p.y r.2)

/-- Whether a packet stands in the input of a router on a ring. -/
def Packet.inInput (p : Packet) (die : Nat) (at_ : Nat × Nat) (ring : Bool × Bool) : Bool :=
  p.die == die && (p.x, p.y) == at_ && p.ring == some ring

/-- The buffers in use of the input that a packet would move into. -/
def State.inputUse (s : State) (p : Packet) : Nat := (s.packets.filter fun e => e.2.inInput p.die p.nextRouter p.wants).length

/-- Whether an entry that has been held for 64 cycles waits for the input that a packet would move into. -/
def State.priorityBefore (s : State) (p : Packet) : Bool :=
  s.packets.any fun e => e.2.priority && e.2.ring.isNone && e.2.die == p.die && e.2.nextRouter == p.nextRouter && e.2.wants == p.wants

/-- Whether an older packet stands before a packet in its buffer, or at its entry toward the same ring: packets keep their order
(R9). -/
def State.packetBefore (s : State) (id : Nat) (p : Packet) : Bool :=
  match (s.packets.takeWhile fun e => e.1 != id).find? fun e =>
      e.2.die == p.die && e.2.x == p.x && e.2.y == p.y && e.2.ring == p.ring && (p.ring.isSome || e.2.wants == p.wants) with
  | some _ => true
  | none => false

/-- Whether a packet can move (R10): out of the network at its destination; onto a ring where the next input has two free buffers;
along its ring where that has one, unless an entry with priority takes it. -/
def State.canMove (s : State) (id : Nat) (p : Packet) : Bool :=
  !s.packetBefore id p && (p.there ||
    (if p.ring = some p.wants then s.inputUse p + 1 ≤ Config.routerBuffers && !s.priorityBefore p
     else s.inputUse p + 2 ≤ Config.routerBuffers))

/-- A packet after one hop: one that has come to the end of its ring stands at the entry of the next, or at its destination. -/
def Packet.moved (p : Packet) (clock : Nat) : Packet :=
  let at_ := p.nextRouter
  let q : Packet := { p with x := at_.1, y := at_.2, ring := some p.wants, priority := false }
  if q.there || q.wants.1 != p.wants.1 then { q with ring := none, arrived := clock } else q

/-- A packet moves, if it can: the last to come stands last in its buffer. -/
def movePacket (id : Nat) (s : State) : State :=
  match aget id s.packets with
  | none => s
  | some p =>
    if !s.canMove id p then s
    else if p.there then { s with packets := adel id s.packets }
    else { s with packets := adel id s.packets ++ [(id, p.moved s.clock)] }

/-- A packet comes to the entry of its first ring, at its source. -/
def holdPacket (p : Packet) (s : State) : State :=
  { s with packets := s.packets ++ [(s.nextId, { p with ring := none, arrived := s.clock, priority := false })], nextId := s.nextId + 1 }

end Sys2Proof.Machine
end

