-- ==== Sys2Proof/Machine/Turns.lean ====
section
/-! DEFINITION. What one turn does: a path or a seat fetches, decodes and issues; an event happens; a slice evicts or fills;
a soft error strikes; cycles pass.

Marked in the assumption log: 1 (DESIGN CHOICE), 6 (DESIGN CHOICE), 15 (DESIGN CHOICE), 26 (DESIGN CHOICE), 27 (DEDUCED), 38
(DEDUCED), 41 (DESIGN CHOICE), 49 (DESIGN CHOICE). -/

namespace Sys2Proof.Machine

/-- After an instruction nobody issues. -/
def settle : Out → Out
  | .next s => .next { s with issuer := .none }
  | .fault r => .fault r
  | .refused r => .refused r

/-- The state in which an instruction of a path executes: its issue counted (R71, R385) and its engine used (R77), the path
named as issuer. -/
def PathCtx.issuing (c : PathCtx) (opc fn : Nat) (tick : Bool) : State :=
  let s := if tick then c.s.modGroup c.tid c.gi fun g => g.tick c.pi else c.s
  let s := s.modCore c.t.core fun k => (k.count c.t.crew 0x20 1).use c.g.sched (engineOf opc fn) s.clock
  let s := s.modCrew c.t.crew fun k => { k with idleSince := s.clock }
  { s with issuer := .path ⟨c.tid, c.gi, c.pi⟩ }

/-- A state with the group as it stood before a turn in which its instruction did not issue: nothing is counted. -/
def PathCtx.unissued (c : PathCtx) (s : State) (g : Group) : State :=
  ((s.setGroup c.tid c.gi g).setCore c.t.core (c.s.core c.t.core)).modCrew c.t.crew fun k =>
    { k with idleSince := (c.s.crew c.t.crew).idleSince }

/-- Whether a path that could not divide stalls where it stands, none of its lanes moved: its instruction did not issue
(R139). -/
def PathCtx.stalledWhole (c : PathCtx) (s : State) : Bool :=
  match s.pathCtx ⟨c.tid, c.gi, c.pi⟩ with
  | some d => d.p.st == .splitStalled && d.p.pc == c.p.pc && d.p.mask == c.p.mask
  | none => false

/-- The state after an instruction that did not issue, because `exec` left its group as it was, or split-stalled its path:
nothing is counted, and the overflow that the stall may have brought stays (R139). -/
def PathCtx.unlessIdle (c : PathCtx) (was : State) : Out → Out
  | .next s =>
    if (s.group c.tid c.gi) = was.group c.tid c.gi then .next (c.unissued s c.g)
    else if c.stalledWhole s then .next (c.unissued s (((s.group c.tid c.gi).map fun g => { g with inflight := c.g.inflight }).getD c.g))
    else .next s
  | o => o

/-- A parked path that a step hold awaits is held instead of going on (R386). -/
def PathCtx.heldStill (c : PathCtx) : Out → Out
  | .next s =>
    let r : PathRef := ⟨c.tid, c.gi, c.pi⟩
    let parked : Bool := match s.pathCtx r with
      | some d => d.p.st == .parked
      | none => false
    if c.p.st = .parked ∧ c.p.holdNext ∧ !parked then .next (c.s.wake r) else .next s
  | o => o

/-- What follows an instruction of a path that left its group's registers otherwise: a grant of the reserve ends where the
group is back at its floor (R67), and the siblings that it let go on are ready from now on (R77). -/
def PathCtx.afterIssue (c : PathCtx) : Out → Out
  | .next s => .next ((s.endGrant c.tid c.gi c.g.vregs.length).restamp c.s c.tid c.gi)
  | o => o

/-- The word of a group's state that an error has struck, where an instruction reads it, with its location (R347). -/
def PathCtx.readsBroken (c : PathCtx) (opc fn : Nat) (f : Fields) : Option (GroupWord × Nat) :=
  let u := c.uses opc fn f
  c.g.broken.filter fun e => match e.1 with
    | .vec n => u.vr.contains n
    | .uni n => u.gr.contains n
    | .pred n => u.pr.contains n
    | .paths => true
    | .trap => opc == 0xD0 && fn == 1
    | .stores => touchesMemory opc fn

/-- Whether an instruction that does not read a struck word writes it whole, so that the error is gone (R346: each word of 32
or 64 bits has a check of its own). -/
def PathCtx.mends (c : PathCtx) (opc fn : Nat) (f : Fields) : Bool :=
  let u := c.uses opc fn f
  let whole : Bool := if uniformEffect opc fn f then c.effect f else c.active f == BitVec.allOnes 32
  match c.g.broken with
  | some (.vec n, _) => (whole && u.vw.contains n) || (lrRegs opc fn f).contains n
  | some (.uni n, _) => whole && u.gw.contains n
  | some (.pred n, _) => whole && u.pw.contains n
  | _ => false

/-- The context without the error of a word that the instruction writes whole. -/
def PathCtx.mended (c : PathCtx) (opc fn : Nat) (f : Fields) : PathCtx :=
  if c.mends opc fn f then
    { c with g := { c.g with broken := none }, s := c.s.modGroup c.tid c.gi fun g => { g with broken := none } }
  else c

/-- An uncorrectable error in the group's state, met by the instruction that reads it (R347): no replay resumes the group. -/
def PathCtx.stateError (c : PathCtx) (w : GroupWord) (loc : Nat) : State :=
  let fi : FaultInfo := { code := 0x13, detail := BitVec.ofNat 128 (w.code + loc % 2 ^ 64 * 2 ^ 64), pc := c.p.pc, rpc := c.p.pc }
  (c.s.queueFault c.tid c.gi c.pi fi).modGroup c.tid c.gi fun g => { g with noReplay := true }

/-- Issue one instruction of a path if it can (R76). It is judged as its issue event would find the registers (R71). -/
def PathCtx.issueOne (c : PathCtx) (i : Instr) (tick : Bool) : Out :=
  match i.word with
  | none => .next c.s
  | some (opc, fn, f) =>
    let d := if tick then c.ticked else c
    match d.readiness opc fn f with
    | .go =>
      match d.readsBroken opc fn f with
      | some (w, loc) => .next (c.stateError w loc)
      | none =>
        let m := c.mended opc fn f
        m.afterIssue (m.heldStill (m.unlessIdle (m.issuing opc fn tick) (settle (exec i (m.issuing opc fn tick)))))
    | .wait => .next c.s
    | .stalled => .next (c.s.grantReserve c.t.core (some ⟨c.tid, c.gi⟩))
    | .stop => .next (d.stopAt opc fn f)
    | .fault code => d.notReady opc fn f code

/-- Whether the first instruction of a pair is complete (R21): its path stands on the next slot of the line, and no fault has
taken it into the handler. -/
def PathCtx.completed (first c : PathCtx) : Bool := c.p.pc == first.p.pc + 12 && c.g.tm == first.g.tm

/-- Issue the second instruction of a pair after the first, where R21 lets it and it can issue. -/
def PathCtx.pairSecond (first : PathCtx) (line : BitVec 512) (slot : Nat) (i : Instr) (s : State) : Out :=
  match s.pathCtx ⟨first.tid, first.gi, first.pi⟩, i.word, decode .group (lineSlot line (slot + 1)) with
  | some c, some (o1, n1, f1), .ok j =>
    match j.word with
    | some (o2, n2, f2) =>
      if linePair line slot && pairable o1 n1 f1 o2 n2 f2 && first.completed c && (c.contextCause o2 n2 f2).isNone && c.p.runs &&
          c.p.st != .parked && s.groupRuns c.t c.g && c.readiness o2 n2 f2 == .go then
        match c.issueOne j false with
        | .next s1 => .next (if s1.group c.tid c.gi = some c.g then s1 else s1.modCore c.t.core fun k => k.count c.t.crew 0x21 1)
        | o => o
      else .next s
    | none => .next s
  | _, _, _ => .next s

/-- What stands in the way of the content of a slot (R39, R40): the lowest cause, with 7 for a line whose line word is wrong; a
fill slot in such a line reports 7 (DESIGN CHOICE, assumption 49). -/
def PathCtx.slotFault (c : PathCtx) (line : BitVec 512) (word : BitVec 96) : Option DecodeError :=
  match decode .group word with
  | .error (.illegal k) => some (.illegal k)
  | .error .fill => some (if lineStampOk line then .fill else .illegal 7)
  | .ok i =>
    match i.word.bind fun w => c.contextCause w.1 w.2.1 w.2.2 with
    | some k => some (.illegal k)
    | none => if lineStampOk line then none else some (.illegal 7)

/-- A path stands at a slot of a line: issue it, with its pair (R19, R21, R39). -/
def PathCtx.issueAt (c : PathCtx) (line : BitVec 512) (slot : Nat) : Out :=
  let word := lineSlot line slot
  let asIssuer : State := { c.s with issuer := .path ⟨c.tid, c.gi, c.pi⟩ }
  match c.slotFault line word with
  | some .fill => settle (execFetchOverrun asIssuer)
  | some (.illegal k) => settle (execIllegalInstruction k word asIssuer)
  | none =>
    match decode .group word with
    | .error _ => .next c.s
    | .ok i =>
      match c.issueOne i true with
      | .next s => if linePair line slot then c.pairSecond line slot i s else .next s
      | o => o

/-- A path's turn: it issues if it may and its line is in the instruction cache; a missing line is fetched (R18). -/
def issuePath (r : PathRef) (s : State) : Out :=
  match s.pathCtx r with
  | none => .next s
  | some c =>
    if !(s.groupRuns c.t c.g && c.p.runs) || c.yields then .next s
    else match s.cachedLine c.t c.p.pc, slotOf c.p.pc with
      | some line, some slot => c.issueAt line slot
      | none, some _ => execLineFetch r 0 0 s
      | _, none => .next s

/-- What stands in the way of the content of a seat's slot (R39, R40): the lowest cause, with 7 for a line whose line word is
wrong. -/
def coxSlotFault (line : BitVec 512) (word : BitVec 96) : Option DecodeError :=
  match decode .cox word with
  | .error (.illegal k) => some (.illegal k)
  | .error .fill => some (if lineStampOk line then .fill else .illegal 7)
  | .ok _ => if lineStampOk line then none else some (.illegal 7)

/-- Whether a seat is stalled for something that is not free (R230). -/
def SeatCtx.stillStalled (c : SeatCtx) : Bool :=
  c.q.st == .stalled && (match c.q.waits with
    | some w => !c.s.freed c.tid c.t w
    | none => false)

/-- A turn of a seat whose instruction issued keeps its crew from being idle (R370); what it frees ends stalls (R230). -/
def Seat.afterTurn (q : Seat) (tid crew : Nat) : Out → Out
  | .next s =>
    let issued : Bool := match (s.team tid).bind Team.seat with
      | some r => r.issued != q.issued
      | none => true
    .next (if issued then s.modCrew crew fun k => { k with idleSince := s.clock } else s).endStalls
  | o => o

/-- A seat's turn (R232, R234): operations that a save removed are entered again first (R262); then it reads its line, whose parity
and stamp are checked, and issues. -/
def issueSeat (tid : Nat) (s : State) : Out :=
  match s.seatCtx tid with
  | none => .next s
  | some c =>
    let asIssuer : State := { s with issuer := .seat tid }
    let fail (code : BitVec 8) (detail : BitVec 128) : Out :=
      settle (c.fault code 0 (BitVec.ofNat 64 (lineAddr c.q.pc)) detail)
    if c.t.ended || c.t.status != .resident || !s.ownsCore c.t.crew c.t.core then .next s
    else match s.toEnter tid c.q with
    | some o => .next (if c.q.mayEnter then c.reenter o else s)
    | none =>
    if c.q.st == .trapped || c.q.st == .exited || c.stillStalled then .next s
    else match s.codeLine c.t c.q.pc, slotOf c.q.pc with
      | .error code, _ => fail code 0
      | .ok _, none => fail 0x02 0
      | .ok line, some slot =>
        let word := lineSlot line slot
        if !lineParityOk line then fail 0x13 (BitVec.ofNat 128 (9 + lineAddr c.q.pc * 2 ^ 64))
        else c.q.afterTurn tid c.t.crew (match coxSlotFault line word with
          | some .fill => settle (execFetchOverrun asIssuer)
          | some (.illegal k) => settle (execIllegalInstruction k word asIssuer)
          | none =>
            match decode .cox word with
            | .error _ => .next s
            | .ok i => settle (exec i asIssuer))

/-- Drop the entry that a list holds for an address of a crew. -/
def dropEntry (l : List TlbEntry) (crew va : Nat) : List TlbEntry :=
  match tlbFind l crew va with
  | some e => l.erase e
  | none => l

/-- A soft error strikes (R346, R347). A parity error of a translation entry drops it, and the access walks again (R345). -/
def softError (e : SoftError) (s : State) : State :=
  match e with
  | .corrected die code loc => s.corrected die code loc
  | .memory u => { s with poison := u :: s.poison }
  | .group g word loc => s.modGroup g.team g.group fun x => { x with broken := some (word, loc) }
  | .slot core slot loc => s.modCore core fun k => { k with slots := amod slot (fun x => { x with broken := some loc }) k.slots }
  | .sampler crew die loc => s.modCrew crew fun c =>
      { c with samplers := amod die (fun x => { x with broken := some loc }) c.samplers }
  | .tlb core crew va =>
      (s.corrected (dieOf core) 10 (BitVec.ofNat 56 va)).modCore core fun k => { k with tlb := dropEntry k.tlb crew va }
  | .tcache die crew va =>
      let u := s.corrected die 10 (BitVec.ofNat 56 va)
      u.setDie die { u.die die with tcache := dropEntry (u.die die).tcache crew va }

/-- Whether a slice may hold a line of which it fills a byte (R167, R170, R171): a home line, or a local copy of a
software-managed line, where the crew allocates; a replica that it holds already. -/
def State.mayFill (s : State) (k : LineKey) (pa : Nat) (perm : Perm) : Bool :=
  match k.place with
  | .home => s.allocates k.crew (s.homeDie pa) perm
  | .localDie d => s.allocates k.crew d perm && ((aget k s.lines).map Line.sm).getD (perm.sm || recCls ((aget k.tensor (s.crew k.crew).records).getD 0))
  | .replica _ => (aget k s.lines).isSome

/-- A slice fills one byte of a line that it holds or allocates, clean (R169, R180). -/
def fillByte (k : LineKey) (va : Nat) (s : State) : State :=
  match s.translateAt k.crew va with
  | .error _ => s
  | .ok e =>
    let pa := e.at_ va
    if 0x1000_0000_0000 ≤ pa || !s.lineHas k va || !s.paAllowed k.crew pa || !s.mayFill k pa e.perm then s else
    let l := (aget k s.lines).getD { sm := k.place != .home || e.perm.sm }
    if (aget va l.cells).isSome then s
    else { s with lines := aput k { l with wc := false, cells := aput va { pa := pa, val := s.lineByte k va pa, dirty := false } l.cells } s.lines }

/-! Cycles of a core and of a seat (R385) -/

/-- The reasons for which a path does not issue, by their selectors. -/
def PathCtx.stallReasons (c : PathCtx) : List Nat :=
  let d := c.ticked
  let next (p : Nat → Nat → Fields → Bool) : Bool := match c.nextInstr with
    | some (opc, fn, f) => p opc fn f
    | none => false
  let full (opc fn : Nat) : Bool :=
    (16 ≤ c.g.sbuf.length && ((opc == 0x80 && (fn == 1 || fn == 3 || fn == 5 || fn == 7)) || (opc == 0x90 && fn == 2))) ||
      (match counterOf opc fn with | some k => 255 ≤ c.g.counters.toArray.getD k 0 | none => false)
  let charge (b : Bool) (sel : Nat) : List Nat := if b then [sel] else []
  charge (next fun opc fn f => d.pendingClash (d.uses opc fn f) (opc == 0x00 && fn == 0x0D) == .wait) 0x10 ++ charge c.g.held 0x11 ++
    charge (next fun opc fn f => d.allocation opc fn f == .stalled) 0x13 ++ charge (c.p.st == .splitStalled) 0x14 ++
    charge (next fun opc fn _ => full opc fn) 0x15 ++ charge ((c.s.cachedLine c.t c.p.pc).isNone) 0x16 ++ charge (c.p.st == .parked) 0x17 ++
    charge (!c.p.runs || c.p.st == .handler || c.g.descheduled) 0x18

/-- The reason that a group is charged with: the first of the table that one of its paths has. -/
def stallOf (cs : List PathCtx) : Nat := (cs.flatMap PathCtx.stallReasons).foldl min 0x19

/-- The histogram bin of a number of eligible groups. -/
def eligibleBin (n : Nat) : Nat := if n = 0 then 0 else Nat.log2 n + 1

/-- The contexts of a group's paths. -/
def State.groupCtxs (s : State) (r : GroupRef) : List PathCtx := (List.range 8).filterMap fun pi => s.pathCtx ⟨r.team, r.group, pi⟩

/-- Whether a group has a path that can issue. -/
def State.eligible (s : State) (r : GroupRef) : Bool := (s.groupCtxs r).any fun c => s.groupRuns c.t c.g && c.ready

/-- The groups of a crew on a scheduler of a core. -/
def State.schedGroups (s : State) (crew core sched : Nat) : List GroupRef :=
  s.teams.flatMap fun e =>
    if e.2.core = core ∧ e.2.crew = crew ∧ (e.2.status = .resident ∨ e.2.status = .draining) then
      (List.range e.2.groups.length).filterMap fun gi =>
        if (e.2.groups[gi]?).any fun g => g.sched == sched && !g.ended then some ⟨e.1, gi⟩ else none
    else []

/-- What one scheduler charges in a cycle: a histogram bin, and where it has no eligible group the stall reason of its oldest group
(R67). -/
def State.charges (s : State) (crew core sched : Nat) : List Nat :=
  let gs := s.schedGroups crew core sched
  let n := (gs.filter s.eligible).length
  eligibleBin n :: (if n ≠ 0 then [] else [match bestOf (fun a b => s.ageOf a < s.ageOf b) gs with
    | some r => stallOf (s.groupCtxs r)
    | none => 0x19])

/-- A cycle of a core is counted in the bank of the crew that owns its octet (R385). -/
def countCycle (core : Nat) (s : State) : State :=
  match s.crews.find? fun e => s.ownsCore e.1 core with
  | none => s
  | some (crew, _) =>
    let sels := 0x22 :: [0, 1, 2, 3].flatMap (s.charges crew core)
    s.modCore core fun k => sels.foldl (fun k sel => k.count crew sel 1) k

/-- A cycle of a seat is counted while its crew owns the octet of its core (R385). -/
def countSeat (tid : Nat) (s : State) : State :=
  match s.team tid with
  | some t => if t.status = .resident ∧ s.ownsCore t.crew t.core then s.modSeat tid fun q => { q with cycles := q.cycles + 1 } else s
  | none => s


/-- A state in which loads are performed as they issue again. -/
def onTime : Out → Out
  | .next s => .next { s with late := false }
  | o => o

/-- One turn. -/
def runTurn (t : Turn) (s : State) : Out :=
  match t with
  | .issuePath r => issuePath r s
  | .issueLate r => onTime (issuePath r { s with late := true })
  | .perform g a => .next (s.performAccess g.team g.group a)
  | .schedule core sched => match s.picked core sched with
    | some r => issuePath r s
    | none => .next s
  | .countCycle core => .next (countCycle core s)
  | .countSeat tid => .next (countSeat tid s)
  | .issueSeat tid => issueSeat tid s
  | .event i => settle (exec i { s with issuer := .none })
  | .evict k => .next (s.evictLine k)
  | .fill k va => .next (fillByte k va s)
  | .sendSlot k => .next (s.sendSlot k)
  | .holdPacket p => .next (holdPacket p s)
  | .movePacket id => .next (movePacket id s)
  | .soft e => .next (softError e s)
  | .wait n => .next { s with clock := s.clock + n }

/-- Whether the turn is the one that powers the part. -/
def Turn.powersOn : Turn → Bool
  | .event .powerOnBoot => true
  | _ => false

/-- The next turn of the list; with none left one cycle passes. Without the 48 V input nothing runs but the power-on
(R404). -/
def nextTurn (s : State) : Out :=
  let s1 : State := { s with clock := s.clock + 1, fresh := s.fresh + 4 }
  match s.turns with
  | [] => .next s1
  | t :: rest => if s.boot = .unpowered ∧ !t.powersOn then .fault .unpowered else runTurn t { s1 with turns := rest }

/-- A heat row that gives everything of the package to crew 0, with the shortest heat (R363). -/
def openRow : BitVec 2048 := BitVec.ofNat 2048 0x3F0E

/-- A state in which the next turn issues a given instruction: a system crew 0 on the package, a grid of one team of one
group (and a seat for a cox word), its next line in the instruction cache with the word in slot 0 (assumption 6). -/
def placeWord (s : State) (nbits w : Nat) : State :=
  let word : BitVec 96 := BitVec.ofNat 96 (w % 2 ^ (8 * ((nbits + 7) / 8)))
  let nop : BitVec 96 := BitVec.ofNat 96 0x0038E000_00000000_00000000
  let line := makeLine [word, nop, nop, nop, nop] 1 0
  let entry : VAddr := 0x10000
  let cox : Bool := match decode .group word, decode .cox word with
    | .error _, .ok _ => true
    | _, _ => false
  let image : Image := { handle := 1, cls := 7, svn := 0, groupBase := entry, coxBase := entry, descs := [], entries := [entry], bursts := [] }
  let crew : Crew := { s.crew 0 with set := some 0, cls := 7, images := [image], savesize := 0x100000000 }
  let grid : Grid := { vf := 0, queue := 0, seq := 1, crew := 0, set := 0, image := 1, kdesc := 0, cdesc := none, gx := 1, gy := 1, arg0 := 0, arg1 := 0, prio := 0, det := false, resv := 0, nitem := 0, floors := [(1, 64, 64)], order := 0, st := .running, placed := 1 }
  let team : Team := { Team.start s.nextId 0 0 0 0 0 0 0 0 with
    floors := [(1, 64, 64)], groups := [Group.start 0 0 0 0 entry s.clock],
    seat := if cox then some (Seat.start 0 0 entry) else none }
  let tid := s.nextId + 1
  let s1 := (s.setCrew 0 crew).setHeat 0 { active := [openRow], current := openRow }
  let s2 := (s1.cacheLine team entry line).modCore 0 fun k => { k with
    tlb := { crew := 0, base := 0x10000, size := 0x10000, pa := 0x10000, perm := { r := true, w := false, x := true, c := true, sm := false, red := 0 } } :: k.tlb }
  { s2 with boot := .running, grids := s2.grids ++ [(s.nextId, grid)], teams := s2.teams ++ [(tid, team)],
            nextId := s.nextId + 2,
            turns := [if cox then .issueSeat tid else .issuePath ⟨tid, 0, 0⟩] }

end Sys2Proof.Machine
end

