-- ==== Sys2Proof/Safety.lean ====
section
/-! DEFINITION. The terms that claims use: steps that go on and runs made of them; who issues; what a group, a path and the
memory keep. -/

namespace Sys2Proof

open Machine

/-- A step goes on: it neither stops nor is refused. -/
def StepsTo (s t : State) : Prop := step s = .next t

/-- A state that steps reach from another. -/
inductive Reaches : State → State → Prop where
  | here (s : State) : Reaches s s
  | step {s t u : State} (h : StepsTo s t) (r : Reaches t u) : Reaches s u

/-- Safe for `k` steps: each of them goes on. -/
def SafeFor : Nat → State → Prop
  | 0, _ => True
  | k + 1, s => ∃ t, StepsTo s t ∧ SafeFor k t

namespace Machine

/-- The four memories stand in their canonical form: addresses strictly rising, and no cell that holds what an unlisted address
reads as. -/
structure State.MemoryForm (s : State) : Prop where
  hbm : s.hbm.wf = true
  host : s.hostMem.wf = true
  scratch : s.scratch.wf = true
  vault : s.vault.wf = true

/-- The path of a context issues: it is the issuer of the context's state, and the context is read from that state. -/
abbrev PathCtx.Issues (c : PathCtx) : Prop :=
  c.s.issuer = .path ⟨c.tid, c.gi, c.pi⟩ ∧ c.s.pathCtx ⟨c.tid, c.gi, c.pi⟩ = some c

/-- The seat of a context issues. -/
abbrev SeatCtx.Issues (c : SeatCtx) : Prop := c.s.issuer = .seat c.tid ∧ c.s.seatCtx c.tid = some c

/-- A state with the group of the context replaced, two free values used up (assumption 3), and nothing else changed. -/
def State.withGroup (s : State) (c : PathCtx) (g : Group) : State :=
  ({ s with fresh := s.fresh + 2 } : State).setGroup c.tid c.gi g

/-- The state after an instruction of a path that leaves its group as `g` and the rest of the state as in `s`: the path
fuses where it meets another (R138). -/
def PathCtx.doneIn (c : PathCtx) (s : State) (g : Group) : State := (s.withGroup c g).fuse c.tid c.gi c.pi

/-- The state after an instruction of a path that changes its group alone. -/
def PathCtx.done (c : PathCtx) (g : Group) : State := c.doneIn c.s g

/-- The path of a context after an instruction that goes on at `pc`: link register, lanes and debug holds as before, the skip
shadow one lower (R144). -/
def PathCtx.at_ (c : PathCtx) (pc : VAddr) : Option Path := some (c.p.advanced pc c.s.clock)

/-- The lanes of a vector register; an unmapped one reads zero (R61). -/
def Group.lanesOf (g : Group) (r : Nat) : Lanes := ((aget r g.vregs).map VReg.lanes).getD (Lanes.all 0)

/-- The number that `n` registers from `r` hold in a lane, the first register lowest (R88). -/
def Group.laneNum (g : Group) (r l : Nat) : Nat → Nat
  | 0 => 0
  | n + 1 => ((g.lanesOf r).get l).toNat + 2 ^ 32 * g.laneNum (r + 1) l n

/-- A uniform register as it stands. -/
def Group.uniOf (g : Group) (r : Nat) : Word64 := g.g.toArray.getD r 0

/-- A predicate as it stands. -/
def Group.predOf (g : Group) (n : Nat) : Mask := g.preds.toArray.getD n 0

/-- What an instruction of path `pi` leaves of its group: every vector register outside `vs`, every uniform register outside
`gs`, every predicate outside `ps`, every flag outside `fl`, every other path; and all of the rest but what is in flight
(R71) and the hold of the switch marker (R73). Flags are only ever set (R74). -/
structure Group.Frame (g g' : Group) (pi : Nat) (vs gs ps : List Nat) (fl : FlagSet) : Prop where
  vregs : ∀ r, r ∉ vs → aget r g'.vregs = aget r g.vregs
  uniforms : ∀ r, r ∉ gs → g'.uniOf r = g.uniOf r
  predicates : ∀ n, n ∉ ps → g'.predOf n = g.predOf n
  flags : ∃ set, g'.flags = g.flags ||| set ∧ set &&& ~~~fl = 0
  paths : ∀ j, j ≠ pi → g'.path j = g.path j
  rest : ∃ vr un pr fg pa inf hd,
    g' = { g with vregs := vr, g := un, preds := pr, flags := fg, paths := pa, inflight := inf, held := hd }

/-- Every byte of memory reads the same in two states: memory of the package and of the host (R155), scratch, vault (R154),
every byte of a tile line that is held (R168), every private byte of a child view (R265); and a byte read physically, outside the
windows, whose bytes are a peer's (assumption 11). -/
structure SameMemory (s t : State) : Prop where
  hbm : ∀ pa, t.hbm.read pa = s.hbm.read pa
  host : ∀ pa, t.hostMem.read pa = s.hostMem.read pa
  scratch : ∀ x, t.scratch.read x = s.scratch.read x
  vault : ∀ x, t.vault.read x = s.vault.read x
  line : ∀ k, aget k t.lines = aget k s.lines
  granules : ∀ crew, (t.crew crew).granules = (s.crew crew).granules
  physical : ∀ pa, pa < 0x1000_0000_0000 ∨ 0xF_0000_0000_0000 ≤ pa → t.physRead pa = s.physRead pa

/-- A kind of tracing writes nothing for a crew on a die (R379, R388). -/
def TraceOff (s : State) (crew die bit : Nat) : Prop :=
  ∀ r, aget die (s.crew crew).rings = some r → (r.on && r.ctl.getLsbD bit) = false

/-- No other path of a group stands where path `pi` stands, so that it fuses with none (R138). -/
def Group.Apart (g : Group) (pi : Nat) : Prop :=
  ∀ p, g.path pi = some p → ∀ j q, j ≠ pi → g.path j = some q → q.pc ≠ p.pc

/-- No trace packet can come of a fusion: the path meets none, or branches are not traced. -/
def PathCtx.Quiet (c : PathCtx) (g : Group) : Prop :=
  g.Apart c.pi ∨ TraceOff c.s c.t.crew (dieOf c.t.core) 0

/-- What an instruction of a path keeps that goes on at `pc` with its group as `g`: the frame of the group, and every byte of
memory (a fusion that is traced writes its packet into the trace ring, R382). -/
structure PathCtx.Kept (c : PathCtx) (g : Group) (pc : VAddr) (vs gs ps : List Nat) (fl : FlagSet) : Prop where
  goes : g.path c.pi = c.at_ pc
  frame : c.g.Frame g c.pi vs gs ps fl
  memory : c.Quiet g → SameMemory c.s (c.done g)

/-- In the registers `vs` the lanes outside a mask keep what they held (R26). -/
def PathCtx.LanesKept (c : PathCtx) (g : Group) (m : Mask) (vs : List Nat) : Prop :=
  ∀ r ∈ vs, ∀ l < 32, m.getLsbD l = false → (g.lanesOf r).get l = (c.g.lanesOf r).get l

/-- The vector registers that an operand code names as the destination of `n` registers: none for a uniform register or a
dead result (R23, R28). -/
def destVec (f : Fields) (n : Nat) : List Nat := if f.dead || isUni f.d then [] else upFrom f.d.toNat n

/-- The destination registers of a form whose destination is always a vector register (R108). -/
def destRun (f : Fields) (n : Nat) : List Nat := if f.dead then [] else upFrom f.d.toNat n

/-- The destination of a form whose destination is always a uniform register (R83, R84, R115). -/
def destG (f : Fields) : List Nat := if f.dead then [] else [f.d.toNat - 0xC0]

/-- The vector registers that an instruction's LR bits free (R27). -/
def freed (i : Instr) : List Nat :=
  match i.word with
  | some (opc, fn, f) => lrRegs opc fn f
  | none => []

/-- Those of `n` destination registers that the instruction's own LR bits do not free first (R62). -/
def destKept (free : List Nat) (f : Fields) (n : Nat) : List Nat := (destRun f n).filter fun r => !free.contains r

/-- The uniform register that the destination code names. -/
def destUni (f : Fields) : List Nat := if !f.dead && isUni f.d then [f.d.toNat - 0xC0] else []

/-- The predicate that the destination code names. -/
def destPred (f : Fields) : List Nat := if f.dead then [] else [f.d.toNat]

/-! Integer forms: destination registers, flags, operands and results -/

/-- The integer forms that write one value per lane, or one uniform value (R92 to R103), each with the registers that its
destination takes and the flags that its rule lets it set. -/
def integerForms (f : Fields) : List (Instr × Nat × FlagSet) :=
  let n := f.ity.regs
  [(.add f, n, Flag.sat), (.sub f, n, Flag.sat), (.min f, n, 0), (.max f, n, 0), (.abs f, n, Flag.ovf ||| Flag.sat),
   (.neg f, n, Flag.ovf ||| Flag.sat), (.mul f, n, Flag.sat), (.mulhi f, n, 0), (.mulw f, f.ity.regs2, 0),
   (.mad f, n, Flag.sat), (.madw f, f.ity.regs2, 0), (.div f, n, Flag.div ||| Flag.ovf), (.rem f, n, Flag.div),
   (.and f, n, 0), (.or f, n, 0), (.xor f, n, 0), (.not f, n, 0), (.lop3 f, n, 0), (.shl f, n, 0), (.shr f, n, 0),
   (.sar f, n, 0), (.fshl f, n, 0), (.fshr f, n, 0), (.rsh f, n, 0), (.popc f, 1, 0), (.clz f, 1, 0), (.ctz f, 1, 0),
   (.brev f, n, 0), (.bfx f, n, 0), (.bfi f, n, 0), (.sel f, n, 0), (.lea f, 1, 0), (.lea64 f, 2, 0)]

/-- The packed forms (R104 to R107). -/
def packedForms (f : Fields) : List (Instr × Nat × FlagSet) :=
  [(.padd f, 1, Flag.sat), (.psub f, 1, Flag.sat), (.pmul f, 1, Flag.sat), (.pmin f, 1, Flag.sat), (.pmax f, 1, Flag.sat),
   (.mac2 f, 1, Flag.sat), (.dot4 f, 1, Flag.sat), (.packs f, 1, Flag.sat), (.unpk f, 1, 0)]

/-- The flags of the floating-point forms that do not divide (R120). -/
abbrev Flag.float : FlagSet := Flag.inv ||| Flag.ovf ||| Flag.under ||| Flag.inexact

/-- The floating-point and conversion forms that write a value (R123 to R133). -/
def floatForms (f : Fields) : List (Instr × Nat × FlagSet) :=
  [(.fAdd f, 1, Flag.float), (.fSub f, 1, Flag.float), (.fMul f, 1, Flag.float), (.fma f, 1, Flag.float),
   (.fMin f, 1, Flag.inv), (.fMax f, 1, Flag.inv), (.fdot2 f, 1, Flag.float), (.scale f, 1, Flag.float),
   (.getexp f, 1, Flag.inv), (.getman f, 1, Flag.float), (.rcp f, 1, Flag.float ||| Flag.div),
   (.rsq f, 1, Flag.float ||| Flag.div), (.sqrt f, 1, Flag.float), (.exp2 f, 1, Flag.float),
   (.log2 f, 1, Flag.float ||| Flag.div), (.sinpi f, 1, Flag.float), (.cospi f, 1, Flag.float),
   (.cvt f, f.fty.regs, Flag.float), (.fpack f, 1, Flag.float), (.funpk f, 1, Flag.float), (.ternpk f, 1, 0),
   (.ternunpk f, 1, Flag.opinv)]

/-- The forms that write a predicate, lane by lane, with the flags that they may set (R85, R102, R115, R127). -/
def predicateForms (f : Fields) : List (Instr × FlagSet) :=
  [(.pand f, 0), (.por f, 0), (.pxor f, 0), (.pandn f, 0), (.ptog f, 0), (.gtop f, 0), (.voteAny f, 0), (.voteAll f, 0),
   (.cmpEq f, 0), (.cmpNe f, 0), (.cmpLt f, 0), (.cmpLe f, 0), (.cmpGt f, 0), (.cmpGe f, 0), (.fCmpEq f, Flag.inv),
   (.fCmpNe f, Flag.inv), (.fCmpLt f, Flag.inv), (.fCmpLe f, Flag.inv), (.fCmpGt f, Flag.inv), (.fCmpGe f, Flag.inv),
   (.fCmpUn f, Flag.inv), (.fclass f, 0)]

/-- Operand A of a lane as an integer of the form's type (R88). -/
def PathCtx.intA (c : PathCtx) (f : Fields) (l : Nat) : Int := readTy f.ity (c.laneOp 0 f.sa f.ity.regs l)

/-- Operand B, a register or the immediate (R30, R88). -/
def PathCtx.intB (c : PathCtx) (f : Fields) (l : Nat) : Int :=
  readTy f.ity (if f.useImm then immNat f.ity f.imm else c.laneOp 1 f.sb f.ity.regs l)

/-- Operand C. -/
def PathCtx.intC (c : PathCtx) (f : Fields) (l : Nat) : Int := readTy f.ity (c.laneOp 2 f.sc f.ity.regs l)

/-- Operand C at twice the type's width (R92). -/
def PathCtx.intWideC (c : PathCtx) (f : Fields) (l : Nat) : Int :=
  readInt (2 * f.ity.width) f.ity.signed (c.laneOp 2 f.sc f.ity.regs2 l)

/-- `r` is the result that an exact integer `x` gives at a width and sign (R89, R93): clamped to the range under `.sat`,
else the value of the range that is congruent to `x` modulo 2 to the width. -/
def Reduces (w : Nat) (signed sat : Bool) (x r : Int) : Prop :=
  if sat then r = max (minInt w signed) (min (maxInt w signed) x)
  else minInt w signed ≤ r ∧ r ≤ maxInt w signed ∧ (r - x) % 2 ^ w = 0

/-- The destination of `n` registers holds `r l` in each lane `l` of A, extended (R88), or `r 0` in a uniform register of an
instruction that takes effect (R79). A dead result says nothing (R28). -/
def PathCtx.DestIs (c : PathCtx) (g : Group) (f : Fields) (n : Nat) (r : Nat → Int) : Prop :=
  f.dead = false →
    (isUni f.d = false → ∀ l < 32, (c.active f).getLsbD l = true → g.laneNum f.d.toNat l n = (r l % 2 ^ (32 * n)).toNat) ∧
    (isUni f.d = true → c.effect f = true → g.uniOf (f.d.toNat - 0xC0) = BitVec.ofInt 64 (r 0))

/-- A lane that a lane-wise instruction computes: lane 0 of one that writes a uniform register and takes effect, else each lane of
A (R79). -/
def PathCtx.Acts (c : PathCtx) (f : Fields) (l : Nat) : Prop :=
  if isUni f.d = true ∧ f.dead = false then l = 0 ∧ c.effect f = true else l < 32 ∧ (c.active f).getLsbD l = true

/-- A flag is set where a computed lane meets a condition, and else stays as it was (R74, R79). -/
def PathCtx.Sets (c : PathCtx) (g : Group) (f : Fields) (fl : FlagSet) (p : Nat → Prop) : Prop :=
  ((∃ l, c.Acts f l ∧ p l) → g.flags &&& fl = fl) ∧ ((∀ l, c.Acts f l → ¬p l) → g.flags &&& fl = c.g.flags &&& fl)

/-- The exact results of the arithmetic forms of R93: the instruction, the registers and width of its result, whether `.sat`
may apply, and the exact value in a lane. -/
def arithmetic (c : PathCtx) (f : Fields) : List (Instr × Nat × Nat × Bool × (Nat → Int)) :=
  let n := f.ity.regs
  let w := f.ity.width
  let a := c.intA f
  let b := c.intB f
  [(.add f, n, w, f.bit7, fun l => a l + b l),
   (.sub f, n, w, f.bit7, fun l => a l - b l),
   (.min f, n, w, false, fun l => min (a l) (b l)),
   (.max f, n, w, false, fun l => max (a l) (b l)),
   (.abs f, n, w, f.bit7, fun l => if a l < 0 then -a l else a l),
   (.neg f, n, w, f.bit7, fun l => -a l),
   (.mul f, n, w, f.bit7, fun l => a l * b l),
   (.mulhi f, n, w, false, fun l => a l * b l / 2 ^ w),
   (.mulw f, f.ity.regs2, 2 * w, false, fun l => a l * b l),
   (.mad f, n, w, f.bit7, fun l => a l * b l + c.intC f l),
   (.madw f, f.ity.regs2, 2 * w, false, fun l => a l * b l + c.intWideC f l)]

/-- Operand A of a lane as an unsigned number of the type's width. -/
def PathCtx.natA (c : PathCtx) (f : Fields) (l : Nat) : Nat := c.laneOp 0 f.sa f.ity.regs l % 2 ^ f.ity.width

/-- Operand B, a register or the immediate, as an unsigned number of the type's width. -/
def PathCtx.natB (c : PathCtx) (f : Fields) (l : Nat) : Nat :=
  (if f.useImm then immNat f.ity f.imm else c.laneOp 1 f.sb f.ity.regs l) % 2 ^ f.ity.width

/-- Operand C as an unsigned number of the type's width. -/
def PathCtx.natC (c : PathCtx) (f : Fields) (l : Nat) : Nat := c.laneOp 2 f.sc f.ity.regs l % 2 ^ f.ity.width

/-- The shift count of a lane: bits [7:0] of operand B or of the immediate (R98). -/
def PathCtx.countB (c : PathCtx) (f : Fields) (l : Nat) : Nat := (if f.useImm then f.imm.toNat else c.laneOp 1 f.sb 1 l) % 256

/-- The shift count of a lane that SC names. -/
def PathCtx.countC (c : PathCtx) (f : Fields) (l : Nat) : Nat := c.laneOp 2 f.sc 1 l % 256

/-- The exact results of the shifts (R98, R99) and of division (R95). -/
def shiftsAndDivision (c : PathCtx) (f : Fields) : List (Instr × (Nat → Int)) :=
  let w := f.ity.width
  let a := c.natA f
  let x := c.intA f
  let y := c.intB f
  let least (l : Nat) : Bool := f.ity.signed && x l == -(2 ^ (w - 1)) && y l == -1
  [(.shl f, fun l => if w ≤ c.countB f l then 0 else a l * 2 ^ c.countB f l % 2 ^ w),
   (.shr f, fun l => if w ≤ c.countB f l then 0 else a l / 2 ^ c.countB f l),
   (.sar f, fun l => x l / 2 ^ min (c.countB f l) (w - 1)),
   (.fshl f, fun l => (a l * 2 ^ w + c.natB f l) * 2 ^ (c.countC f l % w) / 2 ^ w % 2 ^ w),
   (.fshr f, fun l => (a l * 2 ^ w + c.natB f l) / 2 ^ (c.countC f l % w) % 2 ^ w),
   (.div f, fun l => if y l = 0 then 0 else if least l then x l else (x l).tdiv (y l)),
   (.rem f, fun l => if y l = 0 then 0 else if least l then 0 else (x l).tmod (y l))]

/-- The bitwise forms (R97): what bit of the result the bits of the sources give. -/
def bitwise (f : Fields) : List (Instr × (Bool → Bool → Bool → Bool)) :=
  [(.and f, fun a b _ => a && b), (.or f, fun a b _ => a || b), (.xor f, fun a b _ => Bool.xor a b), (.not f, fun a _ _ => !a),
   (.lop3 f, fun a b d => (f.immBits 0 8).testBit (4 * a.toNat + 2 * b.toNat + d.toNat))]

/-- The predicate that the predicate and integer comparison forms write in a lane (R85, R102). -/
def predicateResults (c : PathCtx) (f : Fields) : List (Instr × (Nat → Bool)) :=
  let a (l : Nat) : Bool := (c.pred 0 f.sa.toNat).getLsbD l
  let b (l : Nat) : Bool := (if f.useImm then f.imm else c.pred 1 f.sb.toNat).getLsbD l
  let x := c.intA f
  let y := c.intB f
  [(.pand f, fun l => a l && b l), (.por f, fun l => a l || b l), (.pxor f, fun l => Bool.xor (a l) (b l)),
   (.pandn f, fun l => a l && !b l), (.ptog f, fun l => !a l),
   (.gtop f, fun l => (if f.useImm then f.imm else (c.uni 1 f.sb).setWidth 32).getLsbD l),
   (.cmpEq f, fun l => x l == y l), (.cmpNe f, fun l => x l != y l), (.cmpLt f, fun l => x l < y l),
   (.cmpLe f, fun l => x l ≤ y l), (.cmpGt f, fun l => y l < x l), (.cmpGe f, fun l => y l ≤ x l)]

/-! Seats -/

/-- A c register of a seat as it stands. -/
def Seat.regOf (q : Seat) (r : Nat) : Word64 := q.c.toArray.getD r 0

/-- What an instruction leaves of its seat: every c register outside `cs`, every predicate outside `ps`, every flag outside
`fl`, and all of the rest but the program counter, the state, what it waits for and the count of instructions issued (R385). -/
structure Seat.Frame (q q' : Seat) (cs ps : List Nat) (fl : FlagSet) : Prop where
  regs : ∀ r, r ∉ cs → q'.regOf r = q.regOf r
  predicates : ∀ n, n ∉ ps → q'.preds.getLsbD n = q.preds.getLsbD n
  flags : ∃ set, q'.flags = q.flags ||| set ∧ set &&& ~~~fl = 0
  rest : ∃ cr pr fg pc st ws n, q' = { q with c := cr, preds := pr, flags := fg, pc := pc, st := st, waits := ws, issued := n }

/-- The state with the seat of a context replaced, and nothing else changed. -/
def SeatCtx.done (c : SeatCtx) (q : Seat) : State := c.s.modSeat c.tid fun _ => q

/-! Control transfers -/

/-- The transfers that move a whole path: whether the word is one, its target, and the link register it leaves (R143, R145,
R147). -/
def wholeTransfers (c : PathCtx) (f : Fields) : List (Instr × Bool × Word64 × VAddr) :=
  [(.brau f, true, directTarget c.p.pc f.imm, c.p.lk),
   (.call f, true, directTarget c.p.pc f.imm, returnSlot c.p.pc),
   (.ret f, true, c.p.lk.setWidth 64, c.p.lk),
   (.jmpi f, isUni f.sa, c.uni 0 f.sa, c.p.lk),
   (.calli f, isUni f.sa, c.uni 0 f.sa, returnSlot c.p.pc)]

/-- The fault of a transfer whose target is bad (R20, R145). -/
def PathCtx.badTarget (c : PathCtx) (code : BitVec 8) (mask : Mask) (target : Word64) : State :=
  c.s.takeFault c.tid c.gi c.pi { code := code, mask := mask, addr := target, pc := c.p.pc, rpc := c.p.pc }

/-- The path has moved whole to `pc` with link register `lk`, and the transfer is traced (R143, R383). -/
def PathCtx.MovesTo (c : PathCtx) (o : Out) (pc lk : VAddr) (gs : List Nat) : Prop :=
  ∃ g, o = .next (c.doneIn (c.branchTrace c.s c.p.mask pc 1) g) ∧
    g.path c.pi = some (({ c.p with lk := lk } : Path).advanced pc c.s.clock) ∧ c.g.Frame g c.pi [] gs [] 0 ∧
    (TraceOff c.s c.t.crew (dieOf c.t.core) 0 → SameMemory c.s (c.doneIn (c.branchTrace c.s c.p.mask pc 1) g))

/-- The path falls through to the next slot, and that is traced. -/
def PathCtx.FallsThrough (c : PathCtx) (o : Out) (gs : List Nat) : Prop :=
  ∃ g, o = .next (c.doneIn (c.branchTrace c.s 0 (nextSlot c.p.pc) 0) g) ∧ g.path c.pi = c.at_ (nextSlot c.p.pc) ∧
    c.g.Frame g c.pi [] gs [] 0 ∧
    (TraceOff c.s c.t.crew (dieOf c.t.core) 0 → SameMemory c.s (c.doneIn (c.branchTrace c.s 0 (nextSlot c.p.pc) 0) g))

/-- The lanes that a `refill` releases: active lanes that its predicate names or that hold no item (R149). -/
def PathCtx.refillOut (c : PathCtx) (f : Fields) : Mask :=
  c.active f &&& maskOf fun l => (c.pred 0 f.sa.toNat).getLsbD l || c.g.item.get l == BitVec.allOnes 32

/-- The lanes of the group that are vacant once a `refill` has released its lanes. -/
def PathCtx.refillVacant (c : PathCtx) (f : Fields) : Mask :=
  ~~~(c.g.setPath c.pi (some { c.p with mask := c.p.mask &&& ~~~c.refillOut f })).live

/-! Accesses to memory -/

/-- The vector registers of a destination. -/
def Dest.vecs : Dest → List Nat
  | .vec r n => upFrom r n
  | _ => []

/-- An access after its issue: its lanes as far as they have come, each with its number, address and target as computed; lanes
with a substituted value follow (R164). -/
def Access.Became (a b : Access) (subs : List LaneAcc) : Prop :=
  ∃ ls fl, b = { a with lanes := ls ++ subs, flags := fl } ∧
    ls.map (fun l => (l.lane, l.addr, l.target)) = a.lanes.map fun l => (l.lane, l.addr, l.target)

/-- The lanes of `ldt` or `stt` where no fault takes the whole instruction (R161, R177). -/
def PathCtx.tensor (c : PathCtx) (f : Fields) (store : Bool) : Option (List LaneAcc × List LaneAcc) :=
  if c.active f = 0 then some ([], [])
  else match c.tensorLanes f (c.active f) store with
    | .ok ls => some ls
    | .error _ => none

/-- The access of a path as it stands before any lane is tried. -/
def PathCtx.access (c : PathCtx) (kind : AccKind) (n : Nat) (lanes : List LaneAcc) : Access :=
  { id := c.s.nextId, kind := kind, pc := c.p.pc, path := c.pi, bytes := n, lanes := lanes }

/-- The load forms (R174 to R176, R179, R200): the access that they issue, the registers that their LR bits free, and the lanes
that take a substituted value. -/
def loadForms (c : PathCtx) (f : Fields) : List (Instr × Access × List Nat × List LaneAcc) :=
  let n := 2 ^ f.wcode
  let load (lanes : List LaneAcc) : Access :=
    { c.access .load n lanes with sext := f.sext, dest := vecDest f f.memRegs, dead := f.dead }
  let flat := c.flatLanes f n (c.active f) (offset f)
  let one := if c.effect f then [flatLane n 0 (c.flatAddr f (offset f) 0)] else []
  [(.ld f, load flat, freed (.ld f), []), (.lds f, load (c.scratchLanes f), freed (.lds f), []),
   (.ldv f, load (c.vaultLanes f false), freed (.ldv f), []),
   (.ldg f, { load one with dest := if f.dead then .none else .uni (f.d.toNat - 0xC0), uniformEffect := true }, [], []),
   (.ldacq f, { c.access .load f.oty.bytes (c.flatLanes f f.oty.bytes (c.actingMask f) (offset f)) with
     dest := orderDest f, dead := f.dead, acq := true, uniformEffect := once f }, freed (.ldacq f), [])] ++
  match c.tensor f false with
  | some ls => [(.ldt f, load ls.1, c.coordFree f ++ freed (.ldt f), ls.2)]
  | none => []

/-- The store forms (R174, R175, R178, R200), each lane with the data that it writes. -/
def storeForms (c : PathCtx) (f : Fields) : List (Instr × Access × List Nat) :=
  let n := 2 ^ f.wcode
  let store (n k : Nat) (lanes : List LaneAcc) : Access :=
    c.access .store n (lanes.map fun l => { l with data := c.laneOp 2 f.sc k l.lane % 2 ^ (8 * n) })
  let flat (n : Nat) := c.flatLanes f n (c.active f) (offset f)
  let plain (lanes : List LaneAcc) : Access := { store n f.memRegs lanes with na := f.policy == 2 }
  [(.st f, plain (flat n), freed (.st f)), (.sts f, plain (c.scratchLanes f), freed (.sts f)),
   (.stv f, plain (c.vaultLanes f true), freed (.stv f)),
   (.strel f, { store f.oty.bytes f.oty.regs (flat f.oty.bytes) with rel := Scope.ofCode f.scopeCode }, freed (.strel f))] ++
  match c.tensor f true with
  | some ls => [(.stt f, plain ls.1, c.coordFree f ++ freed (.stt f))]
  | none => []

/-- The atomic forms with integer data (R200): the number of each, and the value that it leaves where it finds `o`, `b` being
SB or the immediate and `d` SC. -/
def atomicForms (f : Fields) : List (Instr × Nat × (Nat → Nat → Nat → Nat)) :=
  let w := 8 * f.oty.bytes
  let x (n : Nat) : Int := readInt w (f.oty == .s32 || f.oty == .s64) n
  [(.atomAdd f, 3, fun o b _ => (o + b) % 2 ^ w), (.atomMin f, 4, fun o b _ => if x o ≤ x b then o else b),
   (.atomMax f, 5, fun o b _ => if x o ≤ x b then b else o), (.atomAnd f, 6, fun o b _ => Nat.land o b),
   (.atomOr f, 7, fun o b _ => Nat.lor o b), (.atomXor f, 8, fun o b _ => Nat.xor o b), (.atomExch f, 9, fun _ b _ => b),
   (.cas f, 10, fun o b d => if o = b then d else o)]

/-- The access of an atomic form. -/
def PathCtx.atomicAccess (c : PathCtx) (fn : Nat) (f : Fields) : Access :=
  let n := f.oty.bytes
  let b := if f.useImm then fun _ => orderImm f.oty f.imm else c.laneOp 1 f.sb f.oty.regs
  { c.access (.atomic fn (f.md.extractLsb' 5 3).toNat) n ((c.flatLanes f n (c.actingMask f) 0).map fun l =>
      { l with data := b l.lane % 2 ^ (8 * n), data2 := c.laneOp 2 f.sc f.oty.regs l.lane % 2 ^ (8 * n) }) with
    sext := f.oty == .s32, dest := orderDest f, dead := f.dead, acq := f.order % 2 == 1, uniformEffect := once f }

/-- What an instruction leaves of its group that puts an access into flight: its destination is pending (R72), and every
register that is neither the destination nor freed, every uniform register, predicate, flag and other path is as before. -/
structure PathCtx.InFlight (c : PathCtx) (g : Group) (a : Access) (free : List Nat) : Prop where
  goes : g.path c.pi = c.at_ (nextSlot c.p.pc)
  pending : ∀ r ∈ a.dest.vecs, (aget r g.vregs).map VReg.pending = some true
  lanes : ∀ r, r ∉ free → g.lanesOf r = c.g.lanesOf r
  uniform : ∀ r < 64, g.gPend.getLsbD r = (c.g.gPend.getLsbD r || a.dest == .uni r)
  frame : c.g.Frame { g with pend := c.g.pend, gPend := c.g.gPend } c.pi (free ++ a.dest.vecs) [] [] 0

/-- The line through which a lane is performed: that of its die's loads, or the home of an atomic (R166, R167, R191). -/
def PathCtx.lineFor (c : PathCtx) (need : Need) (l : LaneAcc) (e : TlbEntry) (pa : Nat) : LineKey :=
  let h := c.s.lineHead c.t l.target pa e.perm
  if need = .read then c.s.accessKey c.t l.target h.1 h.2 false
  else keyOf c.t.crew (c.s.viewOf c.t.view l.target h.1 h.2) l.target .home

/-- The access of a lane to a global address is plain: no older load of the lane at its bytes waits (R185), its translation stands
in the TLB, its page permits it, its bytes are neither poisoned nor a peer's, and a load is not one that issues late (R186). -/
structure PathCtx.Plain (c : PathCtx) (need : Need) (a : Access) (l : LaneAcc) (e : TlbEntry) (pa : Nat) : Prop where
  walk : l.st = .walk
  first : l.behindLoad c.g.own a = false
  early : need = .read → c.s.late = false
  line : (match l.target with | .line _ _ _ _ _ _ _ => true | _ => false) = true
  entry : c.s.tlb c.t.core c.t.crew l.addr = some e
  allowed : c.s.permitted c.t.crew need e l.addr = .ok pa
  clean : c.s.linePoison (c.lineFor need l e pa) l.addr pa a.bytes = none
  own : ∀ k, c.s.paClass pa ≠ .window k

/-- The group's own byte of an older buffered store that a load takes, else the byte behind (R178, R185). -/
def PathCtx.ownOr (c : PathCtx) (a : Access) (l : LaneAcc) (j : Nat) (b : Byte) : Byte :=
  (forwarded (olderStores c.g.own a) (if a.uniformEffect then none else some l.lane) l.target (l.addr + j)).getD b

/-! What arrives at a group -/

/-- Whether a lane of a store of `n` bytes covers a byte of scratch, of a vault, or of a line. -/
def LaneAcc.onScratch (l : LaneAcc) (n x : Nat) : Bool :=
  match l.target with
  | .scratch c => c ≤ x && x < c + n
  | _ => false

/-- The same of a vault byte. -/
def LaneAcc.onVault (l : LaneAcc) (n x : Nat) : Bool :=
  match l.target with
  | .vault v => v ≤ x && x < v + n
  | _ => false

/-- The same of a byte of a line by its virtual address. -/
def LaneAcc.onLine (s : State) (t : Team) (n : Nat) (k : LineKey) (va : Nat) (l : LaneAcc) : Bool :=
  match l.target with
  | .line _ _ _ _ _ _ _ => s.storeKey t l == k && l.addr ≤ va && va < l.addr + n
  | _ => false

/-- The start of the bytes that a scratch or vault lane writes. -/
def LaneAcc.cell (l : LaneAcc) : Nat :=
  match l.target with
  | .scratch c => c
  | .vault v => v
  | _ => l.addr

/-- What a line holds at a virtual address: the physical address, the byte, and whether it is dirty. -/
def State.held (s : State) (k : LineKey) (va : Nat) : Option (Nat × Byte × Bool) :=
  (aget k s.lines).bind fun l => (aget va l.cells).map fun b => (b.pa, b.val, b.dirty)

/-- Lanes of an access of `n` bytes have been performed: each byte that some lane covers holds the byte of the last of them,
every other byte of scratch, vaults and lines is as it was, and memory behind the lines is untouched (R175, R190, R167). -/
structure Performed (s s' : State) (t : Team) (n : Nat) (ls : List LaneAcc) : Prop where
  scratch : ∀ x, s'.scratch.read x = match ls.reverse.find? fun l => l.onScratch n x with
    | some l => dataByte l.data (x - l.cell)
    | none => s.scratch.read x
  vault : ∀ x, s'.vault.read x = match ls.reverse.find? fun l => l.onVault n x with
    | some l => dataByte l.data (x - l.cell)
    | none => s.vault.read x
  line : ∀ k va, s'.held k va = match ls.reverse.find? fun l => l.onLine s t n k va with
    | some l => some (l.pa + (va - l.addr), dataByte l.data (va - l.addr), true)
    | none => s.held k va
  hbm : s'.hbm = s.hbm
  host : s'.hostMem = s.hostMem

/-! Barriers and channels -/

/-- A barrier of a team as it stands. -/
def Team.bar (t : Team) (b : Nat) : Barrier := t.barriers.toArray.getD b {}

/-- Whether an arrival of a group is already counted in the current phase of a barrier (R202). -/
def PathCtx.arrived (c : PathCtx) (b : Nat) : Bool :=
  (c.t.bar b).arrived.getLsbD c.gi || (c.g.owed.toArray.getD b false && c.g.lastPhase.toArray.getD b 0 == (c.t.bar b).phase)

/-- The phase mask that an arrival leaves (R202): the first of a phase installs its own. -/
def PathCtx.phaseMask (c : PathCtx) (f : Fields) : BitVec 4 :=
  if (c.t.bar (barOf f)).arrived = 0 then roleMask f else (c.t.bar (barOf f)).mask

/-- A first arrival at barrier `b` of the form: it is noted in the group, and counted where the phase mask takes the group in; all
other barriers and groups stay (R202). -/
structure PathCtx.Arrives (c : PathCtx) (f : Fields) (t : Team) (g : Group) : Prop where
  bar : t.bar (barOf f) = { c.t.bar (barOf f) with
    mask := c.phaseMask f
    arrived := if c.t.masked c.g (c.phaseMask f) then (c.t.bar (barOf f)).arrived ||| BitVec.ofNat 32 (2 ^ c.gi)
      else (c.t.bar (barOf f)).arrived }
  others : ∀ b, b ≠ barOf f → t.bar b = c.t.bar b
  owed : ∀ b, g.owed.toArray.getD b false = if b = barOf f then true else c.g.owed.toArray.getD b false
  last : ∀ b, g.lastPhase.toArray.getD b 0 = if b = barOf f then (c.t.bar b).phase else c.g.lastPhase.toArray.getD b 0
  groups : ∀ i, i ≠ c.gi → t.groups[i]? = c.t.groups[i]?
  rest : ∃ bs gs, t = { c.t with barriers := bs, groups := gs }

/-- What an instruction leaves of its group that writes no register: everything but the path's progress and, as the form says, the
barrier fields. -/
def PathCtx.OnlyMoves (c : PathCtx) (g : Group) : Prop :=
  g.path c.pi = c.at_ (nextSlot c.p.pc) ∧ c.g.Frame g c.pi [] [] [] 0

/-- The path parks on its instruction, its group otherwise as it was (R76). -/
def PathCtx.Parks (c : PathCtx) (s : State) (o : Out) : Prop :=
  ∃ p : Path, o = .next (s.setGroup c.tid c.gi (c.g.setPath c.pi (some p))) ∧ p.pc = c.p.pc ∧ p.mask = c.p.mask ∧ p.lk = c.p.lk ∧
    p.shc = c.p.shc ∧ p.shm = c.p.shm ∧ (c.p.st ≠ .handler → p.st = .parked)

/-- The uniform-effect forms of a group stream beside the value forms: with a zero guard they take no effect (R79). -/
def uniformEffectForms (f : Fields) : List Instr :=
  [.swrite f, .rvalid f, .rinval f, .rwr f, .rrd f, .barArrive f, .barWait f, .barSync f, .sbarInit f, .sbarWait f, .wcnt f,
   .waitval f, .chsend f, .chrecv f, .chclose f, .bwait f, .cxsig f, .cpy f, .cpyy f, .gath f, .scat f, .coll f, .wbr f,
   .invr f, .post f, .take f]

/-! Commands -/

/-- An instruction of a path issues a command of a class (R193): it stands behind the others, the class's counter is one higher,
its result register is pending, the path has moved on, no register and no memory has changed since `u`, in which the granules of
its destination have been opened; `after` is what the command brings about at once. -/
def PathCtx.Commands (c : PathCtx) (u : State) (o : Out) (cls : Nat) (after : State → Nat → Command → State) (P : Command → Prop) : Prop :=
  ∃ (s : State) (g : Group) (cmd : Command),
    o = .next (after (c.doneIn { s with cmds := c.s.cmds ++ [(c.s.nextId, cmd)], nextId := c.s.nextId + 1 } g) c.s.nextId cmd) ∧
    P cmd ∧ cmd.team = c.tid ∧ cmd.group = c.gi ∧ cmd.path = c.pi ∧ cmd.pc = c.p.pc ∧ cmd.cls = cls ∧ cmd.done = 0 ∧
    SameMemory u s ∧ (∃ crews, s = { c.s with crews := crews }) ∧ g.path c.pi = c.at_ (nextSlot c.p.pc) ∧
    g.counters = c.g.counters.setIfInBounds cls (c.g.counters.toArray.getD cls 0 + 1) ∧
    (∀ r < 64, g.gPend.getLsbD r = (c.g.gPend.getLsbD r || cmd.dreg == some r)) ∧
    c.g.Frame { g with counters := c.g.counters, gPend := c.g.gPend } c.pi [] [] [] 0

/-- A command that is complete at issue and the only one of its class retires at once (R193, R216). -/
def PathCtx.retiring (c : PathCtx) (s : State) (id : Nat) (cmd : Command) : State :=
  if (c.s.commandsOf c.tid c.gi cmd.cls).isEmpty ∧ cmd.st = .complete then s.retireCommand id cmd else s

/-- The offset of the byte of a copy that is performed `k`-th, ascending or descending (R216). -/
def Command.offset (c : Command) (k : Nat) : Nat := if c.desc then c.len - 1 - k else k

/-- The sampler forms (R294, R298 to R302): the number and the sub-number of each, and its two operands beside the range word. -/
def samplerForms (c : PathCtx) (f : Fields) : List (Instr × Nat × Nat × Word64 × Word64) :=
  let b := c.uni 1 f.sb
  [(.smload f, 0, 0, b, 0), (.smclampOn f, 1, 0, b, c.uni 2 f.sc), (.smclampOff f, 1, 1, b, 0), (.smseed f, 2, f.immBits 0 1, b, 0),
   (.smbeta f, 3, 0, c.sbValue f, 0), (.smtable f, 4, 0, b, 0), (.smtableDef f, 4, 1, 0, 0), (.smsweep f, 5, 0, c.sbValue f, 0),
   (.smread f, 6, 0, b, 0), (.smstatRd f, 7, 0, b, 0), (.smstatClr f, 7, 1, 0, 0), (.smstatRdclr f, 7, 2, b, 0),
   (.smstatInfo f, 7, 3, b, 0)]

/-! Remote forms -/

/-- The peer operand of a lane (R320). -/
def PathCtx.peerOf (c : PathCtx) (f : Fields) (l : Nat) : Nat :=
  if isUni f.sa then (c.uni 0 f.sa).toNat else c.laneOp 0 f.sa 1 l

/-- The remote forms (R320 to R322): the number of each, the access that its lanes make, what it asks of the peer, the data of a
lane, and the second value of a `cas`. -/
def remoteForms (c : PathCtx) (f : Fields) : List (Instr × Nat × Access × RigOp × (Nat → Nat) × (Nat → Nat)) :=
  let t := rtyOf f
  let n := t.bytes
  let aop := f.immBits 8 4
  let st := c.laneOp 2 f.sc t.regs
  let at_ := c.laneOp 2 f.sc (if aop = 7 then 2 * t.regs else t.regs)
  [(.rld f, 0, { c.access .remoteLoad n [] with id := 0, dest := remoteDest f, dead := f.dead }, .read, fun _ => 0, fun _ => 0),
   (.rst f, 1, { c.access .store n [] with id := 0 }, .write, fun l => st l % 2 ^ (8 * n), fun _ => 0),
   (.ratom f, 2, { c.access (.remoteAtomic aop (f.immBits 4 4)) n [] with
      id := 0, sext := t == .s32, dest := remoteDest f, dead := f.dead }, .atomic aop (f.immBits 4 4),
      fun l => at_ l % 2 ^ (8 * n), fun l => at_ l / 2 ^ (8 * n) % 2 ^ (8 * n))]

/-- The lanes on which a remote form acts (R79, R320). -/
def PathCtx.remoteMask (c : PathCtx) (fn : Nat) (f : Fields) : Mask :=
  if isUni f.d && !f.dead && fn == 2 then (if c.effect f then 1 else 0) else c.active f

/-- A window through which a lane of a remote form reaches its peer, with no fault of R320. -/
structure PathCtx.Reaches (c : PathCtx) (f : Fields) (fn n l : Nat) (w : BitVec 128) : Prop where
  window : c.s.peerWindow c.t.crew (c.peerOf f l) = some w
  peer : c.peerOf f l < 4096
  high : c.laneOp 1 f.sb 2 l < 2 ^ 56
  fabric : fn = 2 → winRig w ≠ 2
  bound : c.laneOp 1 f.sb 2 l < 2 ^ winPshift w
  aligned : c.laneOp 1 f.sb 2 l % n = 0

/-- An instruction of a path has brought about the state `s`, writes `w` to its uniform register, and moves on. -/
def PathCtx.Answers (c : PathCtx) (f : Fields) (o : Out) (s : State) (w : Word64) : Prop :=
  ∃ g0 g, s.group c.tid c.gi = some g0 ∧ o = .next (c.doneIn s g) ∧ g.path c.pi = c.at_ (nextSlot c.p.pc) ∧
    g0.Frame g c.pi [] (destG f) [] 0 ∧ (f.dead = false → 192 ≤ f.d.toNat → g.uniOf (f.d.toNat - 0xC0) = w)

/-! Instructions that act on more than their group -/

/-- The path's group stands in `s` as the instruction's effect has left it; from there the path moves on to the next slot, and the
instruction writes `w`, where it has a result, to its uniform register. -/
def PathCtx.Concludes (c : PathCtx) (f : Fields) (o : Out) (s : State) (w : Option Word64) : Prop :=
  ∃ g0 p0 g, s.group c.tid c.gi = some g0 ∧ g0.path c.pi = some p0 ∧ o = .next (c.doneIn s g) ∧
    g.path c.pi = some (p0.advanced (nextSlot p0.pc) s.clock) ∧
    g0.Frame g c.pi [] (if w.isSome then destG f else []) [] 0 ∧
    ∀ x, w = some x → f.dead = false → 192 ≤ f.d.toNat → g.uniOf (f.d.toNat - 0xC0) = x

/-- What an instruction does that brings about `s`: where its own path stands in `s` it concludes, else that is all. -/
def PathCtx.Brings (c : PathCtx) (f : Fields) (o : Out) (s : State) (w : Option Word64) : Prop :=
  ((s.pathCtx ⟨c.tid, c.gi, c.pi⟩).isSome → c.Concludes f o s w) ∧ (s.pathCtx ⟨c.tid, c.gi, c.pi⟩ = none → o = .next s)

/-- The path waits on its instruction, whose first part has brought about `s`. -/
def PathCtx.WaitsIn (c : PathCtx) (o : Out) (s : State) : Prop :=
  (∀ g0 p0, s.group c.tid c.gi = some g0 → g0.path c.pi = some p0 → ∃ p : Path,
    o = .next (s.setGroup c.tid c.gi (g0.setPath c.pi (some p))) ∧ p.pc = p0.pc ∧ p.mask = p0.mask ∧ p.lk = p0.lk ∧
      p.begun = true ∧ (p0.st ≠ .handler → p.st = .parked)) ∧
  (s.pathCtx ⟨c.tid, c.gi, c.pi⟩ = none → o = .next s)

/-- The path has moved on to the next slot before it traps: its group is otherwise as it was (R349, R351). -/
def PathCtx.TrapsPast (c : PathCtx) (o : Out) (code : BitVec 8) (n : Nat) : Prop :=
  ∃ g, c.OnlyMoves g ∧ o = .next ((c.s.setGroup c.tid c.gi g).takeFault c.tid c.gi c.pi
    { code := code, detail := BitVec.ofNat 128 n, pc := c.p.pc, rpc := nextSlot c.p.pc })

end Machine

end Sys2Proof
end

