-- ==== Sys2Proof/Certificates/Slice0/Obligations.lean ====
section
/-! DEFINITION. The statements for the provers. Each docstring names the rules of spec/ it formalises, or says what in it is the
model's own choice and names the assumption. -/

open Sys2Proof Sys2Proof.Machine

/-! Integer, packed and address forms in a group stream -/

/-- R79, R26, R74: every integer, packed, floating-point and conversion form completes, moves the path to the next slot, writes lanes of A
alone, and keeps every register that is neither its destination nor freed by its LR bits, every flag its rule does not name, and all
memory. -/
def Obligations.ValueFormsComplete : Prop :=
  ∀ (c : PathCtx) (f : Fields) (i : Instr) (n : Nat) (fl : FlagSet), c.Issues →
    (i, n, fl) ∈ integerForms f ++ packedForms f ++ floatForms f →
    ∃ g, Machine.exec i c.s = .next (c.done g) ∧
      c.Kept g (nextSlot c.p.pc) (freed i ++ destVec f n) (destUni f) [] fl ∧
      c.LanesKept g (c.active f) (destKept (freed i) f n)

/-- R93: the results of the arithmetic forms, wrapped, or saturated with the flag SAT where the clamp changes the value; `abs` and `neg`
of the most negative value without `.sat` set OVER; no other flag changes. -/
def Obligations.ArithmeticResults : Prop :=
  ∀ (c : PathCtx) (f : Fields) (i : Instr) (n w : Nat) (sat : Bool) (x : Nat → Int), c.Issues →
    (i, n, w, sat, x) ∈ arithmetic c f →
    ∃ g r, Machine.exec i c.s = .next (c.done g) ∧ c.DestIs g f n r ∧ (∀ l, Reduces w f.ity.signed sat (x l) (r l)) ∧
      c.Sets g f Flag.sat (fun l => sat = true ∧ (x l < minInt w f.ity.signed ∨ maxInt w f.ity.signed < x l)) ∧
      c.Sets g f Flag.ovf (fun l => sat = false ∧ (i = .abs f ∨ i = .neg f) ∧ c.intA f l = -(2 ^ (w - 1))) ∧
      g.flags &&& ~~~(Flag.sat ||| Flag.ovf) = c.g.flags &&& ~~~(Flag.sat ||| Flag.ovf)

/-- R85, R102, R115, R127: every form that writes a predicate completes, keeps the predicate's bits in lanes outside A, and keeps every
other register and all memory. -/
def Obligations.PredicateFormsComplete : Prop :=
  ∀ (c : PathCtx) (f : Fields) (i : Instr) (fl : FlagSet), c.Issues → (i, fl) ∈ predicateForms f →
    ∃ g, Machine.exec i c.s = .next (c.done g) ∧
      c.Kept g (nextSlot c.p.pc) (freed i) [] (destPred f) fl ∧
      ∀ n l, (c.active f).getLsbD l = false → (g.predOf n).getLsbD l = (c.g.predOf n).getLsbD l

/-! Moves, masks, special registers -/

/-- R81, R82, R30, R79: `mov` copies an operand or an immediate, extended by its type, into each lane of A, or once into a uniform
register; a 32-bit register source into a uniform register is zero-extended (the model's choice, assumption 8). `bcast` writes every lane
of its destination where its guard is nonzero, whatever `em` and the path mask hold. -/
def Obligations.MovAndBcast : Prop :=
  ∀ (c : PathCtx) (f : Fields), c.Issues →
    let imm : Int := if f.ity.signed then f.imm.toInt else f.imm.toNat
    let n := f.ity.regs
    (∃ g, Machine.exec (.mov f) c.s = .next (c.done g) ∧
      c.Kept g (nextSlot c.p.pc) (freed (.mov f) ++ destVec f n) (destUni f) [] 0 ∧
      c.LanesKept g (c.active f) (destKept (freed (.mov f)) f n) ∧
      (f.useImm = false → c.DestIs g f n fun l => c.laneOp 1 f.sb n l) ∧ (f.useImm = true → c.DestIs g f n fun _ => imm)) ∧
    (∃ g, Machine.exec (.bcast f) c.s = .next (c.done g) ∧
      c.Kept g (nextSlot c.p.pc) (freed (.bcast f) ++ destRun f n) [] [] 0 ∧
      (c.effect f = true → f.dead = false → ∀ l < 32,
        (f.useImm = false → isUni f.sb = true → g.laneNum f.d.toNat l n = (c.uni 1 f.sb).toNat % 2 ^ (32 * n)) ∧
        (f.useImm = true → g.laneNum f.d.toNat l n = (imm % 2 ^ (32 * n)).toNat)))

/-- R83, R84, R112, R115, R86, R87, R79, R29: `movu` reads the lowest lane of A and changes nothing where A is empty; `emrd`, `rdlane` and
`ballot` write what their rules say where the guard is nonzero; `sread` writes the selected special register, `lane` the lane's own index
and `item` its work item; `vfree` unmaps its run of names whatever the guard holds; `nop` changes nothing but the program counter and what
the switch marker holds. -/
def Obligations.UniformAndSpecialReads : Prop :=
  ∀ (c : PathCtx) (f : Fields), c.Issues →
    (∃ g, Machine.exec (.movu f) c.s = .next (c.done g) ∧
      c.Kept g (nextSlot c.p.pc) (freed (.movu f)) (destG f) [] 0 ∧
      (f.dead = false → ∀ l < 32, (c.active f).getLsbD l = true → (∀ k < l, (c.active f).getLsbD k = false) →
        g.uniOf (f.d.toNat - 0xC0) = BitVec.ofNat 64 (c.laneOp 1 f.sb 1 l)) ∧
      (c.active f = 0 → ∀ n, g.uniOf n = c.g.uniOf n)) ∧
    (∃ g, Machine.exec (.emrd f) c.s = .next (c.done g) ∧
      c.Kept g (nextSlot c.p.pc) (freed (.emrd f)) (destG f) [] 0 ∧
      (f.dead = false → c.effect f = true → g.uniOf (f.d.toNat - 0xC0) = c.em.setWidth 64)) ∧
    (∃ g, Machine.exec (.rdlane f) c.s = .next (c.done g) ∧
      c.Kept g (nextSlot c.p.pc) (freed (.rdlane f)) (destG f) [] 0 ∧
      (f.dead = false → c.effect f = true →
        g.uniOf (f.d.toNat - 0xC0) = BitVec.ofNat 64 (c.laneOp 0 f.sa f.ity.regs (c.laneNumber f)))) ∧
    (∃ g, Machine.exec (.ballot f) c.s = .next (c.done g) ∧
      c.Kept g (nextSlot c.p.pc) (freed (.ballot f)) (destG f) [] 0 ∧
      (f.dead = false → c.effect f = true →
        g.uniOf (f.d.toNat - 0xC0) = (c.pred 0 f.sa.toNat &&& c.active f).setWidth 64)) ∧
    let sel := f.immBits 0 8
    let n := if sel = 0x10 ∨ sel = 0x12 then 2 else 1
    (∃ g, Machine.exec (.sread f) c.s = .next (c.done g) ∧
      c.Kept g (nextSlot c.p.pc) (freed (.sread f) ++ destVec f n) (destUni f) [] 0 ∧
      c.LanesKept g (c.active f) (destKept (freed (.sread f)) f n) ∧
      c.DestIs g f n fun l =>
        if isUni f.d then ((c.special sel).toNat : Int)
        else if sel = 0 then l else if sel = 0x1A then ((c.g.item.get l).toNat : Int) else ((c.special sel).toNat : Int)) ∧
    (∃ g, Machine.exec (.vfree f) c.s = .next (c.done g) ∧
      c.Kept g (nextSlot c.p.pc) (freed (.vfree f) ++ upFrom f.sa.toNat (f.immBits 0 8)) [] [] 0 ∧
      ∀ r, f.sa.toNat ≤ r → r < f.sa.toNat + f.immBits 0 8 →
        (∀ v, aget r c.g.vregs = some v → v.pending = false) → g.lanesOf r = Lanes.all 0) ∧
    (∃ g, Machine.exec (.nop f) c.s = .next (c.done g) ∧ c.Kept g (nextSlot c.p.pc) (freed (.nop f)) [] [] 0)

/-- R84, R86, R74: `emwr` writes `em` within the issuing path's mask alone; `swrite` writes the path's own link register, the flags, or
one whole predicate. -/
def Obligations.MaskAndSpecialWrites : Prop :=
  ∀ (c : PathCtx) (f : Fields), c.Issues →
    (∃ g, Machine.exec (.emwr f) c.s = .next (c.done g) ∧ g.path c.pi = c.at_ (nextSlot c.p.pc) ∧
      (c.effect f = true →
        g.em = (c.g.em &&& ~~~c.p.mask) ||| ((if f.useImm then f.imm else (c.uni 1 f.sb).setWidth 32) &&& c.p.mask)) ∧
      (c.effect f = false → g.em = c.g.em) ∧
      c.g.Frame { g with em := c.g.em } c.pi (freed (.emwr f)) [] [] 0 ∧
      (c.Quiet g → SameMemory c.s (c.done g))) ∧
    (c.effect f = true → ∃ g, Machine.exec (.swrite f) c.s = .next (c.done g) ∧
      (f.immBits 0 8 = 0x10 →
        g.path c.pi = (c.at_ (nextSlot c.p.pc)).map (fun p => { p with lk := (c.uni 0 f.sa).setWidth 56 }) ∧
        c.g.Frame g c.pi [] [] [] 0) ∧
      (f.immBits 0 8 = 0x11 →
        g.path c.pi = c.at_ (nextSlot c.p.pc) ∧ g.flags = (c.uni 0 f.sa).setWidth 16 ∧
        c.g.Frame { g with flags := c.g.flags } c.pi [] [] [] 0) ∧
      (∀ n, f.immBits 0 8 = 0x13 + n → n < 7 →
        g.path c.pi = c.at_ (nextSlot c.p.pc) ∧ g.predOf n = (c.uni 0 f.sa).setWidth 32 ∧ c.g.Frame g c.pi [] [] [n] 0) ∧
      (c.Quiet g → SameMemory c.s (c.done g)))

/-- R94: `addc` and `subb` write the sum or difference with the carry in, and the carry out into lanes of A of the predicate, and under a
dead result neither (R28); a word of either that names p7 in SC is illegal with cause 4, where the word that names p0 is not. -/
def Obligations.CarryResults : Prop :=
  (∀ (mk : Fields → Instr) (f : Fields) (w w' : BitVec 96) (x : Instr), mk ∈ [Instr.addc, Instr.subb] → f.sc = 7 →
    encode (mk f) = some w → encode (mk { f with sc := 0 }) = some w' → decode .group w' = .ok x →
    decode .group w = .error (.illegal 4)) ∧
  ∀ (c : PathCtx) (f : Fields) (i : Instr) (op : Int → Int → Int → Int) (out : Int → Bool), c.Issues →
    (i, op, out) ∈ [(Instr.addc f, fun a b k => a + b + k, fun r => decide ((2 : Int) ^ f.ity.width ≤ r)),
      (Instr.subb f, fun a b k => a - b - k, fun r => decide (r < 0))] →
    let r : Nat → Int := fun l =>
      op (c.intA f l) (c.intB f l) (if (c.pred 2 f.sc.toNat).getLsbD l then 1 else 0)
    ∃ g, Machine.exec i c.s = .next (c.done g) ∧
      c.Kept g (nextSlot c.p.pc) (freed i ++ destRun f f.ity.regs) [] [f.sc.toNat] 0 ∧
      c.LanesKept g (c.active f) (destKept (freed i) f f.ity.regs) ∧
      (f.dead = false → ∀ l < 32, (c.active f).getLsbD l = true →
        (g.laneNum f.d.toNat l f.ity.regs : Int) = r l % 2 ^ f.ity.width % 2 ^ (32 * f.ity.regs)) ∧
      (f.dead = true → ∀ n, g.predOf n = c.g.predOf n) ∧
      (f.dead = false → f.sc.toNat < 7 → ∀ l < 32, (g.predOf f.sc.toNat).getLsbD l =
        if (c.active f).getLsbD l then out (r l) else (c.g.predOf f.sc.toNat).getLsbD l)

/-! Cross-lane forms -/

/-- R108, R113, R110, R112: every cross-lane form completes and writes lanes of A of a vector alone; `red` and `redf` may write a uniform
register instead; the lanes that the sliding and permuting forms move. -/
def Obligations.CrossLaneComplete : Prop :=
  (∀ (c : PathCtx) (f : Fields) (i : Instr) (n : Nat) (vs us : List Nat) (fl : FlagSet), c.Issues →
      let run (n : Nat) := (n, destRun f n, ([] : List Nat))
      let any (n : Nat) := (n, destVec f n, destUni f)
      (i, (n, vs, us), fl) ∈ [(Instr.slideUp f, run f.ity.regs, (0 : FlagSet)), (.slideDn f, run f.ity.regs, 0),
        (.hslideUp f, run 1, 0), (.hslideDn f, run 1, 0), (.shfl f, run f.ity.regs, 0), (.xshfl f, run f.ity.regs, 0),
        (.lbc f, run f.ity.regs, 0), (.matchLanes f, run 1, 0), (.scan f, run f.ity.regs, Flag.float),
        (.scanf f, run 1, Flag.float), (.red f, any f.ity.regs, 0), (.redf f, any 1, Flag.float)] →
      ∃ g, Machine.exec i c.s = .next (c.done g) ∧
        c.Kept g (nextSlot c.p.pc) (freed i ++ vs) us [] fl ∧
        c.LanesKept g (c.active f) (destKept (freed i) f n)) ∧
  ∀ (c : PathCtx) (f : Fields) (i : Instr) (src : Nat → Option Nat), c.Issues → f.dead = false →
      (i, src) ∈ [(Instr.slideUp f, fun l => if f.immBits 0 5 ≤ l then some (l - f.immBits 0 5) else none),
        (.slideDn f, fun l => if l + f.immBits 0 5 ≤ 31 then some (l + f.immBits 0 5) else none),
        (.shfl f, fun l => some (c.laneOp 1 f.sb 1 l % 32)),
        (.xshfl f, fun l => some (Nat.xor l (c.laneNumber f))),
        (.lbc f, fun _ => some (c.laneNumber f))] →
      ∃ g, Machine.exec i c.s = .next (c.done g) ∧ ∀ l < 32, (c.active f).getLsbD l = true →
        g.laneNum f.d.toNat l f.ity.regs =
          match src l with
          | some k => c.laneOp 0 f.sa f.ity.regs k % 2 ^ (32 * f.ity.regs)
          | none => (c.uni 1 f.sb).toNat % 2 ^ (32 * f.ity.regs)

/-! Results of the logic, shift, division and predicate forms -/

/-- R97, R95, R98, R99: the logic forms act bit by bit in each lane of A, or once on a uniform register; the results of the shifts and of
division, the flag DIV of a division by zero, OVER of the most negative value divided by −1, and no other flag. -/
def Obligations.BitwiseShiftAndDivisionResults : Prop :=
  ∀ (c : PathCtx) (f : Fields), c.Issues →
    (∀ i op, f.dead = false → (i, op) ∈ bitwise f →
      let bit (l k : Nat) : Bool :=
        decide (k < f.ity.width) && op ((c.natA f l).testBit k) ((c.natB f l).testBit k) ((c.natC f l).testBit k)
      ∃ g, Machine.exec i c.s = .next (c.done g) ∧
        (isUni f.d = false → ∀ l < 32, (c.active f).getLsbD l = true → ∀ k, (g.laneNum f.d.toNat l f.ity.regs).testBit k = bit l k) ∧
        (isUni f.d = true → c.effect f = true → ∀ k, (g.uniOf (f.d.toNat - 0xC0)).getLsbD k = bit 0 k)) ∧
    (∀ i x, (i, x) ∈ shiftsAndDivision c f →
      ∃ g, Machine.exec i c.s = .next (c.done g) ∧ c.DestIs g f f.ity.regs x) ∧
    ∀ i ∈ [Instr.div f, .rem f], ∃ g, Machine.exec i c.s = .next (c.done g) ∧
      c.Sets g f Flag.div (fun l => c.intB f l = 0) ∧
      c.Sets g f Flag.ovf (fun l => i = .div f ∧ f.ity.signed = true ∧ c.intA f l = -(2 ^ (f.ity.width - 1)) ∧ c.intB f l = -1) ∧
      g.flags &&& ~~~(Flag.div ||| Flag.ovf) = c.g.flags &&& ~~~(Flag.div ||| Flag.ovf)

/-- R85, R102, R127: the predicate that the predicate and comparison forms write in each lane of A; a comparison of floats with a NaN
operand gives 1 for `ne` and `un` and 0 for the rest. -/
def Obligations.PredicateResults : Prop :=
  ∀ (c : PathCtx) (f : Fields), c.Issues → f.dead = false → f.d.toNat < 7 →
    (∀ i r, (i, r) ∈ predicateResults c f →
      ∃ g, Machine.exec i c.s = .next (c.done g) ∧ ∀ l < 32, (g.predOf f.d.toNat).getLsbD l =
        if (c.active f).getLsbD l then r l else (c.g.predOf f.d.toNat).getLsbD l) ∧
    (∀ (i : Instr) (r : Bool), (i, r) ∈ [(Instr.fCmpEq f, false), (.fCmpNe f, true), (.fCmpLt f, false), (.fCmpLe f, false),
        (.fCmpGt f, false), (.fCmpGe f, false), (.fCmpUn f, true)] →
      ∃ g, Machine.exec i c.s = .next (c.done g) ∧ ∀ l < 32, (c.active f).getLsbD l = true →
        (∃ s, (fmtOf f.fty).unpack ((fmtOf f.fty).elem (c.laneOp 0 f.sa 1 l) 0) = .nan s) →
        (g.predOf f.d.toNat).getLsbD l = r)

/-! Seats -/

/-- R90, R26, R24, R86: in a cox stream the integer forms, `mov` and `sread` write one c register, and only where the guard holds; `addc`,
`subb` and the comparisons write a seat predicate; nothing else of the seat changes but the program counter and the flags that the rules
name, and nothing outside the seat. -/
def Obligations.SeatFormsComplete : Prop :=
  ∀ (c : SeatCtx) (f : Fields) (i : Instr) (cs ps : List Nat) (fl : FlagSet), c.Issues →
    (i, cs, ps, fl) ∈ ((integerForms f).map fun e => (e.1, [f.d.toNat], ([] : List Nat), e.2.2)) ++
      [(Instr.addc f, [f.d.toNat], [f.sc.toNat], (0 : FlagSet)), (.subb f, [f.d.toNat], [f.sc.toNat], 0),
      (.cmpEq f, [], [f.d.toNat], 0), (.cmpNe f, [], [f.d.toNat], 0), (.cmpLt f, [], [f.d.toNat], 0),
      (.cmpLe f, [], [f.d.toNat], 0), (.cmpGt f, [], [f.d.toNat], 0), (.cmpGe f, [], [f.d.toNat], 0),
      (.mov f, [f.d.toNat], [], 0), (.sread f, [f.d.toNat], [], 0), (.nop f, [], [], 0)] →
    ∃ q, Machine.exec i c.s = .next (c.done q) ∧ q.pc = nextSlot c.q.pc ∧ c.q.Frame q cs ps fl ∧
      (c.guard f = false → ∀ r, q.regOf r = c.q.regOf r) ∧ SameMemory c.s (c.done q)

/-! Control flow -/

/-- R143, R147, R20: `brau`, `call`, `ret`, and `jmpi` and `calli` with a uniform target move the whole path to a landing point where the
guard is nonzero, fault at another target, and fall through where the guard is zero; `dbnz` counts down and transfers while the count is
nonzero, and with a zero guard nothing is counted. -/
def Obligations.WholePathTransfers : Prop :=
  ∀ (c : PathCtx) (f : Fields), c.Issues →
    (∀ i target lk, (i, true, target, lk) ∈ wholeTransfers c f →
      (c.effect f = true → c.s.landing c.t target = none → c.MovesTo (Machine.exec i c.s) (target.setWidth 56) lk []) ∧
      (∀ code, c.effect f = true → c.s.landing c.t target = some code →
        Machine.exec i c.s = .next (c.badTarget code (BitVec.allOnes 32) target)) ∧
      (c.effect f = false → c.FallsThrough (Machine.exec i c.s) [])) ∧
    let r := f.d.toNat - 0xC0
    let w := c.uni 3 f.d - 1
    let target := directTarget c.p.pc f.imm
    (c.effect f = true → w ≠ 0 → c.s.landing c.t target = none →
      c.MovesTo (Machine.exec (.dbnz f) c.s) (target.setWidth 56) c.p.lk [r] ∧
      ∃ t g, Machine.exec (.dbnz f) c.s = .next t ∧ t.group c.tid c.gi = some g ∧ g.uniOf r = w) ∧
    (∀ code, c.effect f = true → w ≠ 0 → c.s.landing c.t target = some code →
      Machine.exec (.dbnz f) c.s = .next (c.badTarget code (BitVec.allOnes 32) target)) ∧
    (c.effect f = true → w = 0 →
      c.FallsThrough (Machine.exec (.dbnz f) c.s) [r] ∧
      ∃ t g, Machine.exec (.dbnz f) c.s = .next t ∧ t.group c.tid c.gi = some g ∧ g.uniOf r = 0) ∧
    (c.effect f = false → c.FallsThrough (Machine.exec (.dbnz f) c.s) [])

/-- R142, R139, R29: `bra` takes the path whole, lets it fall through, retires it where no lane is active, the group held where S is set
and results are in flight, or divides it: the lanes that take go into the free entry of the lowest number, the others stay; with no free
entry it waits, split-stalled. -/
def Obligations.BraDivides : Prop :=
  ∀ (c : PathCtx) (f : Fields), c.Issues →
    let a := c.active f
    let t := directTarget c.p.pc f.imm
    let taken := a &&& (if f.sb = 0 then c.pred 0 f.sa.toNat else ~~~c.pred 0 f.sa.toNat)
    let stay := c.p.mask &&& ~~~taken
    (a = 0 → Machine.exec (.bra f) c.s = .next ((c.stayTrace c.s).retirePath c.tid c.gi c.pi (c.g.marked f))) ∧
    (a ≠ 0 → taken = 0 → c.FallsThrough (Machine.exec (.bra f) c.s) []) ∧
    (∀ code, taken ≠ 0 → c.s.landing c.t t = some code →
      Machine.exec (.bra f) c.s = .next (c.badTarget code taken t)) ∧
    (taken ≠ 0 → stay = 0 → c.s.landing c.t t = none → c.MovesTo (Machine.exec (.bra f) c.s) (t.setWidth 56) c.p.lk []) ∧
    (∀ j, taken ≠ 0 → stay ≠ 0 → c.s.landing c.t t = none → c.g.freeEntry = some j →
      ∃ g, Machine.exec (.bra f) c.s = .next ((((c.branchTrace c.s taken (t.setWidth 56) 2).withGroup c g).fuse
          c.tid c.gi j).fuse c.tid c.gi c.pi) ∧
        g.path c.pi = some (({ c.p with mask := stay } : Path).advanced (nextSlot c.p.pc) c.s.clock) ∧
        g.path j = some { mask := taken, pc := t.setWidth 56, lk := c.p.lk, since := c.s.clock } ∧
        (∀ k, k ≠ c.pi → k ≠ j → g.path k = c.g.path k) ∧
        (c.g.inflight ≠ [] → g.held = true) ∧ c.g.Frame { g with paths := c.g.paths } c.pi [] [] [] 0) ∧
    (taken ≠ 0 → stay ≠ 0 → c.s.landing c.t t = none → c.g.freeEntry = none → c.p.st ≠ .handler →
      (∃ k p, k < 8 ∧ k ≠ c.pi ∧ c.g.path k = some p ∧ p.st ≠ .splitStalled) →
      Machine.exec (.bra f) c.s = .next (c.s.setGroup c.tid c.gi (c.g.setPath c.pi (some { c.p with st := .splitStalled }))))

/-- R145, R146, R147: an indirect transfer per lane with a bad lane faults precisely, before any lane moves: the mask of every bad lane,
the code of the lowest-numbered, the lowest bad target as the address; with no bad lane, and free entries for all but the last of the
targets, it leaves every active lane on a path that stands at the lane's own target. -/
def Obligations.IndirectTransfers : Prop :=
  ∀ (c : PathCtx) (f : Fields) (i : Instr), c.Issues → isUni f.sa = false → i ∈ [Instr.jmpi f, .calli f] →
    let target (l : Nat) := c.laneOp 0 f.sa 2 l
    let check (l : Nat) := c.s.landing c.t (BitVec.ofNat 64 (target l))
    (∀ l0 code lowest, l0 < 32 → (c.active f).getLsbD l0 = true → check l0 = some code →
      (∀ l < l0, (c.active f).getLsbD l = true → check l = none) →
      (∃ l < 32, (c.active f).getLsbD l = true ∧ (check l).isSome ∧ target l = lowest) →
      (∀ l < 32, (c.active f).getLsbD l = true → (check l).isSome → lowest ≤ target l) →
      Machine.exec i c.s =
        .next (c.badTarget code (c.active f &&& maskOf fun l => (check l).isSome) (BitVec.ofNat 64 lowest))) ∧
    (c.active f ≠ 0 → (∀ l < 32, (c.active f).getLsbD l = true → check l = none) →
      (targetGroups (c.active f) target).length ≤ 9 - c.g.valid.length →
      ∃ t g, Machine.exec i c.s = .next t ∧ t.group c.tid c.gi = some g ∧
        (∀ l < 32, (c.active f).getLsbD l = true →
          ∃ j p, g.path j = some p ∧ p.mask.getLsbD l = true ∧ p.pc = BitVec.ofNat 56 (target l)) ∧
        (∀ n, g.uniOf n = c.g.uniOf n) ∧ (∀ n, g.predOf n = c.g.predOf n) ∧ g.flags = c.g.flags ∧
        ∀ r, r ∉ freed i → aget r g.vregs = aget r c.g.vregs)

/-- R144: `skip` opens a shadow: it sets the count and the lanes that perform it, and moves on, traced where branches are. -/
def Obligations.SkipOpensShadow : Prop :=
  ∀ (c : PathCtx) (f : Fields), c.Issues →
    ∃ g, Machine.exec (.skip f) c.s = .next ((c.stayTrace c.s).withGroup c g) ∧
      g.path c.pi = (c.at_ (nextSlot c.p.pc)).map (fun p => { p with
        shc := BitVec.ofNat 3 (f.immBits 0 3),
        shm := c.active f &&& ~~~(if f.sb = 0 then c.pred 0 f.sa.toNat else ~~~c.pred 0 f.sa.toNat) }) ∧
      c.g.Frame g c.pi [] [] [] 0 ∧
      (TraceOff c.s c.t.crew (dieOf c.t.core) 0 → SameMemory c.s ((c.stayTrace c.s).withGroup c g))

/-- R148, R136: `exit` makes the active lanes vacant and clears their `em` bits; a path without lanes retires; with no active lane it does
nothing. -/
def Obligations.ExitVacates : Prop :=
  ∀ (c : PathCtx) (f : Fields), c.Issues →
    let a := c.active f
    let left := c.p.mask &&& ~~~a
    (a = 0 → c.FallsThrough (Machine.exec (.exit f) c.s) []) ∧
    (a ≠ 0 → left ≠ 0 → ∃ g, Machine.exec (.exit f) c.s = .next (c.doneIn (c.stayTrace c.s) g) ∧
      g.path c.pi = (c.at_ (nextSlot c.p.pc)).map (fun p => { p with mask := left }) ∧ g.em = c.g.em &&& ~~~a ∧
      c.g.Frame { g with em := c.g.em } c.pi [] [] [] 0) ∧
    (a ≠ 0 → left = 0 → (∃ j, j ≠ c.pi ∧ (c.g.path j).isSome) → ∃ g,
      Machine.exec (.exit f) c.s = .next ((c.stayTrace c.s).withGroup c g) ∧ g.path c.pi = none ∧
      g.em &&& c.p.mask = 0 ∧ g.em &&& ~~~c.p.mask = c.g.em &&& ~~~c.p.mask ∧
      c.g.Frame { g with em := c.g.em } c.pi [] [] [] 0) ∧
    (a ≠ 0 → left = 0 → (∀ j, j ≠ c.pi → c.g.path j = none) →
      Machine.exec (.exit f) c.s = .next (({ c.stayTrace c.s with fresh := c.s.fresh + 2 } : State).retirePath c.tid c.gi c.pi
        (({ c.g with em := c.g.em &&& ~~~a } : Machine.Group).marked f)))

/-- R149, R20: `refill` in a kernel without a queue is illegal with cause 3; at a slot that is no landing point it faults; while the queue
is open and empty it parks; and with items for every vacant lane it gives them out in ascending order. -/
def Obligations.RefillGivesItems : Prop :=
  ∀ (c : PathCtx) (f : Fields), c.Issues →
    (c.t.refill = none → Machine.exec (.refill f) c.s = c.illegal 3 (assemble 0x70 0x09 f)) ∧
    (∀ rq : RefillQueue, c.t.refill = some rq → c.s.atLandingPoint c.t c.p.pc = false →
      Machine.exec (.refill f) c.s = .next (c.badTarget 0x02 (BitVec.allOnes 32) (c.p.pc.setWidth 64))) ∧
    (∀ rq : RefillQueue, c.t.refill = some rq → c.s.atLandingPoint c.t c.p.pc = true → c.refillVacant f ≠ 0 →
      (rq.items = [] → rq.open_ = true → ∃ (g : Group) (p : Path), Machine.exec (.refill f) c.s = .next (c.s.setGroup c.tid c.gi g) ∧
        g.path c.pi = some p ∧ p.pc = c.p.pc ∧ (c.p.st ≠ .handler → p.st = .parked)) ∧
      ((maskLanes (c.refillVacant f)).length ≤ rq.items.length → ∃ (g : Group) (p : Path) (t' : Team),
        Machine.exec (.refill f) c.s = .next (c.doneIn ((c.stayTrace c.s).setTeam c.tid t') g) ∧
        t'.refill = some { rq with items := rq.items.drop (maskLanes (c.refillVacant f)).length } ∧
        g.path c.pi = some p ∧ p.pc = nextSlot c.p.pc ∧
        p.mask = (c.p.mask &&& ~~~c.refillOut f) ||| c.refillVacant f ∧
        (∀ k l : Nat, (maskLanes (c.refillVacant f))[k]? = some l → some (g.item.get l) = rq.items[k]?) ∧
        (f.d.toNat < 7 → ∀ l < 32, (g.predOf f.d.toNat).getLsbD l =
          (p.mask.getLsbD l && g.item.get l != BitVec.allOnes 32))))

/-! Loads, stores and atomics -/

/-- R175, R176, R72, R61: a load form whose active set is empty changes nothing but what its LR bits free, and maps its destination;
another puts one access into flight, its lanes at the addresses that R175 computes, and changes no memory. -/
def Obligations.LoadsIssue : Prop :=
  ∀ (c : PathCtx) (f : Fields) (i : Instr) (a : Access) (free : List Nat) (subs : List LaneAcc), c.Issues →
    (i, a, free, subs) ∈ loadForms c f →
    (a.lanes = [] → subs = [] → ∃ g, Machine.exec i c.s = .next (c.done g) ∧
      c.Kept g (nextSlot c.p.pc) (free ++ a.dest.vecs) [] [] 0 ∧ (∀ r ∈ a.dest.vecs, (aget r g.vregs).isSome) ∧
      ∀ r, r ∉ free → g.lanesOf r = c.g.lanesOf r) ∧
    (a.lanes ≠ [] ∨ subs ≠ [] → ∃ s g b, Machine.exec i c.s = .next (c.doneIn s g) ∧ a.Became b subs ∧
      g.pend = c.g.pend ++ [b] ∧ c.InFlight g a free ∧
      (c.Quiet g → TraceOff c.s c.t.crew (dieOf c.t.core) 1 → SameMemory c.s (c.doneIn s g)))

/-- R175, R178, R172, R173, R185, R190: the bytes that a lane of a load takes from scratch, from a vault, or through a translation that
stands, where no older load of the lane at those bytes waits; a lane without a translation waits for a walk of its page, or for one of the
die's 32 walkers (R156), and one whose page does not permit a read has faulted. -/
def Obligations.LoadsRead : Prop :=
  ∀ (c : PathCtx) (f : Fields) (i : Instr) (a : Access) (free : List Nat) (subs : List LaneAcc), c.Issues →
    (i, a, free, subs) ∈ loadForms c f → a.lanes ≠ [] →
    ∃ s g b, Machine.exec i c.s = .next (c.doneIn s g) ∧ g.pend = c.g.pend ++ [b] ∧
      ∀ (k : Nat) (l m : LaneAcc), a.lanes[k]? = some l → b.lanes[k]? = some m → l.st = .walk →
        l.behindLoad c.g.own a = false →
        (∀ cell, l.target = .scratch cell → c.s.sramPoisoned l.target a.bytes = false →
          m.st = .ready ∧ ∀ j < a.bytes, dataByte m.data j = c.ownOr a l j (c.s.scratch.read (cell + j))) ∧
        (∀ cell, l.target = .vault cell → c.s.sramPoisoned l.target a.bytes = false →
          m.st = .ready ∧ ∀ j < a.bytes, dataByte m.data j = c.ownOr a l j (c.s.vault.read (cell + j))) ∧
        (∀ e pa, c.Plain .read a l e pa → m.st = .ready ∧ m.pa = pa ∧ ∀ j < a.bytes, dataByte m.data j =
          c.ownOr a l j (c.s.lineByte (c.lineFor .read l e pa) (l.addr + j) (pa + j))) ∧
        (∀ t0 t1 t2 t3 t4 sm r, l.target = .line t0 t1 t2 t3 t4 sm r →
          (c.s.tlb c.t.core c.t.crew l.addr = none → m.st = .walk ∧
            ((∃ w ∈ s.walks, w.2.crew = c.t.crew ∧ w.2.die = dieOf c.t.core ∧ w.2.page = l.addr / 65536 ∧ w.2.cancelled = false) ∨
              32 ≤ (s.walks.filter fun w => w.2.die == dieOf c.t.core).length)) ∧
          (∀ e, c.s.late = false → c.s.tlb c.t.core c.t.crew l.addr = some e → (∀ pa, c.s.permitted c.t.crew .read e l.addr ≠ .ok pa) →
            m.st = .faulted 0x04))

/-- R178, R175: a store form puts its lanes, with the data of its source register, behind the entries of the store buffer, and changes no
memory; with an empty active set it changes nothing but what its LR bits free. In a child view or a frozen parent it does so too, or takes
fault 0x07 or 0x08 precisely (R264, R266). -/
def Obligations.StoresBuffered : Prop :=
  ∀ (c : PathCtx) (f : Fields) (i : Instr) (a : Access) (free : List Nat), c.Issues → (i, a, free) ∈ storeForms c f →
    (a.lanes = [] → ∃ g, Machine.exec i c.s = .next (c.done g) ∧ c.Kept g (nextSlot c.p.pc) free [] [] 0) ∧
    (a.lanes ≠ [] →
      let buffers : Prop := ∃ s g b, Machine.exec i c.s = .next (c.doneIn s g) ∧ a.Became b [] ∧
        b.lanes.map LaneAcc.data = a.lanes.map LaneAcc.data ∧ g.sbuf = c.g.sbuf ++ [b] ∧
        g.path c.pi = c.at_ (nextSlot c.p.pc) ∧ c.g.Frame { g with sbuf := c.g.sbuf } c.pi free [] [] 0 ∧
        (c.t.view = 0 → c.Quiet g → TraceOff c.s c.t.crew (dieOf c.t.core) 1 → SameMemory c.s (c.doneIn s g))
      (c.t.view = 0 → c.t.frozen = false → buffers) ∧
      (buffers ∨ ∃ b, a.Became b [] ∧ b.lanes.any LaneAcc.precise = true ∧
        Machine.exec i c.s = .next (c.s.takeFault c.tid c.gi c.pi (b.faultInfo c.p.pc))))

/-- R191, R200: an atomic form of the root view whose bytes no store of the group's buffer precedes puts one access into flight; a single
lane whose translation stands reads, computes and writes its location at home at once, and every other location of the root view keeps its
byte; with an empty active set the form changes nothing but what its LR bits free, and maps its destination (R61). -/
def Obligations.AtomicsPerform : Prop :=
  ∀ (c : PathCtx) (f : Fields) (i : Instr) (fn : Nat) (new : Nat → Nat → Nat → Nat), c.Issues →
    (i, fn, new) ∈ atomicForms f → c.t.view = 0 → c.t.frozen = false →
    let a := c.atomicAccess fn f
    (a.lanes = [] → ∃ g, Machine.exec i c.s = .next (c.done g) ∧
      c.Kept g (nextSlot c.p.pc) (freed i ++ a.dest.vecs) [] [] 0 ∧ (∀ r ∈ a.dest.vecs, (aget r g.vregs).isSome) ∧
      ∀ r, r ∉ freed i → g.lanesOf r = c.g.lanesOf r) ∧
    (a.lanes ≠ [] → (∀ l ∈ a.lanes, c.g.behindStore a.bytes l = false) →
    ∃ s g b, Machine.exec i c.s = .next (c.doneIn s g) ∧ a.Became b [] ∧ g.pend = c.g.pend ++ [b] ∧ c.InFlight g a (freed i) ∧
      ∀ l e pa, a.lanes = [l] → c.Plain .both a l e pa → c.s.unscrubbed c.t.crew pa = false →
        let k := keyOf c.t.crew 0 l.target .home
        let s0 := c.s.evictLine (keyOf c.t.crew 0 l.target (.localDie (dieOf c.t.core)))
        let old := leNat (s0.lineBytes k l.addr pa a.bytes)
        b.lanes.map LaneAcc.data = [old] ∧ b.lanes.map LaneAcc.st = [.ready] ∧
        (f.oty ≠ .f32 → f.oty ≠ .bf16x2 → TraceOff c.s c.t.crew (dieOf c.t.core) 1 →
          (∀ j < a.bytes, s.lineByte k (l.addr + j) (pa + j) = dataByte (new old l.data l.data2) j) ∧
          (∀ k' va pa', k'.view = 0 → k'.place = .home → k' ≠ k ∨ va < l.addr ∨ l.addr + a.bytes ≤ va →
            s.lineByte k' va pa' = s0.lineByte k' va pa')))

/-- R180, R181, R161: `pref` completes, keeps every byte that a line holds and every byte of memory, and writes no register; `rvalid`
writes the whole predicate, all-ones for handle 0 and a handle that names a record, else 0; `rrd` reads a 64-bit word of the record, 0 for
handle 0, and takes 0x11 on a stale handle. -/
def Obligations.PrefAndRecordReads : Prop :=
  ∀ (c : PathCtx) (f : Fields), c.Issues →
    let h : Word32 := (c.uni 0 f.sa).setWidth 32
    let k := (if f.useImm then f.imm.toNat else (c.uni 1 f.sb).toNat) % 8
    (∃ s g, Machine.exec (.pref f) c.s = .next (c.doneIn s g) ∧ g.path c.pi = c.at_ (nextSlot c.p.pc) ∧
      c.g.Frame g c.pi (freed (.pref f)) [] [] 0 ∧
      (TraceOff c.s c.t.crew (dieOf c.t.core) 1 →
        (∀ k va b, ((aget k c.s.lines).bind fun l => aget va l.cells) = some b →
          ((aget k s.lines).bind fun l => aget va l.cells) = some b) ∧
        (∀ pa, s.hbm.read pa = c.s.hbm.read pa) ∧ (∀ pa, s.hostMem.read pa = c.s.hostMem.read pa) ∧
        (∀ x, s.scratch.read x = c.s.scratch.read x) ∧ ∀ x, s.vault.read x = c.s.vault.read x)) ∧
    (c.effect f = true → f.dead = false →
      (∃ g, Machine.exec (.rvalid f) c.s = .next (c.done g) ∧ c.Kept g (nextSlot c.p.pc) [] [] (destPred f) 0 ∧
        (f.d.toNat < 7 →
          g.predOf f.d.toNat = if h = 0 ∨ (c.s.record c.t.crew h).isSome then BitVec.allOnes 32 else 0)) ∧
      (∀ w, (h = 0 ∧ w = 0) ∨ (h ≠ 0 ∧ ∃ r, c.s.record c.t.crew h = some r ∧ w = r.extractLsb' (64 * k) 64) →
        ∃ g, Machine.exec (.rrd f) c.s = .next (c.done g) ∧ c.Kept g (nextSlot c.p.pc) [] (destG f) [] 0 ∧
          (192 ≤ f.d.toNat → g.uniOf (f.d.toNat - 0xC0) = w)) ∧
      (h ≠ 0 → c.s.record c.t.crew h = none → Machine.exec (.rrd f) c.s = .next (c.s.takeFault c.tid c.gi c.pi
        { code := 0x11, mask := BitVec.allOnes 32, pc := c.p.pc, rpc := c.p.pc })))

/-- R182: where the index is in the table and no access through it is still to reach its slice, `rinval` completes, and so does `rwr`
where its source can be read: they write back and drop every line of the index, raise its generation by one, set V for `rwr` and clear it
for `rinval`; `rwr` installs the other bits of its source and returns the new handle, and of a source that is not well formed it installs
nothing and returns 0xFFFF_FFFF; no other record, line, scratch or vault byte changes but by tracing. -/
def Obligations.RecordWrites : Prop :=
  ∀ (c : PathCtx) (f : Fields), c.Issues → c.effect f = true →
    let idx := (c.uni 0 f.sa).toNat % 2 ^ 20
    let old := (aget idx (c.s.crew c.t.crew).records).getD 0
    0 < idx → idx < 0xF_FFFF → idx < (c.s.crew c.t.crew).recSize → c.t.view = 0 → c.t.frozen = false →
    (∀ e ∈ c.s.teams, e.2.crew = c.t.crew → ∀ g ∈ e.2.groups, g.throughRecord idx = []) →
    let returns (g : Machine.Group) (w : Word64) : Prop := f.dead = false → 192 ≤ f.d.toNat → g.uniOf (f.d.toNat - 0xC0) = w
    let written (s : State) (src : BitVec 512) (valid : Bool) : Prop := ∃ r : BitVec 512,
      aget idx (s.crew c.t.crew).records = some r ∧ recGen r = recGen old + 1 ∧ recV r = valid ∧
      (∀ k < 448, k ≠ 63 → r.getLsbD k = src.getLsbD k) ∧
      (∀ j, j ≠ idx → aget j (s.crew c.t.crew).records = aget j (c.s.crew c.t.crew).records) ∧
      (TraceOff c.s c.t.crew (dieOf c.t.core) 1 →
        (∀ k, k.crew = c.t.crew → k.tensor = idx → aget k s.lines = none) ∧
        (∀ k, ¬(k.crew = c.t.crew ∧ k.tensor = idx) → aget k s.lines = aget k c.s.lines) ∧
        (∀ x, s.scratch.read x = c.s.scratch.read x) ∧ ∀ x, s.vault.read x = c.s.vault.read x)
    (∃ s g, Machine.exec (.rinval f) c.s = .next (c.doneIn s g) ∧ g.path c.pi = c.at_ (nextSlot c.p.pc) ∧
      c.g.Frame g c.pi [] [] [] 0 ∧ written s old false) ∧
    ∀ src pa, c.readSource (c.uni 1 f.sb).toNat = .ok (src, pa) →
      ∃ s g, Machine.exec (.rwr f) c.s = .next (c.doneIn s g) ∧ g.path c.pi = c.at_ (nextSlot c.p.pc) ∧
        c.g.Frame g c.pi [] (destG f) [] 0 ∧
        (recWellFormed (src &&& ~~~(BitVec.allOnes 512 <<< 448)) = true → written s src true ∧
          returns g (BitVec.ofNat 64 (idx * 4096 + ((recGen old).toNat + 1) % 4096))) ∧
        (recWellFormed (src &&& ~~~(BitVec.allOnes 512 <<< 448)) = false →
          (s.crew c.t.crew).records = (c.s.crew c.t.crew).records ∧ returns g 0xFFFFFFFF)

/-! What arrives at a group -/

/-- R197, R175, R190: STORE_DRAIN performs the lanes of an entry that can be sent, the higher-numbered lane's byte remaining where two
write one; they leave the buffer, and an acknowledgement is owed at each of the four scopes. R72, R176, R175, R63: LOAD_DATA_ARRIVE writes
the ready lanes of an access whose lanes wait no longer, extended, and nothing else of the registers; lanes that faulted stay pending, a
path that has become ready is so from this cycle on (R77), and a grant of the reserve may end (R67). -/
def Obligations.BufferedAccessesPerform : Prop :=
  (∀ (s : State) (ref : GroupRef) (entry : Nat) (t : Team) (g : Group) (a : Access), s.MemoryForm →
    s.team ref.team = some t → t.groups[ref.group]? = some g → (g.sbuf.find? fun b => b.id == entry) = some a →
    (t.status = .resident ∨ t.status = .draining) →
    (∀ sc, a.rel = some sc → g.acked sc = true ∧ ∀ b ∈ g.sbuf, entry ≤ b.id) → (s.sendableLanes ref g a).1 ≠ [] →
    let ls := (s.sendableLanes ref g a).1
    ∃ s' g', Machine.exec (.storeDrain ref entry) s = .next (s'.progress ref.team) ∧ Performed s s' t a.bytes ls ∧
      s'.group ref.team ref.group = some g' ∧
      (∀ b ∈ g'.sbuf, b.lanes ≠ [] ∧ (b.id = entry → ∀ l ∈ b.lanes, l ∉ ls)) ∧
      (∀ b ∈ g.sbuf, b.id ≠ entry → b.lanes ≠ [] → b ∈ g'.sbuf) ∧
      (∀ k < 4, g'.unack.toArray.getD k 0 = g.unack.toArray.getD k 0 + 1) ∧
      g = { g' with sbuf := g.sbuf, unack := g.unack } ∧
      (g.ended = false → Machine.exec (.storeDrain ref entry) s = .next s')) ∧
  (∀ (s : State) (ref : GroupRef) (id : Nat) (g : Group) (a : Access), s.group ref.team ref.group = some g → g.ended = false →
    (g.pend.find? fun b => b.id == id) = some a → (∀ l ∈ a.lanes, l.waiting = false) → (∃ l ∈ a.lanes, l.st = .ready) →
    let ready := a.lanes.filter fun l => l.st == .ready
    ∃ g' cs, let u : State := { s.setGroup ref.team ref.group g' with cores := cs }
      Machine.exec (.loadDataArrive ref id) s = .next u ∧ (∀ k, u.core k = { s.core k with reserve := (u.core k).reserve }) ∧
      g'.flags = g.flags ||| a.flags ∧ SameMemory s u ∧
      (∀ r, r ∉ a.dest.vecs → aget r g'.vregs = aget r g.vregs) ∧ (∀ r, a.dest ≠ .uni r → g'.uniOf r = g.uniOf r) ∧
      g'.preds = g.preds ∧ g'.sbuf = g.sbuf ∧
      (∀ i, g'.path i = (g.path i).map fun p => { p with since := ((g'.path i).map Path.since).getD 0 }) ∧
      (∀ r n, a.dest = .vec r n → (∀ k ∈ a.dest.vecs, ∃ v, aget k g.vregs = some v ∧ v.freeLater = false) → ∀ l < 32,
        g'.laneNum r l n =
          match ready.find? fun x => x.lane == l with
          | some x => a.value x.data % 2 ^ (32 * n)
          | none => g.laneNum r l n) ∧
      (∀ r x, a.dest = .uni r → r < 64 → ready.head? = some x → g'.uniOf r = BitVec.ofNat 64 (a.value x.data)) ∧
      ((∃ l ∈ a.lanes, l.st ≠ .ready) → ∃ b ∈ g'.pend, b.id = id ∧ ∀ l, l ∈ b.lanes ↔ l ∈ a.lanes ∧ l.st ≠ .ready))

/-- R73, R197, R77, R205, R158, R170, R345: the events that move a group's work on, each where its rule lets it happen. -/
def Obligations.GroupEventsHappen : Prop :=
  ∀ (s : State) (ref : GroupRef) (g : Group), s.group ref.team ref.group = some g →
    (g.held = true → Machine.exec (.switchMarkerRelease ref) s =
      .next (s.setGroup ref.team ref.group
        { g with held := false, inflight := [], paths := g.paths.map fun o => o.map fun p => { p with since := s.clock } })) ∧
    (∀ sc k, scopeCounter sc = some k →
      let n (i : Nat) := g.unack.toArray.getD i 0
      n k ≠ 0 → (k = 0 ∨ n (k - 1) < n k) → Machine.exec (.storeAck ref sc) s =
        .next ((s.setGroup ref.team ref.group { g with unack := g.unack.setIfInBounds k (n k - 1) }).progress ref.team)) ∧
    (∀ core sched, (∃ e ∈ s.readyPaths core sched, e.2 + 256 ≤ s.clock) → ∃ e ∈ s.readyPaths core sched,
      (∀ x ∈ s.readyPaths core sched, e.2 ≤ x.2) ∧
      Machine.exec (.schedulerAgePriority core sched) s = .next { s with turns := .issuePath e.1 :: s.turns }) ∧
    (∀ r c w, s.pathCtx r = some c → c.p.st = .parked → c.atWord = some w → opcOf w = 0x91 → fnOf w = 0x06 →
      ∃ t d, Machine.exec (.waitvalRecheck r) s = .next t ∧ t.pathCtx r = some d ∧
        (c.p.holdNext = false → d.p = { c.p with st := .ready, since := s.clock } ∧ SameMemory s t) ∧
        (c.p.holdNext = true → d.p = { c.p with st := .stopped, holdNext := false })) ∧
    (∀ crew page, page ∈ (s.crew crew).clearing → ∃ s' : State,
      Machine.exec (.pageClearComplete crew page) s = .next (s'.goOnWhere fun t => t.crew == crew) ∧
      page ∉ (s'.crew crew).unscrubbed ∧ page ∉ (s'.crew crew).clearing ∧
      (∀ pa, s'.hbm.read pa = if pa / 65536 = page then 0 else s.hbm.read pa) ∧ s'.lines = s.lines) ∧
    (∀ line : LineKey,
      let key : LineKey := { line with place := .home }
      let reads := ((aget key s.replReads).getD []).filter fun e => s.clock < e.1 + 1024
      let l := (aget key s.lines).getD {}
      32 ≤ reads.length → l.cells ≠ [] → (∃ a ∈ reads, ∃ b ∈ reads, a.2 ≠ b.2) → ∃ t, Machine.exec (.lineReplicate line) s = .next t ∧
        (∀ e ∈ reads, (∀ x ∈ l.cells, s.homeDie x.2.pa ≠ e.2) → ∃ copy, aget { key with place := .replica e.2 } t.lines = some copy ∧
          ∀ va, aget va copy.cells = (aget va l.cells).map fun b => { b with dirty := false }) ∧
        (∀ k, (∀ d, k ≠ { key with place := .replica d }) → aget k t.lines = aget k s.lines) ∧ t.hbm = s.hbm) ∧
    (∀ walk w, aget walk s.walks = some w → w.cancelled = false → ∃ t, Machine.exec (.translationWalkComplete walk) s = .next t ∧
      (∀ r, s.walk w.crew (w.page * 65536) = .ok r →
        ((s.core w.core).tlb.length < 512 ∨ ∃ e ∈ (s.core w.core).tlb, e.crew = w.crew) → (t.core w.core).tlb.head? = some (tlbOf w.crew (w.page * 65536) r)) ∧
      (∀ code tm, s.walk w.crew (w.page * 65536) = .error code → s.team ref.team = some tm → tm.crew = w.crew →
        dieOf tm.core = w.die → tm.status = .resident → ∃ g', t.group ref.team ref.group = some g' ∧
        ∀ a ∈ g'.pend, a.kind ≠ .store → ∀ l ∈ a.lanes, l.onPage w.page = false))

/-! Barriers, waits and channels -/

/-- R202, R136: `bar.arrive` and `bar.sync` arrive once, counted under the phase mask; a wait returns when its phase is over and parks
until then; a phase in which some group has arrived is complete where the arrived set covers the groups of the phase mask that have not
ended: the phase is one higher and the arrived set empty, the other barriers stay, and the `bar.sync` that completes it returns at once.
-/
def Obligations.BarrierForms : Prop :=
  (∀ (c : PathCtx) (f : Fields), c.Issues → c.effect f = true →
      (c.arrived (barOf f) = false → ∃ t g, Machine.exec (.barArrive f) c.s =
          .next ((c.doneIn (c.s.setTeam c.tid t) g).completePhases c.tid) ∧ c.Arrives f t g ∧
        g.path c.pi = c.at_ (nextSlot c.p.pc) ∧ c.g.Frame { g with owed := c.g.owed, lastPhase := c.g.lastPhase } c.pi [] [] [] 0) ∧
      (c.arrived (barOf f) = true → ∃ g, Machine.exec (.barArrive f) c.s = .next ((c.done g).completePhases c.tid) ∧ c.OnlyMoves g) ∧
      (∀ i target, (i = .barWait f ∧ target = (if c.p.begun then c.p.goal else c.g.target c.t (barOf f))) ∨
          (i = .barSync f ∧ c.p.begun = true ∧ target = c.p.goal) →
        ((c.t.bar (barOf f)).phase ≠ target → ∃ g, Machine.exec i c.s = .next (c.done g) ∧
          g.owed.toArray.getD (barOf f) false = false ∧ c.OnlyMoves { g with owed := c.g.owed } ∧
          (c.Quiet g → SameMemory c.s (c.done g))) ∧
        ((c.t.bar (barOf f)).phase = target → c.Parks c.s (Machine.exec i c.s))) ∧
      (c.p.begun = false → c.arrived (barOf f) = false → ∃ t g p, c.Arrives f t g ∧ g.path c.pi = some c.p ∧ p.pc = c.p.pc ∧
        p.mask = c.p.mask ∧ p.begun = true ∧ p.goal = (c.t.bar (barOf f)).phase ∧
        ((∀ b < 16, t.phaseFull b (t.bar b) = false) → Machine.exec (.barSync f) c.s =
          .next ((c.s.setTeam c.tid t).setGroup c.tid c.gi (g.setPath c.pi (some p)))) ∧
        (c.t.stepMode = false → c.p.holdNext = false → t.phaseFull (barOf f) (t.bar (barOf f)) = true → ∃ t' g',
          Machine.exec (.barSync f) c.s = .next (c.doneIn (c.s.setTeam c.tid t') g') ∧
          (∀ b < 16, t'.bar b = if t.phaseFull b (t.bar b) then { t.bar b with phase := (t.bar b).phase + 1, arrived := 0 } else t.bar b) ∧
          (∃ bs gs, t' = { c.t with barriers := bs, groups := gs }) ∧ (∀ i, i ≠ c.gi → t'.groups[i]? = c.t.groups[i]?) ∧
          g'.owed.toArray.getD (barOf f) false = false ∧
          g'.path c.pi = some (({ c.p with goal := p.goal } : Path).advanced (nextSlot c.p.pc) c.s.clock) ∧
          c.g.Frame { g' with owed := c.g.owed, lastPhase := c.g.lastPhase } c.pi [] [] [] 0)) ∧
      (c.p.begun = false → c.arrived (barOf f) = true → c.p.holdNext = false → (∀ b < 16, c.t.phaseFull b (c.t.bar b) = false) →
        let target := c.g.target c.t (barOf f)
        (c.t.bar (barOf f)).phase = target → ∃ p : Path, Machine.exec (.barSync f) c.s =
          .next (c.s.setGroup c.tid c.gi (c.g.setPath c.pi (some p))) ∧ p.pc = c.p.pc ∧ p.mask = c.p.mask ∧ p.begun = true ∧
          p.goal = target)) ∧
  ∀ (s : State) (tid : Nat) (t : Team), s.team tid = some t → t.stepMode = false →
      ∃ t', s.completePhases tid = s.setTeam tid t' ∧ t'.groups = t.groups ∧ ∀ b < 16,
        let bar := t.bar b
        let expected (i : Nat) : Prop := ∃ g, t.groups[i]? = some g ∧ g.ended = false ∧ g.role < t.floors.length ∧
          (bar.mask = 0 ∨ bar.mask.getLsbD g.role = true)
        let opened : Prop := bar.arrived ≠ 0 ∨ ∃ g ∈ t.groups, g.owed.toArray.getD b false = true ∧ g.lastPhase.toArray.getD b 0 = bar.phase
        (opened ∧ (∀ i < 32, expected i → bar.arrived.getLsbD i = true) →
          t'.bar b = { bar with phase := bar.phase + 1, arrived := 0 }) ∧
        (¬opened ∨ (∃ i < 32, expected i ∧ bar.arrived.getLsbD i = false) → t'.bar b = bar)

/-- R203 to R207, R192, R218, R26: scratch barriers, `wcnt`, `waitval`, `bwait`, `cxsig` and `fence` go on where their condition holds and
park the path where it does not; `wcnt` stops at a faulted command that must retire, and the others take the faults of their address or
seat. -/
def Obligations.WaitForms : Prop :=
  ∀ (c : PathCtx) (f : Fields), c.Issues → c.effect f = true →
    let bar := c.t.sbars.toArray.getD f.sc.toNat {}
    let n := min (c.sbValue f).toNat 255
    let cls := f.sc.toNat
    let now := c.g.counters.toArray.getD cls 0
    (∃ t g, Machine.exec (.sbarInit f) c.s = .next (c.doneIn (c.s.setTeam c.tid t) g) ∧ c.OnlyMoves g ∧
      t = { c.t with sbars := c.t.sbars.setIfInBounds f.sc.toNat { expected := (c.sbValue f).setWidth 32, credited := 0 } }) ∧
    (bar.expected.toNat ≤ bar.credited.toNat → ∃ g, Machine.exec (.sbarWait f) c.s = .next (c.done g) ∧
      c.Kept g (nextSlot c.p.pc) [] [] [] 0) ∧
    (bar.credited.toNat < bar.expected.toNat → c.Parks c.s (Machine.exec (.sbarWait f) c.s)) ∧
    (now ≤ n → ∃ g, Machine.exec (.wcnt f) c.s = .next (c.done g) ∧ c.Kept g (nextSlot c.p.pc) [] [] [] 0) ∧
    (n < now → (∀ e ∈ (c.s.commandsOf c.tid c.gi cls).take (now - n), e.2.isFaulted = false) →
      c.Parks c.s (Machine.exec (.wcnt f) c.s)) ∧
    (n < now → (∃ e ∈ (c.s.commandsOf c.tid c.gi cls).take (now - n), e.2.isFaulted = true) →
      Machine.exec (.wcnt f) c.s = .next c.stopNow) ∧
    (∀ x, c.g.behindStore f.oty.bytes (flatLane f.oty.bytes 0 (c.uni 0 f.sa).toNat) = false →
      c.homeRead f.oty.bytes (c.uni 0 f.sa).toNat = .ok x →
      let v := if f.useImm then orderImm f.oty f.imm else (c.uni 1 f.sb).toNat
      ∃ crews, let u : State := { c.s with crews := crews }
        (∀ k, u.crew k = { c.s.crew k with clearing := (u.crew k).clearing }) ∧ SameMemory c.s u ∧
        (waitCond f.sc.toNat f.oty x v = true → ∃ g, Machine.exec (.waitval f) c.s = .next (c.doneIn u g) ∧
          g.path c.pi = c.at_ (nextSlot c.p.pc) ∧ c.g.Frame g c.pi [] (destG f) [] 0 ∧
          (f.dead = false → 192 ≤ f.d.toNat → g.uniOf (f.d.toNat - 0xC0) =
            BitVec.ofInt 64 (if f.oty = .s32 ∧ 2 ^ 31 ≤ x then (x : Int) - 2 ^ 32 else x))) ∧
        (waitCond f.sc.toNat f.oty x v = false → c.Parks { u with fresh := c.s.fresh + 1 } (Machine.exec (.waitval f) c.s))) ∧
    (∀ code, c.g.behindFault f.oty.bytes (flatLane f.oty.bytes 0 (c.uni 0 f.sa).toNat) = false →
      c.g.behindStore f.oty.bytes (flatLane f.oty.bytes 0 (c.uni 0 f.sa).toNat) = false →
      c.homeRead f.oty.bytes (c.uni 0 f.sa).toNat = .error code → ∃ d, Machine.exec (.waitval f) c.s =
        .next (c.s.takeFault c.tid c.gi c.pi { code := code, addr := c.uni 0 f.sa, detail := d, pc := c.p.pc, rpc := c.p.pc })) ∧
    (∀ q, (if c.p.begun then c.t.seat else c.seatNamed f) = some q →
      (reached q.k ((c.sbValue f).setWidth 32) = true → ∃ g fl, Machine.exec (.bwait f) c.s = .next (c.done g) ∧
        c.Kept g (nextSlot c.p.pc) [] [] [] fl) ∧
      (reached q.k ((c.sbValue f).setWidth 32) = false → q.st ≠ .exited → c.Parks c.s (Machine.exec (.bwait f) c.s))) ∧
    ((if c.p.begun then c.t.seat else c.seatNamed f) = none → Machine.exec (.bwait f) c.s =
      .next (c.s.takeFault c.tid c.gi c.pi { code := 0x04, pc := c.p.pc, rpc := c.p.pc })) ∧
    (∀ cell, let l := c.s.scratchLane c.t 4 0 (c.uni 0 f.sa).toNat
      (∀ code, l.st = .faulted code → Machine.exec (.cxsig f) c.s =
        .next (c.s.takeFault c.tid c.gi c.pi { code := code, addr := c.uni 0 f.sa, pc := c.p.pc, rpc := c.p.pc })) ∧
      (l.st = .walk → l.target = .scratch cell → c.s.sramPoisoned l.target 4 = false → c.s.MemoryForm →
      ∃ s g, Machine.exec (.cxsig f) c.s = .next (c.doneIn s g) ∧ c.OnlyMoves g ∧
        leNat (s.scratch.readN cell 4) = (leNat (c.s.scratch.readN cell 4) + (c.sbValue f).toNat) % 2 ^ 32 ∧
        (∀ x, x < cell ∨ cell + 4 ≤ x → s.scratch.read x = c.s.scratch.read x) ∧ s = { c.s with scratch := s.scratch })) ∧
    (∃ g, Machine.exec (.fence f) c.s = .next (c.done g) ∧ c.Kept g (nextSlot c.p.pc) [] [] [] 0)

/-- R208 to R210: `chsend` puts its lanes behind the entries of the group's own channel, `chrecv` takes the oldest entry, or reads that a
closed channel is empty, and `chclose` marks the group; a full channel parks the sender and an empty one the receiver. -/
def Obligations.ChannelForms : Prop :=
  ∀ (c : PathCtx) (f : Fields), c.Issues → c.effect f = true → f.sc.toNat < 4 →
    let ch := f.sc.toNat
    let q := c.t.channel ch
    let others (t : Team) : Prop := (∀ k, k ≠ ch → t.channel k = c.t.channel k) ∧ ∃ v, t = { c.t with channels := v }
    (c.g.role = ch → q.closed.getLsbD c.gi = false → q.entries.length < 16 → ∃ t g e,
      Machine.exec (.chsend f) c.s = .next (c.doneIn (c.s.setTeam c.tid t) g) ∧ g.path c.pi = c.at_ (nextSlot c.p.pc) ∧
      c.g.Frame g c.pi (freed (.chsend f)) [] [] 0 ∧ others t ∧ t.channel ch = { q with entries := q.entries ++ [e] } ∧
      e.mask = c.active f ∧ e.sender = c.gi ∧
      ∀ l < 32, e.words.get l = if (c.active f).getLsbD l then BitVec.ofNat 32 (c.laneOp 0 f.sa 1 l) else 0) ∧
    (c.g.role = ch → q.closed.getLsbD c.gi = false → 16 ≤ q.entries.length →
      (∃ g ∈ c.t.groups, g.role ≠ ch ∧ g.ended = false) → c.Parks c.s (Machine.exec (.chsend f) c.s)) ∧
    (∀ e rest, q.entries = e :: rest → ∃ t g, Machine.exec (.chrecv f) c.s = .next (c.doneIn (c.s.setTeam c.tid t) g) ∧
      g.path c.pi = c.at_ (nextSlot c.p.pc) ∧ others t ∧ t.channel ch = { q with entries := rest } ∧
      c.g.Frame g c.pi (destRun f 1) [f.sa.toNat - 0xC0] [] 0 ∧ c.LanesKept g (c.active f) (destRun f 1) ∧
      (192 ≤ f.sa.toNat → g.uniOf (f.sa.toNat - 0xC0) = e.mask ++ (0 : BitVec 32)) ∧
      (f.dead = false → ∀ l < 32, (c.active f).getLsbD l = true → (g.lanesOf f.d.toNat).get l = e.words.get l)) ∧
    (q.entries = [] → c.t.closed ch = true → ∃ g, Machine.exec (.chrecv f) c.s = .next (c.done g) ∧
      c.Kept g (nextSlot c.p.pc) (destRun f 1) [f.sa.toNat - 0xC0] [] 0 ∧
      (192 ≤ f.sa.toNat → g.uniOf (f.sa.toNat - 0xC0) = if q.error then 3 else 1) ∧
      (f.dead = false → ∀ l < 32, (c.active f).getLsbD l = true → (g.lanesOf f.d.toNat).get l = 0)) ∧
    (q.entries = [] → c.t.closed ch = false → c.Parks c.s (Machine.exec (.chrecv f) c.s)) ∧
    (c.g.role = ch → ∃ t g, Machine.exec (.chclose f) c.s = .next (c.doneIn (c.s.setTeam c.tid t) g) ∧ c.OnlyMoves g ∧ others t ∧
      t.channel ch = { q with closed := q.closed ||| BitVec.ofNat 32 (2 ^ c.gi) })

/-- R79, R26: a uniform-effect form with a zero guard changes nothing but the program counter and what its LR bits free. -/
def Obligations.ZeroGuardSkips : Prop :=
  ∀ (c : PathCtx) (f : Fields) (i : Instr), c.Issues → i ∈ uniformEffectForms f → c.effect f = false →
    ∃ g, Machine.exec i c.s = .next (c.done g) ∧ c.Kept g (nextSlot c.p.pc) (freed i) [] [] 0

/-! Engine commands -/

/-- R193, R212 to R216, R219, R220, R223: a copy, gather, scatter or range form without a fault at issue issues its command: `cpy` and
`cpyy` with the range that their registers name, descending where the destination lies above an overlapping source, `gath` and `scat` with
the indices of their list, `wbr` and `invr` with their range. -/
def Obligations.EngineFormsIssue : Prop :=
  ∀ (c : PathCtx) (f : Fields), c.Issues → c.effect f = true →
    let a := (c.uni 0 f.sa).toNat
    let b := (c.uni 1 f.sb).toNat
    let w := (c.uni 2 f.sc).toNat
    let dsp := f.immBits 0 2
    let ssp := f.immBits 2 2
    let len := w % 2 ^ 32
    let overlap : Prop := dsp = ssp ∧ b < a + len ∧ a < b + len ∧ len ≠ 0
    let e := elemSize f
    let n := w / 2 ^ 32
    let opens (spans : List (Nat × Nat)) (i : Instr) (k : State → Prop) : Prop :=
      (∀ u, c.s.openDest c.t dsp spans = .ok u → k u) ∧
      (∀ code x, c.s.openDest c.t dsp spans = .error (code, x) → Machine.exec i c.s = .next (c.s.takeFault c.tid c.gi c.pi
        { code := code, addr := BitVec.ofNat 64 x, pc := c.p.pc, rpc := c.p.pc }))
    (∀ i yield credit, (i, yield) ∈ [(Instr.cpy f, false), (.cpyy f, true)] → c.s.rangeFault c.t ssp b len = none →
      c.s.rangeFault c.t dsp a len = none → (yield = true → ¬overlap) → c.creditOf f a len = .ok credit →
      opens [(a, len)] i fun u => c.Commands u (Machine.exec i c.s) 0 c.retiring fun cmd =>
        cmd.kind = .copy yield (if yield then n else 0) ∧ cmd.dsp = dsp ∧ cmd.ssp = ssp ∧ cmd.dst = a ∧ cmd.src = b ∧
        cmd.len = len ∧ cmd.credit = credit ∧ (cmd.desc = true ↔ overlap ∧ b < a) ∧
        cmd.dreg = (if yield then resultReg f else none) ∧ cmd.st = (if len = 0 then .complete else .running) ∧
        ∀ k < len, cmd.data[k]? = some (c.s.takeByte c.t c.g.sbuf ssp (b + k) true)) ∧
    (∀ i scatter credit, (i, scatter) ∈ [(Instr.gath f, false), (.scat f, true)] → len % 4 = 0 → len < 2 ^ 24 →
      c.s.rangeFault c.t 1 len (4 * n) = none →
      (if scatter then credit = none else c.creditOf f a (n * e) = .ok credit) →
      opens (gatherSpans scatter e a (c.indexList len n)) i fun u => c.Commands u (Machine.exec i c.s) 1 c.retiring fun cmd =>
        cmd.kind = .gather scatter e len ∧ cmd.dsp = dsp ∧ cmd.ssp = ssp ∧ cmd.dst = a ∧ cmd.src = b ∧ cmd.len = n * e ∧
        cmd.credit = credit ∧ cmd.st = (if n = 0 then .complete else .running) ∧ cmd.idx = c.indexList len n ∧ cmd.idx.length = n ∧
        (∀ p < n * e, cmd.data[p]? = some (c.s.takeByte c.t c.g.sbuf ssp (elemAddrs scatter e b a cmd.idx p).1 true)) ∧
        ∀ (k : Nat) (cells : List Nat), k < n → c.g.sbuf = [] → cells.length = 4 →
          (∀ j < 4, c.s.scratchCell c.t (len + 4 * k + j : Nat) = .ok (cells.getD j 0)) →
          cmd.idx[k]? = some (leNat (cells.map c.s.scratch.read))) ∧
    (∀ i inv, (i, inv) ∈ [(Instr.wbr f, false), (.invr f, true)] →
      let h : Word32 := (c.uni 0 f.sa).setWidth 32
      (f.imm.getLsbD 0 = true ∨ h = 0 ∨ (c.s.record c.t.crew h).isSome) →
      c.Commands c.s (Machine.exec i c.s) 0 c.retiring fun cmd =>
        cmd.kind = .wbr inv (f.imm.getLsbD 0) (h.toNat / 4096) ∧ cmd.dst = b % 2 ^ 56 ∧ cmd.len = len ∧ cmd.st = .running)

/-- R221, R224 to R226: `coll`, `post` and `take` without a fault at issue issue their command; the contribution arrives, the message is
enqueued, and a waiting message is taken at once where it can be. What reserved bits of the descriptor do, and what `take` checks where no
message waits, are the model's choice (assumption 12). -/
def Obligations.CollectiveAndMailboxForms : Prop :=
  ∀ (c : PathCtx) (f : Fields), c.Issues → c.effect f = true →
    let a := (c.uni 0 f.sa).toNat
    let b := (c.uni 1 f.sb).toNat
    let w := (c.uni 2 f.sc).toNat
    let dsp := f.immBits 0 2
    let ssp := f.immBits 2 2
    let len := w % 2 ^ 32
    let n := w / 2 ^ 40 % 256 + 1
    let op := f.immBits 10 4
    let out := if op = 6 then n * len else len
    let opens (spans : List (Nat × Nat)) (i : Instr) (k : State → Prop) : Prop :=
      (∀ u, c.s.openDest c.t dsp spans = .ok u → k u) ∧
      (∀ code x, c.s.openDest c.t dsp spans = .error (code, x) → Machine.exec i c.s = .next (c.s.takeFault c.tid c.gi c.pi
        { code := code, addr := BitVec.ofNat 64 x, pc := c.p.pc, rpc := c.p.pc }))
    (∀ credit, w < 2 ^ 56 → len % 4 = 0 → c.s.rangeFault c.t ssp b len = none → c.s.rangeFault c.t dsp a out = none →
      c.creditOf f a out = .ok credit →
      opens [(a, out)] (.coll f) fun u => c.Commands u (Machine.exec (.coll f) c.s) 2
        (fun s id cmd => if cmd.data.all Option.isSome then s.arriveColl id else s) fun cmd =>
          cmd.kind = .coll op (w / 2 ^ 32 % 256) n (w / 2 ^ 48 % 256) ∧ cmd.dsp = dsp ∧ cmd.ssp = ssp ∧ cmd.dst = a ∧
          cmd.src = b ∧ cmd.credit = credit ∧ cmd.st = .waiting ∧
          cmd.data = (upFrom b len).map fun x => c.s.takeByte c.t c.g.sbuf ssp x false) ∧
    (∀ box, c.s.boxOf c.t.crew (c.uni 0 f.sa) = some box → 0 < len → len ≤ 256 → c.s.rangeFault c.t ssp b len = none →
      c.Commands c.s (Machine.exec (.post f) c.s) 5 (fun s id _ => s.enqueue id) fun cmd =>
        cmd.kind = .post box ∧ cmd.ssp = ssp ∧ cmd.src = b ∧ cmd.len = len ∧ cmd.st = .waiting ∧
        cmd.data = (upFrom b len).map fun x => c.s.takeByte c.t c.g.sbuf ssp x false) ∧
    (∀ box m credit, c.s.boxOf c.t.crew (c.uni 0 f.sa) = some box → aget box c.s.mailboxes = some m →
      let k := (m.messages.head?.map List.length).getD 1
      c.s.rangeFault c.t dsp b k = none → c.creditOf f b k = .ok credit →
      opens [(b, k)] (.take f) fun u => c.Commands u (Machine.exec (.take f) c.s) 5 (fun s id _ => s.deliver id) fun cmd =>
        cmd.kind = .take box ∧ cmd.dsp = dsp ∧ cmd.dst = b ∧ cmd.credit = credit ∧ cmd.dreg = resultReg f ∧ cmd.st = .waiting)

/-- R216, R227: ENGINE_BYTE_PERFORMED moves up to 64 bytes of a running copy within scratch, in the copy's order, each byte of the source
as it was read at issue, credits each to the scratch barrier, and touches no other byte. -/
def Obligations.CopyMovesBytes : Prop :=
  ∀ (s : State) (id : Nat) (c : Command) (t : Team) (budget : Nat) (yield : Bool) (bytes : List Byte) (cells : Nat → Nat),
    s.MemoryForm → aget id s.cmds = some c → s.engineTeam c = some t → c.kind = .copy yield budget → c.st = .running →
    c.ssp = 1 → c.dsp = 1 → c.done < c.len → c.yieldAt = none → c.data = bytes.map some → bytes.length = c.len →
    s.behindCommand id c = false → c.credit = none →
    (∀ k < c.len, s.scratchCell t (c.dst + k : Nat) = .ok (cells k)) →
    (∀ j k, j < c.len → k < c.len → cells j = cells k → j = k) →
    let m := min 64 (c.len - c.done)
    ∃ u, Machine.exec (.engineBytePerformed id) s = .next u ∧
      (∀ k, c.done ≤ k → k < c.done + m → u.scratch.read (cells (c.offset k)) = bytes.getD (c.offset k) 0) ∧
      (∀ x, (∀ k, c.done ≤ k → k < c.done + m → x ≠ cells (c.offset k)) → u.scratch.read x = s.scratch.read x) ∧
      aget id u.cmds = some { c with done := c.done + m, st := if c.done + m = c.len then .complete else .running } ∧
      (∀ j, j ≠ id → aget j u.cmds = aget j s.cmds) ∧ u.hbm = s.hbm ∧ u.hostMem = s.hostMem ∧ u.vault = s.vault ∧
      u.lines = s.lines ∧ u.teams = s.teams

/-- R193, R218, R219, R225, R226, R223: the other events of engine commands: the oldest complete command of a class retires, its counter
one lower and its register written; a byte that faults stops its command with a record; a `cpyy` completes at its yield point; a message
enters a box with room and leaves it for the oldest taker; a range command is performed. -/
def Obligations.EngineEventsHappen : Prop :=
  ∀ (s : State) (id : Nat) (c : Command), aget id s.cmds = some c →
    (∀ g, c.st = .complete → ((s.commandsOf c.team c.group c.cls).head?.map Prod.fst) = some id → s.group c.team c.group = some g →
      g.ended = false → ∃ u g', Machine.exec (.commandRetire id) s = .next u ∧ u.group c.team c.group = some g' ∧
        g'.counters = g.counters.setIfInBounds c.cls (g.counters.toArray.getD c.cls 0 - 1) ∧ g'.flags = g.flags ||| c.flags ∧
        (∀ r < 64, c.dreg = some r → g'.uniOf r = c.result ∧ g'.gPend.getLsbD r = false) ∧
        (∀ r, c.dreg ≠ some r → g'.uniOf r = g.uniOf r) ∧ g'.vregs = g.vregs ∧ g'.preds = g.preds ∧ g'.paths = g.paths ∧
        aget id u.cmds = none ∧ SameMemory s u) ∧
    (∀ t code sp a, s.engineTeam c = some t → c.st = .running → c.moves = true → c.done < c.len → c.atYield = false →
      s.engineByte t id c = .fault code sp a → Machine.exec (.engineFault id) s =
        .next (s.commandFault id c code 0 (BitVec.ofNat 64 a) (s.errorDetail t code sp a))) ∧
    (∀ t budget, s.team c.team = some t → t.status = .resident → c.kind = .copy true budget → c.st = .running →
      c.atYield = true → Machine.exec (.cpyyYield id) s =
        .next { s with cmds := aput id { c with len := c.done, st := .complete } s.cmds }) ∧
    (∀ box m msg, (s.engineTeam c).isSome = true → c.kind = .post box → c.st = .waiting → aget box s.mailboxes = some m →
      m.messages.length < 8 → s.postBefore id box = false → c.data = msg.map some → ∃ u, Machine.exec (.mailboxPostEnqueue id) s = .next u ∧
        aget box u.mailboxes = some { m with messages := m.messages ++ [msg] } ∧ aget id u.cmds = some { c with st := .complete } ∧
        (∀ k, k ≠ box → aget k u.mailboxes = aget k s.mailboxes) ∧ u = { s with mailboxes := u.mailboxes, cmds := u.cmds }) ∧
    (∀ box m msg rest, (s.engineTeam c).isSome = true → c.kind = .take box → c.st = .waiting → aget box s.mailboxes = some m → m.messages = msg :: rest →
      ∃ u, Machine.exec (.mailboxTakeDeliver id) s = .next u ∧ aget box u.mailboxes = some { m with messages := rest } ∧
        aget id u.cmds = some { c with st := .running, data := msg.map some, len := msg.length } ∧
        (∀ k, k ≠ box → aget k u.mailboxes = aget k s.mailboxes) ∧ u = { s with mailboxes := u.mailboxes, cmds := u.cmds }) ∧
    (∀ t inv all tensor, s.engineTeam c = some t → c.kind = .wbr inv all tensor → c.st = .running → s.storesBefore id c = false →
      ∃ u, Machine.exec (.engineBytePerformed id) s = .next u ∧ (aget id u.cmds).map Command.st = some .complete ∧
        (∀ k, (∀ k' l', (k', l') ∈ s.lines → s.rangeHits t all tensor c.dst c.len (k', l') = true →
            k ≠ k' ∧ k ≠ { k' with place := .home }) → aget k u.lines = aget k s.lines) ∧
        (∀ k l, (k, l) ∈ s.lines → s.rangeHits t all tensor c.dst c.len (k, l) = true →
          ∀ va b, (u.held k va) = some b → b.2.2 = false) ∧
        (inv = true → ∀ k l, (k, l) ∈ s.lines → s.rangeHits t all tensor c.dst c.len (k, l) = true → aget k u.lines = none))

/-! Views -/

/-- R279, R263, R269: a `fork` that no check turns away creates the children `b` to `b + m − 1`, `m` being the largest number that slack
and the view table allow, each a waiting team in a new view of the forking view; it returns `m` and whether it fell short. -/
def Obligations.ForkCreatesChildren : Prop :=
  ∀ (c : PathCtx) (f : Fields) (d : BitVec 512), c.Issues → c.effect f = true →
    let w := c.uni 0 f.sa
    let n := w.toNat % 512
    let b := (w.extractLsb' 16 8).toNat
    let r := ((c.uni 2 f.sc).setWidth 32 : Word32).toNat
    let crew := c.s.crew c.t.crew
    c.t.forkSet = none → w &&& ~~~(0x00FF01FF : Word64) = 0 → n ≤ 256 → b + n ≤ 256 →
    c.s.viewDepth c.t.crew c.t.view ≠ 6 → c.s.descriptor c.t (f.immBits 0 16) = some d → descCox d = false →
    c.s.landing c.t ((c.s.entryOf c.t (f.immBits 0 16)).setWidth 64) = none → c.orderedAt .pkg = .go →
    ∃ (m : Nat) (s : State) (g : Group) (t : Team),
      (m ≤ n ∧ m * r ≤ crew.slack ∧ m ≤ crew.freeViews ∧ ∀ k ≤ n, k * r ≤ crew.slack → k ≤ crew.freeViews → k ≤ m) ∧
      Machine.exec (.fork f) c.s = .next (c.doneIn s g) ∧ c.OnlyMoves { g with g := c.g.g } ∧
      (∀ i, i ∉ destG f → g.uniOf i = c.g.uniOf i) ∧
      (f.dead = false → 192 ≤ f.d.toNat → g.uniOf (f.d.toNat - 0xC0) = BitVec.ofNat 64 (m + if m < n then 2 ^ 32 else 0)) ∧
      s.team c.tid = some t ∧ (m = 0 → t.forkSet = none) ∧
      (0 < m → ∃ x, t.forkSet = some x ∧ x.st = .open ∧ x.live = upFrom c.s.nextId m ∧
        x.children.map Prod.fst = upFrom c.s.nextId m) ∧
      (∀ j < m, ∃ ct, (c.s.nextId + j, ct) ∈ s.teams ∧ ct.child = some (b + j) ∧ ct.parent = some c.tid ∧ ct.status = .waiting ∧
        ct.crew = c.t.crew ∧ ct.x = c.t.x ∧ ct.y = c.t.y ∧ ct.grid = c.t.grid ∧ ct.arg0 = c.uni 1 f.sb ∧ ct.arg1 = c.greg 6 1 ∧
        ct.seat = none ∧ aget ct.view crew.views = none ∧ ∃ v, aget ct.view (s.crew c.t.crew).views = some v ∧ v.parent = c.t.view ∧
          v.depth = c.s.viewDepth c.t.crew c.t.view + 1 ∧ v.child = b + j ∧ v.team = c.s.nextId + j ∧ v.resv = r) ∧
      (s.crew c.t.crew).slack = crew.slack - m * r ∧
      (∀ k, k ≠ c.tid → (∀ j < m, k ≠ c.s.nextId + j) → s.team k = c.s.team k) ∧ SameMemory c.s s

/-- R280 to R284: `join` returns what has been decided for it, finds no set, or waits; `vid` and `twres` read the view tree and the pool;
`rpage` declares a region or clears the declarations; `vabort` frees the set and notes the abort. -/
def Obligations.ViewFormsComplete : Prop :=
  ∀ (c : PathCtx) (f : Fields), c.Issues → c.effect f = true →
    let me := c.gi * 8 + c.pi
    let writes (g : Group) (w : Word64) : Prop := f.dead = false → 192 ≤ f.d.toNat → g.uniOf (f.d.toNat - 0xC0) = w
    (∀ w fl, aget me c.t.joined = some (w, fl) → ∃ t g, Machine.exec (.join f) c.s = .next (c.doneIn (c.s.setTeam c.tid t) g) ∧
      t = { c.t with joined := t.joined } ∧ aget me t.joined = none ∧ g.path c.pi = c.at_ (nextSlot c.p.pc) ∧
      c.g.Frame g c.pi [] (destG f) [] fl ∧ writes g w) ∧
    (aget me c.t.joined = none → c.t.forkSet = none → ∃ g,
      Machine.exec (.join f) c.s = .next (c.doneIn (c.s.setTeam c.tid { c.t with aborted := false }) g) ∧
      g.path c.pi = c.at_ (nextSlot c.p.pc) ∧ c.g.Frame g c.pi [] (destG f) [] 0 ∧
      writes g (if c.t.aborted then 0x1_0000_0000 else 0)) ∧
    (∀ x, aget me c.t.joined = none → c.t.forkSet = some x → x.st ≠ .conflicted → ∃ x',
      c.Parks (c.s.setTeam c.tid { c.t with forkSet := some x' }) (Machine.exec (.join f) c.s) ∧ me ∈ x'.waiters ∧
      x'.st = if x.st = .ended then .checking else x.st) ∧
    (∀ x, aget me c.t.joined = none → c.t.forkSet = some x → x.st = .conflicted → Machine.exec (.join f) c.s =
      .next (c.s.takeFault c.tid c.gi c.pi { code := 0x09, mask := BitVec.ofNat 32 (x.low.toNat % 2 ^ 16 + x.high.toNat % 2 ^ 16 * 2 ^ 16), addr := x.conflict, detail := conflictDetail x.low.toNat x.high.toNat, pc := c.p.pc, rpc := c.p.pc })) ∧
    (∃ g, Machine.exec (.vid f) c.s = .next (c.done g) ∧ c.Kept g (nextSlot c.p.pc) [] (destG f) [] 0 ∧
      ∀ sel v, f.immBits 0 4 = sel →
        (sel, v) ∈ [(0, (c.s.viewId c.t.crew c.t.view).setWidth 64), (2, BitVec.ofNat 64 (c.s.viewDepth c.t.crew c.t.view)),
          (3, (c.t.child.map fun k => BitVec.ofNat 64 k).getD 0xFFFF_FFFF),
          (4, BitVec.ofNat 64 ((c.t.forkSet.map fun x => x.live.length).getD 0))] → writes g v) ∧
    (∃ g, Machine.exec (.twres f) c.s = .next (c.done g) ∧ c.Kept g (nextSlot c.p.pc) [] (destG f) [] 0 ∧
      (f.immBits 0 2 = 0 → writes g (BitVec.ofNat 64 (c.s.crew c.t.crew).poolSize)) ∧
      (f.immBits 0 2 = 1 → writes g (BitVec.ofNat 64 (c.s.crew c.t.crew).slack))) ∧
    (f.immBits 0 4 = 0 → ∃ g, Machine.exec (.rpage f) c.s = .next (c.doneIn (c.s.setTeam c.tid { c.t with rpages := [] }) g) ∧
      c.OnlyMoves g) ∧
    (let base := (c.uni 0 f.sa).toNat % 2 ^ 56
      let len := (c.uni 1 f.sb).toNat % 2 ^ 32
      f.immBits 0 4 ≠ 0 → base % 65536 = 0 → len % 65536 = 0 → len ≠ 0 → c.t.rpages.length < 8 → c.t.forkSet = none →
      c.s.rpageFails c.t.crew base len (f.immBits 0 4) = none → ∃ g, Machine.exec (.rpage f) c.s =
        .next (c.doneIn (c.s.setTeam c.tid { c.t with rpages := c.t.rpages ++ [{ base := base, len := len, op := f.immBits 0 4 }] }) g) ∧
        c.OnlyMoves g) ∧
    (c.t.forkSet = none → ∃ g, Machine.exec (.vabort f) c.s = .next (c.done g) ∧ c.Kept g (nextSlot c.p.pc) [] [] [] 0) ∧
    (∀ x d, c.t.forkSet = some x → x.st ≠ .committing → (c.s.abortFor c.tid).pathCtx ⟨c.tid, c.gi, c.pi⟩ = some d →
      d.t.forkSet = none ∧ d.t.rpages = [] ∧ (d.t.aborted = true ∨ x.waiters ≠ []) ∧
      ∃ g, Machine.exec (.vabort f) c.s = .next (d.done g) ∧ d.OnlyMoves g)

/-- R270, R272, R274, R275, R276, R280: the check of a set whose children have ended finds the lowest killed child, or passes where no
byte was changed by two of them and the pool has room; a commit goes granule by granule, where slices of its home may work for the crew,
and of one child's granule it writes exactly the changed bytes; the last one hands the result to the first that waits and drops the
children; a determinate grid joins in the same way. -/
def Obligations.MergeEvents : Prop :=
  ∀ (s : State), (∀ (tid w : Nat) (ws : List Nat) (t : Team) (x : ForkSet), s.team tid = some t → t.forkSet = some x →
      (x.waiters = w :: ws → t.status = .resident → (x.st = .ended ∨ x.st = .checking) →
        (∀ k ks, x.killed = k :: ks → ∃ u t' x', Machine.exec (.mergeCheck tid) s = .next u ∧ u.team tid = some t' ∧
          t'.forkSet = some x' ∧ x'.st = .conflicted ∧ x'.conflict = BitVec.allOnes 64 ∧
          x'.low = BitVec.ofNat 32 (ks.foldl min k) ∧ x'.high = x'.low) ∧
        (∀ u, let gs := (s.crew t.crew).granulesOf (s.setKids x)
          x.killed = [] → findConflict gs = none → s.reserveAll t.crew t.view gs (granuleAddrs gs) = .ok u →
          Machine.exec (.mergeCheck tid) s = .next (u.modSet tid fun f => { f with st := .committing }))) ∧
      (x.st = .committing →
        let gs := (s.crew t.crew).granulesOf (s.setKids x)
        let left := (granuleAddrs gs).filter fun a => !x.done.contains a
        let next := left.find? fun a => s.mergesAt t.crew (s.homeDie (((gs.find? fun g => g.2.addr == a).map fun g => g.2.pa).getD 0))
        (left = [] ∨ next.isSome = true) → ∃ u, Machine.exec (.mergeCommit tid) s = .next u ∧
          (left.length ≤ 1 → ((∀ k ∈ x.children, k.1 ≠ tid) → ∃ t', u.team tid = some t' ∧ t'.forkSet = none ∧ t'.rpages = [] ∧
              (∀ w ws, x.waiters = w :: ws → ∃ fl, (w, BitVec.ofNat 64 x.children.length, fl) ∈ t'.joined)) ∧
            (∀ k ∈ x.children, u.team k.1 = none)) ∧
          (1 < left.length → ∃ t' a fl, next = some a ∧ u.team tid = some t' ∧
            t'.forkSet = some { x with done := x.done ++ [a], flags := fl }) ∧
          (∀ a k g, s.MemoryForm → t.view = 0 → (∀ e ∈ x.children, e.2 ≠ 0) → next = some a →
            (gs.filter fun e => e.2.addr == a) = [(k, g)] → g.op = 0 → g.pa + 256 ≤ 0x1000_0000_0000 →
            (∀ i < 256, u.physRead (g.pa + i) = if g.changed i then g.priv.getD i 0 else s.physRead (g.pa + i)) ∧
            (∀ pa, pa < 0x1000_0000_0000 → pa < g.pa ∨ g.pa + 256 ≤ pa → u.physRead pa = s.physRead pa)))) ∧
    (∀ (gid : Nat) (g : Grid), s.grid gid = some g → g.st = .joining → ∀ i,
      (i = .determinateJoin gid ∧ g.retry = false) ∨ (i = .determinateJoinRetry gid ∧ g.retry = true) →
      (∀ a x y, s.judge g.crew g.launchView g.kids g.killedTeams = .conflict a x y → (s.crew g.crew).heldRecs = [] →
        (s.crew g.crew).queueRoom = true →
        Machine.exec i s = .next ((s.gridRecord gid g 0x09 (conflictMask x y) a (conflictDetail x y)).finishGrid gid 5 0)) ∧
      (∀ a, s.judge g.crew g.launchView g.kids g.killedTeams = .short a → g.retry = false → Machine.exec i s =
        .next ((s.gridRecord gid g 0x08 (BitVec.allOnes 32) (BitVec.ofNat 64 a) 0).modGrid gid fun g => { g with retry := true })) ∧
      (∀ u, s.judge g.crew g.launchView g.kids g.killedTeams = .pass u → ∃ v, Machine.exec i s = .next (v.finishGrid gid 0 0) ∧
        v = (u.commitAll g.crew g.launchView ((u.crew g.crew).granulesOf g.kids)).1))

/-! The cox: loop nest and matrix arrays -/

/-- R26, R150, R236: a cox form whose guard is 0 changes nothing of its seat but the program counter; of the loop-nest forms `lnbnd`,
`lncoef` and `lnbase` set a bound, a coefficient or a stream, a register bound of 0 acting as 1. R237: `lnstart` sets every induction
variable to 0; `lnnext` counts the nest, its innermost variable fastest, and its predicate is 0 when the whole nest has wrapped; both
leave in each destination register the address of the highest enabled stream that names it. -/
def Obligations.LoopNestForms : Prop :=
  (∀ (c : SeatCtx) (f : Fields), c.Issues →
    let src := if f.useImm then f.imm else (c.creg f.sb).setWidth 32
    let k := f.sc.toNat
    let only (i : Instr) (P : Seat → Prop) : Prop := ∃ q, Machine.exec i c.s = .next (c.done q) ∧ q.pc = nextSlot c.q.pc ∧
      c.q.Frame { q with bounds := c.q.bounds, streams := c.q.streams } [] [] 0 ∧ P q ∧ SameMemory c.s (c.done q)
    (c.guard f = false → ∀ i ∈ [Instr.lnbnd f, .lncoef f, .lnbase f, .lnbaseOff f, .lnstart f, .lnnext f, .mmaBf16 f, .mmaF8 f,
        .mmaS8 f, .mmaTern f, .azero f, .afin f, .arel f, .mbatch f, .cxwait f],
      only i fun q => q.bounds = c.q.bounds ∧ q.streams = c.q.streams) ∧
    (c.guard f = false → ∃ u q, Machine.exec (.exit f) c.s = .next (u.modSeat c.tid fun _ => q) ∧ q.pc = nextSlot c.q.pc ∧
      c.q.Frame q [] [] 0 ∧ u.teams = c.s.teams ∧ (TraceOff c.s c.t.crew (dieOf c.t.core) 0 → u = c.s)) ∧
    (c.guard f = true →
      only (.lnbnd f) (fun q => q.bounds = c.q.bounds.setIfInBounds k (if src = 0 then 1 else src) ∧ q.streams = c.q.streams) ∧
      (k < 32 → only (.lncoef f) fun q => q.bounds = c.q.bounds ∧ ∀ j < 8, ∃ x, c.q.streams.toList[j]? = some x ∧
        q.streams.toList[j]? = some (if j = k / 4 then { x with coef := x.coef.setIfInBounds (k % 4) src } else x)) ∧
      (k < 8 → only (.lnbase f) fun q => q.bounds = c.q.bounds ∧ ∀ j < 8, ∃ x, c.q.streams.toList[j]? = some x ∧
        q.streams.toList[j]? = some (if j = k then { x with enabled := true, base := c.creg f.sa, dest := f.d.toNat } else x)) ∧
      (k < 8 → only (.lnbaseOff f) fun q => q.bounds = c.q.bounds ∧ ∀ j < 8, ∃ x, c.q.streams.toList[j]? = some x ∧
        q.streams.toList[j]? = some (if j = k then { x with enabled := false } else x)))) ∧
  (∀ (c : SeatCtx) (f : Fields), c.Issues → c.guard f = true →
    let ind (q : Seat) (k : Nat) : Nat := (q.ind.toArray.getD k 0).toNat
    let bound (k : Nat) : Nat := (c.q.bounds.toArray.getD k 0).toNat
    let count (q : Seat) : Nat := ind q 0 + bound 0 * (ind q 1 + bound 1 * (ind q 2 + bound 2 * ind q 3))
    let addressed (q : Seat) : Prop := ∀ r < 64, q.regOf r =
      match c.q.streams.toList.reverse.find? fun x => x.enabled && x.dest == r with
      | some x => q.streamAddr x
      | none => c.q.regOf r
    (∀ x ∈ c.q.streams.toList, x.dest < 64) →
    (∃ q, Machine.exec (.lnstart f) c.s = .next (c.done q) ∧ q.pc = nextSlot c.q.pc ∧ (∀ k, ind q k = 0) ∧ addressed q ∧
      c.q.Frame { q with ind := c.q.ind } (upFrom 0 64) [] 0 ∧ SameMemory c.s (c.done q)) ∧
    ((∀ k < 4, ind c.q k < bound k) → f.d.toNat < 7 →
      ∃ q, Machine.exec (.lnnext f) c.s = .next (c.done q) ∧ q.pc = nextSlot c.q.pc ∧ addressed q ∧
        let last : Prop := count c.q + 1 = bound 0 * (bound 1 * (bound 2 * bound 3))
        (¬last → count q = count c.q + 1 ∧ q.preds.getLsbD f.d.toNat = true) ∧
        (last → count q = 0 ∧ q.preds.getLsbD f.d.toNat = false) ∧ (∀ k < 4, ind q k < bound k) ∧
        c.q.Frame { q with ind := c.q.ind } (upFrom 0 64) [f.d.toNat] 0 ∧ SameMemory c.s (c.done q)))

/-- R246, R252, R253, R256: an `mma` or `azero` whose checks pass enters the queue of its target core in the open batch; an unbound
accumulator takes the free slot of the lowest number, bound before a full queue stalls the seat; `afin` enters the queue of the core of
its accumulator. No c register, flag, predicate or memory changes. -/
def Obligations.MatrixFormsEnter : Prop :=
  ∀ (c : SeatCtx) (f : Fields), c.Issues → c.guard f = true →
    let acc := f.immBits 0 8
    let core := c.target f
    let sc := if f.imm.getLsbD 14 then c.creg f.sc else 0
    let kind (fn : Nat) : MatKind :=
      .mma fn (f.md.getLsbD 0) (c.creg f.sa) (c.creg f.sb) sc (f.imm.getLsbD 14) (f.immBits 15 2) (f.immBits 17 2)
    let enters (i : Instr) (k : MatKind) (core : Nat) (slot : Option Nat) (accs : List (Nat × Nat × Nat)) : Prop :=
      ∃ u q o, Machine.exec i c.s = .next u ∧ u.team c.tid = some { c.t with seat := some q } ∧ q.pc = nextSlot c.q.pc ∧
        q.ops = c.q.ops ++ [o] ∧ o.id = c.s.nextId ∧ o.kind = k ∧ o.acc = acc ∧ o.core = core ∧ o.slot = slot ∧
        o.batch = c.q.n + 1 ∧ o.started = false ∧ q.opened = true ∧ q.accs = accs ∧
        c.q.Frame { q with ops := c.q.ops, opened := c.q.opened, accs := c.q.accs } [] [] 0 ∧
        (u.core core).queue = (c.s.core core).queue ++ [(c.tid, c.s.nextId)] ∧
        (∀ j, j ≠ core → u.core j = c.s.core j) ∧ (∀ t, t ≠ c.tid → u.team t = c.s.team t) ∧ SameMemory c.s u
    (∀ slot accs, (c.s.core core).queue.length < 16 → c.s.ownsCore c.t.crew core = true →
      (c.q.accAt acc = some (core, slot) ∧ accs = c.q.accs ∨
        c.q.accAt acc = none ∧ c.s.freeSlot core = some slot ∧ c.saveRoom 33800 = true ∧
          accs = aput acc (core, slot) c.q.accs) →
      enters (.azero f) .azero core (some slot) accs ∧
      ∀ i fn, (i, fn) ∈ [(Instr.mmaBf16 f, 0), (.mmaF8 f, 1), (.mmaS8 f, 2), (.mmaTern f, 3)] → c.latchUse core fn (f.md.getLsbD 0) (f.md.getLsbD 1) ≠ .other →
        c.kindFault (kind fn) (match c.latchUse core fn (f.md.getLsbD 0) (f.md.getLsbD 1) with | .hit _ _ => true | _ => false) = none →
        enters i (kind fn) core (some slot) accs) ∧
    (∀ slot, 16 ≤ (c.s.core core).queue.length → c.s.ownsCore c.t.crew core = true → c.q.accAt acc = none →
      c.s.freeSlot core = some slot → c.saveRoom 33800 = true → ∃ u q, Machine.exec (.azero f) c.s = .next u ∧
        u.team c.tid = some { c.t with seat := some q } ∧ q.pc = c.q.pc ∧ q.st = .stalled ∧ q.accs = aput acc (core, slot) c.q.accs ∧
        c.q.Frame { q with accs := c.q.accs } [] [] 0 ∧ SameMemory c.s u) ∧
    (∀ core, core = ((c.q.accAt acc).map Prod.fst).getD c.t.core → (c.s.core core).queue.length < 16 →
      c.kindFault (.afin (f.imm.getLsbD 8) (c.creg f.sa)) false = none →
      enters (.afin f) (.afin (f.imm.getLsbD 8) (c.creg f.sa)) core ((c.q.accAt acc).map Prod.snd) c.q.accs)

/-- R254, R255, R257, R259, R234: `arel` unbinds its accumulator, `mbatch` closes the open batch and returns its number, `cxwait` returns
the word once it has reached the value and parks the seat until then, and `exit` ends the seat. -/
def Obligations.SeatControlForms : Prop :=
  ∀ (c : SeatCtx) (f : Fields), c.Issues → c.guard f = true →
    let w := c.creg f.sa
    (∃ u q, Machine.exec (.arel f) c.s = .next u ∧ u.team c.tid = some { c.t with seat := some q } ∧ q.pc = nextSlot c.q.pc ∧
      q.accAt (f.immBits 0 8) = none ∧ (∀ a, a ≠ f.immBits 0 8 → q.accAt a = c.q.accAt a) ∧ q.opened = true ∧
      c.q.Frame { q with accs := c.q.accs, opened := c.q.opened } [] [] 0 ∧ SameMemory c.s u) ∧
    ((c.q.close.k = c.q.close.n ∨ c.saveRoom 4 = true) → f.d.toNat < 64 → ∃ q, Machine.exec (.mbatch f) c.s = .next (c.done q) ∧
      q.pc = nextSlot c.q.pc ∧ q.n = c.q.n + 1 ∧ q.regOf f.d.toNat = (c.q.n + 1).setWidth 64 ∧ q.opened = false ∧
      (c.q.k = c.q.n → (∀ o ∈ c.q.ops, o.batch ≠ c.q.n + 1) → q.k = q.n) ∧
      c.q.Frame { q with n := c.q.n, k := c.q.k, opened := c.q.opened, batchFlags := c.q.batchFlags } [f.d.toNat] [] 0 ∧
      SameMemory c.s (c.done q)) ∧
    (∀ x, c.waitWord w = .ok x →
      ((x - c.sbWord f).toNat < 2 ^ 31 → f.d.toNat < 64 → ∃ q, Machine.exec (.cxwait f) c.s = .next (c.done q) ∧
        q.pc = nextSlot c.q.pc ∧ q.regOf f.d.toNat = x.setWidth 64 ∧ c.q.Frame q [f.d.toNat] [] 0 ∧ SameMemory c.s (c.done q)) ∧
      (2 ^ 31 ≤ (x - c.sbWord f).toNat → Machine.exec (.cxwait f) c.s = .next (c.done { c.q with st := .parked }))) ∧
    (∀ code, c.waitWord w = .error code → Machine.exec (.cxwait f) c.s = .next (c.s.seatFault c.tid code 0 w
      (if code = 0x13 then BitVec.ofNat 128 (3 + c.t.coxCell w 0 * 2 ^ 64) else 0) c.q.pc)) ∧
    ((∃ g ∈ c.t.groups, g.ended = false) → ∃ u q, Machine.exec (.exit f) c.s = .next u ∧
      u.team c.tid = some { c.t with seat := some q } ∧ q.st = .exited ∧ q.accs = [] ∧
      (TraceOff c.s c.t.crew (dieOf c.t.core) 0 → SameMemory c.s u))

/-- R256, R245, R247, R257, R259: the events of a matrix array: an operation that can start leaves the queue and reads its operands; the
completion of an `afin` writes its converted tile to scratch and nothing else there; the completion of an `mma` or `azero` changes no
memory; an operation that completes leaves its seat's list; one that meets an uncorrectable operand traps its seat; a parked seat runs
again where its word has reached the value. -/
def Obligations.MatrixEventsHappen : Prop :=
  ∀ (s : State) (core tid : Nat) (t : Team) (q : Seat), s.team tid = some t → t.seat = some q → t.status = .resident →
    (∃ g ∈ t.groups, g.ended = false) → t.killed = false → (∀ e ∈ s.teams, e.2.status ≠ .draining) →
    (∀ e o, (s.core core).queue.find? s.canStart = some e → e.1 = tid → s.queued e = some o → (∀ x ∈ q.ops, x.id = e.2 → x = o) →
      ∃ u, Machine.exec (.matrixOpStart core) s = .next u ∧ (u.core core).queue = (s.core core).queue.erase e ∧
        (s.badOperand t o = none → u.queued e = some (s.loadOp t o) ∧ (s.loadOp t o).started = true ∧ SameMemory s u) ∧
        (s.badOperand t o ≠ none → ∃ q', (u.team tid).bind Team.seat = some q' ∧ q'.st = .trapped)) ∧
    (∀ o, ((s.startedOn core).find? fun e => !e.2.drains) = some (tid, o) →
      (∀ x, aget (o.slot.getD 0) (s.core core).slots = some x → x.broken = none) → ∃ u q',
      Machine.exec (.matrixOpComplete core) s = .next u ∧ u.team tid = some { t with seat := some q' } ∧
      (∀ x ∈ q'.ops, x ∈ q.ops ∧ x.id ≠ o.id) ∧ SameMemory s u ∧
      ∀ fn sp a b sc scl sa sb k x, o.kind = .mma fn sp a b sc scl sa sb → o.slot = some k → aget k (s.core core).slots = some x →
        (accumulate fn sp o.a o.b o.sa o.sb x).1.released = false →
        aget k (u.core core).slots = some (accumulate fn sp o.a o.b o.sa o.sb x).1) ∧
    (∀ o bf16 dst, s.MemoryForm → ((s.startedOn core).find? fun e => e.2.drains) = some (tid, o) → o.kind = .afin bf16 dst →
      let slot := (o.slot.bind fun k => aget k (s.core core).slots).getD { team := tid }
      let n := if bf16 then 8192 else 16384
      slot.broken = none → ∃ u q', Machine.exec (.afinComplete core) s = .next u ∧ u.team tid = some { t with seat := some q' } ∧
        (∀ x ∈ q'.ops, x ∈ q.ops ∧ x.id ≠ o.id) ∧
        (∀ i < n, u.scratch.read (t.coxCell dst 0 + i) = (convertSlot bf16 slot).1.getD i 0) ∧
        (∀ x, x < t.coxCell dst 0 ∨ t.coxCell dst 0 + n ≤ x → u.scratch.read x = s.scratch.read x) ∧
        u.hbm = s.hbm ∧ u.hostMem = s.hostMem ∧ u.vault = s.vault ∧ u.lines = s.lines) ∧
    (∀ c f x, s.seatCtx tid = some c → q.st = .parked → c.parkedOn = some f → c.waitWord (c.creg f.sa) = .ok x →
      ((x - c.sbWord f).toNat < 2 ^ 31 →
        Machine.exec (.cxwaitRecheck tid) s = .next (s.modSeat tid fun q => { q with st := .running })) ∧
      (2 ^ 31 ≤ (x - c.sbWord f).toNat → Machine.exec (.cxwaitRecheck tid) s = .refused .notEnabled))

/-! Sampling arrays -/

/-- R294, R295, R297, R298 to R302, R291 to R293: a sampler form whose range is in order issues its command; a command starts when the
array holds its context; a phase gives each unclamped cell of the colour its new state and counter, and leaves every other cell; the
commands of a whole context set what they name. -/
def Obligations.SamplerForms : Prop :=
  (∀ (c : PathCtx) (f : Fields), c.Issues → c.effect f = true →
    let w := c.uni 0 f.sa
    let die := (w.extractLsb' 32 3).toNat
    let first := (w.extractLsb' 0 16).toNat
    let cnt := (w.extractLsb' 16 16).toNat
    ∀ (i : Instr) (fn sub : Nat) (b v : Word64), (i, fn, sub, b, v) ∈ samplerForms c f →
      (c.s.teamClass c.t).getLsbD 1 = true → w.toNat < 2 ^ 35 → (wholeContext fn sub = true → w.toNat % 2 ^ 32 = 0) →
      die ∈ c.s.crewDies c.t.crew → c.s.contextQuarters c.t.crew die ≠ 0 →
      (wholeContext fn sub = false → first + cnt < 16384 * c.s.contextQuarters c.t.crew die) →
      (fn = 0 → b.toNat % 32 = 0) → (fn = 4 → sub = 0 → b.toNat % 2 = 0) →
      let sweeps := if fn = 5 then b.toNat % 2 ^ 32 else 0
      ∀ u, c.s.openDest c.t 0 [(b.toNat, samplerResult fn sub (cnt + 1))] = .ok u →
      c.Commands u (Machine.exec i c.s) 4 c.retiring fun cmd =>
        cmd.kind = .sampler fn sub c.t.crew die first cnt b v ∧ cmd.sweeps = sweeps ∧ cmd.fn = fn ∧
        cmd.st = if fn = 5 ∧ sweeps = 0 then .complete else .waiting) ∧
  (∀ (s : State) (crew die id : Nat) (c : Command), s.contextCommand crew die = some (id, c) → aget id s.cmds = some c →
    s.arrayHolds crew die = true →
    let x := s.context crew die
    (c.st = .waiting → Machine.exec (.samplerCommandStart crew die) s =
      .next ((s.modCmd id fun c => { c with st := .running }).setContext crew die x)) ∧
    (∀ k, c.st = .running → c.fn = 5 → c.sweeps ≠ 0 → x.broken = none → x.nextColour c.colour = some k →
      ∃ u, Machine.exec (.samplerColourPhase crew die) s = .next u ∧
        let y := u.context crew die
        (∀ i cell, x.cells.filter (fun e => e.1 == i) = [(i, cell)] → ∃ cell', aget i y.cells = some cell' ∧
          (¬(cell.clamp = false ∧ cell.colour.toNat = k ∧ i < 16384 * x.q) → cell' = cell) ∧
          (cell.clamp = false → cell.colour.toNat = k → i < 16384 * x.q →
            let arg := max (-2048) (min 2047 (x.beta.toNat * x.field cell / 256))
            (cell'.state = true ↔ x.draw s.fresh i < x.entry arg) ∧
            cell'.counter.toNat = min 65535 (cell.counter.toNat + if cell'.state then 1 else 0) ∧
            cell' = { cell with state := cell'.state, counter := cell'.counter })) ∧
        ((∃ j, j < 8 ∧ k < j ∧ (y.unclamped j).isEmpty = false) → y.s = x.s ∧
          ∀ d, aget id u.cmds = some d → d = { c with colour := k + 1 }) ∧
        ((∀ j, j < 8 → k < j → (y.unclamped j).isEmpty = true) → y.s = x.s + 1 ∧
          ∀ d, aget id u.cmds = some d → d = { c with colour := 0, sweeps := c.sweeps - 1 }) ∧
        y = { x with cells := y.cells, csat := y.csat, s := y.s }) ∧
    (∀ t fn sub first cnt b v, c.st = .running → x.broken = none → s.team c.team = some t → (∃ g ∈ t.groups, g.ended = false) →
      c.kind = .sampler fn sub crew die first cnt b v →
      ∀ y, (fn, y) ∈ [(2, { x with seed := b, s := 0, entropy := sub == 1 }), (3, { x with beta := b.setWidth 16 })] ++
          (if sub = 1 then [(4, { x with table := none })] else []) ++ (if c.sweeps = 0 then [(5, x)] else []) →
      ∃ u, Machine.exec (.samplerCommandComplete crew die) s = .next u ∧ (fn = 5 ∨ u.context crew die = y) ∧
        (fn = 5 → (u.crew crew).samplers = (s.crew crew).samplers) ∧
        (∀ d, aget id u.cmds = some d → d.st = .complete) ∧ SameMemory s u))

/-! Remote access and riggers -/

/-- R320 to R323, R318, R61: `rld`, `rst` and `ratom` issue nothing without an active lane, a destination mapped; else one command for
each peer and one request for each lane, at the address that its window gives it, and the destination is pending; `rfence` issues its
command. -/
def Obligations.RemoteForms : Prop :=
  ∀ (c : PathCtx) (f : Fields), c.Issues → c.determinate = false →
    (∀ i fn a op d1 d2, (i, fn, a, op, d1, d2) ∈ remoteForms c f →
      let m := if c.p.rest = 0 then c.remoteMask fn f else c.remoteMask fn f &&& c.p.rest
      let pkg := fn == 1 && f.scopeCode == 4
      let bg := f.imm.getLsbD 2
      (m = 0 → ∃ g, Machine.exec i c.s = .next (c.done g) ∧ c.Kept g (nextSlot c.p.pc) (freed i ++ a.dest.vecs) [] [] 0 ∧
        (∀ r ∈ a.dest.vecs, (aget r g.vregs).isSome) ∧ ∀ r, r ∉ freed i → g.lanesOf r = c.g.lanesOf r) ∧
      (m ≠ 0 → (∀ l ∈ maskLanes m, ∃ w, c.Reaches f fn a.bytes l w) →
        c.g.counters.toArray.getD 3 0 + ((maskLanes m).map (c.peerOf f)).eraseDups.length ≤ 255 →
        ∃ s g new rs, Machine.exec i c.s = .next (c.doneIn s g) ∧ s.cmds = c.s.cmds ++ new ∧ s.requests = c.s.requests ++ rs ∧
          rs.length = (maskLanes m).length ∧ SameMemory c.s s ∧
          (∀ e ∈ new, c.s.nextId ≤ e.1 ∧ e.2.team = c.tid ∧ e.2.group = c.gi ∧ e.2.pc = c.p.pc ∧ e.2.cls = 3 ∧ e.2.st = .running ∧
            ∃ l ∈ maskLanes m, e.2.kind = .remote fn (f.immBits 4 4) (f.immBits 8 4) (c.peerOf f l) bg pkg) ∧
          (new.map fun e => e.2.kind).Nodup ∧
          (∀ l ∈ maskLanes m, ∀ w, c.Reaches f fn a.bytes l w → ∃ e ∈ rs, ∃ k ∈ new, e.2.lane = l ∧ e.2.op = op ∧
            e.2.pa = winBase w + (c.peerOf f l - winPeer w) * 2 ^ winPshift w + c.laneOp 1 f.sb 2 l ∧ e.2.len = a.bytes ∧
            e.2.data = d1 l ∧ e.2.data2 = d2 l ∧ e.2.crew = c.t.crew ∧ e.2.group = some ⟨c.tid, c.gi⟩ ∧ e.2.sent = none ∧
            e.2.tier = (if fn = 1 then (if bg then 2 else 1) else 0) ∧ e.2.cmd = some k.1 ∧
            k.2.kind = .remote fn (f.immBits 4 4) (f.immBits 8 4) (c.peerOf f l) bg pkg ∧ (fn = 1 ∨ e.2.access = k.2.access)) ∧
          g.counters = c.g.counters.setIfInBounds 3 (c.g.counters.toArray.getD 3 0 + new.length) ∧
          c.InFlight { g with counters := c.g.counters } a (freed i))) ∧
    (c.effect f = true → c.Commands c.s (Machine.exec (.rfence f) c.s) 3
      (fun s id _ => (s.probe ⟨c.tid, c.gi⟩ id).settleRemote c.tid c.gi 256) fun cmd =>
      cmd.kind = .rfence ∧ cmd.st = .running)

/-- R326, R312, R308, R309, R316: with system privilege every row of `rig` runs the command that gA names, and writes 0 or the status that
turns it away, which changes nothing; each command does what its row of R312 or R326 says. ERR, which a RERIG clears, is the model's
choice (assumption 30). -/
def Obligations.RigForms : Prop :=
  ∀ (c : PathCtx) (f : Fields), c.Issues → c.s.privileged c.t = true → c.effect f = true → c.determinate = false →
    let a := c.uni 0 f.sa
    let b := c.uni 1 f.sb
    let word (cmd k rig : Nat) : Word64 := BitVec.ofNat 64 (cmd + rig * 1024 + k * 65536)
    let result := c.rigCommand a b
    let inConfig (r : Rigger) : Prop := r.st = .training ∧ r.phase = 2
    (∀ i ∈ [Instr.rigRerig f, .rigWinwr f, .rigWinclr f, .rigPmap f, .rigLock f, .rigGo f],
      (∀ n, result = .status n → c.Answers f (Machine.exec i c.s) c.s (BitVec.ofNat 64 n)) ∧
      (∀ s, result = .done s → (s.group c.tid c.gi).isSome → c.Answers f (Machine.exec i c.s) s 0) ∧
      (∀ code addr, result = .fault code addr → ∃ d, (code ≠ 0x13 → d = 0) ∧ Machine.exec i c.s =
        .next (c.s.takeFault c.tid c.gi c.pi { code := code, addr := addr, detail := d, pc := c.p.pc, rpc := c.p.pc }))) ∧
    (∀ k, k < 16 → c.s.rigInSet c.t.crew k = true → b = 0 → ∀ r, c.s.rigger k = r →
      (∀ rig, rig < 3 → r.st = .offline → a = word 0 k rig → result = .done (c.s.setRigger k
        { r with st := .training, phase := 0, lock := .open, rig := BitVec.ofNat 2 rig, target := BitVec.ofNat 2 rig,
                 began := c.s.clock, err := 0 })) ∧
      (∀ rig, rig < 4 → r.st = .live → a = word 0 k rig → ∃ s, result = .done s ∧ (s.rigger k).st = .draining ∧
        (s.rigger k).target = BitVec.ofNat 2 rig ∧ (s.rigger k).lock = r.lock ∧ (∀ j, j ≠ k → s.rigger j = c.s.rigger j)) ∧
      (inConfig r → r.lock = .open → a = word 4 k 0 → result = .done (c.s.setRigger k { r with lock := .locked })) ∧
      (inConfig r → r.lock = .locked → a = word 5 k 0 → ∃ s, result = .done s ∧ (s.rigger k).st = .live ∧
        (s.rigger k).lock = .running)) ∧
    (∀ k, k < 64 → c.s.winLocked (c.s.window k) = false →
      (b = 0 → a = word 2 k 0 → c.s.winInSet c.t.crew (c.s.window k) = false → result = .status 2) ∧
      (b = 0 → a = word 2 k 0 → winHdie (c.s.window k) ∈ c.s.crewDies c.t.crew →
        (∀ r ∈ winRiggers (c.s.window k), c.s.rigInSet c.t.crew r = true) → ∃ s, result = .done s ∧ winV (s.window k) = false ∧
        (s.window k).extractLsb' 0 64 = (c.s.window k).extractLsb' 0 64 ∧
        (s.window k).extractLsb' 65 63 = (c.s.window k).extractLsb' 65 63 ∧ (∀ j, j ≠ k → s.window j = c.s.window j)) ∧
      (∀ bs w, a = word 1 k 0 → b.toNat % 16 = 0 → c.readGlobal (upFrom b.toNat 16) = .ok bs → w = BitVec.ofNat 128 (leNat bs) →
        c.s.winLocked w = false → winReserved w = false → winHdie w ∈ c.s.crewDies c.t.crew →
        (∀ r ∈ winRiggers w, c.s.rigInSet c.t.crew r = true) → (winV w = true → c.s.winLegal k w = true) →
        ∃ s, result = .done s ∧ s.window k = w ∧ (∀ j, j ≠ k → s.window j = c.s.window j) ∧
          s = { c.s with windows := s.windows, requests := s.requests } ∧
          ∀ id, (aget id s.requests).map (fun e => { e with arrived := 0, lostAt := none }) =
            (aget id c.s.requests).map fun e => { e with arrived := 0, lostAt := none })) ∧
    (a = word 3 0 0 → c.s.planesLocked b = false → (∀ q < 8, planeValid b q = true → c.s.rigInSet c.t.crew (planeRig b q) = true) →
      c.s.planesOk b = true → ∃ s, result = .done s ∧ s.planes = b ∧ (∀ v < 8, s.inFlightWith v = true → s.planeNow v = c.s.planeNow v) ∧
        (∀ v < 8, s.inFlightWith v = false → s.planeNow v = planeOf b v) ∧
        s = { c.s with planes := b, planesNext := s.planesNext, requests := s.requests }) ∧
    (∃ s w, c.Answers f (Machine.exec (.rigst f) c.s) s w ∧
      (∀ k < 16, a = BitVec.ofNat 64 k → w = (c.s.rigger k).word ∧ s = c.s.setRigger k { c.s.rigger k with failcnt := 0 }) ∧
      (16 ≤ a.toNat → s = c.s) ∧ (∀ k < 64, a = BitVec.ofNat 64 (256 + k) → w = (c.s.window k).extractLsb' 0 64) ∧
      (∀ k < 64, a = BitVec.ofNat 64 (512 + k) → w = (c.s.window k).extractLsb' 64 64) ∧
      (a = 768 → w = c.s.planes) ∧ ((16 ≤ a.toNat ∧ a.toNat < 256) ∨ 769 ≤ a.toNat → w = BitVec.allOnes 64))

/-- R312, R314, R315, R313, R317, R318, R324, R10: the events of a rigger move it as the table of R312 says; a request that is lost fails
once and is gone; a value of the plane map moves when nothing of it is in flight; an aged head is sent; a peer's request is performed at
home and answered, atomics with the value they found; a held packet takes priority after 64 cycles. -/
def Obligations.RiggerEvents : Prop :=
  ∀ (s : State) (k : Nat) (r : Rigger), s.rigger k = r →
    (r.st = .training → r.phase = 0 →
      Machine.exec (.riggerLinkTrained k) s = .next (s.setRigger k { r with phase := 1 }) ∧
      (∀ noPart, noPart = true ∨ r.began + 8500000 ≤ s.clock → ∃ u, Machine.exec (.riggerTrainingTimeout k noPart) s = .next u ∧
        (u.rigger k).st = .offline ∧ (u.rigger k).lock = .error ∧ (u.rigger k).err = (if noPart then 4 else 1))) ∧
    (r.st = .training → r.phase = 1 →
      Machine.exec (.riggerAttestationPass k) s = .next (s.setRigger k { r with phase := 2, lock := .open }) ∧
      ∃ u, Machine.exec (.riggerAttestationFail k) s = .next u ∧ (u.rigger k).st = .offline ∧ (u.rigger k).lock = .error ∧
        (u.rigger k).err = 2) ∧
    (r.st = .live → ∃ u, Machine.exec (.riggerLinkLost k) s = .next u ∧ (u.rigger k).st = .offline ∧ (u.rigger k).lock = .error ∧
      (u.rigger k).err = 3 ∧ ((∀ e ∈ s.requests, e.2.sent ≠ some k) →
        u = s.setRigger k { r with st := .offline, lock := .error, err := 3 })) ∧
    (r.st = .draining → (∀ e ∈ s.requests, s.unsettled k e.2 = false) ∨ r.began + 340000 ≤ s.clock →
      ∃ u, Machine.exec (.riggerDrainEnd k) s = .next u ∧ (u.rigger k).lock = .open ∧
        ((u.rigger k).st = if r.target = 3 then .offline else .training) ∧
        (r.target ≠ 3 → (u.rigger k).rig = r.target ∧ (u.rigger k).phase = 0 ∧ (u.rigger k).began = s.clock)) ∧
    (∀ id e, aget id s.requests = some e →
      (e.sent = some k → r.st = .draining → r.rig = 1 → r.began + 85000 ≤ s.clock →
        Machine.exec (.ualinkResponseTimeout id) s = .next (s.failItem (id, e) 4)) ∧
      (e.sent = none → s.windowHeld e.pa = true → e.forced = false → e.lostAt = none → s.carrier e.crew e.pa = some k → s.ownsRigger e.crew k = true →
        e.arrived + 170000 ≤ s.clock → Machine.exec (.heldRequestTimeout id) s = .next (s.failItem (id, e) 1)) ∧
      (e.sent = some k → ∀ data, Machine.exec (.remoteResponse id false data) s = .next (s.failItem (id, e) (s.lostSub k))) ∧
      (e.sent = some k → e.cmd = none → e.access = none → e.group = none → ∀ data,
        Machine.exec (.remoteResponse id true data) s = .next { s with requests := adel id s.requests }) ∧
      (∀ c sub, e.cmd = none → e.group = some c → ∀ aid, e.access = some aid → e.op = .read → e.sent = some k →
        ∃ u, s.failItem (id, e) sub = u ∧ aget id u.requests = none ∧
          (u.rigger k).failcnt.toNat = min 65535 (r.failcnt.toNat + 1) ∧ u.cmds = s.cmds ∧
          u.group c.team c.group = (s.group c.team c.group).map fun g => { g with pend := g.pend.map fun a =>
            if a.id = aid then { a with lanes := a.lanes.map fun l =>
              if l.lane = e.lane then { l with st := .faulted 0x0C, sub := sub } else l } else a })) ∧
    (∀ v : BitVec 3, (aget v.toNat s.planesNext).isSome → s.inFlightWith v.toNat = false →
      Machine.exec (.planeMoveEffect v) s = .next { s with planesNext := adel v.toNat s.planesNext }.reboundAll) ∧
    (∀ e, s.tierHead k 1 = some e → e.2.arrived + 512 ≤ s.clock → Machine.exec (.riggerTierAge k) s = .next (s.sendOn k e)) ∧
    (∀ e, s.tierHead k 1 = none → s.tierHead k 2 = some e → e.2.arrived + 2048 ≤ s.clock →
      Machine.exec (.riggerTierAge k) s = .next (s.sendOn k e)) ∧
    (r.st = .live → s.MemoryForm →
      (∀ pa n, r.rig = 1 ∨ r.rig = 2 → s.physAllowed (rigDie k) pa n = true → Machine.exec (.peerRequestArrival k (.read pa n)) s =
        .next { s with peerLog := s.peerLog ++ [.answer k (s.physReadN pa n)] }) ∧
      (∀ q pa bs ans, (∀ i < bs.length, pa + i < 0x1000_0000_0000) → s.physAllowed (rigDie k) pa bs.length = true →
        (q = .write pa bs ∧ (r.rig = 1 ∨ r.rig = 2) ∧ ans = [] ∨ r.rig = 1 ∧ ∃ (aop ty : BitVec 4) (x y : Word64), let t := remoteTyOf ty.toNat
          q = .atomic pa aop ty x y ∧ bs.length = t.width / 8 ∧ pa % bs.length = 0 ∧ ans = s.physReadN pa bs.length ∧
          (aop.toNat < 7 ∧ bs = leBytes bs.length (atomNew aop.toNat t (leNat ans) x.toNat 0).1 ∨
            aop.toNat = 7 ∧ bs = leBytes bs.length (atomNew 7 t (leNat ans) y.toNat x.toNat).1)) →
        ∃ u, Machine.exec (.peerRequestArrival k q) s = .next u ∧ u.peerLog = s.peerLog ++ [.answer k ans] ∧
          (∀ i < bs.length, u.physRead (pa + i) = bs.getD i 0) ∧
          (∀ x, x < pa ∨ pa + bs.length ≤ x → u.physRead x = s.physRead x) ∧ u.scratch = s.scratch ∧ u.vault = s.vault)) ∧
    (∀ id p, aget id s.packets = some p → p.priority = false → p.ring = none → p.arrived + 64 ≤ s.clock →
      Machine.exec (.networkEntryPriority id) s = .next { s with packets := aput id { p with priority := true } s.packets })

/-! Faults -/

/-- R330, R335, R336, R332, R333: a fault of a path enters the crew's handler where TRAPEN, TM, TRAPVEC and the code let it, and else
posts a record and deschedules the group; a record has the layout of R332, is written with the next SEQ into its entry of the ring, and
waits where the queue is full, from which the oldest is written once there is room. -/
def Obligations.FaultsTaken : Prop :=
  ∀ (s : State),
    (∀ (tid gi pi : Nat) (t : Team) (g : Group) (p : Path) (fi : FaultInfo), s.team tid = some t → s.group tid gi = some g →
      g.path pi = some p →
      let k := s.crew t.crew
      let trap (vec : VAddr) : Prop := k.trapen.getLsbD fi.code.toNat = true ∧ g.tm = false ∧ k.trapvec = vec ∧ vec ≠ 0 ∧
        fi.code ≠ 0x0A ∧ fi.code ≠ 0x10 ∧ fi.code ≠ 0x13
      let queued : State := (s.setGroup tid gi { g.setPath pi (some { p with st := .replayable }) with descheduled := true }).postRecord
        t.crew (s.groupRecord t gi pi 0 fi) (.group tid gi)
      (∀ vec, trap vec → s.landing t (vec.setWidth 64) = none → ∃ g', s.takeFault tid gi pi fi = s.setGroup tid gi g' ∧
        g'.tm = true ∧ (pi < 8 → g'.path pi = some { p with st := .handler, shc := 0, pc := vec, begun := false, rest := 0 }) ∧
        g'.em = g.em ||| p.mask ∧ (∀ j, j ≠ pi → g'.path j = g.path j) ∧
        g'.trap = { rpc := fi.rpc, lk := p.lk, shc := p.shc, shm := p.shm, em := g.em &&& p.mask, g60 := g.uniOf 60,
                    g61 := g.uniOf 61, g62 := g.uniOf 62, g63 := g.uniOf 63, path := BitVec.ofNat 3 pi, code := fi.code } ∧
        g'.uniOf 60 = BitVec.ofNat 64 (fi.code.toNat + fi.cause.toNat * 2 ^ 8 + fi.sub.toNat * 2 ^ 12 + pi % 8 * 2 ^ 16 +
          fi.mask.toNat * 2 ^ 32) ∧
        g'.uniOf 61 = fi.addr ∧ g'.uniOf 62 = fi.rpc.setWidth 64 ∧ g'.uniOf 63 = fi.detail.setWidth 64 ∧
        (∀ r < 60, g'.uniOf r = g.uniOf r) ∧ g'.vregs = g.vregs ∧ g'.preds = g.preds ∧ g'.flags = g.flags ∧
        (g.inflight ≠ [] → g'.held = true)) ∧
      (∀ vec, trap vec → s.landing t (vec.setWidth 64) ≠ none → s.takeFault tid gi pi fi = queued.postRecord t.crew
        (s.groupRecord t gi pi 0 { code := 0x02, addr := vec.setWidth 64, pc := fi.pc, rpc := fi.rpc }) (.group tid gi)) ∧
      ((∀ vec, ¬trap vec) → s.takeFault tid gi pi fi = queued)) ∧
    (∀ (t : Team) (gi pi kind : Nat) (fi : FaultInfo),
      let r := s.groupRecord t gi pi kind fi
      r.extractLsb' 440 8 = fi.code ∧ r.extractLsb' 436 4 = fi.cause ∧ r.extractLsb' 432 4 = fi.sub ∧
      r.extractLsb' 428 4 = BitVec.ofNat 4 kind ∧ r.extractLsb' 426 2 = 0 ∧ r.extractLsb' 420 6 = BitVec.ofNat 6 t.crew ∧
      r.extractLsb' 411 9 = BitVec.ofNat 9 t.core ∧ r.extractLsb' 403 5 = BitVec.ofNat 5 gi ∧
      r.extractLsb' 400 3 = BitVec.ofNat 3 pi ∧ r.extractLsb' 384 16 = 0 ∧ r.extractLsb' 368 16 = BitVec.ofNat 16 t.y ∧
      r.extractLsb' 352 16 = BitVec.ofNat 16 t.x ∧ r.extractLsb' 288 64 = s.lseq t ∧ r.extractLsb' 232 56 = fi.pc ∧
      r.extractLsb' 224 8 = 0 ∧ r.extractLsb' 192 32 = fi.mask ∧ r.extractLsb' 128 64 = fi.addr ∧ r.extractLsb' 0 128 = fi.detail) ∧
    (∀ (crew : Nat) (k : Crew), s.crew crew = k →
      let entry := (k.fqbase.extractLsb' 12 40).toNat * 4096 + k.fqhead.toNat % 2 ^ k.fqlog * 64
      let full : Prop := (k.fqhead - k.fqtail).toNat = 2 ^ k.fqlog
      let written (u : State) (r : BitVec 512) (left : List Held) : Prop :=
        (u.crew crew) = { k with fqhead := k.fqhead + 1, heldRecs := left } ∧
        (s.MemoryForm → entry + 64 ≤ 0x1000_0000_0000 →
          (∀ i < 64, u.physRead (entry + i) = (leBytes 64 (r ||| (k.fqhead.setWidth 512 <<< 448)).toNat).getD i 0) ∧
          (∀ x, x < entry ∨ entry + 64 ≤ x → u.physRead x = s.physRead x) ∧ u.scratch = s.scratch ∧ u.vault = s.vault)
      (∀ r src, k.heldRecs = [] → ¬full → written (s.postRecord crew r src) r []) ∧
      (∀ r src, k.heldRecs ≠ [] ∨ full →
        s.postRecord crew r src = s.setCrew crew { k with heldRecs := k.heldRecs ++ [{ record := r, source := src }] }) ∧
      (∀ h hs, k.heldRecs = h :: hs → ¬full → ∃ u, Machine.exec (.heldRecordWrite crew) s = .next u ∧ written u h.record hs))

/-- R18, R37 to R40: a fetch brings the line of a path's next slot into its core's instruction cache, again where the first copy fails
parity, and an error recorded twice where both do; a slot that is no instruction, and a fill slot, take their traps; a privileged form
without privilege, and a form of the other kind of stream, take the illegal-instruction trap with causes 6 and 5. -/
def Obligations.FetchAndIllegalForms : Prop :=
  (∀ (c : PathCtx) (flip1 flip2 : BitVec 512) (e : TlbEntry) (pa : Nat), c.s.pathCtx ⟨c.tid, c.gi, c.pi⟩ = some c →
    c.s.translate c.t.core c.t.crew (lineAddr c.p.pc) = .ok e → c.s.permitted c.t.crew .exec e (lineAddr c.p.pc) = .ok pa →
    (∀ i < 64, c.s.poisoned (pa + i) = false) →
    let at_ := lineAddr c.p.pc
    let line := BitVec.ofNat 512 (leNat ((List.range 64).map fun i => c.s.viewByte c.t.crew c.t.view (at_ + i) (pa + i)))
    let cached (l : BitVec 512) : Prop := ∃ u, Machine.exec (.lineFetch ⟨c.tid, c.gi, c.pi⟩ flip1 flip2) c.s = .next u ∧
      u.cachedLine c.t c.p.pc = some l ∧ u.teams = c.s.teams ∧ SameMemory c.s u
    let fi : FaultInfo := { code := 0x13, addr := BitVec.ofNat 64 at_, detail := BitVec.ofNat 128 (9 + at_ * 2 ^ 64),
                            pc := c.p.pc, rpc := c.p.pc }
    (lineParityOk (line ^^^ flip1) = true → cached (line ^^^ flip1)) ∧
    (lineParityOk (line ^^^ flip1) = false → lineParityOk (line ^^^ flip2) = true → cached (line ^^^ flip2)) ∧
    (lineParityOk (line ^^^ flip1) = false → lineParityOk (line ^^^ flip2) = false →
      Machine.exec (.lineFetch ⟨c.tid, c.gi, c.pi⟩ flip1 flip2) c.s =
        .next ((c.s.queueFault c.tid c.gi c.pi fi).postRecord c.t.crew (c.s.groupRecord c.t c.gi c.pi 3 fi) .nothing))) ∧
  (∀ (c : PathCtx) (f : Fields), c.Issues →
    let trap (code : BitVec 8) (cause : BitVec 4) (detail : BitVec 128) : Out := .next (c.s.takeFault c.tid c.gi c.pi
      { code := code, cause := cause, detail := detail, pc := c.p.pc, rpc := c.p.pc })
    (∀ cause word, Machine.exec (.illegalInstruction cause word) c.s = trap 0x01 cause (word.setWidth 128)) ∧
    Machine.exec .fetchOverrun c.s = trap 0x14 0 0 ∧
    (c.s.privileged c.t = false → ∀ (i : Instr) (w : BitVec 96), encode i = some w →
      i ∈ [Instr.rigRerig f, .rigWinwr f, .rigWinclr f, .rigPmap f, .rigLock f, .rigGo f, .rigst f, .sysrd f, .syswr f, .replay f,
        .fqtail f, .ecccnt f, .tlbinvAll f, .tlbinvPg f, .tlbinvRng f, .ctxsave f, .ctxld f, .vacate f, .haltTeam f, .haltGrid f,
        .heatw f, .heatsw f, .scrub f, .trctlSet f, .trctlHead f, .trctlTail f, .trctlLost f, .stepStop f, .stepGo f, .stepRun f,
        .stepPath f] →
      Machine.exec i c.s = trap 0x01 6 (w.setWidth 128)) ∧
    (∀ (i : Instr) (w : BitVec 96), encode i = some w →
      i ∈ [Instr.lnbnd f, .lncoef f, .lnbase f, .lnbaseOff f, .lnstart f, .lnnext f, .mmaBf16 f, .mmaF8 f, .mmaS8 f, .mmaTern f,
        .azero f, .afin f, .arel f, .mbatch f, .cxwait f] → Machine.exec i c.s = trap 0x01 5 (w.setWidth 128))) ∧
  (∀ (c : SeatCtx) (f : Fields), c.Issues →
    let trap (code : BitVec 8) (cause : BitVec 4) (detail : BitVec 128) : Out :=
      .next (c.s.seatFault c.tid code cause (BitVec.allOnes 64) detail c.q.pc)
    (∀ cause word, Machine.exec (.illegalInstruction cause word) c.s = trap 0x01 cause (word.setWidth 128)) ∧
    Machine.exec .fetchOverrun c.s = trap 0x14 0 0 ∧
    (∀ (i : Instr) (w : BitVec 96), encode i = some w →
      i ∈ [Instr.ld f, .st f, .lds f, .sts f, .barSync f, .wcnt f, .cpy f, .coll f, .fork f, .join f, .skip f, .refill f,
        .launch f, .tret f, .chsend f, .smsweep f, .rld f] → Machine.exec i c.s = trap 0x01 5 (w.setWidth 128)))

/-! System and trap instructions -/

/-- R349 to R351, R122: `trap` and `brk` fault past themselves, an armed `brk` holds its path; `tfence` holds the group until its results
are written and then tests the flags; `tret` restores what the entry into the handler saved. -/
def Obligations.TrapForms : Prop :=
  (∀ (c : PathCtx) (f : Fields), c.Issues → c.effect f = true →
    let n := (f.imm.extractLsb' 0 16).toNat
    let tripped : Prop := c.g.flags.extractLsb' 0 8 &&& c.g.flags.extractLsb' 8 8 ≠ 0
    let trap (code : BitVec 8) (addr : Word64) : Out := .next (c.s.takeFault c.tid c.gi c.pi
      { code := code, addr := addr, pc := c.p.pc, rpc := c.p.pc })
    c.TrapsPast (Machine.exec (.trap f) c.s) 0x0E n ∧
    (c.s.stopArmed c.t.crew (dieOf c.t.core) = false → c.TrapsPast (Machine.exec (.brk f) c.s) 0x0F n) ∧
    (c.s.stopArmed c.t.crew (dieOf c.t.core) = true → ∃ g,
      Machine.exec (.brk f) c.s = .next ((c.s.setGroup c.tid c.gi g).stopPacket c.t c.g c.pi c.p 0x0F) ∧
      g.path c.pi = some { c.p.advanced (nextSlot c.p.pc) c.s.clock with st := .stopped, byBrk := true } ∧
      c.g.Frame g c.pi [] [] [] 0) ∧
    (c.g.inflight ≠ [] → Machine.exec (.tfence f) c.s = .next (c.s.setGroup c.tid c.gi { c.g with held := true })) ∧
    (c.g.inflight = [] → ¬tripped → ∃ g, Machine.exec (.tfence f) c.s = .next (c.done g) ∧ c.Kept g (nextSlot c.p.pc) [] [] [] 0) ∧
    (c.g.inflight = [] → tripped → Machine.exec (.tfence f) c.s = trap 0x0D (c.g.flags.setWidth 64)) ∧
    (c.p.st ≠ .handler → Machine.exec (.tret f) c.s = trap 0x04 (BitVec.allOnes 64)) ∧
    (c.p.st = .handler → ∀ target, c.greg 0 62 = target →
      (∀ code, target ≠ c.g.trap.rpc.setWidth 64 → c.s.landing c.t target = some code →
        Machine.exec (.tret f) c.s = trap code target) ∧
      (target = c.g.trap.rpc.setWidth 64 ∨ c.s.landing c.t target = none → ∃ (u : State) (g : Group),
        Machine.exec (.tret f) c.s = .next (u.fuse c.tid c.gi c.pi) ∧ u.group c.tid c.gi = some g ∧ g.tm = false ∧
        g.path c.pi = some { c.p with st := .ready, pc := target.setWidth 56, lk := c.g.trap.lk, shc := c.g.trap.shc,
                                      shm := c.g.trap.shm, since := c.s.clock } ∧
        g.em = (c.g.em &&& ~~~c.p.mask) ||| (c.g.trap.em &&& c.p.mask) ∧ g.uniOf 60 = c.g.trap.g60 ∧
        g.uniOf 61 = c.g.trap.g61 ∧ g.uniOf 62 = c.g.trap.g62 ∧ g.uniOf 63 = c.g.trap.g63 ∧
        (∀ r < 60, g.uniOf r = c.g.uniOf r) ∧ g.vregs = c.g.vregs ∧ g.preds = c.g.preds ∧ g.flags = c.g.flags ∧
        (∀ j, j ≠ c.pi → g.path j = c.g.path j) ∧ (c.g.inflight ≠ [] → g.held = true) ∧
        g.sbuf = c.g.sbuf.map (fun a => { a with again := a.again || a.faulted }) ∧
        g.pend = c.g.pend.map (fun a => { a with again := a.again || a.faulted }) ∧ SameMemory c.s u))) ∧
  (∀ (c : SeatCtx) (f : Fields), c.Issues → c.guard f = true →
    let past (i : Instr) (code : BitVec 8) : Prop := Machine.exec i c.s = .next ((c.s.seatFault c.tid code 0 (BitVec.allOnes 64)
      ((f.imm.setWidth 16).setWidth 128) c.q.pc).modSeat c.tid fun q => { q with deferred := some (nextSlot c.q.pc) })
    past (.trap f) 0x0E ∧ past (.brk f) 0x0F ∧
    (c.q.flags.extractLsb' 0 8 &&& c.q.flags.extractLsb' 8 8 = 0 → ∃ q, Machine.exec (.tfence f) c.s = .next (c.done q) ∧
      q.pc = nextSlot c.q.pc ∧ c.q.Frame q [] [] 0))

/-- R352, R378, R333, R334, R347: with system privilege `sysrd` reads the register of the crew or die that gB names, and `syswr` writes it
as its row says: values that its row ignores leave it, sizes are clamped, a read-only bit stays; a write of REPLAY resumes what the SEQ
names, unless a record of it is held or an error has made its group unfit; another target takes 0x04. -/
def Obligations.SystemRegisters : Prop :=
  ∀ (c : PathCtx) (f : Fields), c.Issues → c.s.privileged c.t = true → c.effect f = true →
    let w := c.uni 1 f.sb
    let v := c.uni 0 f.sa
    let writes : List Instr := [.syswr f, .replay f, .fqtail f, .ecccnt f]
    (∀ sel k, f.imm.toNat = sel → crewSelector sel = true → w = BitVec.ofNat 64 k → k < 40 → c.s.sameSet c.t.crew k = true →
      ∀ r, c.s.crew k = r →
      (∀ x, (sel, x) ∈ [(0x0100, r.trapvec.setWidth 64), (0x0101, r.trapen), (0x0102, r.fqbase), (0x0103, BitVec.ofNat 64 r.fqlog),
          (0x0104, r.fqhead), (0x0105, r.fqtail), (0x0106, BitVec.ofNat 64 r.heldRecs.length), (0x0108, r.savebase),
          (0x0109, r.savesize), (0x0110, BitVec.ofNat 64 r.drainwin), (0x0111, BitVec.ofNat 64 r.ovrcnt)] →
        c.Answers f (Machine.exec (.sysrd f) c.s) c.s x) ∧
      (∀ r', (sel, r') ∈ [(0x0100, { r with trapvec := v.setWidth 56 }), (0x0101, { r with trapen := v &&& 0x16FBFE }),
          (0x0102, { r with fqbase := v &&& 0x000FFFFFFFFFF000 }),
          (0x0103, if r.fqhead = r.fqtail then { r with fqlog := max 6 (min 16 v.toNat) } else r),
          (0x0105, if (v - r.fqtail).toNat ≤ (r.fqhead - r.fqtail).toNat then { r with fqtail := v } else r),
          (0x0108, if v.toNat % 65536 = 0 ∧ c.s.hasGrid k = false then { r with savebase := v } else r),
          (0x0109, if v.toNat % 65536 = 0 ∧ c.s.hasGrid k = false then { r with savesize := v } else r),
          (0x0110, { r with drainwin := max 1024 (min 65536 v.toNat) })] →
        ∀ i ∈ writes, ∃ u, c.Brings f (Machine.exec i c.s) u none ∧ u.crew k = r' ∧ (∀ j, j ≠ k → u.crew j = c.s.crew j) ∧
          u.teams = c.s.teams ∧ SameMemory c.s u) ∧
      (sel = 0x0107 → (∀ i ∈ writes, c.Brings f (Machine.exec i c.s) (c.s.replay k v.toNat) none) ∧
        (∀ tid gi g, c.s.groupWithSeq k v.toNat = some (tid, gi) → c.s.group tid gi = some g → g.noReplay = true ∨
          c.s.recordHeld k (.group tid gi) = true → c.s.replay k v.toNat = c.s) ∧
        ∀ tid gi g, c.s.groupWithSeq k v.toNat = some (tid, gi) → c.s.group tid gi = some g → g.noReplay = false →
          c.s.recordHeld k (.group tid gi) = false → ∃ g', (c.s.replay k v.toNat).group tid gi = some g' ∧ g'.descheduled = false ∧ g'.seqs = [] ∧
            ∀ j, g'.path j = (g.path j).map fun p =>
              if p.st = .replayable then
                { p with st := if p.holdNext then .stopped else if g.tm ∧ g.trap.path.toNat = j then .handler else .ready,
                         holdNext := false, since := c.s.clock }
              else p)) ∧
    (∀ sel d, f.imm.toNat = sel → crewSelector sel = false → w = BitVec.ofNat 64 d → d < 8 → d ∈ c.s.crewDies c.t.crew →
      ∀ r, c.s.die d = r →
      (∀ x, (sel, x) ∈ [(0x0200, r.ecccnt.setWidth 64), (0x0201, r.ecclast)] →
        c.Answers f (Machine.exec (.sysrd f) c.s) c.s x) ∧
      (sel = 0x0202 → ∃ x, c.Answers f (Machine.exec (.sysrd f) c.s) c.s x ∧
        x.toNat % 64 = (c.s.walks.filter fun y => y.2.die == d).length % 64) ∧
      (sel = 0x0300 → ∃ x, c.Answers f (Machine.exec (.sysrd f) c.s) c.s x ∧
        ((c.s.heat r.base.toNat).row < 64 → (c.s.heat r.base.toNat).active.length ≤ 64 →
          x.toNat % 64 = (c.s.heat r.base.toNat).row ∧ x.toNat / 64 % 128 = (c.s.heat r.base.toNat).active.length ∧
          (x.getLsbD 13 = (c.s.heat r.base.toNat).pendingN.isSome))) ∧
      (∀ i ∈ writes, sel = 0x0200 → c.Brings f (Machine.exec i c.s) (c.s.setDie d { r with ecccnt := 0 }) none)) ∧
    (c.s.sysTarget c.t.crew f.imm.toNat w = false → ∀ i ∈ Instr.sysrd f :: writes, Machine.exec i c.s =
      .next (c.s.takeFault c.tid c.gi c.pi { code := 0x04, pc := c.p.pc, rpc := c.p.pc }))

/-- R353, R355, R356, R424: `tlbinv` removes exactly the crew's entries that its kind selects, and waits for every walk that began before
it; `vacate` empties the highest cores of a grid, never its last; `halt` ends the team or the grid that it names; what names nothing has
no effect. -/
def Obligations.SystemCommands : Prop :=
  ∀ (c : PathCtx) (f : Fields), c.Issues → c.s.privileged c.t = true → c.effect f = true →
    let a := c.uni 0 f.sa
    let b := c.uni 1 f.sb
    let dies := c.s.crewDies c.t.crew
    let trap (code : BitVec 8) : Out := .next (c.s.takeFault c.tid c.gi c.pi { code := code, pc := c.p.pc, rpc := c.p.pc })
    let stays (i : Instr) : Prop := ∃ g, Machine.exec i c.s = .next (c.done g) ∧ c.Kept g (nextSlot c.p.pc) [] [] [] 0
    (∀ i lo n, (i, lo, n) ∈ [(Instr.tlbinvAll f, 0, 2 ^ 56), (.tlbinvPg f, b.toNat % 2 ^ 56, 1),
        (.tlbinvRng f, b.toNat % 2 ^ 56, (c.uni 2 f.sc).toNat % 2 ^ 32)] →
      let k := a.toNat % 64
      (c.p.begun = false → ¬(k < 40 ∧ c.s.sameSet c.t.crew k = true) → Machine.exec i c.s = trap 0x04) ∧
      (c.p.begun = false → k < 40 → c.s.sameSet c.t.crew k = true → c.orderedAt .sys = .go → ∃ u,
        (∀ core e, e ∈ (u.core core).tlb ↔ e ∈ (c.s.core core).tlb ∧ ¬(dieOf core ∈ dies ∧ 0 < n ∧ e.crew = k ∧
          e.base < lo + n ∧ lo < e.base + e.size)) ∧
        (∀ d e, e ∈ (u.die d).tcache ↔ e ∈ (c.s.die d).tcache ∧ ¬(d ∈ dies ∧ 0 < n ∧ e.crew = k ∧ e.base < lo + n ∧ lo < e.base + e.size)) ∧
        (∀ x y, (x, y) ∈ u.walks → y.die ∈ dies → y.cancelled = true) ∧ u.teams = c.s.teams ∧ SameMemory c.s u ∧
        ((∀ x ∈ u.walks, x.2.die ∉ dies) → c.Concludes f (Machine.exec i c.s) u none) ∧
        ((∃ x ∈ u.walks, x.2.die ∈ dies) → c.WaitsIn (Machine.exec i c.s) u)) ∧
      (c.p.begun = true → (∀ x ∈ c.s.walks, ¬(x.2.die ∈ dies ∧ x.2.cancelled = true)) → stays i)) ∧
    (c.p.begun = false → c.s.namedGrid c.t.crew a = none →
      c.Answers f (Machine.exec (.vacate f) c.s) c.s 0 ∧ stays (.haltGrid f) ∧ (b.toNat < 2 ^ 32 → stays (.haltTeam f))) ∧
    (∀ gid gr cores u, c.p.begun = false → c.s.namedGrid c.t.crew a = some (gid, gr) → c.s.vacate gid (b.toNat % 1024) = (cores, u) →
      cores.Nodup ∧ (∀ x ∈ cores, ∃ e ∈ c.s.onCores gid, e.2.core = x) ∧ cores.length ≤ b.toNat % 1024 ∧
      (c.s.onCores gid ≠ [] → ∃ e ∈ c.s.onCores gid, e.2.core ∉ cores) ∧
      (∀ e ∈ c.s.onCores gid, e.2.core ∉ cores → ∀ x ∈ cores, e.2.core < x) ∧
      (u.vacating gid = false → c.Brings f (Machine.exec (.vacate f) c.s) u (some (BitVec.ofNat 64 cores.length))) ∧
      (u.vacating gid = true → c.WaitsIn (Machine.exec (.vacate f) c.s) u)) ∧
    (c.p.begun = false → 2 ^ 32 ≤ b.toNat → Machine.exec (.haltTeam f) c.s = trap 0x04) ∧
    (∀ gid gr who u, c.p.begun = false → b.toNat < 2 ^ 32 → c.s.namedGrid c.t.crew a = some (gid, gr) →
      c.s.haltTeam gid gr b = (who, u) →
      (∀ tid t, c.s.namedTeam gid b = some (tid, t) → t.ended = false → c.s.team tid = some t →
        (∀ e ∈ c.s.teams, e.1 = tid → e.2 = t) → who = some tid ∧
        ∀ t', u.team tid = some t' → t'.killed = true ∨ t.killed = true) ∧
      ((∀ tid, who = some tid → u.ending tid = false) → c.Brings f (Machine.exec (.haltTeam f) c.s) u none) ∧
      (∀ tid, who = some tid → u.ending tid = true → c.WaitsIn (Machine.exec (.haltTeam f) c.s) u)) ∧
    (∀ gid gr u, c.p.begun = false → c.s.namedGrid c.t.crew a = some (gid, gr) → c.s.killGrid gid = u →
      (u.grid gid = none → c.Brings f (Machine.exec (.haltGrid f) c.s) u none) ∧
      (u.grid gid ≠ none → c.WaitsIn (Machine.exec (.haltGrid f) c.s) u))

/-! Trace and debug -/

/-- R379, R380, R386, R388 to R391: `trctl` sets up, reads and releases the ring that gA names; `trmark` writes its packet where marks are
traced; `pcnt` reads a counter, and clears it where it is told to; `step` holds and releases the paths of the team that it names; a packet
stands at HEAD, which moves past it. -/
def Obligations.TraceAndDebugForms : Prop :=
  (∀ (c : PathCtx) (f : Fields), c.Issues → c.s.privileged c.t = true → c.effect f = true →
    let a := c.uni 0 f.sa
    let b := c.uni 1 f.sb
    let w := c.uni 2 f.sc
    let trap (code : BitVec 8) (addr : Word64) : Out := .next (c.s.takeFault c.tid c.gi c.pi
      { code := code, addr := addr, pc := c.p.pc, rpc := c.p.pc })
    let goes (p : Path) (g : Group) (j : Nat) : Path :=
      { p with st := if g.tm ∧ g.trap.path.toNat = j then .handler else .ready, since := c.s.clock, byBrk := false }
    (c.s.ringTarget c.t.crew a = none → ∀ i ∈ [Instr.trctlSet f, .trctlHead f, .trctlTail f, .trctlLost f],
      Machine.exec i c.s = trap 0x04 (BitVec.allOnes 64)) ∧
    (∀ k d, k < 40 → c.s.sameSet c.t.crew k = true → d < 8 → d ∈ c.s.crewDies c.t.crew → a = BitVec.ofNat 64 (k + d * 256) →
      let r := c.s.ring k d
      (b.toNat % 65536 ≠ 0 → Machine.exec (.trctlSet f) c.s = trap 0x05 b) ∧
      (b.toNat % 65536 = 0 → ctlLegal w = false → c.Answers f (Machine.exec (.trctlSet f) c.s) c.s 1) ∧
      (∀ ctl log, ctl < 16 → 16 ≤ log → log ≤ 30 → b.toNat % 65536 = 0 → w = BitVec.ofNat 64 (ctl + log * 256) → ∃ u,
        c.Brings f (Machine.exec (.trctlSet f) c.s) u (some 0) ∧
        u.ring k d = { base := b.toNat, ctl := BitVec.ofNat 4 ctl, log := log, on := true, head := 0, tail := 0, lost := 0,
                       since := 0, last := c.s.clock } ∧
        (∀ k' d', (k', d') ≠ (k, d) → u.ring k' d' = c.s.ring k' d') ∧ SameMemory c.s u ∧ (8 ≤ ctl → u.teams = c.s.teams)) ∧
      c.Answers f (Machine.exec (.trctlHead f) c.s) c.s r.head ∧
      c.Answers f (Machine.exec (.trctlLost f) c.s) c.s (BitVec.ofNat 64 r.lost) ∧
      (b.toNat % 32 = 0 → (b - r.tail).toNat ≤ (r.head - r.tail).toNat →
        c.Brings f (Machine.exec (.trctlTail f) c.s) (c.s.setRing k d { r with tail := b }) (some 0)) ∧
      (b.toNat % 32 ≠ 0 ∨ (r.head - r.tail).toNat < (b - r.tail).toNat → c.Answers f (Machine.exec (.trctlTail f) c.s) c.s 1)) ∧
    (2 ^ 32 ≤ b.toNat → ∀ i ∈ [Instr.stepStop f, .stepGo f, .stepRun f, .stepPath f],
      Machine.exec i c.s = trap 0x04 (BitVec.allOnes 64)) ∧
    (b.toNat < 2 ^ 32 → ((c.s.namedGrid c.t.crew a).bind fun e => c.s.namedTeam e.1 b) = none →
      ∀ i ∈ [Instr.stepStop f, .stepGo f, .stepRun f, .stepPath f], c.Answers f (Machine.exec i c.s) c.s 2) ∧
    (∀ tid (t : Team), b.toNat < 2 ^ 32 → ((c.s.namedGrid c.t.crew a).bind fun e => c.s.namedTeam e.1 b) = some (tid, t) →
      c.s.team tid = some t → t.ended = false →
      let gi := w.toNat % 32
      let pi := w.toNat / 256
      c.Brings f (Machine.exec (.stepStop f) c.s) (c.s.setTeam tid { t with stepMode := true }) (some 0) ∧
      (t.stepMode = false → c.Answers f (Machine.exec (.stepGo f) c.s) c.s 1) ∧
      (t.stepMode = true → ∃ t' : Team, c.Brings f (Machine.exec (.stepGo f) c.s) (c.s.setTeam tid t') (some 0) ∧
        t' = { t with groups := t'.groups } ∧ t'.groups.length = t.groups.length ∧
        ∀ (k : Nat) (g : Group) (j : Nat), t.groups[k]? = some g → ∃ g' : Group, t'.groups[k]? = some g' ∧ g' = { g with paths := g'.paths } ∧
          g'.path j = (g.path j).map fun p => if p.st = .stopped then goes p g j else p) ∧
      (∃ t' : Team, c.Brings f (Machine.exec (.stepRun f) c.s) (c.s.setTeam tid t') (some 0) ∧
        t' = { t with groups := t'.groups, stepMode := false } ∧ t'.groups.length = t.groups.length ∧
        ∀ (k : Nat) (g : Group) (j : Nat), t.groups[k]? = some g → ∃ g' : Group, t'.groups[k]? = some g' ∧ g' = { g with paths := g'.paths } ∧
          g'.path j = (g.path j).map fun p => { (if p.st = .stopped then goes p g j else p) with holdNext := false }) ∧
      (∀ (g : Group) (p : Path), t.groups[gi]? = some g → w = BitVec.ofNat 64 (gi + pi * 256) → pi < 8 → g.path pi = some p →
        (p.st ≠ .stopped → c.Answers f (Machine.exec (.stepPath f) c.s) c.s 1) ∧
        (p.st = .stopped → ∃ t' : Team, c.Brings f (Machine.exec (.stepPath f) c.s) (c.s.setTeam tid t') (some 0) ∧
          t' = { t with groups := t'.groups } ∧ (∀ k, k ≠ gi → t'.groups[k]? = t.groups[k]?) ∧
          ∃ g' : Group, t'.groups[gi]? = some g' ∧ g' = { g with paths := g'.paths } ∧ g'.path pi = some (goes p g pi) ∧
            ∀ j, j ≠ pi → g'.path j = g.path j)))) ∧
  (∀ (c : PathCtx) (f : Fields), c.Issues → c.effect f = true →
    let sel := f.immBits 0 8
    let clear := f.imm.getLsbD 8
    c.Brings f (Machine.exec (.trmark f) c.s) (c.s.emit c.t.crew (dieOf c.t.core) 2 (fun d =>
      packet 4 d c.t.core (c.g.sched * 64 + c.g.slot) c.pi (markBody (f.imm.extractLsb' 0 16) c.p.pc 0 false)) []) none ∧
    ∃ u g, Machine.exec (.pcnt f) c.s = .next (c.doneIn u g) ∧ g.path c.pi = c.at_ (nextSlot c.p.pc) ∧
      c.g.Frame g c.pi [] (destG f) [] 0 ∧ SameMemory c.s u ∧ u.teams = c.s.teams ∧
      (f.dead = false → 192 ≤ f.d.toNat → g.uniOf (f.d.toNat - 0xC0) = (c.s.core c.t.core).counter c.t.crew sel) ∧
      (∀ k, (u.core c.t.core).counter c.t.crew k =
        if clear = true ∧ sel = k then 0 else (c.s.core c.t.core).counter c.t.crew k)) ∧
  (∀ (c : SeatCtx) (f : Fields), c.Issues → c.guard f = true →
    (∃ (s : State) (q : Seat), Machine.exec (.trmark f) c.s = .next (s.modSeat c.tid fun _ => q) ∧
      q = { c.q with pc := nextSlot c.q.pc, st := .running, waits := none, issued := c.q.issued + 1 } ∧ s = c.s.emit c.t.crew (dieOf c.t.core) 2 (fun d =>
        packet 4 d c.t.core 0 0 (markBody (f.imm.extractLsb' 0 16) c.q.pc c.q.num true)) []) ∧
    (f.d.toNat < 64 → ∃ (s : State) (q : Seat), Machine.exec (.pcnt f) c.s = .next (s.modSeat c.tid fun _ => q) ∧
      q.pc = nextSlot c.q.pc ∧ (f.immBits 0 8 = 0x20 → q.regOf f.d.toNat = BitVec.ofNat 64 c.q.issued) ∧
      (f.immBits 0 8 ≠ 0x20 → q.regOf f.d.toNat = BitVec.ofNat 64 c.q.cycles) ∧
      q.issued = (if f.imm.getLsbD 8 ∧ f.immBits 0 8 = 0x20 then 0 else c.q.issued) + 1 ∧
      q.cycles = (if f.imm.getLsbD 8 ∧ f.immBits 0 8 ≠ 0x20 then 0 else c.q.cycles) ∧
      c.q.Frame { q with issued := c.q.issued } [f.d.toNat] [] 0 ∧ SameMemory c.s s ∧ s.teams = c.s.teams)) ∧
  (∀ (s : State) (crew die bit : Nat) (r : Ring) (p : Nat → BitVec 256), aget die (s.crew crew).rings = some r → r.on = true →
    (r.ctl.getLsbD bit = false → s.emit crew die bit p [] = s) ∧
    (r.ctl.getLsbD bit = true → r.lost = 0 → r.synced = true → s.clock - r.last ≤ 65535 → r.since + 1 < 4096 →
      ∃ u, s.emit crew die bit p [] = u ∧
        let at_ := r.base + r.head.toNat % 2 ^ r.log
        ((r.head - r.tail).toNat + 32 ≤ 2 ^ r.log →
          u.ring crew die = { r with head := r.head + 32, since := r.since + 1, last := s.clock } ∧
          (s.MemoryForm → at_ + 32 ≤ 0x1000_0000_0000 →
            (∀ i < 32, u.physRead (at_ + i) = (leBytes 32 (p (s.clock - r.last)).toNat).getD i 0) ∧
            (∀ x, x < at_ ∨ at_ + 32 ≤ x → u.physRead x = s.physRead x))) ∧
        (2 ^ r.log < (r.head - r.tail).toNat + 32 → u.ring crew die = { r with lost := 1 } ∧ SameMemory s u)))

/-! Launches -/

/-- R399 to R401, R392: `launch` and `launchd` write the status of R400 (a full ring is told before `launch` reads a record), and append
the record at TAIL where it is 0, `launchd` with its edge added; `lqst` reads the queue's snapshot. -/
def Obligations.LaunchForms : Prop :=
  ∀ (c : PathCtx) (f : Fields), c.Issues → c.effect f = true →
    let a := (c.uni 0 f.sa).toNat
    let named := c.s.queueNamed c.t.crew (c.uni 1 f.sb)
    let both : List (Instr × Option Word64) := [(.launch f, none), (.launchd f, some (c.uni 2 f.sc))]
    (∀ i w, (i, w) ∈ both → a % 128 ≠ 0 → Machine.exec i c.s =
      .next (c.s.takeFault c.tid c.gi c.pi { code := 0x05, addr := BitVec.ofNat 64 a, pc := c.p.pc, rpc := c.p.pc })) ∧
    (∀ i w, (i, w) ∈ both → a % 128 = 0 → (named = none ∨ ∃ v k q, named = some (v, k, q) ∧ q.cfg.feeder = false) →
      c.Answers f (Machine.exec i c.s) c.s 2) ∧
    (∀ v k q, a % 128 = 0 → named = some (v, k, q) → q.cfg.feeder = true → c.orderedAt .pkg = .go →
      2 ^ q.cfg.lqlog ≤ (q.tail - q.cons).toNat → c.Answers f (Machine.exec (.launch f) c.s) c.s 1) ∧
    (∀ i w v k q bs r, (i, w) ∈ both → a % 128 = 0 → named = some (v, k, q) → q.cfg.feeder = true →
      c.readGlobal (upFrom a 128) = .ok bs → r = BitVec.ofNat 1024 (leNat bs) →
      let delta : Word64 := lrSeq r - c.s.lseq c.t
      let apart : Prop := (∃ g, c.s.grid c.t.grid = some g ∧ g.vf = v) ∧ 1 ≤ delta.toNat ∧ delta.toNat ≤ 4095
      (w ≠ none → lrEdges r = 8 → c.Answers f (Machine.exec i c.s) c.s 3) ∧
      (w ≠ none → lrEdges r ≠ 8 → ¬apart → c.Answers f (Machine.exec i c.s) c.s 4) ∧
      ((w = none ∨ lrEdges r ≠ 8 ∧ apart) → c.orderedAt .pkg = .go →
        (2 ^ q.cfg.lqlog ≤ (q.tail - q.cons).toNat → c.Answers f (Machine.exec i c.s) c.s 1) ∧
        ((q.tail - q.cons).toNat < 2 ^ q.cfg.lqlog → ∃ (u : State) (q' : Queue) (r1 : BitVec 1024),
          c.Answers f (Machine.exec i c.s) u 0 ∧ u.queue v k = some q' ∧ q'.tail = q.tail + 1 ∧
          q' = { q with tail := q'.tail, views := q'.views } ∧ u.teams = c.s.teams ∧
          (w = none → r1 = r) ∧
          (∀ x, w = some x → lrEdges r < 8 → lrEdges r1 = lrEdges r + 1 ∧ r1.extractLsb' 0 164 = r.extractLsb' 0 164 ∧
            lrEdge r1 (lrEdges r) = BitVec.ofNat 75 (x.toNat % 2 ^ 60 + delta.toNat * 2 ^ 60 +
              (((c.s.grid c.t.grid).map Grid.queue).getD 0) % 8 * 2 ^ 72)) ∧
          let at_ := q.cfg.launchBase + q.tail.toNat % 2 ^ q.cfg.lqlog * 128
          (c.s.MemoryForm → at_ + 128 ≤ q.cfg.control → q.cfg.control + 64 ≤ 0x1000_0000_0000 →
            (∀ j < 128, u.physRead (at_ + j) = (leBytes 128 r1.toNat).getD j 0) ∧
            (∀ j < 8, u.physRead (q.cfg.control + j) = (leBytes 8 (q.tail + 1).toNat).getD j 0) ∧
            (∀ x, (x < at_ ∨ at_ + 128 ≤ x) → (x < q.cfg.control ∨ q.cfg.control + 8 ≤ x) → u.physRead x = c.s.physRead x))))) ∧
    (named = none → c.Answers f (Machine.exec (.lqst f) c.s) c.s (BitVec.allOnes 64)) ∧
    (∀ v k q x, named = some (v, k, q) →
      (f.immBits 0 2, x) ∈ [(0, q.cons), (1, BitVec.ofNat 64 q.frontier), (2, BitVec.ofNat 64 q.inFlight), (3, q.tail)] →
      c.Answers f (Machine.exec (.lqst f) c.s) c.s x)

/-- R392, R394 to R396, R149: a record that is consumed raises CONS and becomes a grid in flight, or completes at once with its status; a
team starts on the core that admits it with the state of R395; items go into refill queues; the host's writes of TAIL and CTAIL take
effect where their rule lets them; a queue that is configured starts empty; a held completion is written once there is room; a killed
grid's teams end. -/
def Obligations.LaunchEvents : Prop :=
  ∀ (s : State),
    (∀ set v k q f, (s.heat set).active ≠ [] → s.boot = .running → s.setInFlight set < 1024 → s.nextQueue set = some (v, k, q) →
      s.func v = f → s.queue v k = some q →
      let r := s.launchRecord q q.cons
      let crew := f.crew.toNat
      let seq := lrSeq r
      let low : Prop := ∃ l, q.lastSeq = some l ∧ seq.toNat ≤ l.toNat
      let handle := (r.extractLsb' 64 32).toNat
      ∃ u q', Machine.exec (.launchConsume set) s = .next u ∧ u.queue v k = some q' ∧ q'.cons = q.cons + 1 ∧
        q'.lastSeq = some seq ∧ q'.tail = q.tail ∧ (u.func v).lastQueue = k ∧ (u.heat set).lastVf = v ∧
        (low ∨ lrMalformed r = true → (seq, 1) ∈ q'.outcomes) ∧
        (¬low → lrMalformed r = false → ((s.crew crew).images.find? fun i => i.handle == handle) = none → (seq, 2) ∈ q'.outcomes) ∧
        (∀ im d, ¬low → lrMalformed r = false → ((s.crew crew).images.find? fun i => i.handle == handle) = some im →
          im.descs[lrKdesc r]? = some d → lrCdesc r = 0xFFFF →
          let floors := lrFloors r d
          (lrUnfit r d none = true → (seq, 1) ∈ q'.outcomes) ∧
          (lrUnfit r d none = false → (s.crew crew).neverFits d floors false = true → (seq, 6) ∈ q'.outcomes) ∧
          (lrUnfit r d none = false → (s.crew crew).neverFits d floors false = false → lrDet r = false → lrEdges r = 0 →
            s.grid s.nextId = none → ∃ g, u.grid s.nextId = some g ∧ g.st = .ready ∧ g.vf = v ∧ g.queue = k ∧ g.seq = seq ∧
              g.crew = crew ∧ g.image = handle ∧ g.kdesc = lrKdesc r ∧ g.cdesc = none ∧ g.gx = (r.extractLsb' 128 16).toNat + 1 ∧
              g.gy = (r.extractLsb' 144 16).toNat + 1 ∧ g.arg0 = r.extractLsb' 192 64 ∧ g.arg1 = r.extractLsb' 256 64 ∧
              g.floors = floors ∧ g.placed = 0 ∧ g.nitem = lrItems r))) ∧
    (∀ set crew g gid core base num idx d, (s.crew crew).set = some set → s.preemptDue crew (s.placeItems crew) = none →
      s.firstItem crew = some ((g, .fresh gid), (core, base, num)) → g.nextIndex = some idx → g.det = false → s.grid gid = some g →
      s.team s.nextId = none → s.descriptor (Team.start gid g.crew (idx % g.gx) (idx / g.gx) 0 0 0 0 g.kdesc) g.kdesc = some d →
      ∃ (u : State) (t : Team), Machine.exec (.teamPlace set crew) s = .next u ∧ u.team s.nextId = some t ∧ t.grid = gid ∧ t.crew = g.crew ∧
        t.x = idx % g.gx ∧ t.y = idx / g.gx ∧ t.core = core ∧ t.winBase = base ∧ t.winSize = descWindow d ∧ t.view = 0 ∧
        t.status = .resident ∧ t.groups.length = (groupRoles g.floors).length ∧
        (∀ (gi : Nat) (x : Group), t.groups[gi]? = some x → x.uniOf 0 = g.arg0 ∧ x.uniOf 1 = g.arg1 ∧ x.uniOf 2 = BitVec.ofNat 64 t.windowAddr ∧
          x.uniOf 3 = BitVec.ofNat 64 idx ∧ x.vregs = [] ∧ x.em = BitVec.allOnes 32 ∧ x.flags = 0 ∧
          (∃ p, x.path 0 = some p ∧ p.mask = BitVec.allOnes 32 ∧ p.pc = s.entryOf t g.kdesc ∧ p.st = .ready) ∧
          (∀ j, j ≠ 0 → x.path j = none)) ∧
        (t.seat.isSome = g.cdesc.isSome) ∧ (∀ q, t.seat = some q → q.num = num ∧ q.cluster = clusterOf core ∧ q.st = .running) ∧
        (∀ j < descWindow d, u.scratch.read (t.windowCell + j) = 0) ∧
        (∀ x, x < t.windowCell ∨ t.windowCell + descWindow d ≤ x → u.scratch.read x = s.scratch.read x) ∧
        (∃ g', u.grid gid = some g' ∧ g'.placed = idx + 1 ∧ g'.st = .running) ∧ (∀ j, j ≠ s.nextId → u.team j = s.team j)) ∧
    (∀ tid n t rq g, s.team tid = some t → t.refill = some rq → s.grid t.grid = some g → t.ended = false → t.status = .resident →
      rq.open_ = true → 0 < n → rq.items.length + n ≤ rq.depth → g.handed + n ≤ g.nitem →
      ∃ (u : State) (t' : Team) (g' : Grid) (rq' : RefillQueue), Machine.exec (.refillQueueFill tid n) s = .next u ∧ u.team tid = some t' ∧ t'.refill = some rq' ∧
        rq'.items = rq.items ++ (upFrom g.handed n).map (BitVec.ofNat 32) ∧ u.grid t.grid = some g' ∧ g'.handed = g.handed + n ∧
        (rq'.open_ = decide (g.handed + n < g.nitem)) ∧ SameMemory s u) ∧
    (∀ v k q (x : Word64), s.queue v k = some q →
      let index (q' : Queue) (off : Nat) (w : Word64) (u : State) : Prop := u.queue v k = some q' ∧
        (s.MemoryForm → q.cfg.control + 64 ≤ 0x1000_0000_0000 →
          (∀ j < 8, u.physRead (q.cfg.control + off + j) = (leBytes 8 w.toNat).getD j 0) ∧
          (∀ y, y < q.cfg.control + off ∨ q.cfg.control + off + 8 ≤ y → u.physRead y = s.physRead y))
      (q.cfg.feeder = true ∨ 2 ^ q.cfg.lqlog < (x - q.cons).toNat → Machine.exec (.hostTailWrite v k x) s = .next s) ∧
      (q.cfg.feeder = false → (x - q.cons).toNat ≤ 2 ^ q.cfg.lqlog →
        ∃ u, Machine.exec (.hostTailWrite v k x) s = .next u ∧ index { q with tail := x } 0 x u) ∧
      ((x - q.ctail).toNat ≤ (q.chead - q.ctail).toNat →
        ∃ u, Machine.exec (.hostCtailWrite v k x) s = .next u ∧ index { q with ctail := x } 24 x u) ∧
      (∀ n rec rest, q.heldDone = (n, rec) :: rest → q.completionRoom = true →
        ∃ u q', Machine.exec (.heldCompletionWrite v k) s = .next u ∧ u.queue v k = some q' ∧ q'.heldDone = rest ∧
          q'.chead = q.chead + 1 ∧ n ∈ q'.done ∧
          let at_ := q.cfg.completionBase + q.chead.toNat % 2 ^ q.cfg.cqlog * 32
          (s.MemoryForm → at_ + 32 ≤ q.cfg.control → q.cfg.control + 64 ≤ 0x1000_0000_0000 →
            ∀ j < 32, u.physRead (at_ + j) = (leBytes 32 rec.toNat).getD j 0))) ∧
    (∀ v k config, s.boot = .running → v < 512 → k < 8 → 4 ≤ config.lqlog → config.lqlog ≤ 16 → 4 ≤ config.cqlog → config.cqlog ≤ 16 →
      (∀ q, s.queue v k = some q → q.inFlight = 0) → ∃ u, Machine.exec (.launchQueueConfigure v k config) s = .next u ∧
        u.queue v k = some { cfg := config } ∧ u.hostLog = s.hostLog ++ [.status 0]) ∧
    (∀ v seq e, s.boot = .running → (s.grids.find? fun e => e.2.vf == v && e.2.seq == seq) = some e →
      Machine.exec (.hostKillGrid v seq) s = .next { s.killGrid e.1 with hostLog := (s.killGrid e.1).hostLog ++ [.status 0] })

/-! The host -/

/-- R51, R52, R156, R158, R161, R173, R224, R265, R309, R334, R353, R355, R357 to R362, R375, R392, R396, R398, R402 to R404: the host's
commands are refused unless the device runs; each sets what its rule names, for the crew, function, die set, queue or page that it names
and nothing else of its kind, or is refused; an image is loaded under a handle that no image has, or rejected with its status; host port
accesses stay in the crew's die set; firmware starts the device, removal of power ends it. That a command answers 0 or 1 in the host log
is the model's choice (assumption 16). -/
def Obligations.HostEvents : Prop :=
  ∀ (s : State),
    let ok (u : State) : Out := .next { u with hostLog := u.hostLog ++ [.status 0] }
    let err : Out := .next { s with hostLog := s.hostLog ++ [.status 1] }
    let sets (crew : Nat) (x : Crew) (o : Out) : Prop := ∃ u : State, o = ok u ∧ u = { s with crews := u.crews } ∧ u.crew crew = x ∧
      ∀ k, k ≠ crew → u.crew k = s.crew k
    let funcs (v : Nat) (o : Out) (p : Function → Prop) : Prop := ∃ u : State, o = ok u ∧ p (u.func v) ∧ (∀ k, k ≠ v → u.func k = s.func k) ∧
      ((s.func v).pending = [] → u = { s with functions := u.functions }) ∧ SameMemory s u
    (∀ c n m b key w v bases ws k kind va len q acc seq cfg im rows cls, s.boot ≠ .running →
      ∀ i ∈ [Instr.keyProvision c n key, .rollbackFloorWrite c n w, .crewClassGrant c cls, .dieSetConfigure ws, .crewBind c n,
        .crewReset c, .pageTableRootSet c k, .vaultAssign n m c, .mailboxAssign n m c, .twinPoolSet c k n, .recordTableSet c n k,
        .peerRegister n k k, .unscrubbedBitmapWrite c n b, .hostScrub c k n, .hostTlbinv c kind va len, .hostVacate c k n,
        .functionControlWrite v k, .functionReset v, .functionMigrationPause v, .functionMigrationResume v, .heatTableInstall n rows,
        .hostPortAccess c acc, .imageLoad c im n bases, .hostReplay c seq, .launchQueueConfigure v q cfg, .hostKillGrid v seq,
        .deviceRestart], Machine.exec i s = err) ∧
    (∀ crew, s.boot = .running → crew < 40 →
      let x := s.crew crew
      (∀ slot key, slot < 16 → ∃ x', sets crew x' (Machine.exec (.keyProvision crew slot key) s) ∧ x' = { x with keys := x'.keys } ∧
        aget slot x'.keys = some key ∧ ∀ j, j ≠ slot → aget j x'.keys = aget j x.keys) ∧
      (∀ slot n, slot < 16 →
        (((aget slot x.floors).getD 0).toNat ≤ n.toNat → ∃ x', sets crew x' (Machine.exec (.rollbackFloorWrite crew slot n) s) ∧
          x' = { x with floors := x'.floors } ∧ aget slot x'.floors = some n ∧ ∀ j, j ≠ slot → aget j x'.floors = aget j x.floors) ∧
        (n.toNat < ((aget slot x.floors).getD 0).toNat → Machine.exec (.rollbackFloorWrite crew slot n) s = err)) ∧
      (∀ cls, sets crew { x with cls := cls } (Machine.exec (.crewClassGrant crew cls) s)) ∧
      (∀ root, sets crew { x with root := root } (Machine.exec (.pageTableRootSet crew root) s)) ∧
      (∀ n base, (n < 2 ^ 20 → sets crew { x with recSize := n, recBase := base } (Machine.exec (.recordTableSet crew n base) s)) ∧
        (2 ^ 20 ≤ n → Machine.exec (.recordTableSet crew n base) s = err)) ∧
      (∀ base n, x.granules.length + (x.views.map fun v => v.2.resv).sum ≤ n →
        sets crew { x with poolBase := base, poolSize := n } (Machine.exec (.twinPoolSet crew base n) s)) ∧
      (∀ base, base < 8 → (s.die base).base.toNat = base →
        ((∀ e ∈ s.grids, e.2.crew ≠ crew) →
          sets crew { x.reshape crew (s.heat base).active with set := some base } (Machine.exec (.crewBind crew base) s)) ∧
        ((∃ e ∈ s.grids, e.2.crew = crew) → Machine.exec (.crewBind crew base) s = err)) ∧
      (∃ u : State, Machine.exec (.crewReset crew) s = ok u ∧ (u.crew crew).views = [] ∧ (u.crew crew).granules = [] ∧
        (u.crew crew).samplers = [] ∧ (u.crew crew).fqhead = 1 ∧ (u.crew crew).fqtail = 1 ∧ (u.crew crew).heldRecs = [] ∧
        (∀ m ∈ u.mailboxes, m.2.crew = crew → m.2.messages = []) ∧
        (∀ v a, aget v u.vaultCrew = some crew → v * 2 ^ 22 ≤ a → a < (v + 1) * 2 ^ 22 → u.vault.read a = 0) ∧
        ∀ p ∈ (u.crew crew).pages, ∀ pa, pa / 65536 = p → u.unscrubbed crew pa = true) ∧
      (∀ die vault, die < 8 → vault < 64 → ∃ u : State, Machine.exec (.vaultAssign die vault crew) s = ok u ∧
        u = { s with vaultCrew := u.vaultCrew } ∧ aget (die * 64 + vault) u.vaultCrew = some crew ∧
        ∀ j, j ≠ die * 64 + vault → aget j u.vaultCrew = aget j s.vaultCrew) ∧
      (∀ slice box, slice < 128 → box < 64 → ∃ u : State, Machine.exec (.mailboxAssign slice box crew) s = ok u ∧
        u = { s with mailboxes := u.mailboxes } ∧ aget (slice * 64 + box) u.mailboxes = some { crew := crew } ∧
        ∀ j, j ≠ slice * 64 + box → aget j u.mailboxes = aget j s.mailboxes) ∧
      (∀ seq, Machine.exec (.hostReplay crew seq) s = ok (s.replay crew seq.toNat)) ∧
      (∀ page, ∃ u : State, Machine.exec (.unscrubbedBitmapWrite crew page true) s = ok u ∧ page ∈ (u.crew crew).pages ∧
        (∀ pa, u.unscrubbed crew pa = (s.unscrubbed crew pa || pa / 65536 == page)) ∧
        (∀ k l, (k, l) ∈ u.lines → (k, l) ∈ s.lines ∧ (k.crew = crew → ∀ c ∈ l.cells, c.2.pa / 65536 ≠ page))) ∧
      (∀ page, ∃ u : State, Machine.exec (.unscrubbedBitmapWrite crew page false) s = ok u ∧
        ((∀ e ∈ s.teams, e.2.crew ≠ crew) → SameMemory s u ∧
          ∀ pa, u.unscrubbed crew pa = (s.unscrubbed crew pa && pa / 65536 != page))) ∧
      (∀ (base : Word64) (n : Nat), n < 2 ^ 32 →
        (¬(base.toNat % 65536 = 0 ∧ n % 65536 = 0 ∧ n ≠ 0) → Machine.exec (.hostScrub crew base n) s = err) ∧
        (base.toNat % 65536 = 0 → n % 65536 = 0 → n ≠ 0 →
          (s.inSetHbm crew base.toNat n = false → Machine.exec (.hostScrub crew base n) s =
            .next { s with hostLog := s.hostLog ++ [.status 2] }) ∧
          (s.inSetHbm crew base.toNat n = true → ∃ u, Machine.exec (.hostScrub crew base n) s = ok u ∧
            ∀ pa, u.unscrubbed crew pa = (s.unscrubbed crew pa || (decide (base.toNat ≤ pa) && decide (pa < base.toNat + n)))))) ∧
      (∀ kind (va : VAddr) (len : Word32) lo n, (kind, lo, n) ∈ [((0 : BitVec 2), 0, 2 ^ 56), (1, va.toNat, 1), (2, va.toNat, len.toNat)] →
        ∃ u : State, Machine.exec (.hostTlbinv crew kind va len) s = ok u ∧ u.teams = s.teams ∧ SameMemory s u ∧
          (∀ core e, e ∈ (u.core core).tlb ↔ e ∈ (s.core core).tlb ∧ ¬(dieOf core ∈ s.crewDies crew ∧ 0 < n ∧ e.crew = crew ∧
            e.base < lo + n ∧ lo < e.base + e.size)) ∧
          (∀ d e, e ∈ (u.die d).tcache ↔ e ∈ (s.die d).tcache ∧ ¬(d ∈ s.crewDies crew ∧ 0 < n ∧ e.crew = crew ∧
            e.base < lo + n ∧ lo < e.base + e.size)) ∧
          (∀ k w, (k, w) ∈ u.walks → w.die ∈ s.crewDies crew → w.cancelled = true)) ∧
      (∀ lseq n, (s.namedGrid crew lseq = none → Machine.exec (.hostVacate crew lseq n) s =
          .next { s with hostLog := s.hostLog ++ [.bytes (leBytes 8 0)] }) ∧
        (∀ gid g cores u, s.namedGrid crew lseq = some (gid, g) → s.vacate gid (n % 1024) = (cores, u) →
          Machine.exec (.hostVacate crew lseq n) s = .next { u with hostLog := u.hostLog ++ [.bytes (leBytes 8 cores.length)] })) ∧
      (∀ pa n, 0 < n → Machine.exec (.hostPortAccess crew (.read pa n)) s =
        if s.inSetHbm crew pa n then .next { s with hostLog := s.hostLog ++
          [.bytes ((upFrom pa n).map fun a => if s.unscrubbed crew a then 0 else s.physRead a)] }
        else .next { s with hostErrors := s.hostErrors + 1 }) ∧
      (∀ pa bs, 0 < bs.length →
        (s.inSetHbm crew pa bs.length = false → Machine.exec (.hostPortAccess crew (.write pa bs)) s =
          .next { s with hostErrors := s.hostErrors + 1 }) ∧
        (s.inSetHbm crew pa bs.length = true → ∃ u, Machine.exec (.hostPortAccess crew (.write pa bs)) s = .next u ∧
          (s.MemoryForm → (∀ i < bs.length, s.unscrubbed crew (pa + i) = false) →
            (∀ i < bs.length, u.physRead (pa + i) = bs.getD i 0) ∧
            ∀ x, x < pa ∨ pa + bs.length ≤ x → u.physRead x = s.physRead x))) ∧
      (∀ im rb (b : LoadBases), b.group.toNat % 64 = 0 → b.cox.toNat % 64 = 0 → b.data.toNat % 65536 = 0 → b.const.toNat % 65536 = 0 →
        (x.loadStatus im rb ≠ 0 → Machine.exec (.imageLoad crew im rb b) s =
          .next { s with hostLog := s.hostLog ++ [.status (x.loadStatus im rb)] }) ∧
        (x.loadStatus im rb = 0 → (∀ e ∈ s.teams, e.2.crew ≠ crew) → ∃ (u : State) (h : Nat) (g : Image), Machine.exec (.imageLoad crew im rb b) s = .next u ∧
          u.hostLog = s.hostLog ++ [.status 0, .bytes (leBytes 4 h)] ∧ (u.crew crew).images = x.images ++ [g] ∧ g.handle = h ∧
          h < 2 ^ 32 ∧ g.groupBase = b.group ∧ g.coxBase = b.cox ∧ (s.crews.length < 2 ^ 20 → (∀ c ∈ s.crews, c.2.images.length < 2 ^ 10) →
            ∀ c ∈ s.crews, ∀ y ∈ c.2.images, y.handle ≠ h)))) ∧
    (∀ peer e key, s.boot = .running → peer < 4096 → ∃ u : State, Machine.exec (.peerRegister peer e key) s = ok u ∧
      u = { s with peers := u.peers } ∧ aget peer u.peers = some (e, key) ∧ ∀ j, j ≠ peer → aget j u.peers = aget j s.peers) ∧
    (∀ ws, s.boot = .running →
      (s.configOk ws = false → Machine.exec (.dieSetConfigure ws) s = err) ∧
      (s.configOk ws = true → ∃ u : State, Machine.exec (.dieSetConfigure ws) s = ok u ∧ SameMemory s u ∧
        (∀ w ∈ ws, (u.die w.die).size = w.size ∧ (u.die w.die).base = w.base) ∧ (∀ d, d ∉ ws.map DieWrite.die → u.die d = s.die d) ∧
        ∀ d < 8, d ∈ u.setOf d ∧ ∀ e ∈ u.setOf d, e < 8 ∧ u.setOf e = u.setOf d)) ∧
    (∀ v, s.boot = .running → v < 512 →
      let x := s.func v
      (∀ w : Word64, w.extractLsb' 10 22 = 0 → w.getLsbD 6 = false →
        (w.getLsbD 7 = true → 40 ≤ (w.extractLsb' 0 6).toNat → Machine.exec (.functionControlWrite v w) s = err) ∧
        (w.getLsbD 7 = false ∨ (w.extractLsb' 0 6).toNat < 40 → funcs v (Machine.exec (.functionControlWrite v w) s) fun y => y.en = w.getLsbD 7 ∧
          y.crew = w.extractLsb' 0 6 ∧ y.inc = x.inc ∧ y.paused = x.paused ∧ y.queues = x.queues)) ∧
      funcs v (Machine.exec (.functionReset v) s) (fun y => y = { x with inc := x.inc + 1, drop := 0 }) ∧
      funcs v (Machine.exec (.functionMigrationPause v) s) (fun y => y = { x with paused := true }) ∧
      (x.paused = false → Machine.exec (.functionMigrationResume v) s = err) ∧
      (x.paused = true → funcs v (Machine.exec (.functionMigrationResume v) s) fun y => y.paused = false ∧ y.en = x.en ∧
        y.crew = x.crew ∧ y.inc = x.inc ∧ (x.en = true → s.crewRuns x.crew.toNat = true → y.pending = []))) ∧
    (∀ set rows, s.boot = .running → set < 8 → (s.die set).base.toNat = set →
      ((s.heat set).active ≠ [] ∨ rows = [] ∨ 64 < rows.length ∨ (∃ r ∈ rows, s.rowLegal set r = false) →
        Machine.exec (.heatTableInstall set rows) s = err) ∧
      ((s.heat set).active = [] → rows ≠ [] → rows.length ≤ 64 → (∀ r ∈ rows, s.rowLegal set r = true) →
        (∀ a ∈ rows, ∀ b ∈ rows, quartersClash a b = false) → ∃ u, Machine.exec (.heatTableInstall set rows) s = ok u ∧
        (u.heat set).active = rows ∧ (u.heat set).row = 0 ∧ (u.heat set).started = s.clock ∧ (u.heat set).current = rows.headD 0 ∧
        (∀ k, k ≠ set → u.heat k = s.heat k) ∧ SameMemory s u)) ∧
    (s.boot = .running → ∃ u : State, Machine.exec .deviceRestart s = ok u ∧ u.teams = [] ∧ u.cmds = [] ∧
      u.packets = [] ∧ ∀ gid g q, s.grid gid = some g → s.queue g.vf g.queue = some q → u.grid gid = none ∧
        ∃ q', u.queue g.vf g.queue = some q' ∧ (g.seq, 7) ∈ q'.outcomes) ∧
    (s.boot = .unpowered ∨ s.boot = .waiting → Machine.exec .powerOnBoot s = .next { s with boot := .waiting }) ∧
    (∀ im sig key, s.boot = .waiting ∨ (∃ n, s.boot = .recovery n) →
      let fail (n : Nat) : Out := .next { s with boot := .recovery n, hostLog := s.hostLog ++ [.status n] }
      (keyHash key ≠ Config.fusedKeyHash → Machine.exec (.firmwareImage im sig key) s = fail 1) ∧
      (keyHash key = Config.fusedKeyHash → pssValid key im sig = false → Machine.exec (.firmwareImage im sig key) s = fail 2) ∧
      (keyHash key = Config.fusedKeyHash → pssValid key im sig = true → Machine.exec (.firmwareImage im sig key) s =
        ok { s with boot := .running, firmware := BitVec.ofNat 256 (beNat (sha256 im)) })) ∧
    (∀ m, ∃ a, ∀ t : State, t.firmware = s.firmware →
      Machine.exec (.hostSpdmRequest m) t = .next { t with hostLog := t.hostLog ++ [.spdm a] }) ∧
    (∀ board (hot : BitVec 8), ∃ u : State, Machine.exec (.powerLimitInput board hot) s = .next u ∧ u.powerLimit = board ∧
      u = { s with powerLimit := board, dies := u.dies } ∧ ∀ d < 8, u.die d = { s.die d with
        hot := hot.getLsbD d, idle := (s.die d).idle + if board || hot.getLsbD d then 1 else 0 }) ∧
    (∃ u : State, Machine.exec .powerRemoval s = .next u ∧ u.boot = .unpowered ∧ u.hbm = [] ∧ u.scratch = [] ∧ u.vault = [] ∧ u.lines = [] ∧
      u.teams = [] ∧ u.grids = [] ∧ u.crews = [] ∧ u.cores = [] ∧ u.functions = [] ∧ u.hostMem = s.hostMem)

/-! Heat tables and contexts -/

/-- R363, R364, R370, R374 to R376, R341, R354: `heatw` writes a shadow row that is legal, `heatsw` makes a full shadow bank pend,
`donate` opens the crew's donation, `scrub` marks the pages of its range and clears what the package keeps of them; `ctxsave` copies the
context of a saved team, whose header holds what R341 gives it, or answers all ones, and `ctxld` installs a team that it reads, saved.
Each answers the status of its rule. -/
def Obligations.HeatAndContextForms : Prop :=
  ∀ (c : PathCtx) (f : Fields) (set : Nat), c.Issues → c.effect f = true → (c.s.crew c.t.crew).set = some set →
    let a := c.uni 0 f.sa
    let b := c.uni 1 f.sb
    let w := c.uni 2 f.sc
    let h := c.s.heat set
    let trap (code : BitVec 8) (addr : Word64) : Out := .next (c.s.takeFault c.tid c.gi c.pi
      { code := code, addr := addr, pc := c.p.pc, rpc := c.p.pc })
    (let out := Machine.exec (.donate f) c.s
     let owns : Prop := ownsAny h.current c.t.crew = true ∧ rowDonee h.current ≠ some c.t.crew
     (rowPol h.current = 0 → c.Answers f out c.s 1) ∧
     (rowPol h.current ≠ 0 → ¬owns → c.Answers f out c.s 2) ∧
     (rowPol h.current ≠ 0 → owns → (c.s.crew c.t.crew).donated = true ∨ h.edgeAt < c.s.clock + 1024 → c.Answers f out c.s 3) ∧
     (rowPol h.current ≠ 0 → owns → (c.s.crew c.t.crew).donated = false → c.s.clock + 1024 ≤ h.edgeAt →
       ∃ u, c.Brings f out u (some 0) ∧ (u.crew c.t.crew).donated = true ∧
         (u.heat set).donations = h.donations ++ [(c.t.crew, c.s.clock + 1024)] ∧ (u.heat set).current = h.current ∧
         ∀ o < 64, rowOct h.current o = some c.t.crew → aget o u.octets = some (.draining, c.t.crew))) ∧
    (c.s.privileged c.t = true →
      (let out := Machine.exec (.heatw f) c.s
       (b.toNat % 256 ≠ 0 → out = trap 0x05 b) ∧
       (b.toNat % 256 = 0 → 63 < a.toNat → c.Answers f out c.s 1) ∧
       (b.toNat % 256 = 0 → a.toNat ≤ 63 → h.pendingN ≠ none → c.Answers f out c.s 5) ∧
       (∀ bs, b.toNat % 256 = 0 → a.toNat ≤ 63 → h.pendingN = none → c.readGlobal (upFrom b.toNat 256) = .ok bs →
         let row := BitVec.ofNat 2048 (leNat bs)
         let bad : Prop := row.extractLsb' 1568 480 ≠ 0 ∨ row.extractLsb' 5 3 ≠ 0 ∨ (row.extractLsb' 0 5).toNat < 14 ∨
           24 < (row.extractLsb' 0 5).toNat ∨ rowPol row = 3 ∨
           ∃ o < 64, ∃ x, rowOct row o = some x ∧ ¬(x < 40 ∧ (c.s.crew x).set = some set ∧ o / 8 ∈ c.s.setOf set)
         (bad → c.Answers f out c.s 2) ∧
         (c.s.rowLegal set row = true → (∃ e ∈ h.shadow, e.1 ≠ a.toNat ∧ quartersClash row e.2 = true) → c.Answers f out c.s 3) ∧
         (c.s.rowLegal set row = true → (∀ e ∈ h.shadow, e.1 ≠ a.toNat → quartersClash row e.2 = false) → ∃ u, c.Answers f out u 0 ∧
           aget a.toNat (u.heat set).shadow = some row ∧ (∀ i, i ≠ a.toNat → aget i (u.heat set).shadow = aget i h.shadow) ∧
           u.heat set = { h with shadow := (u.heat set).shadow } ∧ u = { c.s with heats := u.heats }))) ∧
      (let out := Machine.exec (.heatsw f) c.s
       let n := a.toNat
       (n = 0 ∨ 64 < n → c.Answers f out c.s 1) ∧
       (1 ≤ n → n ≤ 64 → h.pendingN ≠ none → c.Answers f out c.s 5) ∧
       (1 ≤ n → n ≤ 64 → h.pendingN = none → (∃ i < n, aget i h.shadow = none) → c.Answers f out c.s 4) ∧
       (1 ≤ n → n ≤ 64 → h.pendingN = none → (∀ i < n, aget i h.shadow ≠ none) → ∃ u, c.Answers f out u 0 ∧
         u.heat set = { h with pendingN := some n } ∧ u = { c.s with heats := u.heats })) ∧
      (let out := Machine.exec (.scrub f) c.s
       (¬(a.toNat < 40 ∧ c.s.sameSet c.t.crew a.toNat = true) → out = trap 0x04 (BitVec.allOnes 64)) ∧
       (a.toNat < 40 → c.s.sameSet c.t.crew a.toNat = true →
         let formed : Prop := w.toNat < 2 ^ 32 ∧ b.toNat % 65536 = 0 ∧ w.toNat % 65536 = 0 ∧ w.toNat ≠ 0
         (¬formed → c.Answers f out c.s 1) ∧
         (formed → c.s.inSetHbm c.t.crew b.toNat w.toNat = false → c.Answers f out c.s 2) ∧
         (formed → c.s.inSetHbm c.t.crew b.toNat w.toNat = true → c.orderedAt .sys = .go → ∃ u, c.Brings f out u (some 0) ∧
           ((∀ e ∈ c.s.teams, e.2.crew = a.toNat → e.2.status ≠ .saved) → u.teams = c.s.teams) ∧
           (∀ x ∈ (u.crew a.toNat).granules, ∀ i, let at_ := (u.crew a.toNat).poolBase.toNat + 512 * x.place + i
             (b.toNat ≤ at_ → at_ < b.toNat + w.toNat → x.twin.getD i 0 = 0) ∧
             (b.toNat ≤ at_ + 256 → at_ + 256 < b.toNat + w.toNat → x.priv.getD i 0 = 0)) ∧ (∀ pa, u.unscrubbed a.toNat pa =
             (c.s.unscrubbed a.toNat pa || (decide (b.toNat ≤ pa) && decide (pa < b.toNat + w.toNat)))) ∧
           ∀ k l, (k, l) ∈ u.lines → k.crew = a.toNat → ∀ x ∈ l.cells, x.2.pa < b.toNat ∨ b.toNat + w.toNat ≤ x.2.pa))) ∧
      (let out := Machine.exec (.ctxsave f) c.s
       let named := (c.s.namedGrid c.t.crew a).bind fun e => c.s.namedTeam e.1 b
       (w.toNat % 256 ≠ 0 → out = trap 0x05 w) ∧
       (w.toNat % 256 = 0 → (named = none ∨ ∃ tid t, named = some (tid, t) ∧ (t.ended = true ∨ tid = c.tid)) →
         c.Answers f out c.s (BitVec.allOnes 64)) ∧
       (∀ tid t, w.toNat % 256 = 0 → named = some (tid, t) → t.ended = false → tid ≠ c.tid →
         (t.status = .resident → b.getLsbD 63 = false → c.Answers f out c.s (BitVec.allOnes 64)) ∧
         (t.status = .resident → b.getLsbD 63 = true → c.WaitsIn out (c.s.preempt tid)) ∧
         (∀ bs u, t.status = .saved → c.s.creditsDue tid t = false → c.s.teamContext tid t = bs → c.s.putContext c.t w.toNat bs = .done u →
           (b.getLsbD 63 = false → c.Brings f out u (some (BitVec.ofNat 64 bs.length))) ∧
           (b.getLsbD 63 = true → ∃ v, c.Brings f out v (some (BitVec.ofNat 64 bs.length)) ∧ v = { u with teams := v.teams } ∧
             ∀ t', v.team tid = some t' → t'.status = .movedOut) ∧
           (bs.length < 2 ^ 32 → t.crew < 40 → t.x < 65536 → t.y < 65536 → t.winSize < 2 ^ 32 → t.parts.length ≤ 32 →
             numAt bs 0 2 = 1 ∧ numAt bs 2 2 = 0 ∧ numAt bs 4 4 = bs.length ∧ numAt bs 8 1 = t.crew ∧ numAt bs 9 1 = t.parts.length ∧
             numAt bs 12 2 = t.x ∧ numAt bs 14 2 = t.y ∧ numAt bs 16 8 = (c.s.lseq t).toNat ∧ numAt bs 24 4 = t.winSize)))) ∧
      (let out := Machine.exec (.ctxld f) c.s
       (a.toNat % 256 ≠ 0 → out = trap 0x05 a) ∧
       (a.toNat % 256 = 0 → 2 ≤ b.toNat → out = trap 0x04 (BitVec.allOnes 64)) ∧
       (∀ head bs, a.toNat % 256 = 0 → b.toNat ≤ 1 → c.readGlobal (upFrom a.toNat 64) = .ok head →
         c.readGlobal (upFrom a.toNat (max 64 (numAt head 4 4))) = .ok bs →
         (numAt bs 0 2 ≠ 1 → c.Answers f out c.s 1) ∧
         (numAt bs 0 2 = 1 → numAt bs 2 2 = 0 → numAt bs 44 20 = 0 → c.s.namedGrid c.t.crew (BitVec.ofNat 64 (numAt bs 16 8)) = none →
           c.Answers f out c.s 2) ∧
         (∀ st u, c.s.loadContext c.t.crew bs (b.getLsbD 0) = (st, u) → c.Brings f out u (some (BitVec.ofNat 64 st)) ∧
           (st ≠ 0 → u = c.s) ∧
           (st = 0 → b = 0 → ∃ tid t, u.team tid = some t ∧ t.status = .saved ∧ t.x = numAt bs 12 2 ∧ t.y = numAt bs 14 2 ∧
             t.crew = numAt bs 8 1 ∧ t.winSize = numAt bs 24 4 ∧
             ∀ j < t.winSize, t.window.read j = bs.getD (11232 + 4 * numAt bs 28 4 + j) 0)))))

/-- R365, R366, R370, R339, R344: the events of heats and pre-emption, each where its rule lets it happen: a drain window opens before an
edge at which its crew loses an octet; at the edge what changes owner is cleared and the next heat begins; an octet whose teams are put
away is handed over clear; an idle crew donates; a donation passes at the end of its window; a halted group is saved; a saved team is
restored where it is placed. -/
def Obligations.HeatAndContextEvents : Prop :=
  ∀ (s : State),
    (∀ set crew,
      let h := s.heat set
      let loses (o : Nat) : Prop := o < 64 ∧ rowOct h.current o = some crew ∧ rowOct h.next.2.2 o ≠ some crew
      h.active ≠ [] → crew ∉ h.opened → s.boundTo set crew = true → (∃ o, loses o) →
      (s.clock < h.edgeAt - (s.crew crew).drainwinHeat ∨ s.clock < h.started + (h.edgeAt - h.started) / 2 →
        Machine.exec (.drainWindowOpen set crew) s = .refused .notEnabled) ∧
      (h.edgeAt - (s.crew crew).drainwinHeat ≤ s.clock → h.started + (h.edgeAt - h.started) / 2 ≤ s.clock →
        ∃ u, Machine.exec (.drainWindowOpen set crew) s = .next u ∧ (u.heat set).opened = h.opened ++ [crew] ∧
          (∀ o, loses o → aget o u.octets = some (.draining, crew)) ∧
          ∀ tid t, s.team tid = some t → t.crew = crew → t.ended = false → t.status = .resident → loses (octetOf t.core) →
            ∃ t', u.team tid = some t' ∧ (t'.status = .draining ∧ t'.drainEnd = h.edgeAt ∨ t'.status = .saved))) ∧
    (∀ set,
      let h := s.heat set
      let losing (k : Nat) : Prop := k < 40 ∧ (s.crew k).set = some set ∧
        ∃ o < 64, rowOct h.current o = some k ∧ rowOct h.next.2.2 o ≠ some k
      (h.donations ≠ [] → Machine.exec (.heatEdge set) s = .refused .notEnabled) ∧
      (h.active ≠ [] → h.edgeAt ≤ s.clock → (∀ k, losing k → k ∈ h.opened) → h.donations = [] →
      ∃ u, Machine.exec (.heatEdge set) s = .next u ∧
        let x := u.heat set
        let wraps : Prop := h.active.length ≤ h.row + 1
        x.started = h.started + rowLen h.scheduled ∧ x.opened = [] ∧ x.donations = [] ∧ x.current = x.active.getD x.row 0 ∧
        (¬wraps → x.row = h.row + 1 ∧ x.active = h.active ∧ x.pendingN = h.pendingN) ∧
        (wraps → x.row = 0 ∧ x.pendingN = none ∧ (h.pendingN = none → x.active = h.active) ∧
          ∀ n, h.pendingN = some n → x.active = (List.range n).filterMap fun i => aget i h.shadow) ∧
        (∀ o < 64, rowOct h.current o ≠ rowOct x.current o → aget o u.octets = some (.saving, (rowOct x.current o).getD 0x3F)) ∧
        ∀ crew, u.boundTo set crew = true → (u.crew crew).donated = false ∧ (u.crew crew).drainwinHeat = (u.crew crew).drainwin ∧
          (wraps → h.pendingN ≠ none → ∀ d y, aget d (u.crew crew).samplers = some y → 0 < quartersIn x.active crew d →
            y.q = quartersIn x.active crew d))) ∧
    (∀ crew row, ((s.countOverrun crew row false).crew crew).ovrcnt = 0 ∧
      ((s.crew crew).ovrcnt + 1 ≠ 3 → ((s.countOverrun crew row true).crew crew).ovrcnt = (s.crew crew).ovrcnt + 1) ∧
      ((s.crew crew).ovrcnt + 1 = 3 → ((s.countOverrun crew row true).crew crew).ovrcnt = 0)) ∧
    (∀ octet crew st, aget octet s.octets = some (st, crew) → st = .saving ∨ st = .clearing →
      (∀ e ∈ s.teams, e.2.crew = crew ∨ e.2.ended = true ∨ (e.2.status ≠ .resident ∧ e.2.status ≠ .draining) ∨
        (octetOf e.2.core ≠ octet ∧ octet ∉ s.seatOctets e.1 e.2)) → s.opsTouch (octet * 2 ^ 22) (2 ^ 22) = false →
      ∃ u, Machine.exec (.octetHandover octet) s = .next u ∧ aget octet u.octets = none ∧ (∀ o, o ≠ octet → aget o u.octets = aget o s.octets) ∧
        (∀ x, octet * 2 ^ 22 ≤ x → x < (octet + 1) * 2 ^ 22 → u.scratch.read x = 0) ∧
        (∀ x, x < octet * 2 ^ 22 ∨ (octet + 1) * 2 ^ 22 ≤ x → u.scratch.read x = s.scratch.read x) ∧
        ∀ k, (octetOf k = octet → (u.core k).slots = [] ∧ (u.core k).queue = [] ∧ (u.core k).latch = none) ∧
          (octetOf k ≠ octet → u.core k = s.core k)) ∧
    (∀ set crew, (s.heat set).active ≠ [] → rowPol (s.heat set).current = 2 → s.boundTo set crew = true →
      s.donateStatus set crew = 0 → s.idle crew = true →
      (s.clock < (s.crew crew).idleSince + 1024 → Machine.exec (.idleDonation set crew) s = .refused .notEnabled) ∧
      ((s.crew crew).idleSince + 1024 ≤ s.clock → ∃ u, Machine.exec (.idleDonation set crew) s = .next u ∧ (u.crew crew).donated = true ∧
        (u.heat set).donations = (s.heat set).donations ++ [(crew, s.clock + 1024)])) ∧
    (∀ set crew, s.boundTo set crew = true →
      ((s.overdue set crew = [] ∧ ∀ e ∈ (s.heat set).donations, e.1 = crew → s.clock < e.2) →
        Machine.exec (.preemptWindowEnd set crew) s = .refused .notEnabled) ∧
      (s.overdue set crew ≠ [] → ∃ u, Machine.exec (.preemptWindowEnd set crew) s = .next u) ∧
      ((∃ e ∈ (s.heat set).donations, e.1 = crew ∧ e.2 ≤ s.clock) → ∃ u, Machine.exec (.preemptWindowEnd set crew) s = .next u ∧
        (∀ e ∈ (u.heat set).donations, e.1 ≠ crew) ∧ (s.overdue set crew = [] → ∀ o < 64,
          rowOct (u.heat set).current o = if rowOct (s.heat set).current o = some crew then rowDonee (s.heat set).current
            else rowOct (s.heat set).current o))) ∧
    (∀ (ref : GroupRef) (t : Team) (g : Group), s.team ref.team = some t → t.groups[ref.group]? = some g → t.status = .draining →
      g.ended = false → g.saved = false → s.yieldsDue ref.team ref.group = false →
      (g.halted = false → Machine.exec (.groupSave ref) s = .refused .notEnabled) ∧
      (g.halted = true → (s.readySave ref.team ref.group).saveWaits ref.team ref.group = true →
        Machine.exec (.groupSave ref) s = .refused .notEnabled) ∧
      (g.halted = true → (s.readySave ref.team ref.group).saveWaits ref.team ref.group = false →
        ∃ u, Machine.exec (.groupSave ref) s = .next u) ∧
      (g.halted = true → g.pend = [] → g.sbuf = [] →
        (∀ e ∈ s.cmds, e.2.team = ref.team → e.2.group = ref.group → e.2.st = .running → ∀ n, e.2.kind ≠ .take n) →
        ∃ u t' g', Machine.exec (.groupSave ref) s = .next u ∧ u.team ref.team = some t' ∧
        t'.groups[ref.group]? = some g' ∧ g' = { g with saved := true, held := false, inflight := [] } ∧
        (t'.status = .draining ∨ t'.status = .saved) ∧ ∀ j, j ≠ ref.group → t'.groups[j]? = t.groups[j]?)) ∧
    (∀ tid (t : Team) (g : Grid) (place : Nat × Nat × Nat), s.team tid = some t → s.firstItem t.crew = some ((g, .restore tid), place) →
      ∃ u, Machine.exec (.teamRestore tid) s = .next u ∧ ((∀ x ∈ t.groups, x.pend = [] ∧ x.sbuf = []) → ∃ t', u.team tid = some t' ∧
        t'.status = .resident ∧ t'.core = place.1 ∧ t'.winBase = place.2.1 ∧ t'.groups.length = t.groups.length ∧
        (∀ (k : Nat) (x : Group), t.groups[k]? = some x → ∃ x' : Group, t'.groups[k]? = some x' ∧ x'.g = x.g ∧ x'.preds = x.preds ∧ x'.em = x.em ∧
          x'.flags = x.flags ∧ x'.paths = x.paths ∧ x'.item = x.item ∧ x'.saved = false ∧
          x'.vregs.map (fun v => (v.1, v.2.lanes)) = x.vregs.map fun v => (v.1, v.2.lanes)) ∧
        (s.scratch.wf = true → (∀ e ∈ t.window, e.1 < t.winSize) → t.window.wf = true → ∀ x < t.winSize, u.scratch.read (place.1 * 2 ^ 19 + place.2.1 + x) = t.window.read x)))

/-! Words, steps, and what every step keeps -/

/-- R16, R22, R35: the words that the worked cases of spec/ write out are the instructions that they name, with their operands; the line
word of R17 likewise; and an unassigned FN under OPC 0xB0 reports cause 1. -/
def Obligations.DecodedWordsRight : Prop :=
  let f : Fields := { sw := false, neg := false, pg := 7, d := 0, sa := 0, sb := 0, sc := 0, lr := 0, useImm := false, md := 0, imm := 0 }
  decode .group 0x10012080_40600206_00000000 = .ok (.add { f with neg := true, pg := 1, d := 4, sa := 2, sb := 3, lr := 1, md := 6 }) ∧
  decode .group 0x0004E140_00000102_3F800000 = .ok (.bcast { f with d := 10, useImm := true, md := 2, imm := 0x3F800000 }) ∧
  decode .group 0x1228E121_00000316_0000000F = .ok (.rsh { f with d := 9, sa := 8, lr := 1, useImm := true, md := 0x16, imm := 15 }) ∧
  decode .group 0x500CE180_60818220_00000000 = .ok (.fma { f with d := 12, sa := 3, sb := 4, sc := 12, lr := 1, md := 0x20 }) ∧
  decode .group 0x7000E000_20000000_00000009 = .ok (.bra { f with sa := 1, imm := 9 }) ∧
  decode .group 0x8000E098_C0200002_00000000 = .ok (.ldt { f with d := 4, sa := 0xC6, sb := 1, md := 2 }) ∧
  decode .group 0x900CE0A0_40E0008C_00000000 = .ok (.atomAdd { f with d := 5, sa := 2, sb := 7, md := 0x8C }) ∧
  decode .group 0xA000E018_98B8C002_000000D1 = .ok (.cpy { f with sa := 0xC4, sb := 0xC5, sc := 0xC6, md := 2, imm := 0xD1 }) ∧
  decode .group 0xA800FA9A_BADAE000_00000001 = .ok (.fork { f with d := 0xD4, sa := 0xD5, sb := 0xD6, sc := 0xD7, imm := 1 }) ∧
  decode .cox 0xB00CE000_80A0C002_00024211 = .ok (.mmaTern { f with sa := 4, sb := 5, sc := 6, md := 2, imm := 0x24211 }) ∧
  decode .group 0xC014E018_80000100_00000002 = .ok (.smsweep { f with sa := 0xC4, useImm := true, imm := 2 }) ∧
  decode .group 0xC800E0C0_41000005_00000020 = .ok (.rld { f with d := 6, sa := 2, sb := 8, md := 5, imm := 0x20 }) ∧
  decode .group 0xD010F980_18600000_00000101 = .ok (.sysrd { f with d := 0xCC, sb := 0xC3, imm := 0x101 }) ∧
  decode .group 0xD400F858_78800000_00000000 = .ok (.heatw { f with d := 0xC2, sa := 0xC3, sb := 0xC4 }) ∧
  decode .group 0xD804E000_00000000_00001234 = .ok (.trmark { f with imm := 0x1234 }) ∧
  decode .group 0xE000F858_78800000_00000000 = .ok (.launch { f with d := 0xC2, sa := 0xC3, sb := 0xC4 }) ∧
  (∀ st, decode st 0xB07CE000_00001000_00000000 = .error (.illegal 1)) ∧
  (∀ st, decode st (BitVec.allOnes 96) = .error .fill)

/-- R22, R35: decoding an encoded well-formed instruction gives it back, in either stream, but that the rows of `rig` share one encoding;
and a word that decodes is the encoding of what it decodes to, which is well formed. -/
def Obligations.DecodeEncode : Prop :=
  (∀ (st : Stream) (i : Instr) (w : BitVec 96), i.wf st = true → encode i = some w → decode st w = .ok i.decodesTo) ∧
  (∀ (st : Stream) (i : Instr) (w : BitVec 96), decode st w = .ok i → encode i = some w ∧ i.wf st = true)

/-- R18, R39, R76: when a path that may issue stands at a slot of a cached line whose word decodes, and the instruction can issue, a step
is `exec` of it in the state in which the path is the issuer, and then of the second of a pair; a seat's step is `exec` of the cox
instruction that it fetches; an event's turn is `exec` of the event; without the 48 V input nothing runs (R404). A step takes one cycle
and the turns are the model's own (assumption 1). -/
def Obligations.StepRunsDecoded : Prop :=
  ∀ (s s1 : State) (rest : List Turn), s1 = { s with turns := rest, clock := s.clock + 1, fresh := s.fresh + 4 } → s.boot ≠ .unpowered →
    (∀ r c line slot i opc fn f, s.turns = .issuePath r :: rest → s1.pathCtx r = some c → s1.groupRuns c.t c.g = true →
      c.p.runs = true → c.yields = false → c.g.broken = none → s1.cachedLine c.t c.p.pc = some line → slotOf c.p.pc = some slot →
      lineStampOk line = true → decode .group (lineSlot line slot) = .ok i → i.word = some (opc, fn, f) →
      c.contextCause opc fn f = none → c.ticked.readiness opc fn f = .go →
      ∃ c' : PathCtx, c'.Issues ∧ c'.s = c.issuing opc fn true ∧ c'.tid = r.team ∧ c'.gi = r.group ∧ c'.pi = r.path ∧ c'.p = c.p ∧
        c'.g = { c.g with inflight := c'.g.inflight } ∧ c'.t = { c.t with groups := c'.t.groups } ∧ SameMemory s c'.s ∧
        (∀ e, Machine.exec i c'.s = .fault e → step s = .fault e) ∧
        (∀ u, c.p.holdNext = false → Machine.exec i c'.s = .next u → u.group r.team r.group ≠ some c'.g → c.stalledWhole u = false →
          ∃ v, c.afterIssue (.next { u with issuer := .none }) = .next v ∧
            v = { u with issuer := .none, cores := v.cores, teams := v.teams } ∧ SameMemory u v ∧
            (∀ k, v.core k = { u.core k with reserve := (v.core k).reserve }) ∧
            (∀ (tid gi : Nat) (g : Machine.Group), u.group tid gi = some g → ∃ g' : Machine.Group, v.group tid gi = some g' ∧ g' = { g with paths := g'.paths } ∧
              ∀ pi, g'.path pi = (g.path pi).map fun p => { p with since := ((g'.path pi).map Path.since).getD 0 }) ∧
            (linePair line slot = false → step s = .next v) ∧ (linePair line slot = true → step s = c.pairSecond line slot i v))) ∧
    (∀ r c slot, s.turns = .issuePath r :: rest → s1.pathCtx r = some c → s1.groupRuns c.t c.g = true → c.p.runs = true →
      c.yields = false → s1.cachedLine c.t c.p.pc = none → slotOf c.p.pc = some slot →
      step s = Machine.exec (.lineFetch r 0 0) s1) ∧
    (∀ tid c line slot i, s.turns = .issueSeat tid :: rest → s1.seatCtx tid = some c → c.t.ended = false → c.t.status = .resident →
      s1.ownsCore c.t.crew c.t.core = true → s1.toEnter tid c.q = none → c.q.st ≠ .trapped → c.q.st ≠ .exited → c.stillStalled = false →
      s1.codeLine c.t c.q.pc = .ok line → slotOf c.q.pc = some slot → lineParityOk line = true → lineStampOk line = true →
      decode .cox (lineSlot line slot) = .ok i → ∃ c' : SeatCtx, c'.Issues ∧ c'.tid = tid ∧ c'.q = c.q ∧
        c'.t = c.t ∧ SameMemory s c'.s ∧
        (∀ u, Machine.exec i c'.s = .next u → ∃ v, step s = .next v ∧ v = { u with issuer := .none, crews := v.crews, teams := v.teams } ∧
          SameMemory u v ∧ (∀ k, v.crew k = { u.crew k with idleSince := (v.crew k).idleSince }) ∧
          ∀ k, v.team k = (u.team k).map fun t => { t with seat := ((v.team k).bind Team.seat) }) ∧
        (∀ e, Machine.exec i c'.s = .fault e → step s = .fault e)) ∧
    (∀ i u, s.turns = .event i :: rest → Machine.exec i { s1 with issuer := .none } = .next u → step s = .next { u with issuer := .none }) ∧
    (s.turns = [] → step s = .next { s with clock := s.clock + 1, fresh := s.fresh + 4 }) ∧
    (∀ t : Turn, s.turns = t :: rest → t.powersOn = false → step { s with boot := .unpowered } = .fault .unpowered)

/-- R1, R134, R263, R288, R308, R311, R316, R352, R357, R360, R378: what the machine holds right after reset, where the specification
gives it. That the memories list nothing, and what an unlisted byte reads as, is the model's choice (assumption 5). -/
def Obligations.ResetState : Prop :=
  let s := State.reset
  s.MemoryForm ∧ s.boot = .waiting ∧ s.teams = [] ∧ s.grids = [] ∧ s.cmds = [] ∧ s.lines = [] ∧
  (∀ d, (s.die d).size = 3 ∧ (s.die d).base = 0 ∧ (s.die d).ecccnt = 0 ∧ (s.die d).ecclast = 0) ∧
  (∀ k, (s.crew k).trapvec = 0 ∧ (s.crew k).trapen = 0 ∧ (s.crew k).fqbase = 0 ∧ (s.crew k).fqlog = 6 ∧ (s.crew k).fqhead = 1 ∧
    (s.crew k).fqtail = 1 ∧ (s.crew k).heldRecs = [] ∧ (s.crew k).savebase = 0 ∧ (s.crew k).savesize = 0 ∧
    (s.crew k).drainwin = 4096 ∧ (s.crew k).ovrcnt = 0 ∧ (s.crew k).views = [] ∧ (s.crew k).granules = []) ∧
  (∀ v, (s.func v).inc = 0 ∧ (s.func v).drop = 0 ∧ (s.func v).en = false ∧ (s.func v).crew = 0x3F) ∧
  (∀ r, (s.rigger r).st = .offline ∧ (s.rigger r).phase = 0 ∧ (s.rigger r).lock = .open ∧ (s.rigger r).rig = 0 ∧ (s.rigger r).err = 0 ∧
    (s.rigger r).failcnt = 0) ∧
  (∀ k, s.window k = 0) ∧ s.planes = 0 ∧
  (∀ k d, (s.crew k).samplers = [] ∧ ({} : Sampler).beta = 0x0100 ∧ ({} : Sampler).seed = 0 ∧ ({} : Sampler).s = 0 ∧
    ({} : Sampler).table = none ∧ ({} : Sampler).entropy = false ∧ ({} : Cell).state = false ∧ ({} : Cell).bias = 0 ∧
    ({} : Cell).nbrs = [] ∧ ({} : Cell).colour = 0 ∧ ({} : Cell).clamp = true ∧ ({} : Cell).counter = 0 ∧ aget d (s.crew k).rings = none)

/-- R155, R154: every step keeps the four memories in their canonical form, whichever turn it takes and whatever the state holds, so that
equal memories stay equal data. The form is the model's own. -/
def Obligations.MemoryFormKept : Prop := ∀ s t : State, s.MemoryForm → step s = .next t → t.MemoryForm
end

