-- ==== Sys2Proof/Laws/Maps.lean ====
section
/-! SUPPORT. Laws of the containers: association lists, and byte memories in canonical form (read after write, and that every
memory operation keeps the form). -/

namespace Sys2Proof.Machine

section Assoc

variable {κ α : Type} [DecidableEq κ]

@[simp] theorem aget_aput_self (k : κ) (v : α) (l : List (κ × α)) : aget k (aput k v l) = some v := by
  induction l with
  | nil => simp [aput, aget]
  | cons e rest ih =>
    obtain ⟨k', v'⟩ := e
    by_cases h : k = k' <;> simp [aput, aget, h]
    exact ih

theorem aget_aput_ne {k k' : κ} (h : k' ≠ k) (v : α) (l : List (κ × α)) : aget k' (aput k v l) = aget k' l := by
  induction l with
  | nil => simp [aput, aget, h]
  | cons e rest ih =>
    obtain ⟨j, w⟩ := e
    by_cases hk : k = j
    · subst hk; simp [aput, aget, h]
    · by_cases hj : k' = j <;> simp [aput, aget, hk, hj, ih]

theorem aget_amod_self (k : κ) (f : α → α) (l : List (κ × α)) : aget k (amod k f l) = (aget k l).map f := by
  induction l with
  | nil => rfl
  | cons e rest ih =>
    obtain ⟨j, w⟩ := e
    by_cases hk : k = j <;> simp [amod, aget, hk]
    exact ih

theorem aget_amod_ne {k k' : κ} (h : k' ≠ k) (f : α → α) (l : List (κ × α)) : aget k' (amod k f l) = aget k' l := by
  induction l with
  | nil => rfl
  | cons e rest ih =>
    obtain ⟨j, w⟩ := e
    by_cases hk : k = j
    · subst hk; simp [amod, aget, h]
    · by_cases hj : k' = j <;> simp [amod, aget, hk, hj, ih]

theorem aget_adel_ne {k k' : κ} (h : k' ≠ k) (l : List (κ × α)) : aget k' (adel k l) = aget k' l := by
  induction l with
  | nil => rfl
  | cons e rest ih =>
    obtain ⟨j, w⟩ := e
    by_cases e1 : k = j
    · simp [adel, e1, aget, show k' ≠ j from fun x => h (x.trans e1.symm)]; rw [← e1]; exact ih
    · by_cases e2 : k' = j <;> simp [adel, e1, aget, e2, ih]

/-- A removed key is gone. -/
@[simp] theorem aget_adel_self (k : κ) (l : List (κ × α)) : aget k (adel k l) = none := by
  induction l with
  | nil => rfl
  | cons e rest ih =>
    obtain ⟨j, w⟩ := e
    by_cases e1 : k = j
    · simp [adel, e1]; rw [← e1]; exact ih
    · simp [adel, e1, aget, ih]

end Assoc

namespace Mem

theorem wfFrom_mono {m : Mem} {lo lo' : Nat} (h : lo' ≤ lo) (w : wfFrom lo m = true) : wfFrom lo' m = true := by
  cases m with
  | nil => rfl
  | cons c rest => obtain ⟨a, b⟩ := c; simp only [wfFrom, Bool.and_eq_true, decide_eq_true_eq] at w ⊢; exact ⟨⟨by omega, w.1.2⟩, w.2⟩

theorem read_below {m : Mem} {lo x : Nat} (w : wfFrom lo m = true) (h : x < lo) : read m x = unlisted := by
  induction m generalizing lo with
  | nil => rfl
  | cons c rest ih =>
    obtain ⟨a, b⟩ := c
    simp only [wfFrom, Bool.and_eq_true, decide_eq_true_eq] at w
    rw [read, if_neg (by omega)]
    exact ih w.2 (by omega)

theorem write_wfFrom {m : Mem} {lo x : Nat} {v : Byte} (w : wfFrom lo m = true) (h : lo ≤ x) :
    wfFrom lo (write m x v) = true := by
  induction m generalizing lo with
  | nil => by_cases hv : v = unlisted <;> simp [write, wfFrom, hv, h]
  | cons c rest ih =>
    obtain ⟨a, b⟩ := c
    have w0 := w
    simp only [wfFrom, Bool.and_eq_true, decide_eq_true_eq] at w
    obtain ⟨⟨w1, w2⟩, w3⟩ := w
    by_cases hx : x < a
    · by_cases hv : v = unlisted
      · simpa [write, hx, hv] using w0
      · simp only [write, if_pos hx, if_neg hv, wfFrom, Bool.and_eq_true, decide_eq_true_eq]
        exact ⟨⟨h, by simpa using hv⟩, ⟨by omega, w2⟩, w3⟩
    · by_cases he : x = a
      · subst he
        by_cases hv : v = unlisted
        · simpa [write, hv] using wfFrom_mono (by omega) w3
        · simp [write, hv, wfFrom, h, w3]
      · simp only [write, if_neg hx, if_neg he, wfFrom, Bool.and_eq_true, decide_eq_true_eq]
        exact ⟨⟨w1, w2⟩, ih w3 (by omega)⟩

/-- Writing a byte keeps the canonical form. -/
theorem write_wf {m : Mem} {x : Nat} {v : Byte} (w : m.wf = true) : (m.write x v).wf = true :=
  write_wfFrom w (by omega)

/-- Writing bytes keeps the canonical form. -/
theorem writeN_wf {bs : List Byte} {m : Mem} {x : Nat} (w : m.wf = true) : (m.writeN x bs).wf = true := by
  induction bs generalizing m x with
  | nil => exact w
  | cons b bs ih => exact ih (write_wf w)

theorem filter_wfFrom {m : Mem} {lo : Nat} (p : Host.Cell → Bool) (w : wfFrom lo m = true) :
    wfFrom lo (m.filter p) = true := by
  induction m generalizing lo with
  | nil => rfl
  | cons c rest ih =>
    obtain ⟨a, b⟩ := c
    simp only [wfFrom, Bool.and_eq_true, decide_eq_true_eq] at w
    obtain ⟨⟨w1, w2⟩, w3⟩ := w
    by_cases hp : p (a, b) = true
    · simp only [List.filter_cons, hp, if_true, wfFrom, Bool.and_eq_true, decide_eq_true_eq]
      exact ⟨⟨w1, w2⟩, ih w3⟩
    · simp only [List.filter_cons, hp]
      exact ih (wfFrom_mono (by omega) w3)

/-- Zeroing a range keeps the canonical form. -/
theorem clear_wf {m : Mem} {lo n : Nat} (w : m.wf = true) : (m.clear lo n).wf = true := filter_wfFrom _ w

/-- A byte read after it is written is the byte written. -/
theorem read_write_self {m : Mem} {x : Nat} {v : Byte} (w : m.wf = true) : (m.write x v).read x = v := by
  have key : ∀ {m : Mem} {lo : Nat}, wfFrom lo m = true → read (write m x v) x = v := by
    intro m
    induction m with
    | nil => intro lo _; by_cases hv : v = unlisted <;> simp [write, read, hv]
    | cons c rest ih =>
      intro lo w
      obtain ⟨a, b⟩ := c
      simp only [wfFrom, Bool.and_eq_true, decide_eq_true_eq] at w
      by_cases hx : x < a
      · by_cases hv : v = unlisted
        · simp [write, hx, hv, read, Nat.ne_of_lt hx]
          exact read_below w.2 (by omega)
        · simp [write, hx, hv, read]
      · by_cases he : x = a
        · subst he
          by_cases hv : v = unlisted
          · simp [write, hv]
            exact read_below w.2 (by omega)
          · simp [write, hv, read]
        · simp [write, hx, he, read]
          exact ih w.2
  exact key w

/-- Writing a byte leaves every other byte as it was. -/
theorem read_write_ne {m : Mem} {x y : Nat} {v : Byte} (h : y ≠ x) : (m.write x v).read y = m.read y := by
  induction m with
  | nil => by_cases hv : v = unlisted <;> simp [write, read, hv, h]
  | cons c rest ih =>
    obtain ⟨a, b⟩ := c
    by_cases hx : x < a
    · by_cases hv : v = unlisted <;> simp [write, hx, hv, read, h]
    · by_cases he : x = a
      · subst he; by_cases hv : v = unlisted <;> simp [write, hv, read, h]
      · simp only [write, if_neg hx, if_neg he, read, ih]

/-- Writing bytes leaves every byte outside them as it was. -/
theorem read_writeN_out {bs : List Byte} {m : Mem} {x y : Nat} (h : y < x ∨ x + bs.length ≤ y) :
    (m.writeN x bs).read y = m.read y := by
  induction bs generalizing m x with
  | nil => rfl
  | cons b bs ih =>
    simp only [List.length_cons] at h
    rw [writeN, ih (by omega), read_write_ne (by omega)]

/-- A byte read after bytes are written over it is the one written. -/
theorem read_writeN_in {bs : List Byte} {m : Mem} {x i : Nat} (w : m.wf = true) (h : i < bs.length) :
    (m.writeN x bs).read (x + i) = bs[i] := by
  induction bs generalizing m x i with
  | nil => simp at h
  | cons b bs ih =>
    cases i with
    | zero => rw [writeN, read_writeN_out (by omega)]; simpa using read_write_self w
    | succ i =>
      have := ih (m := m.write x b) (x := x + 1) (i := i) (write_wf w) (by simpa using h)
      simpa [writeN, Nat.add_assoc, Nat.add_comm 1 i] using this

end Mem

theorem Lanes.get_ofFn (f : Nat → Word32) (l : Nat) (h : l < 32) : (Lanes.ofFn f).get l = f l := by
  simp [Lanes.get, Lanes.ofFn, Array.getD, h]

end Sys2Proof.Machine
end

