-- ==== Sys2Proof/Laws/Group.lean ====
section
/-! SUPPORT. Laws of the operations on one group: what each changes, field by field, and what it leaves. -/

namespace Sys2Proof.Machine

theorem mem_upFrom {x lo n : Nat} : x ∈ upFrom lo n ↔ lo ≤ x ∧ x < lo + n := by
  induction n generalizing lo with
  | zero => simp [upFrom]
  | succ n ih => simp only [upFrom, List.mem_cons, ih]; omega

namespace Group

/-- `free` changes the vector registers and what is in flight, nothing else. -/
theorem free_shape (g : Group) (r : Nat) : ∃ v fl, g.free r = { g with vregs := v, inflight := fl } := by
  unfold free
  split
  · exact ⟨_, _, rfl⟩
  · split
    · exact ⟨_, _, rfl⟩
    · exact ⟨_, _, rfl⟩

theorem freeAll_shape (g : Group) (rs : List Nat) : ∃ v fl, g.freeAll rs = { g with vregs := v, inflight := fl } := by
  induction rs generalizing g with
  | nil => exact ⟨_, _, rfl⟩
  | cons r rs ih =>
    obtain ⟨v, fl, h⟩ := free_shape g r
    obtain ⟨v', fl', h'⟩ := ih (g.free r)
    refine ⟨v', fl', h'.trans ?_⟩
    rw [h]

/-- A register that `free` does not name stays as it was. -/
theorem free_vregs_ne {g : Group} {r r' : Nat} (h : r' ≠ r) : aget r' (g.free r).vregs = aget r' g.vregs := by
  unfold free
  split
  · rfl
  · split
    · exact aget_aput_ne h _ _
    · exact aget_adel_ne h _

theorem freeAll_vregs {g : Group} {rs : List Nat} {r : Nat} (h : r ∉ rs) :
    aget r (g.freeAll rs).vregs = aget r g.vregs := by
  induction rs generalizing g with
  | nil => rfl
  | cons x rs ih =>
    simp only [List.mem_cons, not_or] at h
    exact (ih h.2).trans (free_vregs_ne h.1)

@[simp] theorem freeAll_g (g : Group) (rs : List Nat) : (g.freeAll rs).g = g.g := by
  obtain ⟨v, fl, h⟩ := freeAll_shape g rs; rw [h]
@[simp] theorem freeAll_preds (g : Group) (rs : List Nat) : (g.freeAll rs).preds = g.preds := by
  obtain ⟨v, fl, h⟩ := freeAll_shape g rs; rw [h]
@[simp] theorem freeAll_flags (g : Group) (rs : List Nat) : (g.freeAll rs).flags = g.flags := by
  obtain ⟨v, fl, h⟩ := freeAll_shape g rs; rw [h]
@[simp] theorem freeAll_paths (g : Group) (rs : List Nat) : (g.freeAll rs).paths = g.paths := by
  obtain ⟨v, fl, h⟩ := freeAll_shape g rs; rw [h]
@[simp] theorem freeAll_em (g : Group) (rs : List Nat) : (g.freeAll rs).em = g.em := by
  obtain ⟨v, fl, h⟩ := freeAll_shape g rs; rw [h]
@[simp] theorem freeAll_nil (g : Group) : g.freeAll [] = g := rfl

/-- `writeVec` changes the vector registers alone. -/
theorem writeVec_shape (g : Group) (r : Nat) (m : Mask) (val : Nat → Nat) (u : Bool) (n : Nat) :
    ∃ v, g.writeVec r m val u n = { g with vregs := v } := by
  induction n generalizing g r val with
  | zero => exact ⟨_, rfl⟩
  | succ n ih =>
    obtain ⟨v, h⟩ := ih (g.writeReg r m (Lanes.ofFn fun l => BitVec.ofNat 32 (val l)) u) (r + 1) (fun l => val l / 2 ^ 32)
    exact ⟨v, h⟩

theorem writeVec_vregs_out {g : Group} {r : Nat} {m : Mask} {val : Nat → Nat} {u : Bool} {n x : Nat}
    (h : x < r ∨ r + n ≤ x) : aget x (g.writeVec r m val u n).vregs = aget x g.vregs := by
  induction n generalizing g r val with
  | zero => rfl
  | succ n ih =>
    rw [writeVec, ih (by omega)]
    exact aget_aput_ne (by omega) _ _

theorem lanesOf_writeReg_self (g : Group) (r : Nat) (m : Mask) (v : Lanes) (u : Bool) :
    (g.writeReg r m v u).lanesOf r = Lanes.merge m v (g.lanesOf r) := by
  simp [lanesOf, writeReg]

theorem lanesOf_writeReg_ne {g : Group} {r x : Nat} (h : x ≠ r) (m : Mask) (v : Lanes) (u : Bool) :
    (g.writeReg r m v u).lanesOf x = g.lanesOf x := by
  simp [lanesOf, writeReg, aget_aput_ne h]

/-- Register `r + i` of a write of `n` registers takes word `i` of the value in the lanes of the mask and keeps the others. -/
theorem lanesOf_writeVec {g : Group} {r : Nat} {m : Mask} {val : Nat → Nat} {u : Bool} {n i l : Nat} (hi : i < n)
    (hl : l < 32) :
    ((g.writeVec r m val u n).lanesOf (r + i)).get l =
      if m.getLsbD l then BitVec.ofNat 32 (val l / 2 ^ (32 * i)) else (g.lanesOf (r + i)).get l := by
  induction n generalizing g r val i with
  | zero => omega
  | succ n ih =>
    rw [writeVec]
    cases i with
    | zero =>
      have : aget (r + 0) ((g.writeReg r m (Lanes.ofFn fun l => BitVec.ofNat 32 (val l)) u).writeVec (r + 1) m
          (fun l => val l / 2 ^ 32) u n).vregs =
          aget (r + 0) (g.writeReg r m (Lanes.ofFn fun l => BitVec.ofNat 32 (val l)) u).vregs :=
        writeVec_vregs_out (by omega)
      rw [lanesOf, this, ← lanesOf, Nat.add_zero, lanesOf_writeReg_self]
      simp [Lanes.merge, Lanes.get_ofFn _ _ hl]
    | succ i =>
      have := ih (g := g.writeReg r m (Lanes.ofFn fun l => BitVec.ofNat 32 (val l)) u) (r := r + 1)
        (val := fun l => val l / 2 ^ 32) (i := i) (by omega)
      rw [show r + (i + 1) = r + 1 + i by omega, this, lanesOf_writeReg_ne (by omega)]
      rw [Nat.div_div_eq_div_mul, ← Nat.pow_add, show 32 + 32 * i = 32 * (i + 1) by omega]

@[simp] theorem note_vregs (g old : Group) (rs : List Reg) (n : Nat) : (g.note old rs n).vregs = g.vregs := rfl
@[simp] theorem note_g (g old : Group) (rs : List Reg) (n : Nat) : (g.note old rs n).g = g.g := rfl
@[simp] theorem note_preds (g old : Group) (rs : List Reg) (n : Nat) : (g.note old rs n).preds = g.preds := rfl
@[simp] theorem note_flags (g old : Group) (rs : List Reg) (n : Nat) : (g.note old rs n).flags = g.flags := rfl
@[simp] theorem note_em (g old : Group) (rs : List Reg) (n : Nat) : (g.note old rs n).em = g.em := rfl
@[simp] theorem note_paths (g old : Group) (rs : List Reg) (n : Nat) : (g.note old rs n).paths = g.paths := rfl

@[simp] theorem raise_flags (g : Group) (fl : FlagSet) : (g.raise fl).flags = g.flags ||| fl := rfl
@[simp] theorem raise_vregs (g : Group) (fl : FlagSet) : (g.raise fl).vregs = g.vregs := rfl
@[simp] theorem raise_g (g : Group) (fl : FlagSet) : (g.raise fl).g = g.g := rfl
@[simp] theorem raise_preds (g : Group) (fl : FlagSet) : (g.raise fl).preds = g.preds := rfl

/-- A uniform register after a write of one. -/
theorem writeUni_getD (g : Group) (r x : Nat) (w : Word64) :
    (g.writeUni r w).g.toArray.getD x 0 = if x = r ∧ r < 64 then w else g.g.toArray.getD x 0 := by
  simp only [writeUni, Vector.toArray_setIfInBounds, Array.getD_eq_getD_getElem?, Array.getElem?_setIfInBounds]
  by_cases h : r = x
  · subst h
    by_cases hr : r < 64 <;> simp [hr]
  · simp [h, Ne.symm h]

/-- A predicate after a write of the lanes of a mask. -/
theorem writePred_getD (g : Group) (r x : Nat) (m v : Mask) :
    (g.writePred r m v).preds.toArray.getD x 0 =
      if x = r ∧ r < 7 then (v &&& m) ||| (g.preds.toArray.getD r 0 &&& ~~~m) else g.preds.toArray.getD x 0 := by
  simp only [writePred, Vector.toArray_setIfInBounds, Array.getD_eq_getD_getElem?, Array.getElem?_setIfInBounds]
  by_cases h : r = x
  · subst h
    by_cases hr : r < 7 <;> simp [hr]
  · simp [h]
    intro hx; exact absurd hx.symm h

theorem path_setPath_self {g : Group} {i : Nat} (h : i < 8) (p : Option Path) : (g.setPath i p).path i = p := by
  simp [path, setPath, h]

theorem path_setPath_ne {g : Group} {i j : Nat} (h : j ≠ i) (p : Option Path) : (g.setPath i p).path j = g.path j := by
  simp only [path, setPath, Vector.getElem?_toList, Vector.getElem?_setIfInBounds_ne (Ne.symm h)]

/-- A path that stands in the table has an index below eight. -/
theorem path_lt {g : Group} {i : Nat} {p : Path} (h : g.path i = some p) : i < 8 := by
  apply Decidable.byContradiction
  intro hn
  rw [path, List.getElem?_eq_none (by simpa using hn)] at h
  cases h

end Group

end Sys2Proof.Machine
end

