-- ==== Sys2Proof/Laws/Issue.lean ====
section
/-! SUPPORT. Laws of issuing and retiring: who runs an instruction, what retiring changes, what a fusion changes. -/

namespace Sys2Proof.Machine

/-! Who runs an instruction -/

section

variable {c : PathCtx} {q : SeatCtx} {opc fn : Nat} {f : Fields} {k : PathCtx → Out} {k' : SeatCtx → Out}

theorem onPath_of (h : c.Issues) : onPath c.s opc fn f k = k c := by
  simp [onPath, dispatch, h.1, h.2]

theorem onBoth_of (h : c.Issues) : onBoth c.s opc fn f k k' = k c := by
  simp [onBoth, dispatch, h.1, h.2]

theorem onBoth_seat (h : q.Issues) : onBoth q.s opc fn f k k' = k' q := by
  simp [onBoth, dispatch, h.1, h.2]

theorem onSeat_of (h : q.Issues) : onSeat q.s opc fn f k' = k' q := by
  simp [onSeat, dispatch, h.1, h.2]

theorem onPrivileged_of (h : c.Issues) (hp : c.s.privileged c.t = true) : onPrivileged c.s opc fn f k = k c := by
  rw [onPrivileged, onPath_of h, if_pos hp]

/-- Without system privilege a privileged instruction is illegal with cause 6 (R37). -/
theorem onPrivileged_user (h : c.Issues) (hp : c.s.privileged c.t = false) :
    onPrivileged c.s opc fn f k = c.illegal 6 (assemble opc fn f) := by
  rw [onPrivileged, onPath_of h, if_neg (by simp [hp])]

/-- A cox-only form in a group stream is illegal with cause 5 (R38). -/
theorem onSeat_path (h : c.Issues) : onSeat c.s opc fn f k' = c.illegal 5 (assemble opc fn f) := by
  simp [onSeat, dispatch, h.1, h.2]

/-- A group-only form in a cox stream is illegal with cause 5 (R38). -/
theorem onPath_seat (h : q.Issues) :
    onPath q.s opc fn f k = q.fault 0x01 5 (BitVec.allOnes 64) ((assemble opc fn f).setWidth 128) := by
  simp [onPath, dispatch, h.1, h.2]

end

/-- What stands in the state for a context that issues. -/
theorem PathCtx.Issues.found {c : PathCtx} (h : c.Issues) :
    c.s.team c.tid = some c.t ∧ c.t.groups[c.gi]? = some c.g ∧ c.g.path c.pi = some c.p := by
  have h2 := h.2
  unfold State.pathCtx at h2
  cases ht : c.s.team c.tid with
  | none => simp [ht] at h2
  | some t =>
    cases hg : t.groups[c.gi]? with
    | none => simp [ht, hg] at h2
    | some g =>
      cases hp : g.path c.pi with
      | none => simp [ht, hg, hp] at h2
      | some p =>
        simp only [ht, hg, hp, Option.some.injEq] at h2
        rw [← h2]
        exact ⟨rfl, hg, hp⟩

theorem PathCtx.Issues.group {c : PathCtx} (h : c.Issues) : c.s.group c.tid c.gi = some c.g := by
  obtain ⟨ht, hg, -⟩ := h.found
  simp [State.group, ht, hg]

theorem PathCtx.Issues.lt {c : PathCtx} (h : c.Issues) : c.pi < 8 := Group.path_lt h.found.2.2

theorem SeatCtx.Issues.found {c : SeatCtx} (h : c.Issues) : c.s.team c.tid = some c.t ∧ c.t.seat = some c.q := by
  have h2 := h.2
  unfold State.seatCtx at h2
  cases ht : c.s.team c.tid with
  | none => simp [ht] at h2
  | some t =>
    cases hq : t.seat with
    | none => simp [ht, hq] at h2
    | some q =>
      simp only [ht, hq, Option.map_some, Option.some.injEq] at h2
      rw [← h2]
      exact ⟨rfl, hq⟩

/-! Retiring -/

/-- The group of a path that retires: its path moved on, the switch marker obeyed (R73). -/
def PathCtx.retired (c : PathCtx) (f : Fields) (g : Group) (pc : VAddr) : Group :=
  { g.setPath c.pi (c.at_ pc) with held := g.held || (f.sw && !g.inflight.isEmpty) }

theorem PathCtx.retireAt_eq (c : PathCtx) (f : Fields) (g : Group) (pc : VAddr) :
    c.retireAt f g pc = .next (c.done (c.retired f g pc)) := rfl

theorem PathCtx.retire_eq (c : PathCtx) (f : Fields) (g : Group) :
    c.retire f g = .next (c.done (c.retired f g (nextSlot c.p.pc))) := rfl

theorem PathCtx.retireOn_eq (c : PathCtx) (s : State) (f : Fields) (g : Group) (h : s.clock = c.s.clock) :
    c.retireOn s f g = .next (c.doneIn s (c.retired f g (nextSlot c.p.pc))) := by
  simp only [PathCtx.retireOn, PathCtx.retire, PathCtx.retireAt, PathCtx.doneIn, State.withGroup, PathCtx.retired,
    PathCtx.at_, h, Group.setPath, Group.marked]

theorem PathCtx.retired_goes {c : PathCtx} (h : c.Issues) (f : Fields) (g : Group) (pc : VAddr) :
    (c.retired f g pc).path c.pi = c.at_ pc := Group.path_setPath_self h.lt _

@[simp] theorem PathCtx.retired_lanesOf (c : PathCtx) (f : Fields) (g : Group) (pc : VAddr) (r : Nat) :
    (c.retired f g pc).lanesOf r = g.lanesOf r := rfl

@[simp] theorem PathCtx.retired_uniOf (c : PathCtx) (f : Fields) (g : Group) (pc : VAddr) (r : Nat) :
    (c.retired f g pc).uniOf r = g.uniOf r := rfl

@[simp] theorem PathCtx.retired_predOf (c : PathCtx) (f : Fields) (g : Group) (pc : VAddr) (n : Nat) :
    (c.retired f g pc).predOf n = g.predOf n := rfl

@[simp] theorem PathCtx.retired_flags (c : PathCtx) (f : Fields) (g : Group) (pc : VAddr) :
    (c.retired f g pc).flags = g.flags := rfl

/-- A group frame before the path moves on is one after it has. -/
theorem PathCtx.retired_frame {c : PathCtx} {f : Fields} {g : Group} {pc : VAddr} {vs gs ps : List Nat} {fl : FlagSet}
    (h : c.g.Frame g c.pi vs gs ps fl) : c.g.Frame (c.retired f g pc) c.pi vs gs ps fl where
  vregs := h.vregs
  uniforms := h.uniforms
  predicates := h.predicates
  flags := h.flags
  paths j hj := (Group.path_setPath_ne hj _).trans (h.paths j hj)
  rest := by
    obtain ⟨vr, un, pr, fg, pa, inf, hd, e⟩ := h.rest
    clear h
    subst e
    exact ⟨vr, un, pr, fg, pa.setIfInBounds c.pi (c.at_ pc), inf, _, rfl⟩

/-- States with equal memories, lines and granules read the same. -/
theorem SameMemory.of_eq {s t : State} (h1 : t.hbm = s.hbm) (h2 : t.hostMem = s.hostMem) (h3 : t.scratch = s.scratch)
    (h4 : t.vault = s.vault) (h5 : t.lines = s.lines)
    (h6 : ∀ crew, (t.crew crew).granules = (s.crew crew).granules) : SameMemory s t where
  hbm _ := by rw [h1]
  host _ := by rw [h2]
  scratch _ := by rw [h3]
  vault _ := by rw [h4]
  line _ := by rw [h5]
  granules := h6
  physical pa h := by
    unfold State.physRead State.memByte
    rw [h5, h2, h1]
    obtain h | h := h
    · rw [if_neg (by omega), if_neg (by omega), if_neg (by omega), if_neg (by omega)]
    · rw [if_pos h, if_pos h]

theorem SameMemory.trans {s t u : State} (h : SameMemory s t) (k : SameMemory t u) : SameMemory s u where
  hbm pa := (k.hbm pa).trans (h.hbm pa)
  host pa := (k.host pa).trans (h.host pa)
  scratch x := (k.scratch x).trans (h.scratch x)
  vault x := (k.vault x).trans (h.vault x)
  line x := (k.line x).trans (h.line x)
  granules crew := (k.granules crew).trans (h.granules crew)
  physical pa w := (k.physical pa w).trans (h.physical pa w)

theorem withGroup_memory (s : State) (c : PathCtx) (g : Group) : SameMemory s (s.withGroup c g) :=
  .of_eq rfl rfl rfl rfl rfl fun _ => rfl

/-! Fusion -/

theorem mem_valid {g : Group} {e : Nat × Path} : e ∈ g.valid ↔ g.path e.1 = some e.2 := by
  simp only [Group.valid, List.mem_filterMap, List.mem_range, Option.map_eq_some_iff]
  constructor
  · rintro ⟨i, _, p, h, rfl⟩; exact h
  · intro h; exact ⟨e.1, Group.path_lt h, e.2, h, rfl⟩

/-- A path that meets none is not fused. -/
theorem fuse_apart {s : State} {tid gi pi : Nat} {g : Group} (hg : s.group tid gi = some g) (ha : g.Apart pi) :
    s.fuse tid gi pi = s := by
  unfold State.fuse State.fuseFrom
  cases ht : s.team tid with
  | none => rfl
  | some t =>
    simp only [hg]
    cases hp : g.path pi with
    | none => rfl
    | some p =>
      dsimp only
      split
      · rfl
      · rename_i j q hf
        have hm := List.mem_of_find?_eq_some hf
        have hc := List.find?_some hf
        simp only [Bool.and_eq_true, bne_iff_ne, ne_eq, beq_iff_eq] at hc
        exact absurd hc.1.1.2 (ha p hp j q hc.1.1.1 (mem_valid.mp hm))

/-- The team of a state after one of its groups is set. -/
theorem team_setGroup (s : State) (tid gi : Nat) (g : Group) :
    (s.setGroup tid gi g).team tid =
      (s.team tid).map fun t => { t with groups := t.groups.modify gi fun _ => g } := aget_amod_self ..

/-- The group that is set. -/
theorem group_setGroup {s : State} {tid gi : Nat} {g0 : Group} (h : s.group tid gi = some g0) (g : Group) :
    (s.setGroup tid gi g).group tid gi = some g := by
  unfold State.group at h ⊢
  rw [team_setGroup]
  cases ht : s.team tid with
  | none => simp [ht] at h
  | some t =>
    simp only [ht, Option.bind_some] at h
    simp [h]

theorem withGroup_group {c : PathCtx} {s : State} (h : s.group c.tid c.gi = some c.g) (g : Group) :
    (s.withGroup c g).group c.tid c.gi = some g := group_setGroup (s := { s with fresh := s.fresh + 2 }) h g

theorem withGroup_team {c : PathCtx} {s : State} (h : s.team c.tid = some c.t) (g : Group) :
    (s.withGroup c g).team c.tid = some { c.t with groups := c.t.groups.modify c.gi fun _ => g } := by
  rw [State.withGroup, team_setGroup]
  have : ({ s with fresh := s.fresh + 2 } : State).team c.tid = some c.t := h
  rw [this, Option.map_some]

/-- Tracing that is off writes nothing. -/
theorem emit_off {s s0 : State} {crew die bit : Nat} (h : TraceOff s0 crew die bit) (hc : s.crews = s0.crews)
    (first : Nat → BitVec 256) (offs : List (BitVec 256)) : s.emit crew die bit first offs = s := by
  unfold State.emit State.crew
  rw [hc, ← State.crew]
  cases hr : aget die (s0.crew crew).rings with
  | none => rfl
  | some r =>
    have := h r hr
    simp only [Bool.and_eq_false_iff] at this
    refine if_neg ?_
    rintro ⟨h1, h2⟩
    rcases this with h | h <;> simp_all

/-- One step of fusion (R138): nothing, or two paths of one group become one in the lower entry, which is traced, and the path that
remains fuses on. -/
theorem fuseFrom_cases (s : State) (tid gi pi n : Nat) :
    s.fuseFrom tid gi pi (n + 1) = s ∨
    ∃ t g p j q first, s.team tid = some t ∧ s.group tid gi = some g ∧ g.path pi = some p ∧ j ≠ pi ∧
      g.path j = some q ∧ q.pc = p.pc ∧ q.lk = p.lk ∧
      s.fuseFrom tid gi pi (n + 1) =
        ((s.setGroup tid gi (g.fusePair pi j p q s.clock)).emit t.crew (dieOf t.core) 0 first []).fuseFrom tid gi (min pi j) n := by
  rw [State.fuseFrom]
  cases ht : s.team tid with
  | none => exact .inl rfl
  | some t =>
    cases hg : s.group tid gi with
    | none => exact .inl rfl
    | some g =>
      dsimp only
      cases hp : g.path pi with
      | none => exact .inl rfl
      | some p =>
        dsimp only
        split
        · exact .inl rfl
        · rename_i j q hf
          split
          · have hm := List.mem_of_find?_eq_some hf
            have hc := List.find?_some hf
            simp only [Bool.and_eq_true, bne_iff_ne, ne_eq, beq_iff_eq] at hc
            exact .inr ⟨t, g, p, j, q, _, rfl, rfl, hp, hc.1.1.1, mem_valid.mp hm, hc.1.1.2, hc.1.2, rfl⟩
          · exact .inl rfl

/-- Fusions that are not traced change no byte of memory. -/
theorem fuseFrom_memory {s0 : State} {crew die : Nat} (ho : TraceOff s0 crew die 0) (tid gi n : Nat) :
    ∀ (s : State) (pi : Nat), s.crews = s0.crews → (∀ t, s.team tid = some t → t.crew = crew ∧ dieOf t.core = die) →
      SameMemory s (s.fuseFrom tid gi pi n) := by
  induction n with
  | zero => exact fun s _ _ _ => .of_eq rfl rfl rfl rfl rfl fun _ => rfl
  | succ n ih =>
    intro s pi hc ht
    rcases fuseFrom_cases s tid gi pi n with e | ⟨t, g, p, j, q, first, h, -, -, -, -, -, -, e⟩
    · rw [e]; exact .of_eq rfl rfl rfl rfl rfl fun _ => rfl
    · obtain ⟨rfl, rfl⟩ := ht t h
      rw [e, emit_off (s := s.setGroup tid gi _) ho hc]
      have hs : SameMemory s (s.setGroup tid gi (g.fusePair pi j p q s.clock)) := .of_eq rfl rfl rfl rfl rfl fun _ => rfl
      refine hs.trans (ih (s.setGroup tid gi _) (min pi j) hc fun u hu => ?_)
      rw [team_setGroup, h] at hu
      cases hu
      exact ⟨rfl, rfl⟩

/-- A quiet retirement changes no byte of memory. -/
theorem done_memory {c : PathCtx} {g : Group} (h : c.Issues) (hq : c.Quiet g) : SameMemory c.s (c.done g) := by
  have hw := withGroup_memory c.s c g
  rcases hq with ha | ho
  · rw [PathCtx.done, PathCtx.doneIn, fuse_apart (withGroup_group h.group g) ha]
    exact hw
  · refine hw.trans (fuseFrom_memory ho _ _ _ _ _ rfl fun t ht => ?_)
    rw [withGroup_team h.found.1] at ht
    cases ht
    exact ⟨rfl, rfl⟩

/-- What a path keeps that retires with a group whose frame is known. -/
theorem PathCtx.retired_kept {c : PathCtx} {f : Fields} {g : Group} {pc : VAddr} {vs gs ps : List Nat} {fl : FlagSet}
    (h : c.Issues) (hf : c.g.Frame g c.pi vs gs ps fl) : c.Kept (c.retired f g pc) pc vs gs ps fl where
  goes := c.retired_goes h f g pc
  frame := c.retired_frame hf
  memory hq := done_memory h hq

/-! Frames of the writes -/

theorem Group.Frame.refl (g : Group) (pi : Nat) (vs gs ps : List Nat) (fl : FlagSet) : g.Frame g pi vs gs ps fl where
  vregs _ _ := rfl
  uniforms _ _ := rfl
  predicates _ _ := rfl
  flags := ⟨0, by simp⟩
  paths _ _ := rfl
  rest := ⟨_, _, _, _, _, _, _, rfl⟩

section

variable {g g' : Group} {pi : Nat} {vs gs ps : List Nat} {fl : FlagSet}

theorem Group.Frame.note (h : g.Frame g' pi vs gs ps fl) (old : Group) (rs : List Reg) (n : Nat) :
    g.Frame (g'.note old rs n) pi vs gs ps fl where
  vregs := h.vregs
  uniforms := h.uniforms
  predicates := h.predicates
  flags := h.flags
  paths := h.paths
  rest := by
    obtain ⟨vr, un, pr, fg, pa, inf, hd, e⟩ := h.rest
    clear h; subst e
    exact ⟨vr, un, pr, fg, pa, _, hd, rfl⟩

theorem Group.Frame.raise (h : g.Frame g' pi vs gs ps fl) {x : FlagSet} (hx : x &&& ~~~fl = 0) :
    g.Frame (g'.raise x) pi vs gs ps fl where
  vregs := h.vregs
  uniforms := h.uniforms
  predicates := h.predicates
  flags := by
    obtain ⟨y, e, hy⟩ := h.flags
    refine ⟨y ||| x, ?_, ?_⟩
    · rw [Group.raise_flags, e, BitVec.or_assoc]
    · ext i hi
      have h1 := congrArg (fun v : BitVec 16 => v[i]) hy
      have h2 := congrArg (fun v : BitVec 16 => v[i]) hx
      simp at h1 h2 ⊢
      exact fun h => h.elim h1 h2
  paths := h.paths
  rest := by
    obtain ⟨vr, un, pr, fg, pa, inf, hd, e⟩ := h.rest
    clear h; subst e
    exact ⟨vr, un, pr, _, pa, inf, hd, rfl⟩

theorem Group.Frame.freeAll (h : g.Frame g' pi vs gs ps fl) {rs : List Nat} (hr : ∀ r ∈ rs, r ∈ vs) :
    g.Frame (g'.freeAll rs) pi vs gs ps fl where
  vregs r hv := (Group.freeAll_vregs fun hm => hv (hr r hm)).trans (h.vregs r hv)
  uniforms := by simpa [Group.uniOf] using h.uniforms
  predicates := by simpa [Group.predOf] using h.predicates
  flags := by simpa using h.flags
  paths := by simpa [Group.path] using h.paths
  rest := by
    obtain ⟨v, i, e'⟩ := g'.freeAll_shape rs
    obtain ⟨vr, un, pr, fg, pa, inf, hd, e⟩ := h.rest
    clear h; subst e
    exact ⟨v, un, pr, fg, pa, i, hd, e'⟩

theorem Group.Frame.writeVec (h : g.Frame g' pi vs gs ps fl) {r n : Nat} {m : Mask} {val : Nat → Nat} {u : Bool}
    (hr : ∀ x, r ≤ x → x < r + n → x ∈ vs) : g.Frame (g'.writeVec r m val u n) pi vs gs ps fl := by
  obtain ⟨v, e'⟩ := g'.writeVec_shape r m val u n
  have hv : ∀ x, x ∉ vs → aget x (g'.writeVec r m val u n).vregs = aget x g.vregs := fun x hx => by
    rw [Group.writeVec_vregs_out (by
      by_cases h1 : x < r
      · exact .inl h1
      · exact .inr (Nat.not_lt.mp fun h2 => hx (hr x (by omega) h2)))]
    exact h.vregs x hx
  rw [e'] at hv ⊢
  exact
    { vregs := hv, uniforms := h.uniforms, predicates := h.predicates, flags := h.flags, paths := h.paths
      rest := by
        obtain ⟨vr, un, pr, fg, pa, inf, hd, e⟩ := h.rest
        clear h hv e'; subst e
        exact ⟨v, un, pr, fg, pa, inf, hd, rfl⟩ }

theorem Group.Frame.writeUni (h : g.Frame g' pi vs gs ps fl) {r : Nat} {w : Word64} (hr : r ∈ gs) :
    g.Frame (g'.writeUni r w) pi vs gs ps fl where
  vregs := h.vregs
  uniforms x hx := by
    rw [Group.uniOf, Group.writeUni_getD, if_neg (by rintro ⟨rfl, -⟩; exact hx hr)]
    exact h.uniforms x hx
  predicates := h.predicates
  flags := h.flags
  paths := h.paths
  rest := by
    obtain ⟨vr, un, pr, fg, pa, inf, hd, e⟩ := h.rest
    clear h; subst e
    exact ⟨vr, _, pr, fg, pa, inf, hd, rfl⟩

theorem Group.Frame.writePred (h : g.Frame g' pi vs gs ps fl) {n : Nat} {m v : Mask} (hn : n ∈ ps) :
    g.Frame (g'.writePred n m v) pi vs gs ps fl where
  vregs := h.vregs
  uniforms := h.uniforms
  predicates x hx := by
    rw [Group.predOf, Group.writePred_getD, if_neg (by rintro ⟨rfl, -⟩; exact hx hn)]
    exact h.predicates x hx
  flags := h.flags
  paths := h.paths
  rest := by
    obtain ⟨vr, un, pr, fg, pa, inf, hd, e⟩ := h.rest
    clear h; subst e
    exact ⟨vr, un, _, fg, pa, inf, hd, rfl⟩

end

end Sys2Proof.Machine
end

