-- ==== Sys2Proof/Laws/Operands.lean ====
section
/-! SUPPORT. Laws of the operand forms: what a lane-wise, a uniform and a predicate write leave, and the results they write. -/

namespace Sys2Proof.Machine

/-! Flags -/

theorem or_within {x y fl : FlagSet} (hx : x &&& ~~~fl = 0) (hy : y &&& ~~~fl = 0) : (x ||| y) &&& ~~~fl = 0 := by
  ext i hi
  have h1 := congrArg (fun v : BitVec 16 => v[i]) hx
  have h2 := congrArg (fun v : BitVec 16 => v[i]) hy
  simp at h1 h2 ⊢
  exact fun h => h.elim h1 h2

theorem zero_within (fl : FlagSet) : (0 : FlagSet) &&& ~~~fl = 0 := by simp

theorem foldl_within {α : Type} {fl : FlagSet} (k : α → FlagSet) (h : ∀ a, k a &&& ~~~fl = 0) (l : List α) (x : FlagSet)
    (hx : x &&& ~~~fl = 0) : l.foldl (fun acc a => acc ||| k a) x &&& ~~~fl = 0 := by
  induction l generalizing x with
  | nil => exact hx
  | cons a l ih => exact ih _ (or_within hx (h a))

/-- The flags of a mask's lanes are among those that the lanes can raise. -/
theorem flagsOf_within {fl : FlagSet} {m : Mask} {rs : List (Int × FlagSet)} (h : ∀ r ∈ rs, r.2 &&& ~~~fl = 0) :
    flagsOf m rs &&& ~~~fl = 0 := by
  refine foldl_within (fun l => (rs.getD l (0, 0)).2) (fun l => ?_) _ _ (zero_within fl)
  rw [List.getD_eq_getElem?_getD]
  cases hl : rs[l]? with
  | none => exact zero_within fl
  | some r => exact h r (List.mem_of_getElem? hl)

theorem emod_toNat_lt (x : Int) (k : Nat) : (x % 2 ^ k).toNat < 2 ^ k := by
  have hp : (0 : Int) < 2 ^ k := Int.pow_pos (by decide)
  rw [Int.toNat_lt (Int.emod_nonneg x (Int.ne_of_gt hp)), Int.natCast_pow]
  exact Int.emod_lt_of_pos x hp

/-! Lane numbers -/

namespace Group

theorem laneNum_congr {g g' : Group} {r l n : Nat} (h : ∀ x, r ≤ x → x < r + n → (g'.lanesOf x).get l = (g.lanesOf x).get l) :
    g'.laneNum r l n = g.laneNum r l n := by
  induction n generalizing r with
  | zero => rfl
  | succ n ih => rw [laneNum, laneNum, h r (by omega) (by omega), ih fun x h1 h2 => h x (by omega) (by omega)]

/-- A lane of the mask holds the value that was written. -/
theorem laneNum_writeVec {g : Group} {r l n : Nat} {m : Mask} {val : Nat → Nat} {u : Bool} (hl : l < 32)
    (hm : m.getLsbD l = true) : (g.writeVec r m val u n).laneNum r l n = val l % 2 ^ (32 * n) := by
  induction n generalizing g r val with
  | zero => simp [laneNum, Nat.mod_one]
  | succ n ih =>
    have h0 := lanesOf_writeVec (g := g) (r := r) (m := m) (val := val) (u := u) (n := n + 1) (i := 0) (by omega) hl
    rw [if_pos hm] at h0
    rw [laneNum, show (g.writeVec r m val u (n + 1)).lanesOf r = (g.writeVec r m val u (n + 1)).lanesOf (r + 0) from rfl, h0,
      writeVec, ih, BitVec.toNat_ofNat, Nat.mul_zero, Nat.pow_zero, Nat.div_one,
      Nat.mul_add, Nat.mul_one, Nat.add_comm (32 * n), Nat.pow_add, Nat.mod_mul]

/-- A lane outside the mask holds what it held. -/
theorem lanes_writeVec_out {g : Group} {r l n x : Nat} {m : Mask} {val : Nat → Nat} {u : Bool} (hl : l < 32)
    (hm : m.getLsbD l = false) : ((g.writeVec r m val u n).lanesOf x).get l = (g.lanesOf x).get l := by
  by_cases hx : r ≤ x ∧ x < r + n
  · obtain ⟨i, rfl⟩ := Nat.exists_eq_add_of_le hx.1
    rw [lanesOf_writeVec (by omega) hl, if_neg (by simp [hm])]
  · rw [lanesOf, writeVec_vregs_out (by omega), ← lanesOf]

theorem lanesOf_freeAll {g : Group} {rs : List Nat} {r : Nat} (h : r ∉ rs) : (g.freeAll rs).lanesOf r = g.lanesOf r := by
  rw [lanesOf, freeAll_vregs h, ← lanesOf]

@[simp] theorem lanesOf_note (g old : Group) (rs : List Reg) (n r : Nat) : (g.note old rs n).lanesOf r = g.lanesOf r := rfl
@[simp] theorem lanesOf_raise (g : Group) (fl : FlagSet) (r : Nat) : (g.raise fl).lanesOf r = g.lanesOf r := rfl
@[simp] theorem uniOf_note (g old : Group) (rs : List Reg) (n r : Nat) : (g.note old rs n).uniOf r = g.uniOf r := rfl
@[simp] theorem uniOf_raise (g : Group) (fl : FlagSet) (r : Nat) : (g.raise fl).uniOf r = g.uniOf r := rfl
@[simp] theorem predOf_note (g old : Group) (rs : List Reg) (n r : Nat) : (g.note old rs n).predOf r = g.predOf r := rfl
@[simp] theorem predOf_raise (g : Group) (fl : FlagSet) (r : Nat) : (g.raise fl).predOf r = g.predOf r := rfl

@[simp] theorem laneNum_note (g old : Group) (rs : List Reg) (n r l k : Nat) :
    (g.note old rs n).laneNum r l k = g.laneNum r l k := laneNum_congr fun _ _ _ => rfl

@[simp] theorem laneNum_raise (g : Group) (fl : FlagSet) (r l k : Nat) : (g.raise fl).laneNum r l k = g.laneNum r l k :=
  laneNum_congr fun _ _ _ => rfl

end Group

@[simp] theorem PathCtx.retired_laneNum (c : PathCtx) (f : Fields) (g : Group) (pc : VAddr) (r l n : Nat) :
    (c.retired f g pc).laneNum r l n = g.laneNum r l n := Group.laneNum_congr fun _ _ _ => rfl

/-! The three kinds of write -/

section

variable {c : PathCtx} {opc fn : Nat} {f : Fields} {fl : FlagSet}

theorem PathCtx.writeLanes_frame (m : Mask) (srcs : List (BitVec 8 × Nat)) (n : Nat) (val : Nat → Nat) :
    c.g.Frame (c.writeLanes opc fn f m srcs n val) c.pi (lrRegs opc fn f ++ destRun f n) [] [] fl := by
  have h0 := (Group.Frame.refl c.g c.pi (lrRegs opc fn f ++ destRun f n) [] [] fl).freeAll (rs := lrRegs opc fn f)
    fun r hr => List.mem_append_left _ hr
  unfold PathCtx.writeLanes
  cases hd : f.dead with
  | true => exact h0
  | false =>
    refine (h0.writeVec fun x h1 h2 => List.mem_append_right _ ?_).note _ _ _
    rw [destRun, hd]
    exact mem_upFrom.mpr ⟨h1, h2⟩

/-- Where the destination is no live uniform register, `destVec` names the destination registers. -/
theorem destVec_eq {f : Fields} {n : Nat} (hu : isUni f.d = false ∨ f.dead = true) : destVec f n = destRun f n := by
  unfold destVec destRun
  rcases hu with h | h <;> simp [h]

theorem PathCtx.writeLanes_kept (m : Mask) (srcs : List (BitVec 8 × Nat)) (n : Nat) (val : Nat → Nat) :
    c.LanesKept (c.writeLanes opc fn f m srcs n val) m (destKept (lrRegs opc fn f) f n) := by
  intro r hr l hl hm
  simp only [destKept, List.mem_filter, Bool.not_eq_true', List.contains_eq_mem, decide_eq_false_iff_not] at hr
  unfold PathCtx.writeLanes
  cases hd : f.dead with
  | true => simp only [if_true]; rw [Group.lanesOf_freeAll hr.2]
  | false =>
    simp only [Bool.false_eq_true, if_false, Group.lanesOf_note]
    rw [Group.lanes_writeVec_out hl hm, Group.lanesOf_freeAll hr.2]

theorem PathCtx.writeLanes_value {m : Mask} {srcs : List (BitVec 8 × Nat)} {n : Nat} {val : Nat → Nat} {l : Nat}
    (hd : f.dead = false) (hl : l < 32) (hm : m.getLsbD l = true) :
    (c.writeLanes opc fn f m srcs n val).laneNum f.d.toNat l n = val l % 2 ^ (32 * n) := by
  unfold PathCtx.writeLanes
  simp only [hd, Bool.false_eq_true, if_false, Group.laneNum_note]
  exact Group.laneNum_writeVec hl hm

theorem PathCtx.writeUniform_frame (w : Word64) :
    c.g.Frame (c.writeUniform opc fn f w) c.pi (lrRegs opc fn f) (destG f) [] fl := by
  have h0 := (Group.Frame.refl c.g c.pi (lrRegs opc fn f) (destG f) [] fl).freeAll (rs := lrRegs opc fn f) fun r hr => hr
  unfold PathCtx.writeUniform
  cases hd : f.dead with
  | true => exact h0
  | false => exact (h0.writeUni (by simp [destG, hd])).note _ _ _

theorem PathCtx.writeUniform_value {w : Word64} (hd : f.dead = false) :
    (c.writeUniform opc fn f w).uniOf (f.d.toNat - 0xC0) = w := by
  have : f.d.toNat - 0xC0 < 64 := by have := f.d.isLt; omega
  unfold PathCtx.writeUniform
  simp only [hd, Bool.false_eq_true, if_false, Group.uniOf_note]
  rw [Group.uniOf, Group.writeUni_getD, if_pos ⟨rfl, this⟩]

theorem PathCtx.writePredicate_frame (m v : Mask) :
    c.g.Frame (c.writePredicate opc fn f m v) c.pi (lrRegs opc fn f) [] (destPred f) fl := by
  have h0 := (Group.Frame.refl c.g c.pi (lrRegs opc fn f) [] (destPred f) fl).freeAll (rs := lrRegs opc fn f) fun r hr => hr
  unfold PathCtx.writePredicate
  cases hd : f.dead with
  | true => exact h0
  | false => exact (h0.writePred (by simp [destPred, hd])).note _ _ _

theorem PathCtx.writePredicate_value {m v : Mask} (hd : f.dead = false) (hn : f.d.toNat < 7) :
    (c.writePredicate opc fn f m v).predOf f.d.toNat = (v &&& m) ||| (c.g.predOf f.d.toNat &&& ~~~m) := by
  unfold PathCtx.writePredicate
  simp only [hd, Bool.false_eq_true, if_false, Group.predOf_note]
  rw [Group.predOf, Group.writePred_getD, if_pos ⟨rfl, hn⟩, Group.freeAll_preds, ← Group.predOf]

end

/-- A frame holds in a longer list of registers. -/
theorem Group.Frame.mono {g g' : Group} {pi : Nat} {vs gs ps vs' gs' ps' : List Nat} {fl fl' : FlagSet}
    (h : g.Frame g' pi vs gs ps fl) (hv : ∀ r ∈ vs, r ∈ vs') (hg : ∀ r ∈ gs, r ∈ gs') (hp : ∀ r ∈ ps, r ∈ ps')
    (hf : ∀ x : FlagSet, x &&& ~~~fl = 0 → x &&& ~~~fl' = 0) : g.Frame g' pi vs' gs' ps' fl' where
  vregs r hr := h.vregs r fun hm => hr (hv r hm)
  uniforms r hr := h.uniforms r fun hm => hr (hg r hm)
  predicates n hn := h.predicates n fun hm => hn (hp n hm)
  flags := by obtain ⟨x, e, hx⟩ := h.flags; exact ⟨x, e, hf x hx⟩
  paths := h.paths
  rest := h.rest

/-- An instruction that takes no effect keeps everything but what its LR bits free (R79). -/
theorem PathCtx.skipOver_kept {c : PathCtx} (h : c.Issues) (opc fn : Nat) (f : Fields) (fl : FlagSet) :
    ∃ g, c.skipOver opc fn f = .next (c.done g) ∧ c.Kept g (nextSlot c.p.pc) (lrRegs opc fn f) [] [] fl :=
  ⟨_, c.retire_eq f _, PathCtx.retired_kept h ((Group.Frame.refl ..).freeAll fun _ hr => hr)⟩

/-- A vector write that retires: the frame, the lanes kept, the lanes written. -/
theorem PathCtx.writeLanes_done {c : PathCtx} (h : c.Issues) (opc fn : Nat) (f : Fields) (m : Mask)
    (srcs : List (BitVec 8 × Nat)) (n : Nat) (val : Nat → Nat) (fl : FlagSet) :
    ∃ g, c.retire f (c.writeLanes opc fn f m srcs n val) = .next (c.done g) ∧
      c.Kept g (nextSlot c.p.pc) (lrRegs opc fn f ++ destRun f n) [] [] fl ∧
      c.LanesKept g m (destKept (lrRegs opc fn f) f n) ∧
      (f.dead = false → ∀ l < 32, m.getLsbD l = true → g.laneNum f.d.toNat l n = val l % 2 ^ (32 * n)) := by
  refine ⟨_, c.retire_eq f _, PathCtx.retired_kept h (PathCtx.writeLanes_frame ..), fun r hr l hl hm => ?_, fun hd l hl hm => ?_⟩
  · exact PathCtx.writeLanes_kept _ _ _ _ r hr l hl hm
  · rw [PathCtx.retired_laneNum]; exact PathCtx.writeLanes_value hd hl hm

/-- A uniform write that retires. -/
theorem PathCtx.writeUniform_done {c : PathCtx} (h : c.Issues) (opc fn : Nat) (f : Fields) (w : Word64) (fl : FlagSet) :
    ∃ g, c.retire f (c.writeUniform opc fn f w) = .next (c.done g) ∧
      c.Kept g (nextSlot c.p.pc) (lrRegs opc fn f) (destG f) [] fl ∧
      (f.dead = false → g.uniOf (f.d.toNat - 0xC0) = w) :=
  ⟨_, c.retire_eq f _, PathCtx.retired_kept h (PathCtx.writeUniform_frame ..), fun hd => PathCtx.writeUniform_value hd⟩

/-! Lane-wise forms -/

/-- The operands and result of a lane-wise form. -/
def PathCtx.laneResult (c : PathCtx) (f : Fields) (sh : Shape) (op : LaneFn) (l : Nat) : Int × FlagSet :=
  let o := c.operands f sh l
  op l o.1 o.2.1 o.2.2

theorem PathCtx.results_getD {c : PathCtx} {f : Fields} {sh : Shape} {op : LaneFn} {l : Nat} (hl : l < 32) :
    (c.results f sh op).getD l (0, 0) = c.laneResult f sh op l := by
  simp [PathCtx.results, PathCtx.laneResult, List.getD_eq_getElem?_getD, hl]

/-- A lane-wise form completes: it keeps everything but its destination, and writes each lane's result (R93). -/
theorem PathCtx.lanewise_kept {c : PathCtx} (h : c.Issues) {opc fn : Nat} {f : Fields} {sh : Shape}
    {srcs : List (BitVec 8 × Nat)} {op : LaneFn} {fl : FlagSet} (hop : ∀ l a b d, (op l a b d).2 &&& ~~~fl = 0) :
    ∃ g, c.lanewise opc fn f sh srcs op = .next (c.done g) ∧
      c.Kept g (nextSlot c.p.pc) (lrRegs opc fn f ++ destVec f sh.d) (destUni f) [] fl ∧
      c.LanesKept g (c.active f) (destKept (lrRegs opc fn f) f sh.d) ∧
      (f.dead = false → isUni f.d = false → ∀ l < 32, (c.active f).getLsbD l = true →
        g.laneNum f.d.toNat l sh.d = ((c.laneResult f sh op l).1 % 2 ^ (32 * sh.d)).toNat) ∧
      (f.dead = false → isUni f.d = true → c.effect f = true →
        g.uniOf (f.d.toNat - 0xC0) = BitVec.ofInt 64 (c.laneResult f sh op 0).1) := by
  unfold PathCtx.lanewise
  by_cases hu : (isUni f.d && !f.dead) = true
  · rw [if_pos hu]
    have hu1 : isUni f.d = true := by simp_all
    have hk {g : Group} (k : c.Kept g (nextSlot c.p.pc) (lrRegs opc fn f ++ destVec f sh.d) (destUni f) [] fl) :
        c.LanesKept g (c.active f) (destKept (lrRegs opc fn f) f sh.d) := by
      intro r hr l _ _
      simp only [destKept, List.mem_filter, Bool.not_eq_true', List.contains_eq_mem, decide_eq_false_iff_not] at hr
      rw [Group.lanesOf, k.frame.vregs r (by simp [destVec, hu1, hr.2]), ← Group.lanesOf]
    by_cases he : c.effect f = true
    · rw [if_pos he]
      have hd0 : destG f = destUni f := by unfold destG destUni; cases h1 : f.dead <;> simp_all
      have k := PathCtx.retired_kept (f := f) (pc := nextSlot c.p.pc) h ((((PathCtx.writeUniform_frame (c := c) (opc := opc) (fn := fn)
        (f := f) (BitVec.ofInt 64 (op 0 (c.operands f sh 0).1 (c.operands f sh 0).2.1 (c.operands f sh 0).2.2).1)).raise
          (hop 0 (c.operands f sh 0).1 (c.operands f sh 0).2.1 (c.operands f sh 0).2.2)).mono
          (vs' := lrRegs opc fn f ++ destVec f sh.d) (fun r hr => List.mem_append_left _ hr)
          (fun x hx => hd0 ▸ hx) (fun _ h => h) fun _ h => h))
      refine ⟨_, c.retire_eq f _, k, hk k, ?_, fun hd _ _ => ?_⟩
      · intro _ h1; rw [hu1] at h1; cases h1
      · exact PathCtx.writeUniform_value hd
    · rw [if_neg he]
      obtain ⟨g, e, k⟩ := PathCtx.skipOver_kept h opc fn f fl
      have k' : c.Kept g (nextSlot c.p.pc) (lrRegs opc fn f ++ destVec f sh.d) (destUni f) [] fl :=
        ⟨k.goes, k.frame.mono (fun r hr => List.mem_append_left _ hr) (by simp) (by simp) fun _ h => h, k.memory⟩
      refine ⟨g, e, k', hk k', ?_, fun _ _ h => absurd h he⟩
      intro _ h1; rw [hu1] at h1; cases h1
  · rw [if_neg hu]
    have hu' : isUni f.d = false ∨ f.dead = true := by
      cases h1 : isUni f.d <;> cases h2 : f.dead <;> simp_all
    have hfl : flagsOf (c.active f) (c.results f sh op) &&& ~~~fl = 0 := flagsOf_within fun r hr => by
      simp only [PathCtx.results, List.mem_map] at hr
      obtain ⟨l, -, rfl⟩ := hr
      exact hop _ _ _ _
    refine ⟨_, c.retire_eq f _, ?_, ?_, fun hd hn l hl hm => ?_, fun hd hn => by simp_all⟩
    · exact PathCtx.retired_kept h (((PathCtx.writeLanes_frame _ _ _ _).raise hfl).mono (fun _ h => destVec_eq hu' ▸ h)
        (by simp) (fun _ h => h) fun _ h => h)
    · intro r hr l hl hm
      exact PathCtx.writeLanes_kept _ _ _ _ r hr l hl hm
    · simp only [PathCtx.retired_laneNum, Group.laneNum_raise]
      rw [PathCtx.writeLanes_value hd hl hm, PathCtx.results_getD hl, Nat.mod_eq_of_lt]
      exact emod_toNat_lt _ _

/-- The predicate result of a lane-wise form. -/
def PathCtx.predResult (c : PathCtx) (f : Fields) (sh : Shape) (op : Nat → Nat → Nat → Bool × FlagSet) (l : Nat) :
    Bool × FlagSet :=
  let o := c.operands f sh l
  op o.1 o.2.1 0

theorem maskOf_getLsbD (p : Nat → Bool) (l : Nat) (hl : l < 32) : (maskOf p).getLsbD l = p l := by
  have key : ∀ (n : Nat) (acc : Mask), n ≤ 32 →
      ((List.range n).foldl (fun acc i => if p i then acc ||| BitVec.ofNat 32 (2 ^ i) else acc) acc).getLsbD l =
        (acc.getLsbD l || (decide (l < n) && p l)) := by
    intro n
    induction n with
    | zero => intro acc _; simp
    | succ n ih =>
      intro acc hn
      rw [List.range_succ, List.foldl_append, List.foldl_cons, List.foldl_nil]
      have := ih acc (by omega)
      by_cases hp : p n = true
      · rw [if_pos hp, BitVec.getLsbD_or, this, BitVec.getLsbD_ofNat, Nat.testBit_two_pow]
        by_cases hnl : n = l
        · subst hnl; simp [hp, hl]
        · have h1 : decide (n = l) = false := by simp [hnl]
          have h2 : decide (l < n + 1) = decide (l < n) := by simp; omega
          rw [h1, h2]; simp
      · rw [if_neg hp, this]
        by_cases hnl : n = l
        · subst hnl; simp [hp]
        · have h2 : decide (l < n + 1) = decide (l < n) := by simp; omega
          rw [h2]
  have := key 32 0 (by omega)
  rw [maskOf, this]
  simp [hl]

/-- A form that writes a predicate completes and keeps everything else (R102, R127). -/
theorem PathCtx.lanewisePred_kept {c : PathCtx} (h : c.Issues) {opc fn : Nat} {f : Fields} {sh : Shape}
    {op : Nat → Nat → Nat → Bool × FlagSet} {fl : FlagSet} (hop : ∀ a b d, (op a b d).2 &&& ~~~fl = 0) :
    ∃ g, c.lanewisePred opc fn f sh op = .next (c.done g) ∧
      c.Kept g (nextSlot c.p.pc) (lrRegs opc fn f) [] (destPred f) fl ∧
      (f.dead = false → f.d.toNat < 7 → ∀ l < 32, (g.predOf f.d.toNat).getLsbD l =
        if (c.active f).getLsbD l then (c.predResult f sh op l).1 else (c.g.predOf f.d.toNat).getLsbD l) := by
  refine ⟨_, c.retire_eq f _, PathCtx.retired_kept h ((PathCtx.writePredicate_frame _ _).raise (flagsOf_within fun r hr => ?_)),
    fun hd hn l hl => ?_⟩
  · simp only [PathCtx.results, List.mem_map] at hr
    obtain ⟨l, -, rfl⟩ := hr
    exact hop _ _ _
  · simp only [PathCtx.retired_predOf, Group.predOf_raise]
    rw [PathCtx.writePredicate_value hd hn]
    simp only [BitVec.getLsbD_or, BitVec.getLsbD_and, BitVec.getLsbD_not, maskOf_getLsbD _ l hl, hl, decide_true, Bool.true_and]
    rw [PathCtx.results_getD hl]
    simp only [PathCtx.laneResult, PathCtx.predResult]
    cases (c.active f).getLsbD l <;> cases (op (c.operands f sh l).1 (c.operands f sh l).2.1 0).1 <;> simp_all

end Sys2Proof.Machine
end

