-- ==== Sys2Proof/Laws/Flags.lean ====
section
/-! SUPPORT. Which sticky flags the computations on one lane can raise (spec/05_integer.md R93, R95, R105; spec/06_float.md
R120). -/

namespace Sys2Proof.Machine

theorem flagIf_within (b : Bool) {x fl : FlagSet} (h : x &&& ~~~fl = 0) : flagIf b x &&& ~~~fl = 0 := by
  cases b
  · exact zero_within fl
  · exact h

theorem pair_within {α : Type} {a : α} {x fl : FlagSet} (h : x &&& ~~~fl = 0) : (a, x).2 &&& ~~~fl = 0 := h

/-- Flags within a set are within a larger one. -/
theorem within_mono {x fl fl' : FlagSet} (h : x &&& ~~~fl = 0) (hs : fl &&& ~~~fl' = 0) : x &&& ~~~fl' = 0 := by
  ext i hi
  have h1 := congrArg (fun v : BitVec 16 => v[i]) h
  have h2 := congrArg (fun v : BitVec 16 => v[i]) hs
  simp only [BitVec.getElem_and, BitVec.getElem_not] at h1 h2 ⊢
  cases h3 : x[i] <;> cases h4 : fl[i] <;> simp_all

/-! Integers -/

theorem satInt_within (w : Nat) (sg : Bool) (x : Int) : (satInt w sg x).2 &&& ~~~Flag.sat = 0 := by
  unfold satInt
  split
  · exact pair_within (by decide)
  · split
    · exact pair_within (by decide)
    · exact pair_within (by decide)

theorem narrow_within (s : Bool) (w : Nat) (sg : Bool) (x : Int) : (narrow s w sg x).2 &&& ~~~Flag.sat = 0 := by
  unfold narrow
  split
  · exact satInt_within ..
  · exact zero_within _

theorem negLike_within (t : ITy) (s : Bool) (a r : Int) :
    (negLike t s a r).2 &&& ~~~(Flag.ovf ||| Flag.sat) = 0 := by
  unfold negLike satInt
  split
  · split
    · exact pair_within (by decide)
    · split <;> exact pair_within (by decide)
  · exact flagIf_within _ (by decide)

theorem divInt_within (t : ITy) (a b : Int) : (divInt t a b).2 &&& ~~~(Flag.div ||| Flag.ovf) = 0 := by
  unfold divInt
  split
  · exact pair_within (by decide)
  · split
    · exact pair_within (by decide)
    · exact zero_within _

theorem remInt_within (t : ITy) (a b : Int) : (remInt t a b).2 &&& ~~~Flag.div = 0 := by
  unfold remInt
  split
  · exact pair_within (by decide)
  · split <;> exact zero_within _

theorem packedOp_within (t : ITy) (s : Bool) (op : Int → Int → Int) (a b : Nat) :
    (packedOp t s op a b).2 &&& ~~~Flag.sat = 0 := by
  unfold packedOp
  dsimp only
  rw [List.foldl_map]
  exact foldl_within _ (fun _ => narrow_within ..) _ _ (zero_within _)

theorem packsNat_within (t : ITy) (a b : Nat) : (packsNat t a b).2 &&& ~~~Flag.sat = 0 := by
  unfold packsNat
  dsimp only
  rw [List.foldl_map]
  exact foldl_within _ (fun _ => satInt_within ..) _ _ (zero_within _)

/-! Floats -/

theorem rnd_within (t : Fmt) (mode : RMode) (neg : Bool) (m : Nat) (e : Int) :
    (rnd t mode neg m e).2 &&& ~~~(Flag.ovf ||| Flag.under ||| Flag.inexact) = 0 := by
  unfold rnd
  dsimp only
  split
  · exact pair_within (by decide)
  · exact or_within (flagIf_within _ (by decide)) (flagIf_within _ (by decide))

theorem rnd_float (t : Fmt) (mode : RMode) (neg : Bool) (m : Nat) (e : Int) :
    (rnd t mode neg m e).2 &&& ~~~Flag.float = 0 :=
  within_mono (rnd_within ..) (by decide)

theorem sumRounded_within (t : Fmt) (mode : RMode) (xs : List FVal) :
    (sumRounded t mode xs).2 &&& ~~~Flag.float = 0 := by
  unfold sumRounded
  dsimp only
  split
  · split
    · exact pair_within (by decide)
    · exact zero_within _
  · split
    · exact zero_within _
    · exact rnd_float ..

theorem dotRounded_within (t : Fmt) (mode : RMode) (ps : List (FVal × FVal)) (as : List FVal) :
    (dotRounded t mode ps as).2 &&& ~~~Flag.float = 0 := by
  unfold dotRounded
  dsimp only
  split
  · exact pair_within (by decide)
  · split
    · exact flagIf_within _ (by decide)
    · exact sumRounded_within ..

theorem fMinMax_within (t : Fmt) (w : Bool) (a b : Nat) : (fMinMax t w a b).2 &&& ~~~Flag.inv = 0 := by
  have h (x : Bool) : flagIf x Flag.inv &&& ~~~Flag.inv = 0 := flagIf_within _ (by decide)
  unfold fMinMax
  dsimp only
  split
  · exact h _
  · split
    · exact h _
    · split
      · exact h _
      · split
        · split <;> exact h _
        · split <;> exact h _

theorem fCmp_within (t : Fmt) (fn a b : Nat) : (fCmp t fn a b).2 &&& ~~~Flag.inv = 0 := by
  unfold fCmp
  dsimp only
  split
  · exact flagIf_within _ (by decide)
  · exact zero_within _

theorem fElems_within {t : FTy} {op : Fmt → Nat → Nat × FlagSet} {fl : FlagSet} (h : ∀ x j, (op x j).2 &&& ~~~fl = 0) :
    (fElems t op).2 &&& ~~~fl = 0 := by
  unfold fElems
  split
  · exact or_within (h _ _) (h _ _)
  · exact or_within (h _ _) (h _ _)
  · exact h _ _

theorem fScale_within (t : Fmt) (mode : RMode) (a : Nat) (n : Int) : (fScale t mode a n).2 &&& ~~~Flag.float = 0 := by
  unfold fScale
  split
  · exact flagIf_within _ (by decide)
  · exact rnd_float ..
  · exact zero_within _

theorem fGetexp_within (t : Fmt) (a : Nat) : (fGetexp t a).2 &&& ~~~Flag.inv = 0 := by
  unfold fGetexp
  split
  · exact flagIf_within _ (by decide)
  all_goals exact zero_within _

theorem fGetman_within (t : Fmt) (a : Nat) : (fGetman t a).2 &&& ~~~Flag.float = 0 := by
  unfold fGetman
  split
  · exact flagIf_within _ (by decide)
  · exact pair_within (by decide)
  · exact zero_within _
  · exact rnd_float ..

theorem nanResult_within (t : Fmt) (s : Bool) : (t.nanResult s).2 &&& ~~~Flag.float = 0 := flagIf_within _ (by decide)

/-- A flag set that stays within the float flags stays within them and DIV. -/
theorem float_div {x : FlagSet} (h : x &&& ~~~Flag.float = 0) : x &&& ~~~(Flag.float ||| Flag.div) = 0 :=
  within_mono h (by decide)

theorem fRcp_within (mode : RMode) (a : Nat) : (fRcp mode a).2 &&& ~~~(Flag.float ||| Flag.div) = 0 := by
  unfold fRcp
  split
  · exact float_div (nanResult_within ..)
  · exact zero_within _
  · exact pair_within (by decide)
  · exact float_div (rnd_float ..)

theorem fRsq_within (mode : RMode) (a : Nat) : (fRsq mode a).2 &&& ~~~(Flag.float ||| Flag.div) = 0 := by
  unfold fRsq
  split
  · exact float_div (nanResult_within ..)
  · split
    · exact pair_within (by decide)
    · exact zero_within _
  · exact pair_within (by decide)
  · split
    · exact pair_within (by decide)
    · exact float_div (rnd_float ..)

theorem fSqrt_within (mode : RMode) (a : Nat) : (fSqrt mode a).2 &&& ~~~Flag.float = 0 := by
  unfold fSqrt
  split
  · exact nanResult_within ..
  · split
    · exact pair_within (by decide)
    · exact zero_within _
  · exact zero_within _
  · split
    · exact pair_within (by decide)
    · exact rnd_float ..

theorem fExp2_within (mode : RMode) (a : Nat) : (fExp2 mode a).2 &&& ~~~Flag.float = 0 := by
  unfold fExp2
  split
  · exact nanResult_within ..
  · split <;> exact zero_within _
  · exact zero_within _
  · split
    · exact rnd_float ..
    · dsimp only
      split <;> exact rnd_float ..

theorem fLog2_within (mode : RMode) (a : Nat) : (fLog2 mode a).2 &&& ~~~(Flag.float ||| Flag.div) = 0 := by
  unfold fLog2
  split
  · exact float_div (nanResult_within ..)
  · split
    · exact pair_within (by decide)
    · exact zero_within _
  · exact pair_within (by decide)
  · split
    · exact pair_within (by decide)
    · dsimp only
      split
      · split
        · exact zero_within _
        · exact float_div (rnd_float ..)
      · exact float_div (rnd_float ..)

theorem fSinCos_within (mode : RMode) (cos : Bool) (a : Nat) : (fSinCos mode cos a).2 &&& ~~~Flag.float = 0 := by
  unfold fSinCos
  split
  · exact nanResult_within ..
  · exact pair_within (by decide)
  · exact zero_within _
  · unfold sinCos
    split
    · exact zero_within _
    · dsimp only
      split
      · exact zero_within _
      · split
        · split <;> exact zero_within _
        · split <;> exact rnd_float ..

theorem cvtFloat_within (s t : Fmt) (mode : RMode) (a : Nat) : (cvtFloat s t mode a).2 &&& ~~~Flag.float = 0 := by
  unfold cvtFloat
  split
  · exact nanResult_within ..
  · split
    · exact pair_within (by decide)
    · exact zero_within _
  · exact zero_within _
  · exact rnd_float ..

theorem cvtToInt_within (s : Fmt) (w : Nat) (sg : Bool) (mode : RMode) (a : Nat) :
    (cvtToInt s w sg mode a).2 &&& ~~~Flag.float = 0 := by
  unfold cvtToInt
  split
  · exact pair_within (by decide)
  · exact pair_within (by decide)
  · exact zero_within _
  · extract_lets mag n
    by_cases h1 : n < minInt w sg
    · rw [if_pos h1]; exact pair_within (by decide)
    · rw [if_neg h1]
      by_cases h2 : maxInt w sg < n
      · rw [if_pos h2]; exact pair_within (by decide)
      · rw [if_neg h2]; exact flagIf_within _ (by decide)

theorem fCvt_within (dt st : FTy) (mode : RMode) (a : Nat) : (fCvt dt st mode a).2 &&& ~~~Flag.float = 0 := by
  unfold fCvt
  split
  · exact cvtToInt_within ..
  · dsimp only
    split
    · unfold cvtFromInt
      split
      · exact zero_within _
      · exact rnd_float ..
    · exact cvtFloat_within ..

theorem redFloat_within (op a b : Nat) : (redFloat op a b).2 &&& ~~~Flag.float = 0 := by
  have h (w : Bool) : (fMinMax .f32 w a b).2 &&& ~~~Flag.float = 0 := within_mono (fMinMax_within ..) (by decide)
  unfold redFloat
  split
  · exact dotRounded_within ..
  · exact h _
  · exact h _

end Sys2Proof.Machine
end

