-- ==== Sys2Proof/Laws/CrossLane.lean ====
section
/-! SUPPORT. Laws of the cross-lane trees (spec/05_integer.md R113, R114): the flags that their nodes raise. -/

namespace Sys2Proof.Machine

section

variable {op : Int → Int → Node} {fl : FlagSet}

theorem pairUp_within (hop : ∀ a b, (op a b).2 &&& ~~~fl = 0) : ∀ {xs : List Node},
    (∀ x ∈ xs, x.2 &&& ~~~fl = 0) → ∀ x ∈ pairUp op xs, x.2 &&& ~~~fl = 0
  | [], h, x, hx => h x hx
  | [a], h, x, hx => h x hx
  | a :: b :: rest, h, x, hx => by
    rw [pairUp, List.mem_cons] at hx
    rcases hx with rfl | hx
    · exact or_within (or_within (h a (by simp)) (h b (by simp))) (hop _ _)
    · exact pairUp_within hop (fun y hy => h y (by simp [hy])) x hx

theorem treeReduce_within (hop : ∀ a b, (op a b).2 &&& ~~~fl = 0) {xs : List Node} (h : ∀ x ∈ xs, x.2 &&& ~~~fl = 0) :
    (treeReduce op xs).2 &&& ~~~fl = 0 := by
  have h5 := pairUp_within hop (pairUp_within hop (pairUp_within hop (pairUp_within hop (pairUp_within hop h))))
  unfold treeReduce
  generalize pairUp op (pairUp op (pairUp op (pairUp op (pairUp op xs)))) = l at h5
  cases l with
  | nil => exact zero_within fl
  | cons a l => exact h5 a (by simp)

theorem scanStep_within (hop : ∀ a b, (op a b).2 &&& ~~~fl = 0) {xs : List Node} (d : Nat)
    (h : ∀ x ∈ xs, x.2 &&& ~~~fl = 0) : ∀ x ∈ scanStep op d xs, x.2 &&& ~~~fl = 0 := by
  have hg (l : Nat) : (xs.getD l (0, 0)).2 &&& ~~~fl = 0 := by
    rw [List.getD_eq_getElem?_getD]
    cases hl : xs[l]? with
    | none => exact zero_within fl
    | some r => exact h r (List.mem_of_getElem? hl)
  intro x hx
  simp only [scanStep, List.mem_map] at hx
  obtain ⟨l, -, rfl⟩ := hx
  split
  · exact or_within (hg l) (hop _ _)
  · exact hg l

theorem treeScan_within (hop : ∀ a b, (op a b).2 &&& ~~~fl = 0) {xs : List Node} (h : ∀ x ∈ xs, x.2 &&& ~~~fl = 0) :
    ∀ x ∈ treeScan op xs, x.2 &&& ~~~fl = 0 :=
  scanStep_within hop 16 (scanStep_within hop 8 (scanStep_within hop 4 (scanStep_within hop 2 (scanStep_within hop 1 h))))

end

theorem treeInput_within (c : PathCtx) (f : Fields) (n : Nat) (read : Nat → Int) (ident : Int) (fl : FlagSet) :
    ∀ x ∈ c.treeInput f n read ident, x.2 &&& ~~~fl = 0 := by
  intro x hx
  simp only [PathCtx.treeInput, List.mem_map] at hx
  obtain ⟨l, -, rfl⟩ := hx
  exact zero_within fl

theorem floatNode_within (op : Nat) (a b : Int) : (floatNode op a b).2 &&& ~~~Flag.float = 0 := redFloat_within ..

end Sys2Proof.Machine
end

