-- ==== Sys2Proof/Laws/Exec.lean ====
section
/-! SUPPORT. What `exec` runs for each constructor: its arm of the dispatch, as an equation. -/

namespace Sys2Proof.Machine

theorem exec_mov (f : Fields) (s : State) : exec (.mov f) s = execMov f s := rfl
theorem exec_bcast (f : Fields) (s : State) : exec (.bcast f) s = execBcast f s := rfl
theorem exec_movu (f : Fields) (s : State) : exec (.movu f) s = execMovu f s := rfl
theorem exec_emrd (f : Fields) (s : State) : exec (.emrd f) s = execEmrd f s := rfl
theorem exec_emwr (f : Fields) (s : State) : exec (.emwr f) s = execEmwr f s := rfl
theorem exec_pand (f : Fields) (s : State) : exec (.pand f) s = execPand f s := rfl
theorem exec_por (f : Fields) (s : State) : exec (.por f) s = execPor f s := rfl
theorem exec_pxor (f : Fields) (s : State) : exec (.pxor f) s = execPxor f s := rfl
theorem exec_pandn (f : Fields) (s : State) : exec (.pandn f) s = execPandn f s := rfl
theorem exec_ptog (f : Fields) (s : State) : exec (.ptog f) s = execPtog f s := rfl
theorem exec_gtop (f : Fields) (s : State) : exec (.gtop f) s = execGtop f s := rfl
theorem exec_sread (f : Fields) (s : State) : exec (.sread f) s = execSread f s := rfl
theorem exec_swrite (f : Fields) (s : State) : exec (.swrite f) s = execSwrite f s := rfl
theorem exec_vfree (f : Fields) (s : State) : exec (.vfree f) s = execVfree f s := rfl
theorem exec_nop (f : Fields) (s : State) : exec (.nop f) s = execNop f s := rfl
theorem exec_add (f : Fields) (s : State) : exec (.add f) s = execAdd f s := rfl
theorem exec_sub (f : Fields) (s : State) : exec (.sub f) s = execSub f s := rfl
theorem exec_addc (f : Fields) (s : State) : exec (.addc f) s = execAddc f s := rfl
theorem exec_subb (f : Fields) (s : State) : exec (.subb f) s = execSubb f s := rfl
theorem exec_min (f : Fields) (s : State) : exec (.min f) s = execMin f s := rfl
theorem exec_max (f : Fields) (s : State) : exec (.max f) s = execMax f s := rfl
theorem exec_abs (f : Fields) (s : State) : exec (.abs f) s = execAbs f s := rfl
theorem exec_neg (f : Fields) (s : State) : exec (.neg f) s = execNeg f s := rfl
theorem exec_mul (f : Fields) (s : State) : exec (.mul f) s = execMul f s := rfl
theorem exec_mulhi (f : Fields) (s : State) : exec (.mulhi f) s = execMulhi f s := rfl
theorem exec_mulw (f : Fields) (s : State) : exec (.mulw f) s = execMulw f s := rfl
theorem exec_mad (f : Fields) (s : State) : exec (.mad f) s = execMad f s := rfl
theorem exec_madw (f : Fields) (s : State) : exec (.madw f) s = execMadw f s := rfl
theorem exec_div (f : Fields) (s : State) : exec (.div f) s = execDiv f s := rfl
theorem exec_rem (f : Fields) (s : State) : exec (.rem f) s = execRem f s := rfl
theorem exec_and (f : Fields) (s : State) : exec (.and f) s = execAnd f s := rfl
theorem exec_or (f : Fields) (s : State) : exec (.or f) s = execOr f s := rfl
theorem exec_xor (f : Fields) (s : State) : exec (.xor f) s = execXor f s := rfl
theorem exec_not (f : Fields) (s : State) : exec (.not f) s = execNot f s := rfl
theorem exec_lop3 (f : Fields) (s : State) : exec (.lop3 f) s = execLop3 f s := rfl
theorem exec_shl (f : Fields) (s : State) : exec (.shl f) s = execShl f s := rfl
theorem exec_shr (f : Fields) (s : State) : exec (.shr f) s = execShr f s := rfl
theorem exec_sar (f : Fields) (s : State) : exec (.sar f) s = execSar f s := rfl
theorem exec_fshl (f : Fields) (s : State) : exec (.fshl f) s = execFshl f s := rfl
theorem exec_fshr (f : Fields) (s : State) : exec (.fshr f) s = execFshr f s := rfl
theorem exec_rsh (f : Fields) (s : State) : exec (.rsh f) s = execRsh f s := rfl
theorem exec_popc (f : Fields) (s : State) : exec (.popc f) s = execPopc f s := rfl
theorem exec_clz (f : Fields) (s : State) : exec (.clz f) s = execClz f s := rfl
theorem exec_ctz (f : Fields) (s : State) : exec (.ctz f) s = execCtz f s := rfl
theorem exec_brev (f : Fields) (s : State) : exec (.brev f) s = execBrev f s := rfl
theorem exec_bfx (f : Fields) (s : State) : exec (.bfx f) s = execBfx f s := rfl
theorem exec_bfi (f : Fields) (s : State) : exec (.bfi f) s = execBfi f s := rfl
theorem exec_cmpEq (f : Fields) (s : State) : exec (.cmpEq f) s = execCmpEq f s := rfl
theorem exec_cmpNe (f : Fields) (s : State) : exec (.cmpNe f) s = execCmpNe f s := rfl
theorem exec_cmpLt (f : Fields) (s : State) : exec (.cmpLt f) s = execCmpLt f s := rfl
theorem exec_cmpLe (f : Fields) (s : State) : exec (.cmpLe f) s = execCmpLe f s := rfl
theorem exec_cmpGt (f : Fields) (s : State) : exec (.cmpGt f) s = execCmpGt f s := rfl
theorem exec_cmpGe (f : Fields) (s : State) : exec (.cmpGe f) s = execCmpGe f s := rfl
theorem exec_sel (f : Fields) (s : State) : exec (.sel f) s = execSel f s := rfl
theorem exec_lea (f : Fields) (s : State) : exec (.lea f) s = execLea f s := rfl
theorem exec_lea64 (f : Fields) (s : State) : exec (.lea64 f) s = execLea64 f s := rfl
theorem exec_padd (f : Fields) (s : State) : exec (.padd f) s = execPadd f s := rfl
theorem exec_psub (f : Fields) (s : State) : exec (.psub f) s = execPsub f s := rfl
theorem exec_pmul (f : Fields) (s : State) : exec (.pmul f) s = execPmul f s := rfl
theorem exec_pmin (f : Fields) (s : State) : exec (.pmin f) s = execPmin f s := rfl
theorem exec_pmax (f : Fields) (s : State) : exec (.pmax f) s = execPmax f s := rfl
theorem exec_mac2 (f : Fields) (s : State) : exec (.mac2 f) s = execMac2 f s := rfl
theorem exec_dot4 (f : Fields) (s : State) : exec (.dot4 f) s = execDot4 f s := rfl
theorem exec_packs (f : Fields) (s : State) : exec (.packs f) s = execPacks f s := rfl
theorem exec_unpk (f : Fields) (s : State) : exec (.unpk f) s = execUnpk f s := rfl
theorem exec_slideUp (f : Fields) (s : State) : exec (.slideUp f) s = execSlideUp f s := rfl
theorem exec_slideDn (f : Fields) (s : State) : exec (.slideDn f) s = execSlideDn f s := rfl
theorem exec_hslideUp (f : Fields) (s : State) : exec (.hslideUp f) s = execHslideUp f s := rfl
theorem exec_hslideDn (f : Fields) (s : State) : exec (.hslideDn f) s = execHslideDn f s := rfl
theorem exec_shfl (f : Fields) (s : State) : exec (.shfl f) s = execShfl f s := rfl
theorem exec_xshfl (f : Fields) (s : State) : exec (.xshfl f) s = execXshfl f s := rfl
theorem exec_lbc (f : Fields) (s : State) : exec (.lbc f) s = execLbc f s := rfl
theorem exec_red (f : Fields) (s : State) : exec (.red f) s = execRed f s := rfl
theorem exec_redf (f : Fields) (s : State) : exec (.redf f) s = execRedf f s := rfl
theorem exec_scan (f : Fields) (s : State) : exec (.scan f) s = execScan f s := rfl
theorem exec_scanf (f : Fields) (s : State) : exec (.scanf f) s = execScanf f s := rfl
theorem exec_voteAny (f : Fields) (s : State) : exec (.voteAny f) s = execVoteAny f s := rfl
theorem exec_voteAll (f : Fields) (s : State) : exec (.voteAll f) s = execVoteAll f s := rfl
theorem exec_ballot (f : Fields) (s : State) : exec (.ballot f) s = execBallot f s := rfl
theorem exec_matchLanes (f : Fields) (s : State) : exec (.matchLanes f) s = execMatchLanes f s := rfl
theorem exec_rdlane (f : Fields) (s : State) : exec (.rdlane f) s = execRdlane f s := rfl
theorem exec_fAdd (f : Fields) (s : State) : exec (.fAdd f) s = execFAdd f s := rfl
theorem exec_fSub (f : Fields) (s : State) : exec (.fSub f) s = execFSub f s := rfl
theorem exec_fMul (f : Fields) (s : State) : exec (.fMul f) s = execFMul f s := rfl
theorem exec_fma (f : Fields) (s : State) : exec (.fma f) s = execFma f s := rfl
theorem exec_fMin (f : Fields) (s : State) : exec (.fMin f) s = execFMin f s := rfl
theorem exec_fMax (f : Fields) (s : State) : exec (.fMax f) s = execFMax f s := rfl
theorem exec_fdot2 (f : Fields) (s : State) : exec (.fdot2 f) s = execFdot2 f s := rfl
theorem exec_fCmpEq (f : Fields) (s : State) : exec (.fCmpEq f) s = execFCmpEq f s := rfl
theorem exec_fCmpNe (f : Fields) (s : State) : exec (.fCmpNe f) s = execFCmpNe f s := rfl
theorem exec_fCmpLt (f : Fields) (s : State) : exec (.fCmpLt f) s = execFCmpLt f s := rfl
theorem exec_fCmpLe (f : Fields) (s : State) : exec (.fCmpLe f) s = execFCmpLe f s := rfl
theorem exec_fCmpGt (f : Fields) (s : State) : exec (.fCmpGt f) s = execFCmpGt f s := rfl
theorem exec_fCmpGe (f : Fields) (s : State) : exec (.fCmpGe f) s = execFCmpGe f s := rfl
theorem exec_fCmpUn (f : Fields) (s : State) : exec (.fCmpUn f) s = execFCmpUn f s := rfl
theorem exec_fclass (f : Fields) (s : State) : exec (.fclass f) s = execFclass f s := rfl
theorem exec_scale (f : Fields) (s : State) : exec (.scale f) s = execScale f s := rfl
theorem exec_getexp (f : Fields) (s : State) : exec (.getexp f) s = execGetexp f s := rfl
theorem exec_getman (f : Fields) (s : State) : exec (.getman f) s = execGetman f s := rfl
theorem exec_rcp (f : Fields) (s : State) : exec (.rcp f) s = execRcp f s := rfl
theorem exec_rsq (f : Fields) (s : State) : exec (.rsq f) s = execRsq f s := rfl
theorem exec_sqrt (f : Fields) (s : State) : exec (.sqrt f) s = execSqrt f s := rfl
theorem exec_exp2 (f : Fields) (s : State) : exec (.exp2 f) s = execExp2 f s := rfl
theorem exec_log2 (f : Fields) (s : State) : exec (.log2 f) s = execLog2 f s := rfl
theorem exec_sinpi (f : Fields) (s : State) : exec (.sinpi f) s = execSinpi f s := rfl
theorem exec_cospi (f : Fields) (s : State) : exec (.cospi f) s = execCospi f s := rfl
theorem exec_cvt (f : Fields) (s : State) : exec (.cvt f) s = execCvt f s := rfl
theorem exec_fpack (f : Fields) (s : State) : exec (.fpack f) s = execFpack f s := rfl
theorem exec_funpk (f : Fields) (s : State) : exec (.funpk f) s = execFunpk f s := rfl
theorem exec_ternpk (f : Fields) (s : State) : exec (.ternpk f) s = execTernpk f s := rfl
theorem exec_ternunpk (f : Fields) (s : State) : exec (.ternunpk f) s = execTernunpk f s := rfl
theorem exec_bra (f : Fields) (s : State) : exec (.bra f) s = execBra f s := rfl
theorem exec_brau (f : Fields) (s : State) : exec (.brau f) s = execBrau f s := rfl
theorem exec_skip (f : Fields) (s : State) : exec (.skip f) s = execSkip f s := rfl
theorem exec_jmpi (f : Fields) (s : State) : exec (.jmpi f) s = execJmpi f s := rfl
theorem exec_call (f : Fields) (s : State) : exec (.call f) s = execCall f s := rfl
theorem exec_calli (f : Fields) (s : State) : exec (.calli f) s = execCalli f s := rfl
theorem exec_ret (f : Fields) (s : State) : exec (.ret f) s = execRet f s := rfl
theorem exec_dbnz (f : Fields) (s : State) : exec (.dbnz f) s = execDbnz f s := rfl
theorem exec_exit (f : Fields) (s : State) : exec (.exit f) s = execExit f s := rfl
theorem exec_refill (f : Fields) (s : State) : exec (.refill f) s = execRefill f s := rfl
theorem exec_ldt (f : Fields) (s : State) : exec (.ldt f) s = execLdt f s := rfl
theorem exec_stt (f : Fields) (s : State) : exec (.stt f) s = execStt f s := rfl
theorem exec_ld (f : Fields) (s : State) : exec (.ld f) s = execLd f s := rfl
theorem exec_st (f : Fields) (s : State) : exec (.st f) s = execSt f s := rfl
theorem exec_lds (f : Fields) (s : State) : exec (.lds f) s = execLds f s := rfl
theorem exec_sts (f : Fields) (s : State) : exec (.sts f) s = execSts f s := rfl
theorem exec_ldv (f : Fields) (s : State) : exec (.ldv f) s = execLdv f s := rfl
theorem exec_stv (f : Fields) (s : State) : exec (.stv f) s = execStv f s := rfl
theorem exec_ldg (f : Fields) (s : State) : exec (.ldg f) s = execLdg f s := rfl
theorem exec_pref (f : Fields) (s : State) : exec (.pref f) s = execPref f s := rfl
theorem exec_rvalid (f : Fields) (s : State) : exec (.rvalid f) s = execRvalid f s := rfl
theorem exec_rinval (f : Fields) (s : State) : exec (.rinval f) s = execRinval f s := rfl
theorem exec_rwr (f : Fields) (s : State) : exec (.rwr f) s = execRwr f s := rfl
theorem exec_rrd (f : Fields) (s : State) : exec (.rrd f) s = execRrd f s := rfl
theorem exec_fence (f : Fields) (s : State) : exec (.fence f) s = execFence f s := rfl
theorem exec_ldacq (f : Fields) (s : State) : exec (.ldacq f) s = execLdacq f s := rfl
theorem exec_strel (f : Fields) (s : State) : exec (.strel f) s = execStrel f s := rfl
theorem exec_atomAdd (f : Fields) (s : State) : exec (.atomAdd f) s = execAtomAdd f s := rfl
theorem exec_atomMin (f : Fields) (s : State) : exec (.atomMin f) s = execAtomMin f s := rfl
theorem exec_atomMax (f : Fields) (s : State) : exec (.atomMax f) s = execAtomMax f s := rfl
theorem exec_atomAnd (f : Fields) (s : State) : exec (.atomAnd f) s = execAtomAnd f s := rfl
theorem exec_atomOr (f : Fields) (s : State) : exec (.atomOr f) s = execAtomOr f s := rfl
theorem exec_atomXor (f : Fields) (s : State) : exec (.atomXor f) s = execAtomXor f s := rfl
theorem exec_atomExch (f : Fields) (s : State) : exec (.atomExch f) s = execAtomExch f s := rfl
theorem exec_cas (f : Fields) (s : State) : exec (.cas f) s = execCas f s := rfl
theorem exec_barArrive (f : Fields) (s : State) : exec (.barArrive f) s = execBarArrive f s := rfl
theorem exec_barWait (f : Fields) (s : State) : exec (.barWait f) s = execBarWait f s := rfl
theorem exec_barSync (f : Fields) (s : State) : exec (.barSync f) s = execBarSync f s := rfl
theorem exec_sbarInit (f : Fields) (s : State) : exec (.sbarInit f) s = execSbarInit f s := rfl
theorem exec_sbarWait (f : Fields) (s : State) : exec (.sbarWait f) s = execSbarWait f s := rfl
theorem exec_wcnt (f : Fields) (s : State) : exec (.wcnt f) s = execWcnt f s := rfl
theorem exec_waitval (f : Fields) (s : State) : exec (.waitval f) s = execWaitval f s := rfl
theorem exec_chsend (f : Fields) (s : State) : exec (.chsend f) s = execChsend f s := rfl
theorem exec_chrecv (f : Fields) (s : State) : exec (.chrecv f) s = execChrecv f s := rfl
theorem exec_chclose (f : Fields) (s : State) : exec (.chclose f) s = execChclose f s := rfl
theorem exec_bwait (f : Fields) (s : State) : exec (.bwait f) s = execBwait f s := rfl
theorem exec_cxsig (f : Fields) (s : State) : exec (.cxsig f) s = execCxsig f s := rfl
theorem exec_cpy (f : Fields) (s : State) : exec (.cpy f) s = execCpy f s := rfl
theorem exec_cpyy (f : Fields) (s : State) : exec (.cpyy f) s = execCpyy f s := rfl
theorem exec_gath (f : Fields) (s : State) : exec (.gath f) s = execGath f s := rfl
theorem exec_scat (f : Fields) (s : State) : exec (.scat f) s = execScat f s := rfl
theorem exec_coll (f : Fields) (s : State) : exec (.coll f) s = execColl f s := rfl
theorem exec_wbr (f : Fields) (s : State) : exec (.wbr f) s = execWbr f s := rfl
theorem exec_invr (f : Fields) (s : State) : exec (.invr f) s = execInvr f s := rfl
theorem exec_post (f : Fields) (s : State) : exec (.post f) s = execPost f s := rfl
theorem exec_take (f : Fields) (s : State) : exec (.take f) s = execTake f s := rfl
theorem exec_fork (f : Fields) (s : State) : exec (.fork f) s = execFork f s := rfl
theorem exec_join (f : Fields) (s : State) : exec (.join f) s = execJoin f s := rfl
theorem exec_vid (f : Fields) (s : State) : exec (.vid f) s = execVid f s := rfl
theorem exec_rpage (f : Fields) (s : State) : exec (.rpage f) s = execRpage f s := rfl
theorem exec_twres (f : Fields) (s : State) : exec (.twres f) s = execTwres f s := rfl
theorem exec_vabort (f : Fields) (s : State) : exec (.vabort f) s = execVabort f s := rfl
theorem exec_mmaBf16 (f : Fields) (s : State) : exec (.mmaBf16 f) s = execMmaBf16 f s := rfl
theorem exec_mmaF8 (f : Fields) (s : State) : exec (.mmaF8 f) s = execMmaF8 f s := rfl
theorem exec_mmaS8 (f : Fields) (s : State) : exec (.mmaS8 f) s = execMmaS8 f s := rfl
theorem exec_mmaTern (f : Fields) (s : State) : exec (.mmaTern f) s = execMmaTern f s := rfl
theorem exec_azero (f : Fields) (s : State) : exec (.azero f) s = execAzero f s := rfl
theorem exec_afin (f : Fields) (s : State) : exec (.afin f) s = execAfin f s := rfl
theorem exec_arel (f : Fields) (s : State) : exec (.arel f) s = execArel f s := rfl
theorem exec_mbatch (f : Fields) (s : State) : exec (.mbatch f) s = execMbatch f s := rfl
theorem exec_cxwait (f : Fields) (s : State) : exec (.cxwait f) s = execCxwait f s := rfl
theorem exec_lnbnd (f : Fields) (s : State) : exec (.lnbnd f) s = execLnbnd f s := rfl
theorem exec_lncoef (f : Fields) (s : State) : exec (.lncoef f) s = execLncoef f s := rfl
theorem exec_lnbase (f : Fields) (s : State) : exec (.lnbase f) s = execLnbase f s := rfl
theorem exec_lnbaseOff (f : Fields) (s : State) : exec (.lnbaseOff f) s = execLnbaseOff f s := rfl
theorem exec_lnstart (f : Fields) (s : State) : exec (.lnstart f) s = execLnstart f s := rfl
theorem exec_lnnext (f : Fields) (s : State) : exec (.lnnext f) s = execLnnext f s := rfl
theorem exec_smload (f : Fields) (s : State) : exec (.smload f) s = execSmload f s := rfl
theorem exec_smclampOn (f : Fields) (s : State) : exec (.smclampOn f) s = execSmclampOn f s := rfl
theorem exec_smclampOff (f : Fields) (s : State) : exec (.smclampOff f) s = execSmclampOff f s := rfl
theorem exec_smseed (f : Fields) (s : State) : exec (.smseed f) s = execSmseed f s := rfl
theorem exec_smbeta (f : Fields) (s : State) : exec (.smbeta f) s = execSmbeta f s := rfl
theorem exec_smtable (f : Fields) (s : State) : exec (.smtable f) s = execSmtable f s := rfl
theorem exec_smtableDef (f : Fields) (s : State) : exec (.smtableDef f) s = execSmtableDef f s := rfl
theorem exec_smsweep (f : Fields) (s : State) : exec (.smsweep f) s = execSmsweep f s := rfl
theorem exec_smread (f : Fields) (s : State) : exec (.smread f) s = execSmread f s := rfl
theorem exec_smstatRd (f : Fields) (s : State) : exec (.smstatRd f) s = execSmstatRd f s := rfl
theorem exec_smstatClr (f : Fields) (s : State) : exec (.smstatClr f) s = execSmstatClr f s := rfl
theorem exec_smstatRdclr (f : Fields) (s : State) : exec (.smstatRdclr f) s = execSmstatRdclr f s := rfl
theorem exec_smstatInfo (f : Fields) (s : State) : exec (.smstatInfo f) s = execSmstatInfo f s := rfl
theorem exec_rld (f : Fields) (s : State) : exec (.rld f) s = execRld f s := rfl
theorem exec_rst (f : Fields) (s : State) : exec (.rst f) s = execRst f s := rfl
theorem exec_ratom (f : Fields) (s : State) : exec (.ratom f) s = execRatom f s := rfl
theorem exec_rfence (f : Fields) (s : State) : exec (.rfence f) s = execRfence f s := rfl
theorem exec_rigRerig (f : Fields) (s : State) : exec (.rigRerig f) s = execRigRerig f s := rfl
theorem exec_rigst (f : Fields) (s : State) : exec (.rigst f) s = execRigst f s := rfl
theorem exec_trap (f : Fields) (s : State) : exec (.trap f) s = execTrap f s := rfl
theorem exec_tret (f : Fields) (s : State) : exec (.tret f) s = execTret f s := rfl
theorem exec_tfence (f : Fields) (s : State) : exec (.tfence f) s = execTfence f s := rfl
theorem exec_brk (f : Fields) (s : State) : exec (.brk f) s = execBrk f s := rfl
theorem exec_sysrd (f : Fields) (s : State) : exec (.sysrd f) s = execSysrd f s := rfl
theorem exec_syswr (f : Fields) (s : State) : exec (.syswr f) s = execSyswr f s := rfl
theorem exec_replay (f : Fields) (s : State) : exec (.replay f) s = execReplay f s := rfl
theorem exec_fqtail (f : Fields) (s : State) : exec (.fqtail f) s = execFqtail f s := rfl
theorem exec_ecccnt (f : Fields) (s : State) : exec (.ecccnt f) s = execEcccnt f s := rfl
theorem exec_tlbinvAll (f : Fields) (s : State) : exec (.tlbinvAll f) s = execTlbinvAll f s := rfl
theorem exec_tlbinvPg (f : Fields) (s : State) : exec (.tlbinvPg f) s = execTlbinvPg f s := rfl
theorem exec_tlbinvRng (f : Fields) (s : State) : exec (.tlbinvRng f) s = execTlbinvRng f s := rfl
theorem exec_ctxsave (f : Fields) (s : State) : exec (.ctxsave f) s = execCtxsave f s := rfl
theorem exec_ctxld (f : Fields) (s : State) : exec (.ctxld f) s = execCtxld f s := rfl
theorem exec_vacate (f : Fields) (s : State) : exec (.vacate f) s = execVacate f s := rfl
theorem exec_haltTeam (f : Fields) (s : State) : exec (.haltTeam f) s = execHaltTeam f s := rfl
theorem exec_haltGrid (f : Fields) (s : State) : exec (.haltGrid f) s = execHaltGrid f s := rfl
theorem exec_heatw (f : Fields) (s : State) : exec (.heatw f) s = execHeatw f s := rfl
theorem exec_heatsw (f : Fields) (s : State) : exec (.heatsw f) s = execHeatsw f s := rfl
theorem exec_donate (f : Fields) (s : State) : exec (.donate f) s = execDonate f s := rfl
theorem exec_scrub (f : Fields) (s : State) : exec (.scrub f) s = execScrub f s := rfl
theorem exec_trctlSet (f : Fields) (s : State) : exec (.trctlSet f) s = execTrctlSet f s := rfl
theorem exec_trctlHead (f : Fields) (s : State) : exec (.trctlHead f) s = execTrctlHead f s := rfl
theorem exec_trctlTail (f : Fields) (s : State) : exec (.trctlTail f) s = execTrctlTail f s := rfl
theorem exec_trctlLost (f : Fields) (s : State) : exec (.trctlLost f) s = execTrctlLost f s := rfl
theorem exec_trmark (f : Fields) (s : State) : exec (.trmark f) s = execTrmark f s := rfl
theorem exec_pcnt (f : Fields) (s : State) : exec (.pcnt f) s = execPcnt f s := rfl
theorem exec_stepStop (f : Fields) (s : State) : exec (.stepStop f) s = execStepStop f s := rfl
theorem exec_stepGo (f : Fields) (s : State) : exec (.stepGo f) s = execStepGo f s := rfl
theorem exec_stepRun (f : Fields) (s : State) : exec (.stepRun f) s = execStepRun f s := rfl
theorem exec_stepPath (f : Fields) (s : State) : exec (.stepPath f) s = execStepPath f s := rfl
theorem exec_launch (f : Fields) (s : State) : exec (.launch f) s = execLaunch f s := rfl
theorem exec_launchd (f : Fields) (s : State) : exec (.launchd f) s = execLaunchd f s := rfl
theorem exec_lqst (f : Fields) (s : State) : exec (.lqst f) s = execLqst f s := rfl
theorem exec_rigWinwr (f : Fields) (s : State) : exec (.rigWinwr f) s = execRigWinwr f s := rfl
theorem exec_rigWinclr (f : Fields) (s : State) : exec (.rigWinclr f) s = execRigWinclr f s := rfl
theorem exec_rigPmap (f : Fields) (s : State) : exec (.rigPmap f) s = execRigPmap f s := rfl
theorem exec_rigLock (f : Fields) (s : State) : exec (.rigLock f) s = execRigLock f s := rfl
theorem exec_rigGo (f : Fields) (s : State) : exec (.rigGo f) s = execRigGo f s := rfl
theorem exec_illegalInstruction (cause : BitVec 4) (word : BitVec 96) (s : State) :
    exec (.illegalInstruction cause word) s = execIllegalInstruction cause word s := rfl
theorem exec_fetchOverrun (s : State) : exec .fetchOverrun s = execFetchOverrun s := rfl
theorem exec_lineFetch (p : PathRef) (flip1 flip2 : BitVec 512) (s : State) :
    exec (.lineFetch p flip1 flip2) s = execLineFetch p flip1 flip2 s := rfl
theorem exec_switchMarkerRelease (g : GroupRef) (s : State) :
    exec (.switchMarkerRelease g) s = execSwitchMarkerRelease g s := rfl
theorem exec_schedulerAgePriority (core sched : Nat) (s : State) :
    exec (.schedulerAgePriority core sched) s = execSchedulerAgePriority core sched s := rfl
theorem exec_loadDataArrive (g : GroupRef) (access : Nat) (s : State) :
    exec (.loadDataArrive g access) s = execLoadDataArrive g access s := rfl
theorem exec_translationWalkComplete (walk : Nat) (s : State) :
    exec (.translationWalkComplete walk) s = execTranslationWalkComplete walk s := rfl
theorem exec_heldRecordWrite (crew : Nat) (s : State) : exec (.heldRecordWrite crew) s = execHeldRecordWrite crew s := rfl
theorem exec_storeDrain (g : GroupRef) (entry : Nat) (s : State) :
    exec (.storeDrain g entry) s = execStoreDrain g entry s := rfl
theorem exec_storeAck (g : GroupRef) (scope : Scope) (s : State) : exec (.storeAck g scope) s = execStoreAck g scope s := rfl
theorem exec_lineReplicate (line : LineKey) (s : State) : exec (.lineReplicate line) s = execLineReplicate line s := rfl
theorem exec_pageClearComplete (crew page : Nat) (s : State) :
    exec (.pageClearComplete crew page) s = execPageClearComplete crew page s := rfl
theorem exec_waitvalRecheck (p : PathRef) (s : State) : exec (.waitvalRecheck p) s = execWaitvalRecheck p s := rfl
theorem exec_engineBytePerformed (cmd : Nat) (s : State) :
    exec (.engineBytePerformed cmd) s = execEngineBytePerformed cmd s := rfl
theorem exec_commandRetire (cmd : Nat) (s : State) : exec (.commandRetire cmd) s = execCommandRetire cmd s := rfl
theorem exec_engineFault (cmd : Nat) (s : State) : exec (.engineFault cmd) s = execEngineFault cmd s := rfl
theorem exec_cpyyYield (cmd : Nat) (s : State) : exec (.cpyyYield cmd) s = execCpyyYield cmd s := rfl
theorem exec_mailboxPostEnqueue (cmd : Nat) (s : State) :
    exec (.mailboxPostEnqueue cmd) s = execMailboxPostEnqueue cmd s := rfl
theorem exec_mailboxTakeDeliver (cmd : Nat) (s : State) :
    exec (.mailboxTakeDeliver cmd) s = execMailboxTakeDeliver cmd s := rfl
theorem exec_matrixOpStart (core : Nat) (s : State) : exec (.matrixOpStart core) s = execMatrixOpStart core s := rfl
theorem exec_matrixOpComplete (core : Nat) (s : State) : exec (.matrixOpComplete core) s = execMatrixOpComplete core s := rfl
theorem exec_afinComplete (core : Nat) (s : State) : exec (.afinComplete core) s = execAfinComplete core s := rfl
theorem exec_cxwaitRecheck (team : Nat) (s : State) : exec (.cxwaitRecheck team) s = execCxwaitRecheck team s := rfl
theorem exec_mergeCheck (team : Nat) (s : State) : exec (.mergeCheck team) s = execMergeCheck team s := rfl
theorem exec_mergeCommit (team : Nat) (s : State) : exec (.mergeCommit team) s = execMergeCommit team s := rfl
theorem exec_determinateJoin (grid : Nat) (s : State) : exec (.determinateJoin grid) s = execDeterminateJoin grid s := rfl
theorem exec_determinateJoinRetry (grid : Nat) (s : State) :
    exec (.determinateJoinRetry grid) s = execDeterminateJoinRetry grid s := rfl
theorem exec_samplerCommandStart (crew die : Nat) (s : State) :
    exec (.samplerCommandStart crew die) s = execSamplerCommandStart crew die s := rfl
theorem exec_samplerColourPhase (crew die : Nat) (s : State) :
    exec (.samplerColourPhase crew die) s = execSamplerColourPhase crew die s := rfl
theorem exec_samplerCommandComplete (crew die : Nat) (s : State) :
    exec (.samplerCommandComplete crew die) s = execSamplerCommandComplete crew die s := rfl
theorem exec_riggerLinkTrained (rigger : Nat) (s : State) :
    exec (.riggerLinkTrained rigger) s = execRiggerLinkTrained rigger s := rfl
theorem exec_riggerTrainingTimeout (rigger : Nat) (noPart : Bool) (s : State) :
    exec (.riggerTrainingTimeout rigger noPart) s = execRiggerTrainingTimeout rigger noPart s := rfl
theorem exec_riggerAttestationPass (rigger : Nat) (s : State) :
    exec (.riggerAttestationPass rigger) s = execRiggerAttestationPass rigger s := rfl
theorem exec_riggerAttestationFail (rigger : Nat) (s : State) :
    exec (.riggerAttestationFail rigger) s = execRiggerAttestationFail rigger s := rfl
theorem exec_riggerLinkLost (rigger : Nat) (s : State) : exec (.riggerLinkLost rigger) s = execRiggerLinkLost rigger s := rfl
theorem exec_riggerDrainEnd (rigger : Nat) (s : State) : exec (.riggerDrainEnd rigger) s = execRiggerDrainEnd rigger s := rfl
theorem exec_ualinkResponseTimeout (request : Nat) (s : State) :
    exec (.ualinkResponseTimeout request) s = execUalinkResponseTimeout request s := rfl
theorem exec_heldRequestTimeout (request : Nat) (s : State) :
    exec (.heldRequestTimeout request) s = execHeldRequestTimeout request s := rfl
theorem exec_planeMoveEffect (value : BitVec 3) (s : State) :
    exec (.planeMoveEffect value) s = execPlaneMoveEffect value s := rfl
theorem exec_riggerTierAge (rigger : Nat) (s : State) : exec (.riggerTierAge rigger) s = execRiggerTierAge rigger s := rfl
theorem exec_remoteResponse (request : Nat) (ok : Bool) (data : List Byte) (s : State) :
    exec (.remoteResponse request ok data) s = execRemoteResponse request ok data s := rfl
theorem exec_networkEntryPriority (packet : Nat) (s : State) :
    exec (.networkEntryPriority packet) s = execNetworkEntryPriority packet s := rfl
theorem exec_drainWindowOpen (set crew : Nat) (s : State) :
    exec (.drainWindowOpen set crew) s = execDrainWindowOpen set crew s := rfl
theorem exec_heatEdge (set : Nat) (s : State) : exec (.heatEdge set) s = execHeatEdge set s := rfl
theorem exec_octetHandover (octet : Nat) (s : State) : exec (.octetHandover octet) s = execOctetHandover octet s := rfl
theorem exec_idleDonation (set crew : Nat) (s : State) : exec (.idleDonation set crew) s = execIdleDonation set crew s := rfl
theorem exec_preemptWindowEnd (set crew : Nat) (s : State) :
    exec (.preemptWindowEnd set crew) s = execPreemptWindowEnd set crew s := rfl
theorem exec_groupSave (g : GroupRef) (s : State) : exec (.groupSave g) s = execGroupSave g s := rfl
theorem exec_teamRestore (team : Nat) (s : State) : exec (.teamRestore team) s = execTeamRestore team s := rfl
theorem exec_launchConsume (set : Nat) (s : State) : exec (.launchConsume set) s = execLaunchConsume set s := rfl
theorem exec_teamPlace (set crew : Nat) (s : State) : exec (.teamPlace set crew) s = execTeamPlace set crew s := rfl
theorem exec_heldCompletionWrite (vf queue : Nat) (s : State) :
    exec (.heldCompletionWrite vf queue) s = execHeldCompletionWrite vf queue s := rfl
theorem exec_hostTailWrite (vf queue : Nat) (tail : Word64) (s : State) :
    exec (.hostTailWrite vf queue tail) s = execHostTailWrite vf queue tail s := rfl
theorem exec_hostCtailWrite (vf queue : Nat) (ctail : Word64) (s : State) :
    exec (.hostCtailWrite vf queue ctail) s = execHostCtailWrite vf queue ctail s := rfl
theorem exec_hostKillGrid (vf : Nat) (seq : Word64) (s : State) :
    exec (.hostKillGrid vf seq) s = execHostKillGrid vf seq s := rfl
theorem exec_hostReplay (crew : Nat) (seq : Word64) (s : State) :
    exec (.hostReplay crew seq) s = execHostReplay crew seq s := rfl
theorem exec_deviceRestart (s : State) : exec .deviceRestart s = execDeviceRestart s := rfl
theorem exec_imageLoad (crew : Nat) (image : List Byte) (recordBase : Nat) (bases : LoadBases) (s : State) :
    exec (.imageLoad crew image recordBase bases) s = execImageLoad crew image recordBase bases s := rfl
theorem exec_keyProvision (crew slot : Nat) (key : PublicKey) (s : State) :
    exec (.keyProvision crew slot key) s = execKeyProvision crew slot key s := rfl
theorem exec_rollbackFloorWrite (crew slot : Nat) (floor : Word32) (s : State) :
    exec (.rollbackFloorWrite crew slot floor) s = execRollbackFloorWrite crew slot floor s := rfl
theorem exec_dieSetConfigure (writes : List DieWrite) (s : State) :
    exec (.dieSetConfigure writes) s = execDieSetConfigure writes s := rfl
theorem exec_crewBind (crew base : Nat) (s : State) : exec (.crewBind crew base) s = execCrewBind crew base s := rfl
theorem exec_crewReset (crew : Nat) (s : State) : exec (.crewReset crew) s = execCrewReset crew s := rfl
theorem exec_functionControlWrite (vf : Nat) (control : Word64) (s : State) :
    exec (.functionControlWrite vf control) s = execFunctionControlWrite vf control s := rfl
theorem exec_functionReset (vf : Nat) (s : State) : exec (.functionReset vf) s = execFunctionReset vf s := rfl
theorem exec_functionMigrationPause (vf : Nat) (s : State) :
    exec (.functionMigrationPause vf) s = execFunctionMigrationPause vf s := rfl
theorem exec_heatTableInstall (set : Nat) (rows : List (BitVec 2048)) (s : State) :
    exec (.heatTableInstall set rows) s = execHeatTableInstall set rows s := rfl
theorem exec_pageTableRootSet (crew : Nat) (root : Word64) (s : State) :
    exec (.pageTableRootSet crew root) s = execPageTableRootSet crew root s := rfl
theorem exec_vaultAssign (die vault crew : Nat) (s : State) :
    exec (.vaultAssign die vault crew) s = execVaultAssign die vault crew s := rfl
theorem exec_mailboxAssign (slice box crew : Nat) (s : State) :
    exec (.mailboxAssign slice box crew) s = execMailboxAssign slice box crew s := rfl
theorem exec_twinPoolSet (crew : Nat) (base : Word64) (size : Nat) (s : State) :
    exec (.twinPoolSet crew base size) s = execTwinPoolSet crew base size s := rfl
theorem exec_recordTableSet (crew : Nat) (size : Nat) (base : Word64) (s : State) :
    exec (.recordTableSet crew size base) s = execRecordTableSet crew size base s := rfl
theorem exec_peerRegister (peer : Nat) (endpoint key : Word64) (s : State) :
    exec (.peerRegister peer endpoint key) s = execPeerRegister peer endpoint key s := rfl
theorem exec_unscrubbedBitmapWrite (crew page : Nat) (bit : Bool) (s : State) :
    exec (.unscrubbedBitmapWrite crew page bit) s = execUnscrubbedBitmapWrite crew page bit s := rfl
theorem exec_hostTlbinv (crew : Nat) (kind : BitVec 2) (va : VAddr) (len : Word32) (s : State) :
    exec (.hostTlbinv crew kind va len) s = execHostTlbinv crew kind va len s := rfl
theorem exec_hostVacate (crew : Nat) (lseq : Word64) (count : Nat) (s : State) :
    exec (.hostVacate crew lseq count) s = execHostVacate crew lseq count s := rfl
theorem exec_powerOnBoot (s : State) : exec .powerOnBoot s = execPowerOnBoot s := rfl
theorem exec_firmwareImage (image : List Byte) (signature : List Byte) (key : PublicKey) (s : State) :
    exec (.firmwareImage image signature key) s = execFirmwareImage image signature key s := rfl
theorem exec_powerLimitInput (board : Bool) (hot : BitVec 8) (s : State) :
    exec (.powerLimitInput board hot) s = execPowerLimitInput board hot s := rfl
theorem exec_powerRemoval (s : State) : exec .powerRemoval s = execPowerRemoval s := rfl
theorem exec_refillQueueFill (team : Nat) (count : Nat) (s : State) :
    exec (.refillQueueFill team count) s = execRefillQueueFill team count s := rfl
theorem exec_peerRequestArrival (rigger : Nat) (request : PeerRequest) (s : State) :
    exec (.peerRequestArrival rigger request) s = execPeerRequestArrival rigger request s := rfl
theorem exec_hostPortAccess (crew : Nat) (access : HostAccess) (s : State) :
    exec (.hostPortAccess crew access) s = execHostPortAccess crew access s := rfl
theorem exec_launchQueueConfigure (vf queue : Nat) (config : QueueConfig) (s : State) :
    exec (.launchQueueConfigure vf queue config) s = execLaunchQueueConfigure vf queue config s := rfl
theorem exec_functionMigrationResume (vf : Nat) (s : State) :
    exec (.functionMigrationResume vf) s = execFunctionMigrationResume vf s := rfl
theorem exec_crewClassGrant (crew : Nat) (cls : BitVec 3) (s : State) :
    exec (.crewClassGrant crew cls) s = execCrewClassGrant crew cls s := rfl
theorem exec_hostScrub (crew : Nat) (base : Word64) (len : Nat) (s : State) :
    exec (.hostScrub crew base len) s = execHostScrub crew base len s := rfl
theorem exec_hostSpdmRequest (message : List Byte) (s : State) :
    exec (.hostSpdmRequest message) s = execHostSpdmRequest message s := rfl

end Sys2Proof.Machine
end

