-- ==== Sys2Proof/Laws/Integer.lean ====
section
/-! SUPPORT. Laws of the integer helpers (spec/05_integer.md R88, R89, R93): the ranges of a type, wrapping and saturating. -/

namespace Sys2Proof.Machine

theorem two_pow_pos_int (w : Nat) : (0 : Int) < 2 ^ w := Int.pow_pos (by decide)

theorem two_pow_pred {w : Nat} (h : 0 < w) : (2 : Int) ^ w = 2 * 2 ^ (w - 1) := by
  obtain ⟨k, rfl⟩ : ∃ k, w = k + 1 := ⟨w - 1, by omega⟩
  rw [Nat.add_sub_cancel, Int.pow_succ, Int.mul_comm]

/-- A number read at a width and sign lies in the range (R88). -/
theorem readInt_range {w : Nat} (hw : 0 < w) (sg : Bool) (n : Nat) :
    minInt w sg ≤ readInt w sg n ∧ readInt w sg n ≤ maxInt w sg := by
  have h1 : n % 2 ^ w < 2 ^ w := Nat.mod_lt _ (Nat.two_pow_pos w)
  have h2 : ((2 ^ w : Nat) : Int) = 2 ^ w := by simp
  have h3 : ((2 ^ (w - 1) : Nat) : Int) = 2 ^ (w - 1) := by simp
  have h4 := two_pow_pred hw
  have h5 := two_pow_pos_int (w - 1)
  unfold readInt minInt maxInt
  cases sg
  · simp only [Bool.false_and, Bool.false_eq_true, if_false]
    omega
  · by_cases h : 2 ^ (w - 1) ≤ n % 2 ^ w
    · simp only [h, decide_true, Bool.true_and, if_true]
      omega
    · simp only [h, decide_false, Bool.true_and, Bool.false_eq_true, if_false, if_true]
      omega

/-- A number read at a width is congruent to it. -/
theorem readInt_congr (w : Nat) (sg : Bool) (n : Nat) : (readInt w sg n - n) % 2 ^ w = 0 := by
  have h2 : ((2 ^ w : Nat) : Int) = 2 ^ w := by simp
  have h : ((n % 2 ^ w : Nat) : Int) = n % 2 ^ w := by rw [Int.natCast_emod, h2]
  have h0 : ((n : Int) % 2 ^ w - n) % 2 ^ w = 0 := by rw [Int.sub_emod, Int.emod_emod_of_dvd _ (Int.dvd_refl _), Int.sub_self]; simp
  unfold readInt
  dsimp only
  split
  · rw [h, show (n : Int) % 2 ^ w - 2 ^ w - n = (n % 2 ^ w - n) - 2 ^ w by omega, Int.sub_emod, h0]
    simp
  · rw [h]; exact h0

/-- Wrapping gives the value of the range that is congruent (R89). -/
theorem wrapInt_reduces {w : Nat} (hw : 0 < w) (sg : Bool) (x : Int) : Reduces w sg false x (wrapInt w sg x) := by
  have hr := readInt_range hw sg (x % 2 ^ w).toNat
  refine ⟨hr.1, hr.2, ?_⟩
  have h0 := two_pow_pos_int w
  have h1 := readInt_congr w sg (x % 2 ^ w).toNat
  rw [Int.toNat_of_nonneg (Int.emod_nonneg x (Int.ne_of_gt h0))] at h1
  rw [wrapInt, show readInt w sg (x % 2 ^ w).toNat - x = (readInt w sg (x % 2 ^ w).toNat - x % 2 ^ w) - (x - x % 2 ^ w) by omega,
    Int.sub_emod, h1, Int.sub_emod x, Int.emod_emod_of_dvd _ (Int.dvd_refl _), Int.sub_self]
  simp

theorem minInt_le_maxInt (w : Nat) (sg : Bool) : minInt w sg ≤ maxInt w sg := by
  have h1 := two_pow_pos_int (w - 1)
  have h2 := two_pow_pos_int w
  unfold minInt maxInt
  cases sg <;> simp only [Bool.false_eq_true, if_false, if_true] <;> omega

/-- Saturating clamps to the range (R89). -/
theorem satInt_reduces (w : Nat) (sg : Bool) (x : Int) : Reduces w sg true x (satInt w sg x).1 := by
  have h := minInt_le_maxInt w sg
  show (satInt w sg x).1 = _
  unfold satInt
  split
  · show minInt w sg = _; omega
  · split
    · show maxInt w sg = _; omega
    · show x = _; omega

/-- A result narrowed as `.sat` says (R93). -/
theorem narrow_reduces {w : Nat} (hw : 0 < w) (sat sg : Bool) (x : Int) : Reduces w sg sat x (narrow sat w sg x).1 := by
  cases sat
  · exact wrapInt_reduces hw sg x
  · exact satInt_reduces w sg x

theorem negLike_reduces {t : ITy} (ht : 0 < t.width) (sat : Bool) (a r : Int) :
    Reduces t.width t.signed sat r (negLike t sat a r).1 := by
  cases sat
  · exact wrapInt_reduces ht t.signed r
  · exact satInt_reduces t.width t.signed r

/-- A value of the range reduces to itself. -/
theorem reduces_self {w : Nat} {sg : Bool} {x : Int} (h : minInt w sg ≤ x ∧ x ≤ maxInt w sg) : Reduces w sg false x x :=
  ⟨h.1, h.2, by simp⟩

theorem readTy_range {t : ITy} (ht : 0 < t.width) (n : Nat) :
    minInt t.width t.signed ≤ readTy t n ∧ readTy t n ≤ maxInt t.width t.signed := readInt_range ht _ _

theorem ITy.width_pos (t : ITy) : 0 < t.width := by cases t <;> decide

/-- A lane-wise form of either stream, in a group stream: frame and results. -/
theorem computeForm_group {c : PathCtx} (h : c.Issues) {opc fn : Nat} {f : Fields} {sh : Shape} {u v w : Bool} {op : LaneFn}
    {fl : FlagSet} (hop : ∀ l a b d, (op l a b d).2 &&& ~~~fl = 0) :
    ∃ g, computeForm c.s opc fn f sh u v w op = .next (c.done g) ∧
      c.Kept g (nextSlot c.p.pc) (lrRegs opc fn f ++ destVec f sh.d) (destUni f) [] fl ∧
      c.LanesKept g (c.active f) (destKept (lrRegs opc fn f) f sh.d) ∧
      c.DestIs g f sh.d fun l => (c.laneResult f sh op l).1 := by
  obtain ⟨g, e, k, l, r1, r2⟩ := PathCtx.lanewise_kept h (opc := opc) (fn := fn) (sh := sh)
    (srcs := sh.sources f u v w) hop
  exact ⟨g, (onBoth_of h).trans e, k, l, fun hd => ⟨r1 hd, r2 hd⟩⟩

theorem computeGroup_group {c : PathCtx} (h : c.Issues) {opc fn : Nat} {f : Fields} {sh : Shape} {u v w : Bool}
    {op : LaneFn} {fl : FlagSet} (hop : ∀ l a b d, (op l a b d).2 &&& ~~~fl = 0) :
    ∃ g, computeGroup c.s opc fn f sh u v w op = .next (c.done g) ∧
      c.Kept g (nextSlot c.p.pc) (lrRegs opc fn f ++ destVec f sh.d) (destUni f) [] fl ∧
      c.LanesKept g (c.active f) (destKept (lrRegs opc fn f) f sh.d) ∧
      c.DestIs g f sh.d fun l => (c.laneResult f sh op l).1 := by
  obtain ⟨g, e, k, l, r1, r2⟩ := PathCtx.lanewise_kept h (opc := opc) (fn := fn) (sh := sh)
    (srcs := sh.sources f u v w) hop
  exact ⟨g, (onPath_of h).trans e, k, l, fun hd => ⟨r1 hd, r2 hd⟩⟩

end Sys2Proof.Machine
end

