-- ==== Sys2Proof/Laws/State.lean ====
section
/-! SUPPORT. What each update of the state leaves: one lemma for each field and update, all of them by unfolding; and what
the updated part reads as. -/

namespace Sys2Proof.Machine

variable (s : State)

/-! `setDie` -/

@[simp] theorem State.setDie_turns (d : Nat) (x : Die) : (s.setDie d x).turns = s.turns := rfl
@[simp] theorem State.setDie_issuer (d : Nat) (x : Die) : (s.setDie d x).issuer = s.issuer := rfl
@[simp] theorem State.setDie_late (d : Nat) (x : Die) : (s.setDie d x).late = s.late := rfl
@[simp] theorem State.setDie_fresh (d : Nat) (x : Die) : (s.setDie d x).fresh = s.fresh := rfl
@[simp] theorem State.setDie_nextId (d : Nat) (x : Die) : (s.setDie d x).nextId = s.nextId := rfl
@[simp] theorem State.setDie_clock (d : Nat) (x : Die) : (s.setDie d x).clock = s.clock := rfl
@[simp] theorem State.setDie_boot (d : Nat) (x : Die) : (s.setDie d x).boot = s.boot := rfl
@[simp] theorem State.setDie_firmware (d : Nat) (x : Die) : (s.setDie d x).firmware = s.firmware := rfl
@[simp] theorem State.setDie_powerLimit (d : Nat) (x : Die) : (s.setDie d x).powerLimit = s.powerLimit := rfl
@[simp] theorem State.setDie_cores (d : Nat) (x : Die) : (s.setDie d x).cores = s.cores := rfl
@[simp] theorem State.setDie_crews (d : Nat) (x : Die) : (s.setDie d x).crews = s.crews := rfl
@[simp] theorem State.setDie_functions (d : Nat) (x : Die) : (s.setDie d x).functions = s.functions := rfl
@[simp] theorem State.setDie_heats (d : Nat) (x : Die) : (s.setDie d x).heats = s.heats := rfl
@[simp] theorem State.setDie_octets (d : Nat) (x : Die) : (s.setDie d x).octets = s.octets := rfl
@[simp] theorem State.setDie_grids (d : Nat) (x : Die) : (s.setDie d x).grids = s.grids := rfl
@[simp] theorem State.setDie_teams (d : Nat) (x : Die) : (s.setDie d x).teams = s.teams := rfl
@[simp] theorem State.setDie_cmds (d : Nat) (x : Die) : (s.setDie d x).cmds = s.cmds := rfl
@[simp] theorem State.setDie_walks (d : Nat) (x : Die) : (s.setDie d x).walks = s.walks := rfl
@[simp] theorem State.setDie_hbm (d : Nat) (x : Die) : (s.setDie d x).hbm = s.hbm := rfl
@[simp] theorem State.setDie_hostMem (d : Nat) (x : Die) : (s.setDie d x).hostMem = s.hostMem := rfl
@[simp] theorem State.setDie_poison (d : Nat) (x : Die) : (s.setDie d x).poison = s.poison := rfl
@[simp] theorem State.setDie_replReads (d : Nat) (x : Die) : (s.setDie d x).replReads = s.replReads := rfl
@[simp] theorem State.setDie_scratch (d : Nat) (x : Die) : (s.setDie d x).scratch = s.scratch := rfl
@[simp] theorem State.setDie_vault (d : Nat) (x : Die) : (s.setDie d x).vault = s.vault := rfl
@[simp] theorem State.setDie_vaultCrew (d : Nat) (x : Die) : (s.setDie d x).vaultCrew = s.vaultCrew := rfl
@[simp] theorem State.setDie_lines (d : Nat) (x : Die) : (s.setDie d x).lines = s.lines := rfl
@[simp] theorem State.setDie_mailboxes (d : Nat) (x : Die) : (s.setDie d x).mailboxes = s.mailboxes := rfl
@[simp] theorem State.setDie_windows (d : Nat) (x : Die) : (s.setDie d x).windows = s.windows := rfl
@[simp] theorem State.setDie_planes (d : Nat) (x : Die) : (s.setDie d x).planes = s.planes := rfl
@[simp] theorem State.setDie_planesNext (d : Nat) (x : Die) : (s.setDie d x).planesNext = s.planesNext := rfl
@[simp] theorem State.setDie_riggers (d : Nat) (x : Die) : (s.setDie d x).riggers = s.riggers := rfl
@[simp] theorem State.setDie_requests (d : Nat) (x : Die) : (s.setDie d x).requests = s.requests := rfl
@[simp] theorem State.setDie_peers (d : Nat) (x : Die) : (s.setDie d x).peers = s.peers := rfl
@[simp] theorem State.setDie_packets (d : Nat) (x : Die) : (s.setDie d x).packets = s.packets := rfl
@[simp] theorem State.setDie_hostErrors (d : Nat) (x : Die) : (s.setDie d x).hostErrors = s.hostErrors := rfl
@[simp] theorem State.setDie_hostLog (d : Nat) (x : Die) : (s.setDie d x).hostLog = s.hostLog := rfl
@[simp] theorem State.setDie_peerLog (d : Nat) (x : Die) : (s.setDie d x).peerLog = s.peerLog := rfl

/-! `setCore` -/

@[simp] theorem State.setCore_turns (n : Nat) (x : Core) : (s.setCore n x).turns = s.turns := rfl
@[simp] theorem State.setCore_issuer (n : Nat) (x : Core) : (s.setCore n x).issuer = s.issuer := rfl
@[simp] theorem State.setCore_late (n : Nat) (x : Core) : (s.setCore n x).late = s.late := rfl
@[simp] theorem State.setCore_fresh (n : Nat) (x : Core) : (s.setCore n x).fresh = s.fresh := rfl
@[simp] theorem State.setCore_nextId (n : Nat) (x : Core) : (s.setCore n x).nextId = s.nextId := rfl
@[simp] theorem State.setCore_clock (n : Nat) (x : Core) : (s.setCore n x).clock = s.clock := rfl
@[simp] theorem State.setCore_boot (n : Nat) (x : Core) : (s.setCore n x).boot = s.boot := rfl
@[simp] theorem State.setCore_firmware (n : Nat) (x : Core) : (s.setCore n x).firmware = s.firmware := rfl
@[simp] theorem State.setCore_powerLimit (n : Nat) (x : Core) : (s.setCore n x).powerLimit = s.powerLimit := rfl
@[simp] theorem State.setCore_dies (n : Nat) (x : Core) : (s.setCore n x).dies = s.dies := rfl
@[simp] theorem State.setCore_crews (n : Nat) (x : Core) : (s.setCore n x).crews = s.crews := rfl
@[simp] theorem State.setCore_functions (n : Nat) (x : Core) : (s.setCore n x).functions = s.functions := rfl
@[simp] theorem State.setCore_heats (n : Nat) (x : Core) : (s.setCore n x).heats = s.heats := rfl
@[simp] theorem State.setCore_octets (n : Nat) (x : Core) : (s.setCore n x).octets = s.octets := rfl
@[simp] theorem State.setCore_grids (n : Nat) (x : Core) : (s.setCore n x).grids = s.grids := rfl
@[simp] theorem State.setCore_teams (n : Nat) (x : Core) : (s.setCore n x).teams = s.teams := rfl
@[simp] theorem State.setCore_cmds (n : Nat) (x : Core) : (s.setCore n x).cmds = s.cmds := rfl
@[simp] theorem State.setCore_walks (n : Nat) (x : Core) : (s.setCore n x).walks = s.walks := rfl
@[simp] theorem State.setCore_hbm (n : Nat) (x : Core) : (s.setCore n x).hbm = s.hbm := rfl
@[simp] theorem State.setCore_hostMem (n : Nat) (x : Core) : (s.setCore n x).hostMem = s.hostMem := rfl
@[simp] theorem State.setCore_poison (n : Nat) (x : Core) : (s.setCore n x).poison = s.poison := rfl
@[simp] theorem State.setCore_replReads (n : Nat) (x : Core) : (s.setCore n x).replReads = s.replReads := rfl
@[simp] theorem State.setCore_scratch (n : Nat) (x : Core) : (s.setCore n x).scratch = s.scratch := rfl
@[simp] theorem State.setCore_vault (n : Nat) (x : Core) : (s.setCore n x).vault = s.vault := rfl
@[simp] theorem State.setCore_vaultCrew (n : Nat) (x : Core) : (s.setCore n x).vaultCrew = s.vaultCrew := rfl
@[simp] theorem State.setCore_lines (n : Nat) (x : Core) : (s.setCore n x).lines = s.lines := rfl
@[simp] theorem State.setCore_mailboxes (n : Nat) (x : Core) : (s.setCore n x).mailboxes = s.mailboxes := rfl
@[simp] theorem State.setCore_windows (n : Nat) (x : Core) : (s.setCore n x).windows = s.windows := rfl
@[simp] theorem State.setCore_planes (n : Nat) (x : Core) : (s.setCore n x).planes = s.planes := rfl
@[simp] theorem State.setCore_planesNext (n : Nat) (x : Core) : (s.setCore n x).planesNext = s.planesNext := rfl
@[simp] theorem State.setCore_riggers (n : Nat) (x : Core) : (s.setCore n x).riggers = s.riggers := rfl
@[simp] theorem State.setCore_requests (n : Nat) (x : Core) : (s.setCore n x).requests = s.requests := rfl
@[simp] theorem State.setCore_peers (n : Nat) (x : Core) : (s.setCore n x).peers = s.peers := rfl
@[simp] theorem State.setCore_packets (n : Nat) (x : Core) : (s.setCore n x).packets = s.packets := rfl
@[simp] theorem State.setCore_hostErrors (n : Nat) (x : Core) : (s.setCore n x).hostErrors = s.hostErrors := rfl
@[simp] theorem State.setCore_hostLog (n : Nat) (x : Core) : (s.setCore n x).hostLog = s.hostLog := rfl
@[simp] theorem State.setCore_peerLog (n : Nat) (x : Core) : (s.setCore n x).peerLog = s.peerLog := rfl

/-! `setCrew` -/

@[simp] theorem State.setCrew_turns (c : Nat) (x : Crew) : (s.setCrew c x).turns = s.turns := rfl
@[simp] theorem State.setCrew_issuer (c : Nat) (x : Crew) : (s.setCrew c x).issuer = s.issuer := rfl
@[simp] theorem State.setCrew_late (c : Nat) (x : Crew) : (s.setCrew c x).late = s.late := rfl
@[simp] theorem State.setCrew_fresh (c : Nat) (x : Crew) : (s.setCrew c x).fresh = s.fresh := rfl
@[simp] theorem State.setCrew_nextId (c : Nat) (x : Crew) : (s.setCrew c x).nextId = s.nextId := rfl
@[simp] theorem State.setCrew_clock (c : Nat) (x : Crew) : (s.setCrew c x).clock = s.clock := rfl
@[simp] theorem State.setCrew_boot (c : Nat) (x : Crew) : (s.setCrew c x).boot = s.boot := rfl
@[simp] theorem State.setCrew_firmware (c : Nat) (x : Crew) : (s.setCrew c x).firmware = s.firmware := rfl
@[simp] theorem State.setCrew_powerLimit (c : Nat) (x : Crew) : (s.setCrew c x).powerLimit = s.powerLimit := rfl
@[simp] theorem State.setCrew_dies (c : Nat) (x : Crew) : (s.setCrew c x).dies = s.dies := rfl
@[simp] theorem State.setCrew_cores (c : Nat) (x : Crew) : (s.setCrew c x).cores = s.cores := rfl
@[simp] theorem State.setCrew_functions (c : Nat) (x : Crew) : (s.setCrew c x).functions = s.functions := rfl
@[simp] theorem State.setCrew_heats (c : Nat) (x : Crew) : (s.setCrew c x).heats = s.heats := rfl
@[simp] theorem State.setCrew_octets (c : Nat) (x : Crew) : (s.setCrew c x).octets = s.octets := rfl
@[simp] theorem State.setCrew_grids (c : Nat) (x : Crew) : (s.setCrew c x).grids = s.grids := rfl
@[simp] theorem State.setCrew_teams (c : Nat) (x : Crew) : (s.setCrew c x).teams = s.teams := rfl
@[simp] theorem State.setCrew_cmds (c : Nat) (x : Crew) : (s.setCrew c x).cmds = s.cmds := rfl
@[simp] theorem State.setCrew_walks (c : Nat) (x : Crew) : (s.setCrew c x).walks = s.walks := rfl
@[simp] theorem State.setCrew_hbm (c : Nat) (x : Crew) : (s.setCrew c x).hbm = s.hbm := rfl
@[simp] theorem State.setCrew_hostMem (c : Nat) (x : Crew) : (s.setCrew c x).hostMem = s.hostMem := rfl
@[simp] theorem State.setCrew_poison (c : Nat) (x : Crew) : (s.setCrew c x).poison = s.poison := rfl
@[simp] theorem State.setCrew_replReads (c : Nat) (x : Crew) : (s.setCrew c x).replReads = s.replReads := rfl
@[simp] theorem State.setCrew_scratch (c : Nat) (x : Crew) : (s.setCrew c x).scratch = s.scratch := rfl
@[simp] theorem State.setCrew_vault (c : Nat) (x : Crew) : (s.setCrew c x).vault = s.vault := rfl
@[simp] theorem State.setCrew_vaultCrew (c : Nat) (x : Crew) : (s.setCrew c x).vaultCrew = s.vaultCrew := rfl
@[simp] theorem State.setCrew_lines (c : Nat) (x : Crew) : (s.setCrew c x).lines = s.lines := rfl
@[simp] theorem State.setCrew_mailboxes (c : Nat) (x : Crew) : (s.setCrew c x).mailboxes = s.mailboxes := rfl
@[simp] theorem State.setCrew_windows (c : Nat) (x : Crew) : (s.setCrew c x).windows = s.windows := rfl
@[simp] theorem State.setCrew_planes (c : Nat) (x : Crew) : (s.setCrew c x).planes = s.planes := rfl
@[simp] theorem State.setCrew_planesNext (c : Nat) (x : Crew) : (s.setCrew c x).planesNext = s.planesNext := rfl
@[simp] theorem State.setCrew_riggers (c : Nat) (x : Crew) : (s.setCrew c x).riggers = s.riggers := rfl
@[simp] theorem State.setCrew_requests (c : Nat) (x : Crew) : (s.setCrew c x).requests = s.requests := rfl
@[simp] theorem State.setCrew_peers (c : Nat) (x : Crew) : (s.setCrew c x).peers = s.peers := rfl
@[simp] theorem State.setCrew_packets (c : Nat) (x : Crew) : (s.setCrew c x).packets = s.packets := rfl
@[simp] theorem State.setCrew_hostErrors (c : Nat) (x : Crew) : (s.setCrew c x).hostErrors = s.hostErrors := rfl
@[simp] theorem State.setCrew_hostLog (c : Nat) (x : Crew) : (s.setCrew c x).hostLog = s.hostLog := rfl
@[simp] theorem State.setCrew_peerLog (c : Nat) (x : Crew) : (s.setCrew c x).peerLog = s.peerLog := rfl

/-! `setFunc` -/

@[simp] theorem State.setFunc_turns (v : Nat) (x : Function) : (s.setFunc v x).turns = s.turns := rfl
@[simp] theorem State.setFunc_issuer (v : Nat) (x : Function) : (s.setFunc v x).issuer = s.issuer := rfl
@[simp] theorem State.setFunc_late (v : Nat) (x : Function) : (s.setFunc v x).late = s.late := rfl
@[simp] theorem State.setFunc_fresh (v : Nat) (x : Function) : (s.setFunc v x).fresh = s.fresh := rfl
@[simp] theorem State.setFunc_nextId (v : Nat) (x : Function) : (s.setFunc v x).nextId = s.nextId := rfl
@[simp] theorem State.setFunc_clock (v : Nat) (x : Function) : (s.setFunc v x).clock = s.clock := rfl
@[simp] theorem State.setFunc_boot (v : Nat) (x : Function) : (s.setFunc v x).boot = s.boot := rfl
@[simp] theorem State.setFunc_firmware (v : Nat) (x : Function) : (s.setFunc v x).firmware = s.firmware := rfl
@[simp] theorem State.setFunc_powerLimit (v : Nat) (x : Function) : (s.setFunc v x).powerLimit = s.powerLimit := rfl
@[simp] theorem State.setFunc_dies (v : Nat) (x : Function) : (s.setFunc v x).dies = s.dies := rfl
@[simp] theorem State.setFunc_cores (v : Nat) (x : Function) : (s.setFunc v x).cores = s.cores := rfl
@[simp] theorem State.setFunc_crews (v : Nat) (x : Function) : (s.setFunc v x).crews = s.crews := rfl
@[simp] theorem State.setFunc_heats (v : Nat) (x : Function) : (s.setFunc v x).heats = s.heats := rfl
@[simp] theorem State.setFunc_octets (v : Nat) (x : Function) : (s.setFunc v x).octets = s.octets := rfl
@[simp] theorem State.setFunc_grids (v : Nat) (x : Function) : (s.setFunc v x).grids = s.grids := rfl
@[simp] theorem State.setFunc_teams (v : Nat) (x : Function) : (s.setFunc v x).teams = s.teams := rfl
@[simp] theorem State.setFunc_cmds (v : Nat) (x : Function) : (s.setFunc v x).cmds = s.cmds := rfl
@[simp] theorem State.setFunc_walks (v : Nat) (x : Function) : (s.setFunc v x).walks = s.walks := rfl
@[simp] theorem State.setFunc_hbm (v : Nat) (x : Function) : (s.setFunc v x).hbm = s.hbm := rfl
@[simp] theorem State.setFunc_hostMem (v : Nat) (x : Function) : (s.setFunc v x).hostMem = s.hostMem := rfl
@[simp] theorem State.setFunc_poison (v : Nat) (x : Function) : (s.setFunc v x).poison = s.poison := rfl
@[simp] theorem State.setFunc_replReads (v : Nat) (x : Function) : (s.setFunc v x).replReads = s.replReads := rfl
@[simp] theorem State.setFunc_scratch (v : Nat) (x : Function) : (s.setFunc v x).scratch = s.scratch := rfl
@[simp] theorem State.setFunc_vault (v : Nat) (x : Function) : (s.setFunc v x).vault = s.vault := rfl
@[simp] theorem State.setFunc_vaultCrew (v : Nat) (x : Function) : (s.setFunc v x).vaultCrew = s.vaultCrew := rfl
@[simp] theorem State.setFunc_lines (v : Nat) (x : Function) : (s.setFunc v x).lines = s.lines := rfl
@[simp] theorem State.setFunc_mailboxes (v : Nat) (x : Function) : (s.setFunc v x).mailboxes = s.mailboxes := rfl
@[simp] theorem State.setFunc_windows (v : Nat) (x : Function) : (s.setFunc v x).windows = s.windows := rfl
@[simp] theorem State.setFunc_planes (v : Nat) (x : Function) : (s.setFunc v x).planes = s.planes := rfl
@[simp] theorem State.setFunc_planesNext (v : Nat) (x : Function) : (s.setFunc v x).planesNext = s.planesNext := rfl
@[simp] theorem State.setFunc_riggers (v : Nat) (x : Function) : (s.setFunc v x).riggers = s.riggers := rfl
@[simp] theorem State.setFunc_requests (v : Nat) (x : Function) : (s.setFunc v x).requests = s.requests := rfl
@[simp] theorem State.setFunc_peers (v : Nat) (x : Function) : (s.setFunc v x).peers = s.peers := rfl
@[simp] theorem State.setFunc_packets (v : Nat) (x : Function) : (s.setFunc v x).packets = s.packets := rfl
@[simp] theorem State.setFunc_hostErrors (v : Nat) (x : Function) : (s.setFunc v x).hostErrors = s.hostErrors := rfl
@[simp] theorem State.setFunc_hostLog (v : Nat) (x : Function) : (s.setFunc v x).hostLog = s.hostLog := rfl
@[simp] theorem State.setFunc_peerLog (v : Nat) (x : Function) : (s.setFunc v x).peerLog = s.peerLog := rfl

/-! `setHeat` -/

@[simp] theorem State.setHeat_turns (b : Nat) (x : HeatTable) : (s.setHeat b x).turns = s.turns := rfl
@[simp] theorem State.setHeat_issuer (b : Nat) (x : HeatTable) : (s.setHeat b x).issuer = s.issuer := rfl
@[simp] theorem State.setHeat_late (b : Nat) (x : HeatTable) : (s.setHeat b x).late = s.late := rfl
@[simp] theorem State.setHeat_fresh (b : Nat) (x : HeatTable) : (s.setHeat b x).fresh = s.fresh := rfl
@[simp] theorem State.setHeat_nextId (b : Nat) (x : HeatTable) : (s.setHeat b x).nextId = s.nextId := rfl
@[simp] theorem State.setHeat_clock (b : Nat) (x : HeatTable) : (s.setHeat b x).clock = s.clock := rfl
@[simp] theorem State.setHeat_boot (b : Nat) (x : HeatTable) : (s.setHeat b x).boot = s.boot := rfl
@[simp] theorem State.setHeat_firmware (b : Nat) (x : HeatTable) : (s.setHeat b x).firmware = s.firmware := rfl
@[simp] theorem State.setHeat_powerLimit (b : Nat) (x : HeatTable) : (s.setHeat b x).powerLimit = s.powerLimit := rfl
@[simp] theorem State.setHeat_dies (b : Nat) (x : HeatTable) : (s.setHeat b x).dies = s.dies := rfl
@[simp] theorem State.setHeat_cores (b : Nat) (x : HeatTable) : (s.setHeat b x).cores = s.cores := rfl
@[simp] theorem State.setHeat_crews (b : Nat) (x : HeatTable) : (s.setHeat b x).crews = s.crews := rfl
@[simp] theorem State.setHeat_functions (b : Nat) (x : HeatTable) : (s.setHeat b x).functions = s.functions := rfl
@[simp] theorem State.setHeat_octets (b : Nat) (x : HeatTable) : (s.setHeat b x).octets = s.octets := rfl
@[simp] theorem State.setHeat_grids (b : Nat) (x : HeatTable) : (s.setHeat b x).grids = s.grids := rfl
@[simp] theorem State.setHeat_teams (b : Nat) (x : HeatTable) : (s.setHeat b x).teams = s.teams := rfl
@[simp] theorem State.setHeat_cmds (b : Nat) (x : HeatTable) : (s.setHeat b x).cmds = s.cmds := rfl
@[simp] theorem State.setHeat_walks (b : Nat) (x : HeatTable) : (s.setHeat b x).walks = s.walks := rfl
@[simp] theorem State.setHeat_hbm (b : Nat) (x : HeatTable) : (s.setHeat b x).hbm = s.hbm := rfl
@[simp] theorem State.setHeat_hostMem (b : Nat) (x : HeatTable) : (s.setHeat b x).hostMem = s.hostMem := rfl
@[simp] theorem State.setHeat_poison (b : Nat) (x : HeatTable) : (s.setHeat b x).poison = s.poison := rfl
@[simp] theorem State.setHeat_replReads (b : Nat) (x : HeatTable) : (s.setHeat b x).replReads = s.replReads := rfl
@[simp] theorem State.setHeat_scratch (b : Nat) (x : HeatTable) : (s.setHeat b x).scratch = s.scratch := rfl
@[simp] theorem State.setHeat_vault (b : Nat) (x : HeatTable) : (s.setHeat b x).vault = s.vault := rfl
@[simp] theorem State.setHeat_vaultCrew (b : Nat) (x : HeatTable) : (s.setHeat b x).vaultCrew = s.vaultCrew := rfl
@[simp] theorem State.setHeat_lines (b : Nat) (x : HeatTable) : (s.setHeat b x).lines = s.lines := rfl
@[simp] theorem State.setHeat_mailboxes (b : Nat) (x : HeatTable) : (s.setHeat b x).mailboxes = s.mailboxes := rfl
@[simp] theorem State.setHeat_windows (b : Nat) (x : HeatTable) : (s.setHeat b x).windows = s.windows := rfl
@[simp] theorem State.setHeat_planes (b : Nat) (x : HeatTable) : (s.setHeat b x).planes = s.planes := rfl
@[simp] theorem State.setHeat_planesNext (b : Nat) (x : HeatTable) : (s.setHeat b x).planesNext = s.planesNext := rfl
@[simp] theorem State.setHeat_riggers (b : Nat) (x : HeatTable) : (s.setHeat b x).riggers = s.riggers := rfl
@[simp] theorem State.setHeat_requests (b : Nat) (x : HeatTable) : (s.setHeat b x).requests = s.requests := rfl
@[simp] theorem State.setHeat_peers (b : Nat) (x : HeatTable) : (s.setHeat b x).peers = s.peers := rfl
@[simp] theorem State.setHeat_packets (b : Nat) (x : HeatTable) : (s.setHeat b x).packets = s.packets := rfl
@[simp] theorem State.setHeat_hostErrors (b : Nat) (x : HeatTable) : (s.setHeat b x).hostErrors = s.hostErrors := rfl
@[simp] theorem State.setHeat_hostLog (b : Nat) (x : HeatTable) : (s.setHeat b x).hostLog = s.hostLog := rfl
@[simp] theorem State.setHeat_peerLog (b : Nat) (x : HeatTable) : (s.setHeat b x).peerLog = s.peerLog := rfl

/-! `setRigger` -/

@[simp] theorem State.setRigger_turns (k : Nat) (x : Rigger) : (s.setRigger k x).turns = s.turns := rfl
@[simp] theorem State.setRigger_issuer (k : Nat) (x : Rigger) : (s.setRigger k x).issuer = s.issuer := rfl
@[simp] theorem State.setRigger_late (k : Nat) (x : Rigger) : (s.setRigger k x).late = s.late := rfl
@[simp] theorem State.setRigger_fresh (k : Nat) (x : Rigger) : (s.setRigger k x).fresh = s.fresh := rfl
@[simp] theorem State.setRigger_nextId (k : Nat) (x : Rigger) : (s.setRigger k x).nextId = s.nextId := rfl
@[simp] theorem State.setRigger_clock (k : Nat) (x : Rigger) : (s.setRigger k x).clock = s.clock := rfl
@[simp] theorem State.setRigger_boot (k : Nat) (x : Rigger) : (s.setRigger k x).boot = s.boot := rfl
@[simp] theorem State.setRigger_firmware (k : Nat) (x : Rigger) : (s.setRigger k x).firmware = s.firmware := rfl
@[simp] theorem State.setRigger_powerLimit (k : Nat) (x : Rigger) : (s.setRigger k x).powerLimit = s.powerLimit := rfl
@[simp] theorem State.setRigger_dies (k : Nat) (x : Rigger) : (s.setRigger k x).dies = s.dies := rfl
@[simp] theorem State.setRigger_cores (k : Nat) (x : Rigger) : (s.setRigger k x).cores = s.cores := rfl
@[simp] theorem State.setRigger_crews (k : Nat) (x : Rigger) : (s.setRigger k x).crews = s.crews := rfl
@[simp] theorem State.setRigger_functions (k : Nat) (x : Rigger) : (s.setRigger k x).functions = s.functions := rfl
@[simp] theorem State.setRigger_heats (k : Nat) (x : Rigger) : (s.setRigger k x).heats = s.heats := rfl
@[simp] theorem State.setRigger_octets (k : Nat) (x : Rigger) : (s.setRigger k x).octets = s.octets := rfl
@[simp] theorem State.setRigger_grids (k : Nat) (x : Rigger) : (s.setRigger k x).grids = s.grids := rfl
@[simp] theorem State.setRigger_teams (k : Nat) (x : Rigger) : (s.setRigger k x).teams = s.teams := rfl
@[simp] theorem State.setRigger_cmds (k : Nat) (x : Rigger) : (s.setRigger k x).cmds = s.cmds := rfl
@[simp] theorem State.setRigger_walks (k : Nat) (x : Rigger) : (s.setRigger k x).walks = s.walks := rfl
@[simp] theorem State.setRigger_hbm (k : Nat) (x : Rigger) : (s.setRigger k x).hbm = s.hbm := rfl
@[simp] theorem State.setRigger_hostMem (k : Nat) (x : Rigger) : (s.setRigger k x).hostMem = s.hostMem := rfl
@[simp] theorem State.setRigger_poison (k : Nat) (x : Rigger) : (s.setRigger k x).poison = s.poison := rfl
@[simp] theorem State.setRigger_replReads (k : Nat) (x : Rigger) : (s.setRigger k x).replReads = s.replReads := rfl
@[simp] theorem State.setRigger_scratch (k : Nat) (x : Rigger) : (s.setRigger k x).scratch = s.scratch := rfl
@[simp] theorem State.setRigger_vault (k : Nat) (x : Rigger) : (s.setRigger k x).vault = s.vault := rfl
@[simp] theorem State.setRigger_vaultCrew (k : Nat) (x : Rigger) : (s.setRigger k x).vaultCrew = s.vaultCrew := rfl
@[simp] theorem State.setRigger_lines (k : Nat) (x : Rigger) : (s.setRigger k x).lines = s.lines := rfl
@[simp] theorem State.setRigger_mailboxes (k : Nat) (x : Rigger) : (s.setRigger k x).mailboxes = s.mailboxes := rfl
@[simp] theorem State.setRigger_windows (k : Nat) (x : Rigger) : (s.setRigger k x).windows = s.windows := rfl
@[simp] theorem State.setRigger_planes (k : Nat) (x : Rigger) : (s.setRigger k x).planes = s.planes := rfl
@[simp] theorem State.setRigger_planesNext (k : Nat) (x : Rigger) : (s.setRigger k x).planesNext = s.planesNext := rfl
@[simp] theorem State.setRigger_requests (k : Nat) (x : Rigger) : (s.setRigger k x).requests = s.requests := rfl
@[simp] theorem State.setRigger_peers (k : Nat) (x : Rigger) : (s.setRigger k x).peers = s.peers := rfl
@[simp] theorem State.setRigger_packets (k : Nat) (x : Rigger) : (s.setRigger k x).packets = s.packets := rfl
@[simp] theorem State.setRigger_hostErrors (k : Nat) (x : Rigger) : (s.setRigger k x).hostErrors = s.hostErrors := rfl
@[simp] theorem State.setRigger_hostLog (k : Nat) (x : Rigger) : (s.setRigger k x).hostLog = s.hostLog := rfl
@[simp] theorem State.setRigger_peerLog (k : Nat) (x : Rigger) : (s.setRigger k x).peerLog = s.peerLog := rfl

/-! `setTeam` -/

@[simp] theorem State.setTeam_turns (t : Nat) (x : Team) : (s.setTeam t x).turns = s.turns := rfl
@[simp] theorem State.setTeam_issuer (t : Nat) (x : Team) : (s.setTeam t x).issuer = s.issuer := rfl
@[simp] theorem State.setTeam_late (t : Nat) (x : Team) : (s.setTeam t x).late = s.late := rfl
@[simp] theorem State.setTeam_fresh (t : Nat) (x : Team) : (s.setTeam t x).fresh = s.fresh := rfl
@[simp] theorem State.setTeam_nextId (t : Nat) (x : Team) : (s.setTeam t x).nextId = s.nextId := rfl
@[simp] theorem State.setTeam_clock (t : Nat) (x : Team) : (s.setTeam t x).clock = s.clock := rfl
@[simp] theorem State.setTeam_boot (t : Nat) (x : Team) : (s.setTeam t x).boot = s.boot := rfl
@[simp] theorem State.setTeam_firmware (t : Nat) (x : Team) : (s.setTeam t x).firmware = s.firmware := rfl
@[simp] theorem State.setTeam_powerLimit (t : Nat) (x : Team) : (s.setTeam t x).powerLimit = s.powerLimit := rfl
@[simp] theorem State.setTeam_dies (t : Nat) (x : Team) : (s.setTeam t x).dies = s.dies := rfl
@[simp] theorem State.setTeam_cores (t : Nat) (x : Team) : (s.setTeam t x).cores = s.cores := rfl
@[simp] theorem State.setTeam_crews (t : Nat) (x : Team) : (s.setTeam t x).crews = s.crews := rfl
@[simp] theorem State.setTeam_functions (t : Nat) (x : Team) : (s.setTeam t x).functions = s.functions := rfl
@[simp] theorem State.setTeam_heats (t : Nat) (x : Team) : (s.setTeam t x).heats = s.heats := rfl
@[simp] theorem State.setTeam_octets (t : Nat) (x : Team) : (s.setTeam t x).octets = s.octets := rfl
@[simp] theorem State.setTeam_grids (t : Nat) (x : Team) : (s.setTeam t x).grids = s.grids := rfl
@[simp] theorem State.setTeam_cmds (t : Nat) (x : Team) : (s.setTeam t x).cmds = s.cmds := rfl
@[simp] theorem State.setTeam_walks (t : Nat) (x : Team) : (s.setTeam t x).walks = s.walks := rfl
@[simp] theorem State.setTeam_hbm (t : Nat) (x : Team) : (s.setTeam t x).hbm = s.hbm := rfl
@[simp] theorem State.setTeam_hostMem (t : Nat) (x : Team) : (s.setTeam t x).hostMem = s.hostMem := rfl
@[simp] theorem State.setTeam_poison (t : Nat) (x : Team) : (s.setTeam t x).poison = s.poison := rfl
@[simp] theorem State.setTeam_replReads (t : Nat) (x : Team) : (s.setTeam t x).replReads = s.replReads := rfl
@[simp] theorem State.setTeam_scratch (t : Nat) (x : Team) : (s.setTeam t x).scratch = s.scratch := rfl
@[simp] theorem State.setTeam_vault (t : Nat) (x : Team) : (s.setTeam t x).vault = s.vault := rfl
@[simp] theorem State.setTeam_vaultCrew (t : Nat) (x : Team) : (s.setTeam t x).vaultCrew = s.vaultCrew := rfl
@[simp] theorem State.setTeam_lines (t : Nat) (x : Team) : (s.setTeam t x).lines = s.lines := rfl
@[simp] theorem State.setTeam_mailboxes (t : Nat) (x : Team) : (s.setTeam t x).mailboxes = s.mailboxes := rfl
@[simp] theorem State.setTeam_windows (t : Nat) (x : Team) : (s.setTeam t x).windows = s.windows := rfl
@[simp] theorem State.setTeam_planes (t : Nat) (x : Team) : (s.setTeam t x).planes = s.planes := rfl
@[simp] theorem State.setTeam_planesNext (t : Nat) (x : Team) : (s.setTeam t x).planesNext = s.planesNext := rfl
@[simp] theorem State.setTeam_riggers (t : Nat) (x : Team) : (s.setTeam t x).riggers = s.riggers := rfl
@[simp] theorem State.setTeam_requests (t : Nat) (x : Team) : (s.setTeam t x).requests = s.requests := rfl
@[simp] theorem State.setTeam_peers (t : Nat) (x : Team) : (s.setTeam t x).peers = s.peers := rfl
@[simp] theorem State.setTeam_packets (t : Nat) (x : Team) : (s.setTeam t x).packets = s.packets := rfl
@[simp] theorem State.setTeam_hostErrors (t : Nat) (x : Team) : (s.setTeam t x).hostErrors = s.hostErrors := rfl
@[simp] theorem State.setTeam_hostLog (t : Nat) (x : Team) : (s.setTeam t x).hostLog = s.hostLog := rfl
@[simp] theorem State.setTeam_peerLog (t : Nat) (x : Team) : (s.setTeam t x).peerLog = s.peerLog := rfl

/-! `modTeam` -/

@[simp] theorem State.modTeam_turns (t : Nat) (f : Team → Team) : (s.modTeam t f).turns = s.turns := rfl
@[simp] theorem State.modTeam_issuer (t : Nat) (f : Team → Team) : (s.modTeam t f).issuer = s.issuer := rfl
@[simp] theorem State.modTeam_late (t : Nat) (f : Team → Team) : (s.modTeam t f).late = s.late := rfl
@[simp] theorem State.modTeam_fresh (t : Nat) (f : Team → Team) : (s.modTeam t f).fresh = s.fresh := rfl
@[simp] theorem State.modTeam_nextId (t : Nat) (f : Team → Team) : (s.modTeam t f).nextId = s.nextId := rfl
@[simp] theorem State.modTeam_clock (t : Nat) (f : Team → Team) : (s.modTeam t f).clock = s.clock := rfl
@[simp] theorem State.modTeam_boot (t : Nat) (f : Team → Team) : (s.modTeam t f).boot = s.boot := rfl
@[simp] theorem State.modTeam_firmware (t : Nat) (f : Team → Team) : (s.modTeam t f).firmware = s.firmware := rfl
@[simp] theorem State.modTeam_powerLimit (t : Nat) (f : Team → Team) : (s.modTeam t f).powerLimit = s.powerLimit := rfl
@[simp] theorem State.modTeam_dies (t : Nat) (f : Team → Team) : (s.modTeam t f).dies = s.dies := rfl
@[simp] theorem State.modTeam_cores (t : Nat) (f : Team → Team) : (s.modTeam t f).cores = s.cores := rfl
@[simp] theorem State.modTeam_crews (t : Nat) (f : Team → Team) : (s.modTeam t f).crews = s.crews := rfl
@[simp] theorem State.modTeam_functions (t : Nat) (f : Team → Team) : (s.modTeam t f).functions = s.functions := rfl
@[simp] theorem State.modTeam_heats (t : Nat) (f : Team → Team) : (s.modTeam t f).heats = s.heats := rfl
@[simp] theorem State.modTeam_octets (t : Nat) (f : Team → Team) : (s.modTeam t f).octets = s.octets := rfl
@[simp] theorem State.modTeam_grids (t : Nat) (f : Team → Team) : (s.modTeam t f).grids = s.grids := rfl
@[simp] theorem State.modTeam_cmds (t : Nat) (f : Team → Team) : (s.modTeam t f).cmds = s.cmds := rfl
@[simp] theorem State.modTeam_walks (t : Nat) (f : Team → Team) : (s.modTeam t f).walks = s.walks := rfl
@[simp] theorem State.modTeam_hbm (t : Nat) (f : Team → Team) : (s.modTeam t f).hbm = s.hbm := rfl
@[simp] theorem State.modTeam_hostMem (t : Nat) (f : Team → Team) : (s.modTeam t f).hostMem = s.hostMem := rfl
@[simp] theorem State.modTeam_poison (t : Nat) (f : Team → Team) : (s.modTeam t f).poison = s.poison := rfl
@[simp] theorem State.modTeam_replReads (t : Nat) (f : Team → Team) : (s.modTeam t f).replReads = s.replReads := rfl
@[simp] theorem State.modTeam_scratch (t : Nat) (f : Team → Team) : (s.modTeam t f).scratch = s.scratch := rfl
@[simp] theorem State.modTeam_vault (t : Nat) (f : Team → Team) : (s.modTeam t f).vault = s.vault := rfl
@[simp] theorem State.modTeam_vaultCrew (t : Nat) (f : Team → Team) : (s.modTeam t f).vaultCrew = s.vaultCrew := rfl
@[simp] theorem State.modTeam_lines (t : Nat) (f : Team → Team) : (s.modTeam t f).lines = s.lines := rfl
@[simp] theorem State.modTeam_mailboxes (t : Nat) (f : Team → Team) : (s.modTeam t f).mailboxes = s.mailboxes := rfl
@[simp] theorem State.modTeam_windows (t : Nat) (f : Team → Team) : (s.modTeam t f).windows = s.windows := rfl
@[simp] theorem State.modTeam_planes (t : Nat) (f : Team → Team) : (s.modTeam t f).planes = s.planes := rfl
@[simp] theorem State.modTeam_planesNext (t : Nat) (f : Team → Team) : (s.modTeam t f).planesNext = s.planesNext := rfl
@[simp] theorem State.modTeam_riggers (t : Nat) (f : Team → Team) : (s.modTeam t f).riggers = s.riggers := rfl
@[simp] theorem State.modTeam_requests (t : Nat) (f : Team → Team) : (s.modTeam t f).requests = s.requests := rfl
@[simp] theorem State.modTeam_peers (t : Nat) (f : Team → Team) : (s.modTeam t f).peers = s.peers := rfl
@[simp] theorem State.modTeam_packets (t : Nat) (f : Team → Team) : (s.modTeam t f).packets = s.packets := rfl
@[simp] theorem State.modTeam_hostErrors (t : Nat) (f : Team → Team) : (s.modTeam t f).hostErrors = s.hostErrors := rfl
@[simp] theorem State.modTeam_hostLog (t : Nat) (f : Team → Team) : (s.modTeam t f).hostLog = s.hostLog := rfl
@[simp] theorem State.modTeam_peerLog (t : Nat) (f : Team → Team) : (s.modTeam t f).peerLog = s.peerLog := rfl

/-! `modGroup` -/

@[simp] theorem State.modGroup_turns (t gi : Nat) (f : Group → Group) : (s.modGroup t gi f).turns = s.turns := rfl
@[simp] theorem State.modGroup_issuer (t gi : Nat) (f : Group → Group) : (s.modGroup t gi f).issuer = s.issuer := rfl
@[simp] theorem State.modGroup_late (t gi : Nat) (f : Group → Group) : (s.modGroup t gi f).late = s.late := rfl
@[simp] theorem State.modGroup_fresh (t gi : Nat) (f : Group → Group) : (s.modGroup t gi f).fresh = s.fresh := rfl
@[simp] theorem State.modGroup_nextId (t gi : Nat) (f : Group → Group) : (s.modGroup t gi f).nextId = s.nextId := rfl
@[simp] theorem State.modGroup_clock (t gi : Nat) (f : Group → Group) : (s.modGroup t gi f).clock = s.clock := rfl
@[simp] theorem State.modGroup_boot (t gi : Nat) (f : Group → Group) : (s.modGroup t gi f).boot = s.boot := rfl
@[simp] theorem State.modGroup_firmware (t gi : Nat) (f : Group → Group) : (s.modGroup t gi f).firmware = s.firmware := rfl
@[simp] theorem State.modGroup_powerLimit (t gi : Nat) (f : Group → Group) : (s.modGroup t gi f).powerLimit = s.powerLimit := rfl
@[simp] theorem State.modGroup_dies (t gi : Nat) (f : Group → Group) : (s.modGroup t gi f).dies = s.dies := rfl
@[simp] theorem State.modGroup_cores (t gi : Nat) (f : Group → Group) : (s.modGroup t gi f).cores = s.cores := rfl
@[simp] theorem State.modGroup_crews (t gi : Nat) (f : Group → Group) : (s.modGroup t gi f).crews = s.crews := rfl
@[simp] theorem State.modGroup_functions (t gi : Nat) (f : Group → Group) : (s.modGroup t gi f).functions = s.functions := rfl
@[simp] theorem State.modGroup_heats (t gi : Nat) (f : Group → Group) : (s.modGroup t gi f).heats = s.heats := rfl
@[simp] theorem State.modGroup_octets (t gi : Nat) (f : Group → Group) : (s.modGroup t gi f).octets = s.octets := rfl
@[simp] theorem State.modGroup_grids (t gi : Nat) (f : Group → Group) : (s.modGroup t gi f).grids = s.grids := rfl
@[simp] theorem State.modGroup_cmds (t gi : Nat) (f : Group → Group) : (s.modGroup t gi f).cmds = s.cmds := rfl
@[simp] theorem State.modGroup_walks (t gi : Nat) (f : Group → Group) : (s.modGroup t gi f).walks = s.walks := rfl
@[simp] theorem State.modGroup_hbm (t gi : Nat) (f : Group → Group) : (s.modGroup t gi f).hbm = s.hbm := rfl
@[simp] theorem State.modGroup_hostMem (t gi : Nat) (f : Group → Group) : (s.modGroup t gi f).hostMem = s.hostMem := rfl
@[simp] theorem State.modGroup_poison (t gi : Nat) (f : Group → Group) : (s.modGroup t gi f).poison = s.poison := rfl
@[simp] theorem State.modGroup_replReads (t gi : Nat) (f : Group → Group) : (s.modGroup t gi f).replReads = s.replReads := rfl
@[simp] theorem State.modGroup_scratch (t gi : Nat) (f : Group → Group) : (s.modGroup t gi f).scratch = s.scratch := rfl
@[simp] theorem State.modGroup_vault (t gi : Nat) (f : Group → Group) : (s.modGroup t gi f).vault = s.vault := rfl
@[simp] theorem State.modGroup_vaultCrew (t gi : Nat) (f : Group → Group) : (s.modGroup t gi f).vaultCrew = s.vaultCrew := rfl
@[simp] theorem State.modGroup_lines (t gi : Nat) (f : Group → Group) : (s.modGroup t gi f).lines = s.lines := rfl
@[simp] theorem State.modGroup_mailboxes (t gi : Nat) (f : Group → Group) : (s.modGroup t gi f).mailboxes = s.mailboxes := rfl
@[simp] theorem State.modGroup_windows (t gi : Nat) (f : Group → Group) : (s.modGroup t gi f).windows = s.windows := rfl
@[simp] theorem State.modGroup_planes (t gi : Nat) (f : Group → Group) : (s.modGroup t gi f).planes = s.planes := rfl
@[simp] theorem State.modGroup_planesNext (t gi : Nat) (f : Group → Group) : (s.modGroup t gi f).planesNext = s.planesNext := rfl
@[simp] theorem State.modGroup_riggers (t gi : Nat) (f : Group → Group) : (s.modGroup t gi f).riggers = s.riggers := rfl
@[simp] theorem State.modGroup_requests (t gi : Nat) (f : Group → Group) : (s.modGroup t gi f).requests = s.requests := rfl
@[simp] theorem State.modGroup_peers (t gi : Nat) (f : Group → Group) : (s.modGroup t gi f).peers = s.peers := rfl
@[simp] theorem State.modGroup_packets (t gi : Nat) (f : Group → Group) : (s.modGroup t gi f).packets = s.packets := rfl
@[simp] theorem State.modGroup_hostErrors (t gi : Nat) (f : Group → Group) : (s.modGroup t gi f).hostErrors = s.hostErrors := rfl
@[simp] theorem State.modGroup_hostLog (t gi : Nat) (f : Group → Group) : (s.modGroup t gi f).hostLog = s.hostLog := rfl
@[simp] theorem State.modGroup_peerLog (t gi : Nat) (f : Group → Group) : (s.modGroup t gi f).peerLog = s.peerLog := rfl

/-! `setGroup` -/

@[simp] theorem State.setGroup_turns (t gi : Nat) (g : Group) : (s.setGroup t gi g).turns = s.turns := rfl
@[simp] theorem State.setGroup_issuer (t gi : Nat) (g : Group) : (s.setGroup t gi g).issuer = s.issuer := rfl
@[simp] theorem State.setGroup_late (t gi : Nat) (g : Group) : (s.setGroup t gi g).late = s.late := rfl
@[simp] theorem State.setGroup_fresh (t gi : Nat) (g : Group) : (s.setGroup t gi g).fresh = s.fresh := rfl
@[simp] theorem State.setGroup_nextId (t gi : Nat) (g : Group) : (s.setGroup t gi g).nextId = s.nextId := rfl
@[simp] theorem State.setGroup_clock (t gi : Nat) (g : Group) : (s.setGroup t gi g).clock = s.clock := rfl
@[simp] theorem State.setGroup_boot (t gi : Nat) (g : Group) : (s.setGroup t gi g).boot = s.boot := rfl
@[simp] theorem State.setGroup_firmware (t gi : Nat) (g : Group) : (s.setGroup t gi g).firmware = s.firmware := rfl
@[simp] theorem State.setGroup_powerLimit (t gi : Nat) (g : Group) : (s.setGroup t gi g).powerLimit = s.powerLimit := rfl
@[simp] theorem State.setGroup_dies (t gi : Nat) (g : Group) : (s.setGroup t gi g).dies = s.dies := rfl
@[simp] theorem State.setGroup_cores (t gi : Nat) (g : Group) : (s.setGroup t gi g).cores = s.cores := rfl
@[simp] theorem State.setGroup_crews (t gi : Nat) (g : Group) : (s.setGroup t gi g).crews = s.crews := rfl
@[simp] theorem State.setGroup_functions (t gi : Nat) (g : Group) : (s.setGroup t gi g).functions = s.functions := rfl
@[simp] theorem State.setGroup_heats (t gi : Nat) (g : Group) : (s.setGroup t gi g).heats = s.heats := rfl
@[simp] theorem State.setGroup_octets (t gi : Nat) (g : Group) : (s.setGroup t gi g).octets = s.octets := rfl
@[simp] theorem State.setGroup_grids (t gi : Nat) (g : Group) : (s.setGroup t gi g).grids = s.grids := rfl
@[simp] theorem State.setGroup_cmds (t gi : Nat) (g : Group) : (s.setGroup t gi g).cmds = s.cmds := rfl
@[simp] theorem State.setGroup_walks (t gi : Nat) (g : Group) : (s.setGroup t gi g).walks = s.walks := rfl
@[simp] theorem State.setGroup_hbm (t gi : Nat) (g : Group) : (s.setGroup t gi g).hbm = s.hbm := rfl
@[simp] theorem State.setGroup_hostMem (t gi : Nat) (g : Group) : (s.setGroup t gi g).hostMem = s.hostMem := rfl
@[simp] theorem State.setGroup_poison (t gi : Nat) (g : Group) : (s.setGroup t gi g).poison = s.poison := rfl
@[simp] theorem State.setGroup_replReads (t gi : Nat) (g : Group) : (s.setGroup t gi g).replReads = s.replReads := rfl
@[simp] theorem State.setGroup_scratch (t gi : Nat) (g : Group) : (s.setGroup t gi g).scratch = s.scratch := rfl
@[simp] theorem State.setGroup_vault (t gi : Nat) (g : Group) : (s.setGroup t gi g).vault = s.vault := rfl
@[simp] theorem State.setGroup_vaultCrew (t gi : Nat) (g : Group) : (s.setGroup t gi g).vaultCrew = s.vaultCrew := rfl
@[simp] theorem State.setGroup_lines (t gi : Nat) (g : Group) : (s.setGroup t gi g).lines = s.lines := rfl
@[simp] theorem State.setGroup_mailboxes (t gi : Nat) (g : Group) : (s.setGroup t gi g).mailboxes = s.mailboxes := rfl
@[simp] theorem State.setGroup_windows (t gi : Nat) (g : Group) : (s.setGroup t gi g).windows = s.windows := rfl
@[simp] theorem State.setGroup_planes (t gi : Nat) (g : Group) : (s.setGroup t gi g).planes = s.planes := rfl
@[simp] theorem State.setGroup_planesNext (t gi : Nat) (g : Group) : (s.setGroup t gi g).planesNext = s.planesNext := rfl
@[simp] theorem State.setGroup_riggers (t gi : Nat) (g : Group) : (s.setGroup t gi g).riggers = s.riggers := rfl
@[simp] theorem State.setGroup_requests (t gi : Nat) (g : Group) : (s.setGroup t gi g).requests = s.requests := rfl
@[simp] theorem State.setGroup_peers (t gi : Nat) (g : Group) : (s.setGroup t gi g).peers = s.peers := rfl
@[simp] theorem State.setGroup_packets (t gi : Nat) (g : Group) : (s.setGroup t gi g).packets = s.packets := rfl
@[simp] theorem State.setGroup_hostErrors (t gi : Nat) (g : Group) : (s.setGroup t gi g).hostErrors = s.hostErrors := rfl
@[simp] theorem State.setGroup_hostLog (t gi : Nat) (g : Group) : (s.setGroup t gi g).hostLog = s.hostLog := rfl
@[simp] theorem State.setGroup_peerLog (t gi : Nat) (g : Group) : (s.setGroup t gi g).peerLog = s.peerLog := rfl

/-! `modSeat` -/

@[simp] theorem State.modSeat_turns (t : Nat) (f : Seat → Seat) : (s.modSeat t f).turns = s.turns := rfl
@[simp] theorem State.modSeat_issuer (t : Nat) (f : Seat → Seat) : (s.modSeat t f).issuer = s.issuer := rfl
@[simp] theorem State.modSeat_late (t : Nat) (f : Seat → Seat) : (s.modSeat t f).late = s.late := rfl
@[simp] theorem State.modSeat_fresh (t : Nat) (f : Seat → Seat) : (s.modSeat t f).fresh = s.fresh := rfl
@[simp] theorem State.modSeat_nextId (t : Nat) (f : Seat → Seat) : (s.modSeat t f).nextId = s.nextId := rfl
@[simp] theorem State.modSeat_clock (t : Nat) (f : Seat → Seat) : (s.modSeat t f).clock = s.clock := rfl
@[simp] theorem State.modSeat_boot (t : Nat) (f : Seat → Seat) : (s.modSeat t f).boot = s.boot := rfl
@[simp] theorem State.modSeat_firmware (t : Nat) (f : Seat → Seat) : (s.modSeat t f).firmware = s.firmware := rfl
@[simp] theorem State.modSeat_powerLimit (t : Nat) (f : Seat → Seat) : (s.modSeat t f).powerLimit = s.powerLimit := rfl
@[simp] theorem State.modSeat_dies (t : Nat) (f : Seat → Seat) : (s.modSeat t f).dies = s.dies := rfl
@[simp] theorem State.modSeat_cores (t : Nat) (f : Seat → Seat) : (s.modSeat t f).cores = s.cores := rfl
@[simp] theorem State.modSeat_crews (t : Nat) (f : Seat → Seat) : (s.modSeat t f).crews = s.crews := rfl
@[simp] theorem State.modSeat_functions (t : Nat) (f : Seat → Seat) : (s.modSeat t f).functions = s.functions := rfl
@[simp] theorem State.modSeat_heats (t : Nat) (f : Seat → Seat) : (s.modSeat t f).heats = s.heats := rfl
@[simp] theorem State.modSeat_octets (t : Nat) (f : Seat → Seat) : (s.modSeat t f).octets = s.octets := rfl
@[simp] theorem State.modSeat_grids (t : Nat) (f : Seat → Seat) : (s.modSeat t f).grids = s.grids := rfl
@[simp] theorem State.modSeat_cmds (t : Nat) (f : Seat → Seat) : (s.modSeat t f).cmds = s.cmds := rfl
@[simp] theorem State.modSeat_walks (t : Nat) (f : Seat → Seat) : (s.modSeat t f).walks = s.walks := rfl
@[simp] theorem State.modSeat_hbm (t : Nat) (f : Seat → Seat) : (s.modSeat t f).hbm = s.hbm := rfl
@[simp] theorem State.modSeat_hostMem (t : Nat) (f : Seat → Seat) : (s.modSeat t f).hostMem = s.hostMem := rfl
@[simp] theorem State.modSeat_poison (t : Nat) (f : Seat → Seat) : (s.modSeat t f).poison = s.poison := rfl
@[simp] theorem State.modSeat_replReads (t : Nat) (f : Seat → Seat) : (s.modSeat t f).replReads = s.replReads := rfl
@[simp] theorem State.modSeat_scratch (t : Nat) (f : Seat → Seat) : (s.modSeat t f).scratch = s.scratch := rfl
@[simp] theorem State.modSeat_vault (t : Nat) (f : Seat → Seat) : (s.modSeat t f).vault = s.vault := rfl
@[simp] theorem State.modSeat_vaultCrew (t : Nat) (f : Seat → Seat) : (s.modSeat t f).vaultCrew = s.vaultCrew := rfl
@[simp] theorem State.modSeat_lines (t : Nat) (f : Seat → Seat) : (s.modSeat t f).lines = s.lines := rfl
@[simp] theorem State.modSeat_mailboxes (t : Nat) (f : Seat → Seat) : (s.modSeat t f).mailboxes = s.mailboxes := rfl
@[simp] theorem State.modSeat_windows (t : Nat) (f : Seat → Seat) : (s.modSeat t f).windows = s.windows := rfl
@[simp] theorem State.modSeat_planes (t : Nat) (f : Seat → Seat) : (s.modSeat t f).planes = s.planes := rfl
@[simp] theorem State.modSeat_planesNext (t : Nat) (f : Seat → Seat) : (s.modSeat t f).planesNext = s.planesNext := rfl
@[simp] theorem State.modSeat_riggers (t : Nat) (f : Seat → Seat) : (s.modSeat t f).riggers = s.riggers := rfl
@[simp] theorem State.modSeat_requests (t : Nat) (f : Seat → Seat) : (s.modSeat t f).requests = s.requests := rfl
@[simp] theorem State.modSeat_peers (t : Nat) (f : Seat → Seat) : (s.modSeat t f).peers = s.peers := rfl
@[simp] theorem State.modSeat_packets (t : Nat) (f : Seat → Seat) : (s.modSeat t f).packets = s.packets := rfl
@[simp] theorem State.modSeat_hostErrors (t : Nat) (f : Seat → Seat) : (s.modSeat t f).hostErrors = s.hostErrors := rfl
@[simp] theorem State.modSeat_hostLog (t : Nat) (f : Seat → Seat) : (s.modSeat t f).hostLog = s.hostLog := rfl
@[simp] theorem State.modSeat_peerLog (t : Nat) (f : Seat → Seat) : (s.modSeat t f).peerLog = s.peerLog := rfl

/-! `modGrid` -/

@[simp] theorem State.modGrid_turns (i : Nat) (f : Grid → Grid) : (s.modGrid i f).turns = s.turns := rfl
@[simp] theorem State.modGrid_issuer (i : Nat) (f : Grid → Grid) : (s.modGrid i f).issuer = s.issuer := rfl
@[simp] theorem State.modGrid_late (i : Nat) (f : Grid → Grid) : (s.modGrid i f).late = s.late := rfl
@[simp] theorem State.modGrid_fresh (i : Nat) (f : Grid → Grid) : (s.modGrid i f).fresh = s.fresh := rfl
@[simp] theorem State.modGrid_nextId (i : Nat) (f : Grid → Grid) : (s.modGrid i f).nextId = s.nextId := rfl
@[simp] theorem State.modGrid_clock (i : Nat) (f : Grid → Grid) : (s.modGrid i f).clock = s.clock := rfl
@[simp] theorem State.modGrid_boot (i : Nat) (f : Grid → Grid) : (s.modGrid i f).boot = s.boot := rfl
@[simp] theorem State.modGrid_firmware (i : Nat) (f : Grid → Grid) : (s.modGrid i f).firmware = s.firmware := rfl
@[simp] theorem State.modGrid_powerLimit (i : Nat) (f : Grid → Grid) : (s.modGrid i f).powerLimit = s.powerLimit := rfl
@[simp] theorem State.modGrid_dies (i : Nat) (f : Grid → Grid) : (s.modGrid i f).dies = s.dies := rfl
@[simp] theorem State.modGrid_cores (i : Nat) (f : Grid → Grid) : (s.modGrid i f).cores = s.cores := rfl
@[simp] theorem State.modGrid_crews (i : Nat) (f : Grid → Grid) : (s.modGrid i f).crews = s.crews := rfl
@[simp] theorem State.modGrid_functions (i : Nat) (f : Grid → Grid) : (s.modGrid i f).functions = s.functions := rfl
@[simp] theorem State.modGrid_heats (i : Nat) (f : Grid → Grid) : (s.modGrid i f).heats = s.heats := rfl
@[simp] theorem State.modGrid_octets (i : Nat) (f : Grid → Grid) : (s.modGrid i f).octets = s.octets := rfl
@[simp] theorem State.modGrid_teams (i : Nat) (f : Grid → Grid) : (s.modGrid i f).teams = s.teams := rfl
@[simp] theorem State.modGrid_cmds (i : Nat) (f : Grid → Grid) : (s.modGrid i f).cmds = s.cmds := rfl
@[simp] theorem State.modGrid_walks (i : Nat) (f : Grid → Grid) : (s.modGrid i f).walks = s.walks := rfl
@[simp] theorem State.modGrid_hbm (i : Nat) (f : Grid → Grid) : (s.modGrid i f).hbm = s.hbm := rfl
@[simp] theorem State.modGrid_hostMem (i : Nat) (f : Grid → Grid) : (s.modGrid i f).hostMem = s.hostMem := rfl
@[simp] theorem State.modGrid_poison (i : Nat) (f : Grid → Grid) : (s.modGrid i f).poison = s.poison := rfl
@[simp] theorem State.modGrid_replReads (i : Nat) (f : Grid → Grid) : (s.modGrid i f).replReads = s.replReads := rfl
@[simp] theorem State.modGrid_scratch (i : Nat) (f : Grid → Grid) : (s.modGrid i f).scratch = s.scratch := rfl
@[simp] theorem State.modGrid_vault (i : Nat) (f : Grid → Grid) : (s.modGrid i f).vault = s.vault := rfl
@[simp] theorem State.modGrid_vaultCrew (i : Nat) (f : Grid → Grid) : (s.modGrid i f).vaultCrew = s.vaultCrew := rfl
@[simp] theorem State.modGrid_lines (i : Nat) (f : Grid → Grid) : (s.modGrid i f).lines = s.lines := rfl
@[simp] theorem State.modGrid_mailboxes (i : Nat) (f : Grid → Grid) : (s.modGrid i f).mailboxes = s.mailboxes := rfl
@[simp] theorem State.modGrid_windows (i : Nat) (f : Grid → Grid) : (s.modGrid i f).windows = s.windows := rfl
@[simp] theorem State.modGrid_planes (i : Nat) (f : Grid → Grid) : (s.modGrid i f).planes = s.planes := rfl
@[simp] theorem State.modGrid_planesNext (i : Nat) (f : Grid → Grid) : (s.modGrid i f).planesNext = s.planesNext := rfl
@[simp] theorem State.modGrid_riggers (i : Nat) (f : Grid → Grid) : (s.modGrid i f).riggers = s.riggers := rfl
@[simp] theorem State.modGrid_requests (i : Nat) (f : Grid → Grid) : (s.modGrid i f).requests = s.requests := rfl
@[simp] theorem State.modGrid_peers (i : Nat) (f : Grid → Grid) : (s.modGrid i f).peers = s.peers := rfl
@[simp] theorem State.modGrid_packets (i : Nat) (f : Grid → Grid) : (s.modGrid i f).packets = s.packets := rfl
@[simp] theorem State.modGrid_hostErrors (i : Nat) (f : Grid → Grid) : (s.modGrid i f).hostErrors = s.hostErrors := rfl
@[simp] theorem State.modGrid_hostLog (i : Nat) (f : Grid → Grid) : (s.modGrid i f).hostLog = s.hostLog := rfl
@[simp] theorem State.modGrid_peerLog (i : Nat) (f : Grid → Grid) : (s.modGrid i f).peerLog = s.peerLog := rfl

/-! `modCmd` -/

@[simp] theorem State.modCmd_turns (i : Nat) (f : Command → Command) : (s.modCmd i f).turns = s.turns := rfl
@[simp] theorem State.modCmd_issuer (i : Nat) (f : Command → Command) : (s.modCmd i f).issuer = s.issuer := rfl
@[simp] theorem State.modCmd_late (i : Nat) (f : Command → Command) : (s.modCmd i f).late = s.late := rfl
@[simp] theorem State.modCmd_fresh (i : Nat) (f : Command → Command) : (s.modCmd i f).fresh = s.fresh := rfl
@[simp] theorem State.modCmd_nextId (i : Nat) (f : Command → Command) : (s.modCmd i f).nextId = s.nextId := rfl
@[simp] theorem State.modCmd_clock (i : Nat) (f : Command → Command) : (s.modCmd i f).clock = s.clock := rfl
@[simp] theorem State.modCmd_boot (i : Nat) (f : Command → Command) : (s.modCmd i f).boot = s.boot := rfl
@[simp] theorem State.modCmd_firmware (i : Nat) (f : Command → Command) : (s.modCmd i f).firmware = s.firmware := rfl
@[simp] theorem State.modCmd_powerLimit (i : Nat) (f : Command → Command) : (s.modCmd i f).powerLimit = s.powerLimit := rfl
@[simp] theorem State.modCmd_dies (i : Nat) (f : Command → Command) : (s.modCmd i f).dies = s.dies := rfl
@[simp] theorem State.modCmd_cores (i : Nat) (f : Command → Command) : (s.modCmd i f).cores = s.cores := rfl
@[simp] theorem State.modCmd_crews (i : Nat) (f : Command → Command) : (s.modCmd i f).crews = s.crews := rfl
@[simp] theorem State.modCmd_functions (i : Nat) (f : Command → Command) : (s.modCmd i f).functions = s.functions := rfl
@[simp] theorem State.modCmd_heats (i : Nat) (f : Command → Command) : (s.modCmd i f).heats = s.heats := rfl
@[simp] theorem State.modCmd_octets (i : Nat) (f : Command → Command) : (s.modCmd i f).octets = s.octets := rfl
@[simp] theorem State.modCmd_grids (i : Nat) (f : Command → Command) : (s.modCmd i f).grids = s.grids := rfl
@[simp] theorem State.modCmd_teams (i : Nat) (f : Command → Command) : (s.modCmd i f).teams = s.teams := rfl
@[simp] theorem State.modCmd_walks (i : Nat) (f : Command → Command) : (s.modCmd i f).walks = s.walks := rfl
@[simp] theorem State.modCmd_hbm (i : Nat) (f : Command → Command) : (s.modCmd i f).hbm = s.hbm := rfl
@[simp] theorem State.modCmd_hostMem (i : Nat) (f : Command → Command) : (s.modCmd i f).hostMem = s.hostMem := rfl
@[simp] theorem State.modCmd_poison (i : Nat) (f : Command → Command) : (s.modCmd i f).poison = s.poison := rfl
@[simp] theorem State.modCmd_replReads (i : Nat) (f : Command → Command) : (s.modCmd i f).replReads = s.replReads := rfl
@[simp] theorem State.modCmd_scratch (i : Nat) (f : Command → Command) : (s.modCmd i f).scratch = s.scratch := rfl
@[simp] theorem State.modCmd_vault (i : Nat) (f : Command → Command) : (s.modCmd i f).vault = s.vault := rfl
@[simp] theorem State.modCmd_vaultCrew (i : Nat) (f : Command → Command) : (s.modCmd i f).vaultCrew = s.vaultCrew := rfl
@[simp] theorem State.modCmd_lines (i : Nat) (f : Command → Command) : (s.modCmd i f).lines = s.lines := rfl
@[simp] theorem State.modCmd_mailboxes (i : Nat) (f : Command → Command) : (s.modCmd i f).mailboxes = s.mailboxes := rfl
@[simp] theorem State.modCmd_windows (i : Nat) (f : Command → Command) : (s.modCmd i f).windows = s.windows := rfl
@[simp] theorem State.modCmd_planes (i : Nat) (f : Command → Command) : (s.modCmd i f).planes = s.planes := rfl
@[simp] theorem State.modCmd_planesNext (i : Nat) (f : Command → Command) : (s.modCmd i f).planesNext = s.planesNext := rfl
@[simp] theorem State.modCmd_riggers (i : Nat) (f : Command → Command) : (s.modCmd i f).riggers = s.riggers := rfl
@[simp] theorem State.modCmd_requests (i : Nat) (f : Command → Command) : (s.modCmd i f).requests = s.requests := rfl
@[simp] theorem State.modCmd_peers (i : Nat) (f : Command → Command) : (s.modCmd i f).peers = s.peers := rfl
@[simp] theorem State.modCmd_packets (i : Nat) (f : Command → Command) : (s.modCmd i f).packets = s.packets := rfl
@[simp] theorem State.modCmd_hostErrors (i : Nat) (f : Command → Command) : (s.modCmd i f).hostErrors = s.hostErrors := rfl
@[simp] theorem State.modCmd_hostLog (i : Nat) (f : Command → Command) : (s.modCmd i f).hostLog = s.hostLog := rfl
@[simp] theorem State.modCmd_peerLog (i : Nat) (f : Command → Command) : (s.modCmd i f).peerLog = s.peerLog := rfl

/-! `modCrew` -/

@[simp] theorem State.modCrew_turns (c : Nat) (f : Crew → Crew) : (s.modCrew c f).turns = s.turns := rfl
@[simp] theorem State.modCrew_issuer (c : Nat) (f : Crew → Crew) : (s.modCrew c f).issuer = s.issuer := rfl
@[simp] theorem State.modCrew_late (c : Nat) (f : Crew → Crew) : (s.modCrew c f).late = s.late := rfl
@[simp] theorem State.modCrew_fresh (c : Nat) (f : Crew → Crew) : (s.modCrew c f).fresh = s.fresh := rfl
@[simp] theorem State.modCrew_nextId (c : Nat) (f : Crew → Crew) : (s.modCrew c f).nextId = s.nextId := rfl
@[simp] theorem State.modCrew_clock (c : Nat) (f : Crew → Crew) : (s.modCrew c f).clock = s.clock := rfl
@[simp] theorem State.modCrew_boot (c : Nat) (f : Crew → Crew) : (s.modCrew c f).boot = s.boot := rfl
@[simp] theorem State.modCrew_firmware (c : Nat) (f : Crew → Crew) : (s.modCrew c f).firmware = s.firmware := rfl
@[simp] theorem State.modCrew_powerLimit (c : Nat) (f : Crew → Crew) : (s.modCrew c f).powerLimit = s.powerLimit := rfl
@[simp] theorem State.modCrew_dies (c : Nat) (f : Crew → Crew) : (s.modCrew c f).dies = s.dies := rfl
@[simp] theorem State.modCrew_cores (c : Nat) (f : Crew → Crew) : (s.modCrew c f).cores = s.cores := rfl
@[simp] theorem State.modCrew_functions (c : Nat) (f : Crew → Crew) : (s.modCrew c f).functions = s.functions := rfl
@[simp] theorem State.modCrew_heats (c : Nat) (f : Crew → Crew) : (s.modCrew c f).heats = s.heats := rfl
@[simp] theorem State.modCrew_octets (c : Nat) (f : Crew → Crew) : (s.modCrew c f).octets = s.octets := rfl
@[simp] theorem State.modCrew_grids (c : Nat) (f : Crew → Crew) : (s.modCrew c f).grids = s.grids := rfl
@[simp] theorem State.modCrew_teams (c : Nat) (f : Crew → Crew) : (s.modCrew c f).teams = s.teams := rfl
@[simp] theorem State.modCrew_cmds (c : Nat) (f : Crew → Crew) : (s.modCrew c f).cmds = s.cmds := rfl
@[simp] theorem State.modCrew_walks (c : Nat) (f : Crew → Crew) : (s.modCrew c f).walks = s.walks := rfl
@[simp] theorem State.modCrew_hbm (c : Nat) (f : Crew → Crew) : (s.modCrew c f).hbm = s.hbm := rfl
@[simp] theorem State.modCrew_hostMem (c : Nat) (f : Crew → Crew) : (s.modCrew c f).hostMem = s.hostMem := rfl
@[simp] theorem State.modCrew_poison (c : Nat) (f : Crew → Crew) : (s.modCrew c f).poison = s.poison := rfl
@[simp] theorem State.modCrew_replReads (c : Nat) (f : Crew → Crew) : (s.modCrew c f).replReads = s.replReads := rfl
@[simp] theorem State.modCrew_scratch (c : Nat) (f : Crew → Crew) : (s.modCrew c f).scratch = s.scratch := rfl
@[simp] theorem State.modCrew_vault (c : Nat) (f : Crew → Crew) : (s.modCrew c f).vault = s.vault := rfl
@[simp] theorem State.modCrew_vaultCrew (c : Nat) (f : Crew → Crew) : (s.modCrew c f).vaultCrew = s.vaultCrew := rfl
@[simp] theorem State.modCrew_lines (c : Nat) (f : Crew → Crew) : (s.modCrew c f).lines = s.lines := rfl
@[simp] theorem State.modCrew_mailboxes (c : Nat) (f : Crew → Crew) : (s.modCrew c f).mailboxes = s.mailboxes := rfl
@[simp] theorem State.modCrew_windows (c : Nat) (f : Crew → Crew) : (s.modCrew c f).windows = s.windows := rfl
@[simp] theorem State.modCrew_planes (c : Nat) (f : Crew → Crew) : (s.modCrew c f).planes = s.planes := rfl
@[simp] theorem State.modCrew_planesNext (c : Nat) (f : Crew → Crew) : (s.modCrew c f).planesNext = s.planesNext := rfl
@[simp] theorem State.modCrew_riggers (c : Nat) (f : Crew → Crew) : (s.modCrew c f).riggers = s.riggers := rfl
@[simp] theorem State.modCrew_requests (c : Nat) (f : Crew → Crew) : (s.modCrew c f).requests = s.requests := rfl
@[simp] theorem State.modCrew_peers (c : Nat) (f : Crew → Crew) : (s.modCrew c f).peers = s.peers := rfl
@[simp] theorem State.modCrew_packets (c : Nat) (f : Crew → Crew) : (s.modCrew c f).packets = s.packets := rfl
@[simp] theorem State.modCrew_hostErrors (c : Nat) (f : Crew → Crew) : (s.modCrew c f).hostErrors = s.hostErrors := rfl
@[simp] theorem State.modCrew_hostLog (c : Nat) (f : Crew → Crew) : (s.modCrew c f).hostLog = s.hostLog := rfl
@[simp] theorem State.modCrew_peerLog (c : Nat) (f : Crew → Crew) : (s.modCrew c f).peerLog = s.peerLog := rfl

/-! `modCore` -/

@[simp] theorem State.modCore_turns (n : Nat) (f : Core → Core) : (s.modCore n f).turns = s.turns := rfl
@[simp] theorem State.modCore_issuer (n : Nat) (f : Core → Core) : (s.modCore n f).issuer = s.issuer := rfl
@[simp] theorem State.modCore_late (n : Nat) (f : Core → Core) : (s.modCore n f).late = s.late := rfl
@[simp] theorem State.modCore_fresh (n : Nat) (f : Core → Core) : (s.modCore n f).fresh = s.fresh := rfl
@[simp] theorem State.modCore_nextId (n : Nat) (f : Core → Core) : (s.modCore n f).nextId = s.nextId := rfl
@[simp] theorem State.modCore_clock (n : Nat) (f : Core → Core) : (s.modCore n f).clock = s.clock := rfl
@[simp] theorem State.modCore_boot (n : Nat) (f : Core → Core) : (s.modCore n f).boot = s.boot := rfl
@[simp] theorem State.modCore_firmware (n : Nat) (f : Core → Core) : (s.modCore n f).firmware = s.firmware := rfl
@[simp] theorem State.modCore_powerLimit (n : Nat) (f : Core → Core) : (s.modCore n f).powerLimit = s.powerLimit := rfl
@[simp] theorem State.modCore_dies (n : Nat) (f : Core → Core) : (s.modCore n f).dies = s.dies := rfl
@[simp] theorem State.modCore_crews (n : Nat) (f : Core → Core) : (s.modCore n f).crews = s.crews := rfl
@[simp] theorem State.modCore_functions (n : Nat) (f : Core → Core) : (s.modCore n f).functions = s.functions := rfl
@[simp] theorem State.modCore_heats (n : Nat) (f : Core → Core) : (s.modCore n f).heats = s.heats := rfl
@[simp] theorem State.modCore_octets (n : Nat) (f : Core → Core) : (s.modCore n f).octets = s.octets := rfl
@[simp] theorem State.modCore_grids (n : Nat) (f : Core → Core) : (s.modCore n f).grids = s.grids := rfl
@[simp] theorem State.modCore_teams (n : Nat) (f : Core → Core) : (s.modCore n f).teams = s.teams := rfl
@[simp] theorem State.modCore_cmds (n : Nat) (f : Core → Core) : (s.modCore n f).cmds = s.cmds := rfl
@[simp] theorem State.modCore_walks (n : Nat) (f : Core → Core) : (s.modCore n f).walks = s.walks := rfl
@[simp] theorem State.modCore_hbm (n : Nat) (f : Core → Core) : (s.modCore n f).hbm = s.hbm := rfl
@[simp] theorem State.modCore_hostMem (n : Nat) (f : Core → Core) : (s.modCore n f).hostMem = s.hostMem := rfl
@[simp] theorem State.modCore_poison (n : Nat) (f : Core → Core) : (s.modCore n f).poison = s.poison := rfl
@[simp] theorem State.modCore_replReads (n : Nat) (f : Core → Core) : (s.modCore n f).replReads = s.replReads := rfl
@[simp] theorem State.modCore_scratch (n : Nat) (f : Core → Core) : (s.modCore n f).scratch = s.scratch := rfl
@[simp] theorem State.modCore_vault (n : Nat) (f : Core → Core) : (s.modCore n f).vault = s.vault := rfl
@[simp] theorem State.modCore_vaultCrew (n : Nat) (f : Core → Core) : (s.modCore n f).vaultCrew = s.vaultCrew := rfl
@[simp] theorem State.modCore_lines (n : Nat) (f : Core → Core) : (s.modCore n f).lines = s.lines := rfl
@[simp] theorem State.modCore_mailboxes (n : Nat) (f : Core → Core) : (s.modCore n f).mailboxes = s.mailboxes := rfl
@[simp] theorem State.modCore_windows (n : Nat) (f : Core → Core) : (s.modCore n f).windows = s.windows := rfl
@[simp] theorem State.modCore_planes (n : Nat) (f : Core → Core) : (s.modCore n f).planes = s.planes := rfl
@[simp] theorem State.modCore_planesNext (n : Nat) (f : Core → Core) : (s.modCore n f).planesNext = s.planesNext := rfl
@[simp] theorem State.modCore_riggers (n : Nat) (f : Core → Core) : (s.modCore n f).riggers = s.riggers := rfl
@[simp] theorem State.modCore_requests (n : Nat) (f : Core → Core) : (s.modCore n f).requests = s.requests := rfl
@[simp] theorem State.modCore_peers (n : Nat) (f : Core → Core) : (s.modCore n f).peers = s.peers := rfl
@[simp] theorem State.modCore_packets (n : Nat) (f : Core → Core) : (s.modCore n f).packets = s.packets := rfl
@[simp] theorem State.modCore_hostErrors (n : Nat) (f : Core → Core) : (s.modCore n f).hostErrors = s.hostErrors := rfl
@[simp] theorem State.modCore_hostLog (n : Nat) (f : Core → Core) : (s.modCore n f).hostLog = s.hostLog := rfl
@[simp] theorem State.modCore_peerLog (n : Nat) (f : Core → Core) : (s.modCore n f).peerLog = s.peerLog := rfl

/-! What the updated part reads as -/

@[simp] theorem State.die_setDie (d : Nat) (x : Die) : (s.setDie d x).die d = x := by
  simp only [State.die, State.setDie, aget_aput_self, Option.getD_some]

theorem State.die_setDie_ne {d j : Nat} (h : j ≠ d) (x : Die) : (s.setDie d x).die j = s.die j := by
  simp only [State.die, State.setDie, aget_aput_ne h]

@[simp] theorem State.core_setCore (n : Nat) (x : Core) : (s.setCore n x).core n = x := by
  simp only [State.core, State.setCore, aget_aput_self, Option.getD_some]

theorem State.core_setCore_ne {n j : Nat} (h : j ≠ n) (x : Core) : (s.setCore n x).core j = s.core j := by
  simp only [State.core, State.setCore, aget_aput_ne h]

@[simp] theorem State.crew_setCrew (c : Nat) (x : Crew) : (s.setCrew c x).crew c = x := by
  simp only [State.crew, State.setCrew, aget_aput_self, Option.getD_some]

theorem State.crew_setCrew_ne {c j : Nat} (h : j ≠ c) (x : Crew) : (s.setCrew c x).crew j = s.crew j := by
  simp only [State.crew, State.setCrew, aget_aput_ne h]

@[simp] theorem State.func_setFunc (v : Nat) (x : Function) : (s.setFunc v x).func v = x := by
  simp only [State.func, State.setFunc, aget_aput_self, Option.getD_some]

theorem State.func_setFunc_ne {v j : Nat} (h : j ≠ v) (x : Function) : (s.setFunc v x).func j = s.func j := by
  simp only [State.func, State.setFunc, aget_aput_ne h]

@[simp] theorem State.heat_setHeat (b : Nat) (x : HeatTable) : (s.setHeat b x).heat b = x := by
  simp only [State.heat, State.setHeat, aget_aput_self, Option.getD_some]

theorem State.heat_setHeat_ne {b j : Nat} (h : j ≠ b) (x : HeatTable) : (s.setHeat b x).heat j = s.heat j := by
  simp only [State.heat, State.setHeat, aget_aput_ne h]

@[simp] theorem State.rigger_setRigger (k : Nat) (x : Rigger) : (s.setRigger k x).rigger k = x := by
  simp only [State.rigger, State.setRigger, aget_aput_self, Option.getD_some]

theorem State.rigger_setRigger_ne {k j : Nat} (h : j ≠ k) (x : Rigger) : (s.setRigger k x).rigger j = s.rigger j := by
  simp only [State.rigger, State.setRigger, aget_aput_ne h]

@[simp] theorem State.crew_modCrew (c : Nat) (f : Crew → Crew) : (s.modCrew c f).crew c = f (s.crew c) := State.crew_setCrew s c _

theorem State.crew_modCrew_ne {c j : Nat} (h : j ≠ c) (f : Crew → Crew) : (s.modCrew c f).crew j = s.crew j := State.crew_setCrew_ne s h _

@[simp] theorem State.core_modCore (n : Nat) (f : Core → Core) : (s.modCore n f).core n = f (s.core n) := State.core_setCore s n _

theorem State.core_modCore_ne {n j : Nat} (h : j ≠ n) (f : Core → Core) : (s.modCore n f).core j = s.core j := State.core_setCore_ne s h _

@[simp] theorem State.team_setTeam (t : Nat) (x : Team) : (s.setTeam t x).team t = some x := aget_aput_self t x s.teams

theorem State.team_setTeam_ne {t j : Nat} (h : j ≠ t) (x : Team) : (s.setTeam t x).team j = s.team j := aget_aput_ne h x s.teams

@[simp] theorem State.team_modTeam (t : Nat) (f : Team → Team) : (s.modTeam t f).team t = (s.team t).map f := aget_amod_self t f s.teams

theorem State.team_modTeam_ne {t j : Nat} (h : j ≠ t) (f : Team → Team) : (s.modTeam t f).team j = s.team j := aget_amod_ne h f s.teams

@[simp] theorem State.grid_modGrid (i : Nat) (f : Grid → Grid) : (s.modGrid i f).grid i = (s.grid i).map f := aget_amod_self i f s.grids

theorem State.grid_modGrid_ne {i j : Nat} (h : j ≠ i) (f : Grid → Grid) : (s.modGrid i f).grid j = s.grid j := aget_amod_ne h f s.grids

end Sys2Proof.Machine
end

