-- ==== Sys2Proof/Laws/Memory.lean ====
section
/-! SUPPORT. The operations on memory keep the canonical form of the four memories (assumption 5): one lemma for each operation that writes
a byte, and for each that writes many. -/

namespace Sys2Proof.Machine

theorem State.reset_memoryForm : State.reset.MemoryForm := ⟨rfl, rfl, rfl, rfl⟩

/-- The form is a matter of the four memories alone. -/
theorem State.MemoryForm.congr {s u : State} (w : s.MemoryForm) (h1 : u.hbm = s.hbm) (h2 : u.hostMem = s.hostMem)
    (h3 : u.scratch = s.scratch) (h4 : u.vault = s.vault) : u.MemoryForm :=
  ⟨h1 ▸ w.hbm, h2 ▸ w.host, h3 ▸ w.scratch, h4 ▸ w.vault⟩

theorem State.MemoryForm.setMemByte {s : State} (w : s.MemoryForm) (pa : Nat) (b : Byte) : (s.setMemByte pa b).MemoryForm := by
  unfold State.setMemByte
  split
  · exact ⟨w.hbm, Mem.write_wf w.host, w.scratch, w.vault⟩
  · exact ⟨Mem.write_wf w.hbm, w.host, w.scratch, w.vault⟩

theorem State.MemoryForm.physWrite {s : State} (w : s.MemoryForm) (pa : Nat) (b : Byte) : (s.physWrite pa b).MemoryForm :=
  (w.setMemByte pa b).congr rfl rfl rfl rfl

theorem State.MemoryForm.physWriteN {bs : List Byte} {s : State} (w : s.MemoryForm) (pa : Nat) : (s.physWriteN pa bs).MemoryForm := by
  induction bs generalizing s pa with
  | nil => exact w
  | cons b bs ih => exact ih (w.physWrite pa b) (pa + 1)

theorem State.MemoryForm.setLineByte {s : State} (w : s.MemoryForm) (k : LineKey) (sm wc : Bool) (va pa : Nat) (b : Byte) :
    (s.setLineByte k sm wc va pa b).MemoryForm := w.congr rfl rfl rfl rfl

theorem State.MemoryForm.markWrote {s : State} (w : s.MemoryForm) (crew view va : Nat) : (s.markWrote crew view va).MemoryForm := by
  unfold State.markWrote
  split
  · exact w
  · exact w.congr rfl rfl rfl rfl

theorem State.MemoryForm.setLineBytes {bs : List Byte} {s : State} (w : s.MemoryForm) (k : LineKey) (sm wc : Bool) (va pa : Nat) :
    (s.setLineBytes k sm wc va pa bs).MemoryForm := by
  induction bs generalizing s va pa with
  | nil => exact w
  | cons b bs ih => exact ih ((w.setLineByte k sm wc va pa b).markWrote k.crew k.view va) (va + 1) (pa + 1)

theorem State.MemoryForm.writeBehind {s : State} (w : s.MemoryForm) (k : LineKey) (va pa : Nat) (b : Byte) (o : Option LineOwner) :
    (s.writeBehind k va pa b o).MemoryForm := by
  unfold State.writeBehind
  split
  · split
    · exact w.congr rfl rfl rfl rfl
    · exact w.setMemByte pa b
  · exact w.congr rfl rfl rfl rfl

theorem State.MemoryForm.writeCells {l : List (Nat × LineByte)} {s : State} (w : s.MemoryForm) (k : LineKey) : (s.writeCells k l).MemoryForm := by
  induction l generalizing s with
  | nil => exact w
  | cons c l ih =>
    unfold State.writeCells
    refine ih ?_
    split
    · exact w.writeBehind k _ _ _ _
    · exact w

theorem State.MemoryForm.spreadPoison {s : State} (w : s.MemoryForm) (k : LineKey) (l : List (Nat × LineByte)) :
    (s.spreadPoison k l).MemoryForm := by
  unfold State.spreadPoison
  dsimp only
  split
  · exact w
  · exact w.congr rfl rfl rfl rfl

theorem State.MemoryForm.writeBackLine {s : State} (w : s.MemoryForm) (k : LineKey) : (s.writeBackLine k).MemoryForm := by
  unfold State.writeBackLine
  split
  · exact w
  · exact ((w.writeCells k).spreadPoison k _).congr rfl rfl rfl rfl

theorem State.MemoryForm.evictLine {s : State} (w : s.MemoryForm) (k : LineKey) : (s.evictLine k).MemoryForm :=
  (w.writeBackLine k).congr rfl rfl rfl rfl

/-- What every step of a fold keeps, the fold keeps. -/
theorem foldl_keeps {α : Type} {P : State → Prop} {f : State → α → State} (h : ∀ s a, P s → P (f s a)) {s : State} (w : P s) :
    ∀ l : List α, P (l.foldl f s) := by
  intro l
  induction l generalizing s with
  | nil => exact w
  | cons a l ih => exact ih (h s a w)

theorem State.MemoryForm.evictIf {s : State} (w : s.MemoryForm) (c : LineKey → Bool) : (s.evictIf c).MemoryForm := by
  refine foldl_keeps (P := State.MemoryForm) (fun u k h => ?_) w _
  split
  · exact h.evictLine k
  · exact h

theorem State.MemoryForm.writeBackIf {s : State} (w : s.MemoryForm) (c : LineKey → Line → Bool) : (s.writeBackIf c).MemoryForm := by
  refine foldl_keeps (P := State.MemoryForm) (fun u e h => ?_) w _
  split
  · exact h.writeBackLine e.1
  · exact h

theorem State.MemoryForm.firstWrite {s u : State} (w : s.MemoryForm) {crew view va pa red : Nat}
    (h : s.firstWrite crew view va pa red = some u) : u.MemoryForm := by
  unfold State.firstWrite at h
  split at h
  · cases h; exact w
  · dsimp only at h
    split at h
    · cases h; exact w
    · split at h
      · cases h; exact w
      · split at h
        · cases h; exact w.congr rfl rfl rfl rfl
        · split at h
          · cases h; exact w.congr rfl rfl rfl rfl
          · cases h

theorem State.MemoryForm.performStore {s : State} (w : s.MemoryForm) (t : Team) (a : Access) (l : LaneAcc) : (s.performStore t a l).MemoryForm := by
  unfold State.performStore
  split
  · exact ⟨w.hbm, w.host, Mem.writeN_wf w.scratch, w.vault⟩
  · exact ⟨w.hbm, w.host, w.scratch, Mem.writeN_wf w.vault⟩
  · exact w.setLineBytes _ _ _ _ _

theorem State.MemoryForm.performStores {ls : List LaneAcc} {s : State} (w : s.MemoryForm) (t : Team) (a : Access) :
    (s.performStores t a ls).MemoryForm := by
  induction ls generalizing s with
  | nil => exact w
  | cons l ls ih => exact ih (w.performStore t a l)

theorem State.MemoryForm.performAll {s : State} (w : s.MemoryForm) (t : Team) (a : Access) (ls : List LaneAcc) :
    (s.performAll t a ls).MemoryForm := (w.performStores t a).congr rfl rfl rfl rfl

theorem State.MemoryForm.zeroScratch {s : State} (w : s.MemoryForm) (lo n : Nat) : (s.zeroScratch lo n).MemoryForm :=
  ⟨w.hbm, w.host, Mem.clear_wf w.scratch, w.vault⟩

theorem State.MemoryForm.coxWrite {s : State} (w : s.MemoryForm) (t : Team) (x : Word64) (bs : List Byte) : (s.coxWrite t x bs).MemoryForm :=
  ⟨w.hbm, w.host, Mem.writeN_wf w.scratch, w.vault⟩

theorem State.MemoryForm.commitByte {s : State} (w : s.MemoryForm) (crew view va pa : Nat) (b : Byte) : (s.commitByte crew view va pa b).MemoryForm := by
  unfold State.commitByte
  split
  · exact w.physWrite pa b
  · exact w.congr rfl rfl rfl rfl

theorem State.MemoryForm.commitBytes {bs : List Byte} {s : State} (w : s.MemoryForm) (crew view va pa : Nat) :
    (s.commitBytes crew view va pa bs).MemoryForm := by
  induction bs generalizing s va pa with
  | nil => exact w
  | cons b bs ih => exact ih (w.commitByte crew view va pa b) (va + 1) (pa + 1)

/-- A byte put by an engine or a copy of a context keeps the form, whether it is done or waits. -/
theorem State.MemoryForm.putByte {s u : State} (w : s.MemoryForm) {t : Team} {sp a : Nat} {b : Byte} (h : s.putByte t sp a b = .done u) :
    u.MemoryForm := by
  unfold State.putByte at h
  split at h
  · split at h
    · cases h
    · split at h
      · cases h
      · split at h
        · cases h
        · dsimp only at h
          split at h
          · cases h
          · split at h
            · cases h
            · split at h
              · cases h
              · cases h
                rename_i hf _
                exact (w.firstWrite hf).setLineBytes _ _ _ _ _
  · split at h
    · cases h
    · cases h; exact ⟨w.hbm, w.host, Mem.write_wf w.scratch, w.vault⟩
  · split at h
    · cases h
    · cases h; exact ⟨w.hbm, w.host, w.scratch, Mem.write_wf w.vault⟩

end Sys2Proof.Machine
end

