-- ==== Sys2Proof/Laws/PerInstr.lean ====
section
/-! SUPPORT. The per-instruction facts of the encoding: the word that a constructor stands for has an OPC of eight bits and an
FN of six, and the decoder's table gives the row back (spec/02_encoding.md R22, R35). -/

namespace Sys2Proof.Laws.Words

/-- What holds of an instruction's word: its codes fit their fields, and `rowOf` reads the row back. An event has no word. -/
def Statement (i : Instr) : Prop :=
  ∀ opc fn f, i.word = some (opc, fn, f) →
    opc < 256 ∧ fn < 64 ∧ (i.selected = true → rowOf opc fn f = some i.decodesTo)

/-- An event has no word. -/
theorem of_event {i : Instr} (h : i.word = none) : Statement i := by
  intro opc fn f hw
  rw [h] at hw
  cases hw

/-- A stream instruction, from its codes. -/
theorem of_word {i : Instr} (opc fn : Nat) (f : Fields) (hw : i.word = some (opc, fn, f)) (ho : opc < 256) (hf : fn < 64)
    (hr : i.selected = true → rowOf opc fn f = some i.decodesTo) : Statement i := by
  intro o n g h
  rw [hw] at h
  cases h
  exact ⟨ho, hf, hr⟩

theorem mov (f : Fields) : Statement (.mov f) :=
  of_word 0x00 0x00 f rfl (by decide) (by decide) fun _ => rfl

theorem bcast (f : Fields) : Statement (.bcast f) :=
  of_word 0x00 0x01 f rfl (by decide) (by decide) fun _ => rfl

theorem movu (f : Fields) : Statement (.movu f) :=
  of_word 0x00 0x02 f rfl (by decide) (by decide) fun _ => rfl

theorem emrd (f : Fields) : Statement (.emrd f) :=
  of_word 0x00 0x03 f rfl (by decide) (by decide) fun _ => rfl

theorem emwr (f : Fields) : Statement (.emwr f) :=
  of_word 0x00 0x04 f rfl (by decide) (by decide) fun _ => rfl

theorem pand (f : Fields) : Statement (.pand f) :=
  of_word 0x00 0x05 f rfl (by decide) (by decide) fun _ => rfl

theorem por (f : Fields) : Statement (.por f) :=
  of_word 0x00 0x06 f rfl (by decide) (by decide) fun _ => rfl

theorem pxor (f : Fields) : Statement (.pxor f) :=
  of_word 0x00 0x07 f rfl (by decide) (by decide) fun _ => rfl

theorem pandn (f : Fields) : Statement (.pandn f) :=
  of_word 0x00 0x08 f rfl (by decide) (by decide) fun _ => rfl

theorem ptog (f : Fields) : Statement (.ptog f) :=
  of_word 0x00 0x09 f rfl (by decide) (by decide) fun _ => rfl

theorem gtop (f : Fields) : Statement (.gtop f) :=
  of_word 0x00 0x0A f rfl (by decide) (by decide) fun _ => rfl

theorem sread (f : Fields) : Statement (.sread f) :=
  of_word 0x00 0x0B f rfl (by decide) (by decide) fun _ => rfl

theorem swrite (f : Fields) : Statement (.swrite f) :=
  of_word 0x00 0x0C f rfl (by decide) (by decide) fun _ => rfl

theorem vfree (f : Fields) : Statement (.vfree f) :=
  of_word 0x00 0x0D f rfl (by decide) (by decide) fun _ => rfl

theorem nop (f : Fields) : Statement (.nop f) :=
  of_word 0x00 0x0E f rfl (by decide) (by decide) fun _ => rfl

theorem add (f : Fields) : Statement (.add f) :=
  of_word 0x10 0x00 f rfl (by decide) (by decide) fun _ => rfl

theorem sub (f : Fields) : Statement (.sub f) :=
  of_word 0x10 0x01 f rfl (by decide) (by decide) fun _ => rfl

theorem addc (f : Fields) : Statement (.addc f) :=
  of_word 0x10 0x02 f rfl (by decide) (by decide) fun _ => rfl

theorem subb (f : Fields) : Statement (.subb f) :=
  of_word 0x10 0x03 f rfl (by decide) (by decide) fun _ => rfl

theorem min (f : Fields) : Statement (.min f) :=
  of_word 0x10 0x04 f rfl (by decide) (by decide) fun _ => rfl

theorem max (f : Fields) : Statement (.max f) :=
  of_word 0x10 0x05 f rfl (by decide) (by decide) fun _ => rfl

theorem abs (f : Fields) : Statement (.abs f) :=
  of_word 0x10 0x06 f rfl (by decide) (by decide) fun _ => rfl

theorem neg (f : Fields) : Statement (.neg f) :=
  of_word 0x10 0x07 f rfl (by decide) (by decide) fun _ => rfl

theorem mul (f : Fields) : Statement (.mul f) :=
  of_word 0x11 0x00 f rfl (by decide) (by decide) fun _ => rfl

theorem mulhi (f : Fields) : Statement (.mulhi f) :=
  of_word 0x11 0x01 f rfl (by decide) (by decide) fun _ => rfl

theorem mulw (f : Fields) : Statement (.mulw f) :=
  of_word 0x11 0x02 f rfl (by decide) (by decide) fun _ => rfl

theorem mad (f : Fields) : Statement (.mad f) :=
  of_word 0x11 0x03 f rfl (by decide) (by decide) fun _ => rfl

theorem madw (f : Fields) : Statement (.madw f) :=
  of_word 0x11 0x04 f rfl (by decide) (by decide) fun _ => rfl

theorem div (f : Fields) : Statement (.div f) :=
  of_word 0x11 0x05 f rfl (by decide) (by decide) fun _ => rfl

theorem rem (f : Fields) : Statement (.rem f) :=
  of_word 0x11 0x06 f rfl (by decide) (by decide) fun _ => rfl

theorem and (f : Fields) : Statement (.and f) :=
  of_word 0x12 0x00 f rfl (by decide) (by decide) fun _ => rfl

theorem or (f : Fields) : Statement (.or f) :=
  of_word 0x12 0x01 f rfl (by decide) (by decide) fun _ => rfl

theorem xor (f : Fields) : Statement (.xor f) :=
  of_word 0x12 0x02 f rfl (by decide) (by decide) fun _ => rfl

theorem not (f : Fields) : Statement (.not f) :=
  of_word 0x12 0x03 f rfl (by decide) (by decide) fun _ => rfl

theorem lop3 (f : Fields) : Statement (.lop3 f) :=
  of_word 0x12 0x04 f rfl (by decide) (by decide) fun _ => rfl

theorem shl (f : Fields) : Statement (.shl f) :=
  of_word 0x12 0x05 f rfl (by decide) (by decide) fun _ => rfl

theorem shr (f : Fields) : Statement (.shr f) :=
  of_word 0x12 0x06 f rfl (by decide) (by decide) fun _ => rfl

theorem sar (f : Fields) : Statement (.sar f) :=
  of_word 0x12 0x07 f rfl (by decide) (by decide) fun _ => rfl

theorem fshl (f : Fields) : Statement (.fshl f) :=
  of_word 0x12 0x08 f rfl (by decide) (by decide) fun _ => rfl

theorem fshr (f : Fields) : Statement (.fshr f) :=
  of_word 0x12 0x09 f rfl (by decide) (by decide) fun _ => rfl

theorem rsh (f : Fields) : Statement (.rsh f) :=
  of_word 0x12 0x0A f rfl (by decide) (by decide) fun _ => rfl

theorem popc (f : Fields) : Statement (.popc f) :=
  of_word 0x13 0x00 f rfl (by decide) (by decide) fun _ => rfl

theorem clz (f : Fields) : Statement (.clz f) :=
  of_word 0x13 0x01 f rfl (by decide) (by decide) fun _ => rfl

theorem ctz (f : Fields) : Statement (.ctz f) :=
  of_word 0x13 0x02 f rfl (by decide) (by decide) fun _ => rfl

theorem brev (f : Fields) : Statement (.brev f) :=
  of_word 0x13 0x03 f rfl (by decide) (by decide) fun _ => rfl

theorem bfx (f : Fields) : Statement (.bfx f) :=
  of_word 0x13 0x04 f rfl (by decide) (by decide) fun _ => rfl

theorem bfi (f : Fields) : Statement (.bfi f) :=
  of_word 0x13 0x05 f rfl (by decide) (by decide) fun _ => rfl

theorem cmpEq (f : Fields) : Statement (.cmpEq f) :=
  of_word 0x14 0x00 f rfl (by decide) (by decide) fun _ => rfl

theorem cmpNe (f : Fields) : Statement (.cmpNe f) :=
  of_word 0x14 0x01 f rfl (by decide) (by decide) fun _ => rfl

theorem cmpLt (f : Fields) : Statement (.cmpLt f) :=
  of_word 0x14 0x02 f rfl (by decide) (by decide) fun _ => rfl

theorem cmpLe (f : Fields) : Statement (.cmpLe f) :=
  of_word 0x14 0x03 f rfl (by decide) (by decide) fun _ => rfl

theorem cmpGt (f : Fields) : Statement (.cmpGt f) :=
  of_word 0x14 0x04 f rfl (by decide) (by decide) fun _ => rfl

theorem cmpGe (f : Fields) : Statement (.cmpGe f) :=
  of_word 0x14 0x05 f rfl (by decide) (by decide) fun _ => rfl

theorem sel (f : Fields) : Statement (.sel f) :=
  of_word 0x14 0x06 f rfl (by decide) (by decide) fun _ => rfl

theorem lea (f : Fields) : Statement (.lea f) :=
  of_word 0x15 0x00 f rfl (by decide) (by decide) fun _ => rfl

theorem lea64 (f : Fields) : Statement (.lea64 f) :=
  of_word 0x15 0x01 f rfl (by decide) (by decide) fun _ => rfl

theorem padd (f : Fields) : Statement (.padd f) :=
  of_word 0x16 0x00 f rfl (by decide) (by decide) fun _ => rfl

theorem psub (f : Fields) : Statement (.psub f) :=
  of_word 0x16 0x01 f rfl (by decide) (by decide) fun _ => rfl

theorem pmul (f : Fields) : Statement (.pmul f) :=
  of_word 0x16 0x02 f rfl (by decide) (by decide) fun _ => rfl

theorem pmin (f : Fields) : Statement (.pmin f) :=
  of_word 0x16 0x03 f rfl (by decide) (by decide) fun _ => rfl

theorem pmax (f : Fields) : Statement (.pmax f) :=
  of_word 0x16 0x04 f rfl (by decide) (by decide) fun _ => rfl

theorem mac2 (f : Fields) : Statement (.mac2 f) :=
  of_word 0x16 0x05 f rfl (by decide) (by decide) fun _ => rfl

theorem dot4 (f : Fields) : Statement (.dot4 f) :=
  of_word 0x16 0x06 f rfl (by decide) (by decide) fun _ => rfl

theorem packs (f : Fields) : Statement (.packs f) :=
  of_word 0x16 0x07 f rfl (by decide) (by decide) fun _ => rfl

theorem unpk (f : Fields) : Statement (.unpk f) :=
  of_word 0x16 0x08 f rfl (by decide) (by decide) fun _ => rfl

theorem slideUp (f : Fields) : Statement (.slideUp f) :=
  of_word 0x40 0x00 f rfl (by decide) (by decide) fun _ => rfl

theorem slideDn (f : Fields) : Statement (.slideDn f) :=
  of_word 0x40 0x01 f rfl (by decide) (by decide) fun _ => rfl

theorem hslideUp (f : Fields) : Statement (.hslideUp f) :=
  of_word 0x40 0x02 f rfl (by decide) (by decide) fun _ => rfl

theorem hslideDn (f : Fields) : Statement (.hslideDn f) :=
  of_word 0x40 0x03 f rfl (by decide) (by decide) fun _ => rfl

theorem shfl (f : Fields) : Statement (.shfl f) :=
  of_word 0x40 0x04 f rfl (by decide) (by decide) fun _ => rfl

theorem xshfl (f : Fields) : Statement (.xshfl f) :=
  of_word 0x40 0x05 f rfl (by decide) (by decide) fun _ => rfl

theorem lbc (f : Fields) : Statement (.lbc f) :=
  of_word 0x40 0x06 f rfl (by decide) (by decide) fun _ => rfl

theorem red (f : Fields) : Statement (.red f) :=
  of_word 0x40 0x07 f rfl (by decide) (by decide) fun _ => rfl

theorem redf (f : Fields) : Statement (.redf f) :=
  of_word 0x40 0x08 f rfl (by decide) (by decide) fun _ => rfl

theorem scan (f : Fields) : Statement (.scan f) :=
  of_word 0x40 0x09 f rfl (by decide) (by decide) fun _ => rfl

theorem scanf (f : Fields) : Statement (.scanf f) :=
  of_word 0x40 0x0A f rfl (by decide) (by decide) fun _ => rfl

theorem voteAny (f : Fields) : Statement (.voteAny f) :=
  of_word 0x40 0x0B f rfl (by decide) (by decide) fun _ => rfl

theorem voteAll (f : Fields) : Statement (.voteAll f) :=
  of_word 0x40 0x0C f rfl (by decide) (by decide) fun _ => rfl

theorem ballot (f : Fields) : Statement (.ballot f) :=
  of_word 0x40 0x0D f rfl (by decide) (by decide) fun _ => rfl

theorem matchLanes (f : Fields) : Statement (.matchLanes f) :=
  of_word 0x40 0x0E f rfl (by decide) (by decide) fun _ => rfl

theorem rdlane (f : Fields) : Statement (.rdlane f) :=
  of_word 0x40 0x0F f rfl (by decide) (by decide) fun _ => rfl

theorem fAdd (f : Fields) : Statement (.fAdd f) :=
  of_word 0x50 0x00 f rfl (by decide) (by decide) fun _ => rfl

theorem fSub (f : Fields) : Statement (.fSub f) :=
  of_word 0x50 0x01 f rfl (by decide) (by decide) fun _ => rfl

theorem fMul (f : Fields) : Statement (.fMul f) :=
  of_word 0x50 0x02 f rfl (by decide) (by decide) fun _ => rfl

theorem fma (f : Fields) : Statement (.fma f) :=
  of_word 0x50 0x03 f rfl (by decide) (by decide) fun _ => rfl

theorem fMin (f : Fields) : Statement (.fMin f) :=
  of_word 0x50 0x04 f rfl (by decide) (by decide) fun _ => rfl

theorem fMax (f : Fields) : Statement (.fMax f) :=
  of_word 0x50 0x05 f rfl (by decide) (by decide) fun _ => rfl

theorem fdot2 (f : Fields) : Statement (.fdot2 f) :=
  of_word 0x50 0x06 f rfl (by decide) (by decide) fun _ => rfl

theorem fCmpEq (f : Fields) : Statement (.fCmpEq f) :=
  of_word 0x51 0x00 f rfl (by decide) (by decide) fun _ => rfl

theorem fCmpNe (f : Fields) : Statement (.fCmpNe f) :=
  of_word 0x51 0x01 f rfl (by decide) (by decide) fun _ => rfl

theorem fCmpLt (f : Fields) : Statement (.fCmpLt f) :=
  of_word 0x51 0x02 f rfl (by decide) (by decide) fun _ => rfl

theorem fCmpLe (f : Fields) : Statement (.fCmpLe f) :=
  of_word 0x51 0x03 f rfl (by decide) (by decide) fun _ => rfl

theorem fCmpGt (f : Fields) : Statement (.fCmpGt f) :=
  of_word 0x51 0x04 f rfl (by decide) (by decide) fun _ => rfl

theorem fCmpGe (f : Fields) : Statement (.fCmpGe f) :=
  of_word 0x51 0x05 f rfl (by decide) (by decide) fun _ => rfl

theorem fCmpUn (f : Fields) : Statement (.fCmpUn f) :=
  of_word 0x51 0x06 f rfl (by decide) (by decide) fun _ => rfl

theorem fclass (f : Fields) : Statement (.fclass f) :=
  of_word 0x51 0x07 f rfl (by decide) (by decide) fun _ => rfl

theorem scale (f : Fields) : Statement (.scale f) :=
  of_word 0x52 0x00 f rfl (by decide) (by decide) fun _ => rfl

theorem getexp (f : Fields) : Statement (.getexp f) :=
  of_word 0x52 0x01 f rfl (by decide) (by decide) fun _ => rfl

theorem getman (f : Fields) : Statement (.getman f) :=
  of_word 0x52 0x02 f rfl (by decide) (by decide) fun _ => rfl

theorem rcp (f : Fields) : Statement (.rcp f) :=
  of_word 0x53 0x00 f rfl (by decide) (by decide) fun _ => rfl

theorem rsq (f : Fields) : Statement (.rsq f) :=
  of_word 0x53 0x01 f rfl (by decide) (by decide) fun _ => rfl

theorem sqrt (f : Fields) : Statement (.sqrt f) :=
  of_word 0x53 0x02 f rfl (by decide) (by decide) fun _ => rfl

theorem exp2 (f : Fields) : Statement (.exp2 f) :=
  of_word 0x53 0x03 f rfl (by decide) (by decide) fun _ => rfl

theorem log2 (f : Fields) : Statement (.log2 f) :=
  of_word 0x53 0x04 f rfl (by decide) (by decide) fun _ => rfl

theorem sinpi (f : Fields) : Statement (.sinpi f) :=
  of_word 0x53 0x05 f rfl (by decide) (by decide) fun _ => rfl

theorem cospi (f : Fields) : Statement (.cospi f) :=
  of_word 0x53 0x06 f rfl (by decide) (by decide) fun _ => rfl

theorem cvt (f : Fields) : Statement (.cvt f) :=
  of_word 0x54 0x00 f rfl (by decide) (by decide) fun _ => rfl

theorem fpack (f : Fields) : Statement (.fpack f) :=
  of_word 0x55 0x00 f rfl (by decide) (by decide) fun _ => rfl

theorem funpk (f : Fields) : Statement (.funpk f) :=
  of_word 0x55 0x01 f rfl (by decide) (by decide) fun _ => rfl

theorem ternpk (f : Fields) : Statement (.ternpk f) :=
  of_word 0x55 0x02 f rfl (by decide) (by decide) fun _ => rfl

theorem ternunpk (f : Fields) : Statement (.ternunpk f) :=
  of_word 0x55 0x03 f rfl (by decide) (by decide) fun _ => rfl

theorem bra (f : Fields) : Statement (.bra f) :=
  of_word 0x70 0x00 f rfl (by decide) (by decide) fun _ => rfl

theorem brau (f : Fields) : Statement (.brau f) :=
  of_word 0x70 0x01 f rfl (by decide) (by decide) fun _ => rfl

theorem skip (f : Fields) : Statement (.skip f) :=
  of_word 0x70 0x02 f rfl (by decide) (by decide) fun _ => rfl

theorem jmpi (f : Fields) : Statement (.jmpi f) :=
  of_word 0x70 0x03 f rfl (by decide) (by decide) fun _ => rfl

theorem call (f : Fields) : Statement (.call f) :=
  of_word 0x70 0x04 f rfl (by decide) (by decide) fun _ => rfl

theorem calli (f : Fields) : Statement (.calli f) :=
  of_word 0x70 0x05 f rfl (by decide) (by decide) fun _ => rfl

theorem ret (f : Fields) : Statement (.ret f) :=
  of_word 0x70 0x06 f rfl (by decide) (by decide) fun _ => rfl

theorem dbnz (f : Fields) : Statement (.dbnz f) :=
  of_word 0x70 0x07 f rfl (by decide) (by decide) fun _ => rfl

theorem exit (f : Fields) : Statement (.exit f) :=
  of_word 0x70 0x08 f rfl (by decide) (by decide) fun _ => rfl

theorem refill (f : Fields) : Statement (.refill f) :=
  of_word 0x70 0x09 f rfl (by decide) (by decide) fun _ => rfl

theorem ldt (f : Fields) : Statement (.ldt f) :=
  of_word 0x80 0x00 f rfl (by decide) (by decide) fun _ => rfl

theorem stt (f : Fields) : Statement (.stt f) :=
  of_word 0x80 0x01 f rfl (by decide) (by decide) fun _ => rfl

theorem ld (f : Fields) : Statement (.ld f) :=
  of_word 0x80 0x02 f rfl (by decide) (by decide) fun _ => rfl

theorem st (f : Fields) : Statement (.st f) :=
  of_word 0x80 0x03 f rfl (by decide) (by decide) fun _ => rfl

theorem lds (f : Fields) : Statement (.lds f) :=
  of_word 0x80 0x04 f rfl (by decide) (by decide) fun _ => rfl

theorem sts (f : Fields) : Statement (.sts f) :=
  of_word 0x80 0x05 f rfl (by decide) (by decide) fun _ => rfl

theorem ldv (f : Fields) : Statement (.ldv f) :=
  of_word 0x80 0x06 f rfl (by decide) (by decide) fun _ => rfl

theorem stv (f : Fields) : Statement (.stv f) :=
  of_word 0x80 0x07 f rfl (by decide) (by decide) fun _ => rfl

theorem ldg (f : Fields) : Statement (.ldg f) :=
  of_word 0x80 0x08 f rfl (by decide) (by decide) fun _ => rfl

theorem pref (f : Fields) : Statement (.pref f) :=
  of_word 0x80 0x09 f rfl (by decide) (by decide) fun _ => rfl

theorem rvalid (f : Fields) : Statement (.rvalid f) :=
  of_word 0x80 0x0A f rfl (by decide) (by decide) fun _ => rfl

theorem rinval (f : Fields) : Statement (.rinval f) :=
  of_word 0x80 0x0B f rfl (by decide) (by decide) fun _ => rfl

theorem rwr (f : Fields) : Statement (.rwr f) :=
  of_word 0x80 0x0C f rfl (by decide) (by decide) fun _ => rfl

theorem rrd (f : Fields) : Statement (.rrd f) :=
  of_word 0x80 0x0D f rfl (by decide) (by decide) fun _ => rfl

theorem fence (f : Fields) : Statement (.fence f) :=
  of_word 0x90 0x00 f rfl (by decide) (by decide) fun _ => rfl

theorem ldacq (f : Fields) : Statement (.ldacq f) :=
  of_word 0x90 0x01 f rfl (by decide) (by decide) fun _ => rfl

theorem strel (f : Fields) : Statement (.strel f) :=
  of_word 0x90 0x02 f rfl (by decide) (by decide) fun _ => rfl

theorem atomAdd (f : Fields) : Statement (.atomAdd f) :=
  of_word 0x90 0x03 f rfl (by decide) (by decide) fun _ => rfl

theorem atomMin (f : Fields) : Statement (.atomMin f) :=
  of_word 0x90 0x04 f rfl (by decide) (by decide) fun _ => rfl

theorem atomMax (f : Fields) : Statement (.atomMax f) :=
  of_word 0x90 0x05 f rfl (by decide) (by decide) fun _ => rfl

theorem atomAnd (f : Fields) : Statement (.atomAnd f) :=
  of_word 0x90 0x06 f rfl (by decide) (by decide) fun _ => rfl

theorem atomOr (f : Fields) : Statement (.atomOr f) :=
  of_word 0x90 0x07 f rfl (by decide) (by decide) fun _ => rfl

theorem atomXor (f : Fields) : Statement (.atomXor f) :=
  of_word 0x90 0x08 f rfl (by decide) (by decide) fun _ => rfl

theorem atomExch (f : Fields) : Statement (.atomExch f) :=
  of_word 0x90 0x09 f rfl (by decide) (by decide) fun _ => rfl

theorem cas (f : Fields) : Statement (.cas f) :=
  of_word 0x90 0x0A f rfl (by decide) (by decide) fun _ => rfl

theorem barArrive (f : Fields) : Statement (.barArrive f) :=
  of_word 0x91 0x00 f rfl (by decide) (by decide) fun _ => rfl

theorem barWait (f : Fields) : Statement (.barWait f) :=
  of_word 0x91 0x01 f rfl (by decide) (by decide) fun _ => rfl

theorem barSync (f : Fields) : Statement (.barSync f) :=
  of_word 0x91 0x02 f rfl (by decide) (by decide) fun _ => rfl

theorem sbarInit (f : Fields) : Statement (.sbarInit f) :=
  of_word 0x91 0x03 f rfl (by decide) (by decide) fun _ => rfl

theorem sbarWait (f : Fields) : Statement (.sbarWait f) :=
  of_word 0x91 0x04 f rfl (by decide) (by decide) fun _ => rfl

theorem wcnt (f : Fields) : Statement (.wcnt f) :=
  of_word 0x91 0x05 f rfl (by decide) (by decide) fun _ => rfl

theorem waitval (f : Fields) : Statement (.waitval f) :=
  of_word 0x91 0x06 f rfl (by decide) (by decide) fun _ => rfl

theorem chsend (f : Fields) : Statement (.chsend f) :=
  of_word 0x91 0x07 f rfl (by decide) (by decide) fun _ => rfl

theorem chrecv (f : Fields) : Statement (.chrecv f) :=
  of_word 0x91 0x08 f rfl (by decide) (by decide) fun _ => rfl

theorem chclose (f : Fields) : Statement (.chclose f) :=
  of_word 0x91 0x09 f rfl (by decide) (by decide) fun _ => rfl

theorem bwait (f : Fields) : Statement (.bwait f) :=
  of_word 0x91 0x0A f rfl (by decide) (by decide) fun _ => rfl

theorem cxsig (f : Fields) : Statement (.cxsig f) :=
  of_word 0x91 0x0B f rfl (by decide) (by decide) fun _ => rfl

theorem cpy (f : Fields) : Statement (.cpy f) :=
  of_word 0xA0 0x00 f rfl (by decide) (by decide) fun _ => rfl

theorem cpyy (f : Fields) : Statement (.cpyy f) :=
  of_word 0xA0 0x01 f rfl (by decide) (by decide) fun _ => rfl

theorem gath (f : Fields) : Statement (.gath f) :=
  of_word 0xA0 0x02 f rfl (by decide) (by decide) fun _ => rfl

theorem scat (f : Fields) : Statement (.scat f) :=
  of_word 0xA0 0x03 f rfl (by decide) (by decide) fun _ => rfl

theorem coll (f : Fields) : Statement (.coll f) :=
  of_word 0xA0 0x04 f rfl (by decide) (by decide) fun _ => rfl

theorem wbr (f : Fields) : Statement (.wbr f) :=
  of_word 0xA0 0x05 f rfl (by decide) (by decide) fun _ => rfl

theorem invr (f : Fields) : Statement (.invr f) :=
  of_word 0xA0 0x06 f rfl (by decide) (by decide) fun _ => rfl

theorem post (f : Fields) : Statement (.post f) :=
  of_word 0xA0 0x07 f rfl (by decide) (by decide) fun _ => rfl

theorem take (f : Fields) : Statement (.take f) :=
  of_word 0xA0 0x08 f rfl (by decide) (by decide) fun _ => rfl

theorem fork (f : Fields) : Statement (.fork f) :=
  of_word 0xA8 0x00 f rfl (by decide) (by decide) fun _ => rfl

theorem join (f : Fields) : Statement (.join f) :=
  of_word 0xA8 0x01 f rfl (by decide) (by decide) fun _ => rfl

theorem vid (f : Fields) : Statement (.vid f) :=
  of_word 0xA8 0x02 f rfl (by decide) (by decide) fun _ => rfl

theorem rpage (f : Fields) : Statement (.rpage f) :=
  of_word 0xA8 0x03 f rfl (by decide) (by decide) fun _ => rfl

theorem twres (f : Fields) : Statement (.twres f) :=
  of_word 0xA8 0x04 f rfl (by decide) (by decide) fun _ => rfl

theorem vabort (f : Fields) : Statement (.vabort f) :=
  of_word 0xA8 0x05 f rfl (by decide) (by decide) fun _ => rfl

theorem mmaBf16 (f : Fields) : Statement (.mmaBf16 f) :=
  of_word 0xB0 0x00 f rfl (by decide) (by decide) fun _ => rfl

theorem mmaF8 (f : Fields) : Statement (.mmaF8 f) :=
  of_word 0xB0 0x01 f rfl (by decide) (by decide) fun _ => rfl

theorem mmaS8 (f : Fields) : Statement (.mmaS8 f) :=
  of_word 0xB0 0x02 f rfl (by decide) (by decide) fun _ => rfl

theorem mmaTern (f : Fields) : Statement (.mmaTern f) :=
  of_word 0xB0 0x03 f rfl (by decide) (by decide) fun _ => rfl

theorem azero (f : Fields) : Statement (.azero f) :=
  of_word 0xB0 0x04 f rfl (by decide) (by decide) fun _ => rfl

theorem afin (f : Fields) : Statement (.afin f) :=
  of_word 0xB0 0x05 f rfl (by decide) (by decide) fun _ => rfl

theorem arel (f : Fields) : Statement (.arel f) :=
  of_word 0xB0 0x06 f rfl (by decide) (by decide) fun _ => rfl

theorem mbatch (f : Fields) : Statement (.mbatch f) :=
  of_word 0xB0 0x07 f rfl (by decide) (by decide) fun _ => rfl

theorem cxwait (f : Fields) : Statement (.cxwait f) :=
  of_word 0xB0 0x08 f rfl (by decide) (by decide) fun _ => rfl

theorem lnbnd (f : Fields) : Statement (.lnbnd f) :=
  of_word 0xB1 0x00 f rfl (by decide) (by decide) fun _ => rfl

theorem lncoef (f : Fields) : Statement (.lncoef f) :=
  of_word 0xB1 0x01 f rfl (by decide) (by decide) fun _ => rfl

theorem lnbase (f : Fields) : Statement (.lnbase f) :=
  of_word 0xB1 0x02 f rfl (by decide) (by decide) fun h => by
    simp_all [Instr.selected, rowOf, Instr.decodesTo]

theorem lnbaseOff (f : Fields) : Statement (.lnbaseOff f) :=
  of_word 0xB1 0x02 f rfl (by decide) (by decide) fun h => by
    simp_all [Instr.selected, rowOf, Instr.decodesTo]

theorem lnstart (f : Fields) : Statement (.lnstart f) :=
  of_word 0xB1 0x03 f rfl (by decide) (by decide) fun _ => rfl

theorem lnnext (f : Fields) : Statement (.lnnext f) :=
  of_word 0xB1 0x04 f rfl (by decide) (by decide) fun _ => rfl

theorem smload (f : Fields) : Statement (.smload f) :=
  of_word 0xC0 0x00 f rfl (by decide) (by decide) fun _ => rfl

theorem smclampOn (f : Fields) : Statement (.smclampOn f) :=
  of_word 0xC0 0x01 f rfl (by decide) (by decide) fun h => by
    simp_all [Instr.selected, rowOf, Instr.decodesTo]

theorem smclampOff (f : Fields) : Statement (.smclampOff f) :=
  of_word 0xC0 0x01 f rfl (by decide) (by decide) fun h => by
    simp_all [Instr.selected, rowOf, Instr.decodesTo]

theorem smseed (f : Fields) : Statement (.smseed f) :=
  of_word 0xC0 0x02 f rfl (by decide) (by decide) fun _ => rfl

theorem smbeta (f : Fields) : Statement (.smbeta f) :=
  of_word 0xC0 0x03 f rfl (by decide) (by decide) fun _ => rfl

theorem smtable (f : Fields) : Statement (.smtable f) :=
  of_word 0xC0 0x04 f rfl (by decide) (by decide) fun h => by
    simp_all [Instr.selected, rowOf, Instr.decodesTo]

theorem smtableDef (f : Fields) : Statement (.smtableDef f) :=
  of_word 0xC0 0x04 f rfl (by decide) (by decide) fun h => by
    simp_all [Instr.selected, rowOf, Instr.decodesTo]

theorem smsweep (f : Fields) : Statement (.smsweep f) :=
  of_word 0xC0 0x05 f rfl (by decide) (by decide) fun _ => rfl

theorem smread (f : Fields) : Statement (.smread f) :=
  of_word 0xC0 0x06 f rfl (by decide) (by decide) fun _ => rfl

theorem smstatRd (f : Fields) : Statement (.smstatRd f) :=
  of_word 0xC0 0x07 f rfl (by decide) (by decide) fun h => by
    simp_all [Instr.selected, rowOf, Instr.decodesTo]

theorem smstatClr (f : Fields) : Statement (.smstatClr f) :=
  of_word 0xC0 0x07 f rfl (by decide) (by decide) fun h => by
    simp_all [Instr.selected, rowOf, Instr.decodesTo]

theorem smstatRdclr (f : Fields) : Statement (.smstatRdclr f) :=
  of_word 0xC0 0x07 f rfl (by decide) (by decide) fun h => by
    simp_all [Instr.selected, rowOf, Instr.decodesTo]

theorem smstatInfo (f : Fields) : Statement (.smstatInfo f) :=
  of_word 0xC0 0x07 f rfl (by decide) (by decide) fun h => by
    simp_all [Instr.selected, rowOf, Instr.decodesTo]

theorem rld (f : Fields) : Statement (.rld f) :=
  of_word 0xC8 0x00 f rfl (by decide) (by decide) fun _ => rfl

theorem rst (f : Fields) : Statement (.rst f) :=
  of_word 0xC8 0x01 f rfl (by decide) (by decide) fun _ => rfl

theorem ratom (f : Fields) : Statement (.ratom f) :=
  of_word 0xC8 0x02 f rfl (by decide) (by decide) fun _ => rfl

theorem rfence (f : Fields) : Statement (.rfence f) :=
  of_word 0xC8 0x03 f rfl (by decide) (by decide) fun _ => rfl

theorem rigRerig (f : Fields) : Statement (.rigRerig f) :=
  of_word 0xC8 0x04 f rfl (by decide) (by decide) fun _ => rfl

theorem rigst (f : Fields) : Statement (.rigst f) :=
  of_word 0xC8 0x05 f rfl (by decide) (by decide) fun _ => rfl

theorem trap (f : Fields) : Statement (.trap f) :=
  of_word 0xD0 0x00 f rfl (by decide) (by decide) fun _ => rfl

theorem tret (f : Fields) : Statement (.tret f) :=
  of_word 0xD0 0x01 f rfl (by decide) (by decide) fun _ => rfl

theorem tfence (f : Fields) : Statement (.tfence f) :=
  of_word 0xD0 0x02 f rfl (by decide) (by decide) fun _ => rfl

theorem brk (f : Fields) : Statement (.brk f) :=
  of_word 0xD0 0x03 f rfl (by decide) (by decide) fun _ => rfl

theorem sysrd (f : Fields) : Statement (.sysrd f) :=
  of_word 0xD0 0x04 f rfl (by decide) (by decide) fun _ => rfl

theorem syswr (f : Fields) : Statement (.syswr f) :=
  of_word 0xD0 0x05 f rfl (by decide) (by decide) fun h => by
    simp_all [Instr.selected, rowOf, Instr.decodesTo]

theorem replay (f : Fields) : Statement (.replay f) :=
  of_word 0xD0 0x05 f rfl (by decide) (by decide) fun h => by
    simp_all [Instr.selected, rowOf, Instr.decodesTo]

theorem fqtail (f : Fields) : Statement (.fqtail f) :=
  of_word 0xD0 0x05 f rfl (by decide) (by decide) fun h => by
    simp_all [Instr.selected, rowOf, Instr.decodesTo]

theorem ecccnt (f : Fields) : Statement (.ecccnt f) :=
  of_word 0xD0 0x05 f rfl (by decide) (by decide) fun h => by
    simp_all [Instr.selected, rowOf, Instr.decodesTo]

theorem tlbinvAll (f : Fields) : Statement (.tlbinvAll f) :=
  of_word 0xD0 0x06 f rfl (by decide) (by decide) fun h => by
    simp_all [Instr.selected, rowOf, Instr.decodesTo]

theorem tlbinvPg (f : Fields) : Statement (.tlbinvPg f) :=
  of_word 0xD0 0x06 f rfl (by decide) (by decide) fun h => by
    simp_all [Instr.selected, rowOf, Instr.decodesTo]

theorem tlbinvRng (f : Fields) : Statement (.tlbinvRng f) :=
  of_word 0xD0 0x06 f rfl (by decide) (by decide) fun h => by
    simp_all [Instr.selected, rowOf, Instr.decodesTo]

theorem ctxsave (f : Fields) : Statement (.ctxsave f) :=
  of_word 0xD0 0x07 f rfl (by decide) (by decide) fun _ => rfl

theorem ctxld (f : Fields) : Statement (.ctxld f) :=
  of_word 0xD0 0x08 f rfl (by decide) (by decide) fun _ => rfl

theorem vacate (f : Fields) : Statement (.vacate f) :=
  of_word 0xD0 0x09 f rfl (by decide) (by decide) fun _ => rfl

theorem haltTeam (f : Fields) : Statement (.haltTeam f) :=
  of_word 0xD0 0x0A f rfl (by decide) (by decide) fun h => by
    simp_all [Instr.selected, rowOf, Instr.decodesTo]

theorem haltGrid (f : Fields) : Statement (.haltGrid f) :=
  of_word 0xD0 0x0A f rfl (by decide) (by decide) fun h => by
    simp_all [Instr.selected, rowOf, Instr.decodesTo]

theorem heatw (f : Fields) : Statement (.heatw f) :=
  of_word 0xD4 0x00 f rfl (by decide) (by decide) fun _ => rfl

theorem heatsw (f : Fields) : Statement (.heatsw f) :=
  of_word 0xD4 0x01 f rfl (by decide) (by decide) fun _ => rfl

theorem donate (f : Fields) : Statement (.donate f) :=
  of_word 0xD4 0x02 f rfl (by decide) (by decide) fun _ => rfl

theorem scrub (f : Fields) : Statement (.scrub f) :=
  of_word 0xD4 0x03 f rfl (by decide) (by decide) fun _ => rfl

theorem trctlSet (f : Fields) : Statement (.trctlSet f) :=
  of_word 0xD8 0x00 f rfl (by decide) (by decide) fun h => by
    simp_all [Instr.selected, rowOf, Instr.decodesTo]

theorem trctlHead (f : Fields) : Statement (.trctlHead f) :=
  of_word 0xD8 0x00 f rfl (by decide) (by decide) fun h => by
    simp_all [Instr.selected, rowOf, Instr.decodesTo]

theorem trctlTail (f : Fields) : Statement (.trctlTail f) :=
  of_word 0xD8 0x00 f rfl (by decide) (by decide) fun h => by
    simp_all [Instr.selected, rowOf, Instr.decodesTo]

theorem trctlLost (f : Fields) : Statement (.trctlLost f) :=
  of_word 0xD8 0x00 f rfl (by decide) (by decide) fun h => by
    simp_all [Instr.selected, rowOf, Instr.decodesTo]

theorem trmark (f : Fields) : Statement (.trmark f) :=
  of_word 0xD8 0x01 f rfl (by decide) (by decide) fun _ => rfl

theorem pcnt (f : Fields) : Statement (.pcnt f) :=
  of_word 0xD8 0x02 f rfl (by decide) (by decide) fun _ => rfl

theorem stepStop (f : Fields) : Statement (.stepStop f) :=
  of_word 0xD8 0x03 f rfl (by decide) (by decide) fun h => by
    simp_all [Instr.selected, rowOf, Instr.decodesTo]

theorem stepGo (f : Fields) : Statement (.stepGo f) :=
  of_word 0xD8 0x03 f rfl (by decide) (by decide) fun h => by
    simp_all [Instr.selected, rowOf, Instr.decodesTo]

theorem stepRun (f : Fields) : Statement (.stepRun f) :=
  of_word 0xD8 0x03 f rfl (by decide) (by decide) fun h => by
    simp_all [Instr.selected, rowOf, Instr.decodesTo]

theorem stepPath (f : Fields) : Statement (.stepPath f) :=
  of_word 0xD8 0x03 f rfl (by decide) (by decide) fun h => by
    simp_all [Instr.selected, rowOf, Instr.decodesTo]

theorem launch (f : Fields) : Statement (.launch f) :=
  of_word 0xE0 0x00 f rfl (by decide) (by decide) fun _ => rfl

theorem launchd (f : Fields) : Statement (.launchd f) :=
  of_word 0xE0 0x01 f rfl (by decide) (by decide) fun _ => rfl

theorem lqst (f : Fields) : Statement (.lqst f) :=
  of_word 0xE0 0x02 f rfl (by decide) (by decide) fun _ => rfl

theorem rigWinwr (f : Fields) : Statement (.rigWinwr f) :=
  of_word 0xC8 0x04 f rfl (by decide) (by decide) fun _ => rfl

theorem rigWinclr (f : Fields) : Statement (.rigWinclr f) :=
  of_word 0xC8 0x04 f rfl (by decide) (by decide) fun _ => rfl

theorem rigPmap (f : Fields) : Statement (.rigPmap f) :=
  of_word 0xC8 0x04 f rfl (by decide) (by decide) fun _ => rfl

theorem rigLock (f : Fields) : Statement (.rigLock f) :=
  of_word 0xC8 0x04 f rfl (by decide) (by decide) fun _ => rfl

theorem rigGo (f : Fields) : Statement (.rigGo f) :=
  of_word 0xC8 0x04 f rfl (by decide) (by decide) fun _ => rfl

theorem illegalInstruction (cause : BitVec 4) (word : BitVec 96) : Statement (.illegalInstruction cause word) :=
  of_event rfl

theorem fetchOverrun : Statement (.fetchOverrun) :=
  of_event rfl

theorem lineFetch (p : PathRef) (flip1 flip2 : BitVec 512) : Statement (.lineFetch p flip1 flip2) :=
  of_event rfl

theorem switchMarkerRelease (g : GroupRef) : Statement (.switchMarkerRelease g) :=
  of_event rfl

theorem schedulerAgePriority (core sched : Nat) : Statement (.schedulerAgePriority core sched) :=
  of_event rfl

theorem loadDataArrive (g : GroupRef) (access : Nat) : Statement (.loadDataArrive g access) :=
  of_event rfl

theorem translationWalkComplete (walk : Nat) : Statement (.translationWalkComplete walk) :=
  of_event rfl

theorem heldRecordWrite (crew : Nat) : Statement (.heldRecordWrite crew) :=
  of_event rfl

theorem storeDrain (g : GroupRef) (entry : Nat) : Statement (.storeDrain g entry) :=
  of_event rfl

theorem storeAck (g : GroupRef) (scope : Scope) : Statement (.storeAck g scope) :=
  of_event rfl

theorem lineReplicate (line : LineKey) : Statement (.lineReplicate line) :=
  of_event rfl

theorem pageClearComplete (crew page : Nat) : Statement (.pageClearComplete crew page) :=
  of_event rfl

theorem waitvalRecheck (p : PathRef) : Statement (.waitvalRecheck p) :=
  of_event rfl

theorem engineBytePerformed (cmd : Nat) : Statement (.engineBytePerformed cmd) :=
  of_event rfl

theorem commandRetire (cmd : Nat) : Statement (.commandRetire cmd) :=
  of_event rfl

theorem engineFault (cmd : Nat) : Statement (.engineFault cmd) :=
  of_event rfl

theorem cpyyYield (cmd : Nat) : Statement (.cpyyYield cmd) :=
  of_event rfl

theorem mailboxPostEnqueue (cmd : Nat) : Statement (.mailboxPostEnqueue cmd) :=
  of_event rfl

theorem mailboxTakeDeliver (cmd : Nat) : Statement (.mailboxTakeDeliver cmd) :=
  of_event rfl

theorem matrixOpStart (core : Nat) : Statement (.matrixOpStart core) :=
  of_event rfl

theorem matrixOpComplete (core : Nat) : Statement (.matrixOpComplete core) :=
  of_event rfl

theorem afinComplete (core : Nat) : Statement (.afinComplete core) :=
  of_event rfl

theorem cxwaitRecheck (team : Nat) : Statement (.cxwaitRecheck team) :=
  of_event rfl

theorem mergeCheck (team : Nat) : Statement (.mergeCheck team) :=
  of_event rfl

theorem mergeCommit (team : Nat) : Statement (.mergeCommit team) :=
  of_event rfl

theorem determinateJoin (grid : Nat) : Statement (.determinateJoin grid) :=
  of_event rfl

theorem determinateJoinRetry (grid : Nat) : Statement (.determinateJoinRetry grid) :=
  of_event rfl

theorem samplerCommandStart (crew die : Nat) : Statement (.samplerCommandStart crew die) :=
  of_event rfl

theorem samplerColourPhase (crew die : Nat) : Statement (.samplerColourPhase crew die) :=
  of_event rfl

theorem samplerCommandComplete (crew die : Nat) : Statement (.samplerCommandComplete crew die) :=
  of_event rfl

theorem riggerLinkTrained (rigger : Nat) : Statement (.riggerLinkTrained rigger) :=
  of_event rfl

theorem riggerTrainingTimeout (rigger : Nat) (noPart : Bool) : Statement (.riggerTrainingTimeout rigger noPart) :=
  of_event rfl

theorem riggerAttestationPass (rigger : Nat) : Statement (.riggerAttestationPass rigger) :=
  of_event rfl

theorem riggerAttestationFail (rigger : Nat) : Statement (.riggerAttestationFail rigger) :=
  of_event rfl

theorem riggerLinkLost (rigger : Nat) : Statement (.riggerLinkLost rigger) :=
  of_event rfl

theorem riggerDrainEnd (rigger : Nat) : Statement (.riggerDrainEnd rigger) :=
  of_event rfl

theorem ualinkResponseTimeout (request : Nat) : Statement (.ualinkResponseTimeout request) :=
  of_event rfl

theorem heldRequestTimeout (request : Nat) : Statement (.heldRequestTimeout request) :=
  of_event rfl

theorem planeMoveEffect (value : BitVec 3) : Statement (.planeMoveEffect value) :=
  of_event rfl

theorem riggerTierAge (rigger : Nat) : Statement (.riggerTierAge rigger) :=
  of_event rfl

theorem remoteResponse (request : Nat) (ok : Bool) (data : List Byte) : Statement (.remoteResponse request ok data) :=
  of_event rfl

theorem networkEntryPriority (packet : Nat) : Statement (.networkEntryPriority packet) :=
  of_event rfl

theorem drainWindowOpen (set crew : Nat) : Statement (.drainWindowOpen set crew) :=
  of_event rfl

theorem heatEdge (set : Nat) : Statement (.heatEdge set) :=
  of_event rfl

theorem octetHandover (octet : Nat) : Statement (.octetHandover octet) :=
  of_event rfl

theorem idleDonation (set crew : Nat) : Statement (.idleDonation set crew) :=
  of_event rfl

theorem preemptWindowEnd (set crew : Nat) : Statement (.preemptWindowEnd set crew) :=
  of_event rfl

theorem groupSave (g : GroupRef) : Statement (.groupSave g) :=
  of_event rfl

theorem teamRestore (team : Nat) : Statement (.teamRestore team) :=
  of_event rfl

theorem launchConsume (set : Nat) : Statement (.launchConsume set) :=
  of_event rfl

theorem teamPlace (set crew : Nat) : Statement (.teamPlace set crew) :=
  of_event rfl

theorem heldCompletionWrite (vf queue : Nat) : Statement (.heldCompletionWrite vf queue) :=
  of_event rfl

theorem hostTailWrite (vf queue : Nat) (tail : Word64) : Statement (.hostTailWrite vf queue tail) :=
  of_event rfl

theorem hostCtailWrite (vf queue : Nat) (ctail : Word64) : Statement (.hostCtailWrite vf queue ctail) :=
  of_event rfl

theorem hostKillGrid (vf : Nat) (seq : Word64) : Statement (.hostKillGrid vf seq) :=
  of_event rfl

theorem hostReplay (crew : Nat) (seq : Word64) : Statement (.hostReplay crew seq) :=
  of_event rfl

theorem deviceRestart : Statement (.deviceRestart) :=
  of_event rfl

theorem imageLoad (crew : Nat) (image : List Byte) (recordBase : Nat) (bases : LoadBases) : Statement (.imageLoad crew image recordBase bases) :=
  of_event rfl

theorem keyProvision (crew slot : Nat) (key : PublicKey) : Statement (.keyProvision crew slot key) :=
  of_event rfl

theorem rollbackFloorWrite (crew slot : Nat) (floor : Word32) : Statement (.rollbackFloorWrite crew slot floor) :=
  of_event rfl

theorem dieSetConfigure (writes : List DieWrite) : Statement (.dieSetConfigure writes) :=
  of_event rfl

theorem crewBind (crew base : Nat) : Statement (.crewBind crew base) :=
  of_event rfl

theorem crewReset (crew : Nat) : Statement (.crewReset crew) :=
  of_event rfl

theorem functionControlWrite (vf : Nat) (control : Word64) : Statement (.functionControlWrite vf control) :=
  of_event rfl

theorem functionReset (vf : Nat) : Statement (.functionReset vf) :=
  of_event rfl

theorem functionMigrationPause (vf : Nat) : Statement (.functionMigrationPause vf) :=
  of_event rfl

theorem heatTableInstall (set : Nat) (rows : List (BitVec 2048)) : Statement (.heatTableInstall set rows) :=
  of_event rfl

theorem pageTableRootSet (crew : Nat) (root : Word64) : Statement (.pageTableRootSet crew root) :=
  of_event rfl

theorem vaultAssign (die vault crew : Nat) : Statement (.vaultAssign die vault crew) :=
  of_event rfl

theorem mailboxAssign (slice box crew : Nat) : Statement (.mailboxAssign slice box crew) :=
  of_event rfl

theorem twinPoolSet (crew : Nat) (base : Word64) (size : Nat) : Statement (.twinPoolSet crew base size) :=
  of_event rfl

theorem recordTableSet (crew : Nat) (size : Nat) (base : Word64) : Statement (.recordTableSet crew size base) :=
  of_event rfl

theorem peerRegister (peer : Nat) (endpoint key : Word64) : Statement (.peerRegister peer endpoint key) :=
  of_event rfl

theorem unscrubbedBitmapWrite (crew page : Nat) (bit : Bool) : Statement (.unscrubbedBitmapWrite crew page bit) :=
  of_event rfl

theorem hostTlbinv (crew : Nat) (kind : BitVec 2) (va : VAddr) (len : Word32) : Statement (.hostTlbinv crew kind va len) :=
  of_event rfl

theorem hostVacate (crew : Nat) (lseq : Word64) (count : Nat) : Statement (.hostVacate crew lseq count) :=
  of_event rfl

theorem powerOnBoot : Statement (.powerOnBoot) :=
  of_event rfl

theorem firmwareImage (image : List Byte) (signature : List Byte) (key : PublicKey) : Statement (.firmwareImage image signature key) :=
  of_event rfl

theorem powerLimitInput (board : Bool) (hot : BitVec 8) : Statement (.powerLimitInput board hot) :=
  of_event rfl

theorem powerRemoval : Statement (.powerRemoval) :=
  of_event rfl

theorem refillQueueFill (team : Nat) (count : Nat) : Statement (.refillQueueFill team count) :=
  of_event rfl

theorem peerRequestArrival (rigger : Nat) (request : PeerRequest) : Statement (.peerRequestArrival rigger request) :=
  of_event rfl

theorem hostPortAccess (crew : Nat) (access : HostAccess) : Statement (.hostPortAccess crew access) :=
  of_event rfl

theorem launchQueueConfigure (vf queue : Nat) (config : QueueConfig) : Statement (.launchQueueConfigure vf queue config) :=
  of_event rfl

theorem functionMigrationResume (vf : Nat) : Statement (.functionMigrationResume vf) :=
  of_event rfl

theorem crewClassGrant (crew : Nat) (cls : BitVec 3) : Statement (.crewClassGrant crew cls) :=
  of_event rfl

theorem hostScrub (crew : Nat) (base : Word64) (len : Nat) : Statement (.hostScrub crew base len) :=
  of_event rfl

theorem hostSpdmRequest (message : List Byte) : Statement (.hostSpdmRequest message) :=
  of_event rfl

end Sys2Proof.Laws.Words
end

