-- ==== Sys2Proof/Tests/Slice0.lean ====
section
/-! SUPPORT. The model's own tests. First the words and the checks of well-formedness, with values from the worked cases of spec/;
then small single steps; then, for every statement with hypotheses, a state and operands that meet them, clause by clause. -/

namespace Sys2Proof.Tests

set_option Elab.async false

open Machine

/-- A word whose guard is the constant 1 and whose other fields are zero (R22, R26). -/
def fld : Fields := { sw := false, neg := false, pg := 7, d := 0, sa := 0, sb := 0, sc := 0, lr := 0, useImm := false, md := 0, imm := 0 }

/-- The same with the guard 0. -/
def off : Fields := { fld with neg := true }

/-- A group, path 0 of which issues: one group of one team of crew 0, which owns the package. -/
def base : State := { State.reset.withFetchWord 96 0x0038E000_00000000_00000000 with issuer := .path ⟨2, 0, 0⟩, turns := [] }

/-- That state with its group changed. -/
def withG (h : Group → Group) : State := base.modGroup 2 0 h

/-- That state with its team changed. -/
def withT (h : Team → Team) : State := base.modTeam 2 h

/-- The state with the path's entry changed. -/
def withP (h : Path → Path) : State := withG fun g => { g with paths := g.paths.map fun p => p.map h }

/-- The state with uniform registers set. -/
def withU (l : List (Nat × Word64)) : State := withG fun g => { g with g := l.foldl (fun r e => r.setIfInBounds e.1 e.2) g.g }

/-- The state with vector registers that hold one word in every lane. -/
def withV (l : List (Nat × Word32)) : State := withG fun g => { g with vregs := l.map fun e => (e.1, { lanes := Lanes.all e.2 }) }

/-- The context of the path in a state. -/
def ctx (s : State) : PathCtx :=
  (s.pathCtx ⟨2, 0, 0⟩).getD { s := s, tid := 2, gi := 0, pi := 0, t := Team.start 0 0 0 0 0 0 0 0 0, g := Group.start 0 0 0 0 0 0,
                               p := { mask := 0, pc := 0 } }

/-- What core 0 translates: the page at 0x100000, permitting everything, and the page at 0x200000, permitting nothing. -/
def tlb0 : List TlbEntry :=
  let all : Perm := { r := true, w := true, x := true, c := true, sm := false, red := 0 }
  [{ crew := 0, base := 0x100000, size := 0x10000, pa := 0x300000, perm := all },
   { crew := 0, base := 0x200000, size := 0x10000, pa := 0x400000, perm := { all with r := false, w := false } }]

/-- A state with that translation, a window of scratch and a vault. -/
def mapped (s : State) : State :=
  { (s.modCore 0 fun c => { c with tlb := tlb0 }).modTeam 2 fun t => { t with winSize := 4096 } with vaultCrew := [(0, 0)] }

/-- The seat's state: one team of crew 0 with one group and a seat, which issues. -/
def seatBase : State := { State.reset.withFetchWord 96 0xB00CE000_80A0C002_00024211 with issuer := .seat 2, turns := [] }

/-- That state with its seat changed. -/
def withQ (h : Seat → Seat) : State := seatBase.modSeat 2 h

/-- The context of the seat in a state. -/
def sctx (s : State) : SeatCtx :=
  (s.seatCtx 2).getD { s := s, tid := 2, t := Team.start 0 0 0 0 0 0 0 0 0, q := Seat.start 0 0 0 }

/-! Words -/

/-- What the decoder answers, with a content that is no instruction as its cause. -/
def word (st : Stream) (w : BitVec 96) : Option Instr := (decode st w).toOption

/-- R105: the `mac2` of the FIR program. -/
theorem test_decode_mac2 : word .group 0x1616E160_18C16005_00000000 = some (.mac2 { fld with sw := true, d := 11, sb := 0xC6, sc := 11, md := 5 }) := by
  decide +kernel

/-- R200: the atomic of the histogram program. -/
theorem test_decode_atom : word .group 0x900CE001_008016C1_00000000 = some (.atomAdd { fld with sa := 8, sb := 4, lr := 0xB, md := 0xC1 }) := by
  decide +kernel

/-- R252: the `mma` of the tile program, its bytes as the worked case lists them. -/
theorem test_encode_mma : encodeBytes (.mmaTern { fld with sa := 8, sb := 10, sc := 6, md := 2, imm := 0x6E001 }) =
    [0x01, 0xE0, 0x06, 0x00, 0x02, 0xC0, 0x40, 0x01, 0x01, 0xE0, 0x0C, 0xB0] := by decide +kernel

/-- R291: the `smseed` of the sampler program. -/
theorem test_encode_smseed : encodeBytes (.smseed { fld with sa := 0xC5, sb := 0xC6 }) =
    [0, 0, 0, 0, 0, 0, 0xC0, 0xB8, 0x18, 0xE0, 0x08, 0xC0] := by decide +kernel

/-- R213: the `cpy` of the worked case. -/
theorem test_encode_cpy : encodeBytes (.cpy { fld with sa := 0xC4, sb := 0xC5, sc := 0xC6, md := 2, imm := 0xD1 }) =
    [0xD1, 0, 0, 0, 0x02, 0xC0, 0xB8, 0x98, 0x18, 0xE0, 0x00, 0xA0] := by decide +kernel

/-- R202: the `bar.sync` of the tenants. -/
theorem test_encode_bar : encode (.barSync fld) = some 0x9108E000_00000000_00000000 := by decide +kernel

/-- R17: the line word of the worked case. -/
theorem test_line_word : makeLineWord [0, 0, 1, 0, 1] 1 2 = 0xE841 := by decide +kernel

/-- R6, R5: core 205. -/
theorem test_core_205 : dieOf 205 = 3 ∧ clusterOf 205 = 6 := by decide +kernel

/-! Well-formedness: an ill-formed term for each check -/

theorem test_ill_words :
    (Instr.add { fld with md := 0x80 }).wf .group = false ∧ (Instr.nop { fld with d := 1 }).wf .group = false ∧ (Instr.ballot { fld with d := 1 }).wf .group = false ∧
    (Instr.mbatch fld).wf .group = false ∧ (Instr.tlbinvPg fld).wf .group = false ∧ (Instr.nop fld).wf .group = true := by decide +kernel

theorem test_ill_events :
    (Instr.lineFetch ⟨2, 32, 0⟩ 0 0).wf .group = false ∧ (Instr.lineFetch ⟨2, 0, 8⟩ 0 0).wf .group = false ∧
    (Instr.switchMarkerRelease ⟨2, 32⟩).wf .group = false ∧ (Instr.schedulerAgePriority 512 0).wf .group = false ∧
    (Instr.schedulerAgePriority 0 4).wf .group = false ∧ (Instr.crewBind 40 0).wf .group = false ∧ (Instr.crewBind 0 8).wf .group = false ∧
    (Instr.riggerLinkLost 16).wf .group = false ∧ (Instr.octetHandover 64).wf .group = false ∧ (Instr.hostTailWrite 512 0 0).wf .group = false ∧
    (Instr.hostTailWrite 0 8 0).wf .group = false ∧ (Instr.functionReset 512).wf .group = false ∧ (Instr.rollbackFloorWrite 0 16 0).wf .group = false ∧
    (Instr.vaultAssign 0 64 0).wf .group = false ∧ (Instr.mailboxAssign 128 0 0).wf .group = false ∧ (Instr.mailboxAssign 0 64 0).wf .group = false ∧
    (Instr.peerRegister 4096 0 0).wf .group = false ∧ (Instr.dieSetConfigure [⟨8, 0, 0⟩]).wf .group = false ∧
    (Instr.crewBind 39 7).wf .group = true := by decide +kernel

/-! Single steps -/

/-- The state after an instruction of the path. -/
def after (i : Instr) (s : State) : State := match Machine.exec i s with | .next t => t | _ => s

/-- A lane of a vector register. -/
def lane (s : State) (r l : Nat) : Option Word32 := (s.group 2 0).bind fun g => (aget r g.vregs).map fun v => v.lanes.get l

/-- A uniform register. -/
def uni (s : State) (r : Nat) : Option Word64 := (s.group 2 0).map fun g => g.uniOf r

/-- The sticky flags. -/
def sticky (s : State) : Option (BitVec 8) := (s.group 2 0).map fun g => g.flags.setWidth 8

/-- A vector register with lanes 0 and 1 and the others. -/
def lanes3 (a b c : Word32) : VReg := { lanes := Lanes.ofFn fun l => if l = 0 then a else if l = 1 then b else c }

/-- R105: the sum is clamped and SAT is set. -/
theorem test_mac2 :
    let t := after (.mac2 { fld with d := 8, sa := 2, sb := 3, sc := 8, md := 5 }) (withV [(2, 0x7FFF7FFF), (3, 0x00017FFF), (8, 0x7FFF0000)])
    lane t 8 31 = some 0x7FFFFFFF ∧ sticky t = some 0x20 := by decide +kernel

/-- R98: halfway values of `rsh` round up: 5 by 1 is 3, and −5 by 1 is −2. -/
theorem test_rsh :
    let t (a : Word32) := after (.rsh { fld with d := 9, sa := 8, useImm := true, md := 0x16, imm := 1 }) (withV [(8, a)])
    lane (t 5) 9 0 = some 3 ∧ lane (t 0xFFFFFFFB) 9 0 = some 0xFFFFFFFE := by decide +kernel

/-- R113: the fixed tree. -/
theorem test_redf_add :
    let t := after (.redf { fld with d := 0xC4, sa := 2 }) (withG fun g => { g with vregs := [(2, lanes3 0x4B800000 0x3F800000 0x3F800000)] })
    uni t 4 = some 0x4B80000F ∧ sticky t = some 0x10 := by decide +kernel

/-- R111: the fill elements of `hslide`. -/
theorem test_hslide :
    let s := (withV [(4, 0xBBBBAAAA)]).modGroup 2 0 fun g => { g with g := g.g.setIfInBounds 3 0x7FFF0100FFFF0005 }
    let f (n : BitVec 32) : Fields := { fld with d := 5, sa := 4, sb := 0xC3, md := 1, imm := n }
    lane (after (.hslideUp (f 1)) s) 5 0 = some 0xAAAA7FFF ∧ lane (after (.hslideUp (f 2)) s) 5 0 = some 0x7FFF0100 ∧
    lane (after (.hslideDn (f 1)) s) 5 31 = some 0x0005BBBB := by decide +kernel

/-- R131: the worked conversions to f8. -/
theorem test_cvt_f8 :
    let t (a : Word32) := after (.cvt { fld with d := 5, sa := 4, md := 3 }) (withV [(4, a)])
    let r (a : Word32) := (lane (t a) 5 0, sticky (t a))
    r 0x43960000 = (some 0x79, some 0x10) ∧ r 0x43F50000 = (some 0x7F, some 0x10) ∧ r 0x43FA0000 = (some 0x7F, some 0x14) ∧
    r 0x80000000 = (some 0x80, some 0) ∧ r 0x3A800000 = (some 0, some 0x18) ∧ r 0x3B400000 = (some 2, some 0x18) ∧
    r 0x7F800000 = (some 0x7F, some 0x14) ∧ r 0x7FC00000 = (some 0, some 1) := by decide +kernel

/-- R244, R245: the worked accumulator element. -/
theorem test_accumulator : convert .f32 3 0x0000440000000007 .finite = (0x41080000, Flag.inexact) := by decide +kernel

/-- R292: the worked draw. -/
theorem test_draw : seededDraw 0x0000000500000001 5 0 = 12386 := by decide +kernel

/-- R290, R291: the worked fields and entries of the default table. -/
theorem test_sampler_entry :
    let x : Sampler := { q := 1, cells := [(0, { state := true }), (1, { state := true }), (2, { state := true }), (3, { state := true })] }
    let c : Cell := { bias := 8, nbrs := [(0, 8), (1, 8), (2, 8), (3, 8)] }
    x.field c = 40 ∧ ({ x with cells := [] } : Sampler).field c = -24 ∧ x.entry 1280 = 65533 ∧ x.entry (-768) = 162 ∧ x.entry 0 = 32768 := by
  decide +kernel

/-- R271: leaf 2^24 and leaf 1.0 over the identity −0.0, and the parent's fold. -/
theorem test_fold :
    foldElem 1 0x80000000 0x4B800000 = (0x4B800000, 0) ∧ foldElem 1 0x4B800000 0x3F800000 = (0x4B800000, Flag.inexact) ∧
    foldElem 1 0x4B800000 0x40000000 = (0x4B800001, 0) := by decide +kernel

/-- R270: byte 2 is the conflict of children 1 and 2; a byte equal to the twin is none. -/
theorem test_conflict :
    let g (bs : List Byte) (wrote : Nat) : Granule := { view := 1, addr := 0x400000000100, priv := bs ++ List.replicate 252 0,
                                                        twin := List.replicate 256 0, op := 0, wrote := wrote, pa := 0 }
    findConflict [(0, g [0x11, 0, 0, 0] 3), (1, g [0, 0x22, 0x33, 0] 6), (2, g [0, 0, 0x44, 0] 4)] = some (0x400000000102, 1, 2) ∧
    findConflict [(0, g [0x11, 0, 0, 0] 3), (1, g [0, 0x22, 0x33, 0] 6)] = none := by decide +kernel

/-- A state whose issuer is that path, which it holds, makes the context issue. -/
theorem wiss {s : State} (b : (s.issuer == .path ⟨2, 0, 0⟩ && (s.pathCtx ⟨2, 0, 0⟩).isSome) = true) : (ctx s).Issues := by
  obtain ⟨h, e⟩ := Bool.and_eq_true_iff.mp b
  have h := eq_of_beq h
  unfold ctx
  cases hc : s.pathCtx ⟨2, 0, 0⟩ with
  | none => rw [hc] at e; cases e
  | some c =>
    have hs : c.s = s ∧ c.tid = 2 ∧ c.gi = 0 ∧ c.pi = 0 := by
      unfold State.pathCtx at hc
      split at hc
      · cases hc
      · split at hc
        · cases hc
        · split at hc
          · cases hc
          · cases hc; exact ⟨rfl, rfl, rfl, rfl⟩
    obtain ⟨h1, h2, h3, h4⟩ := hs
    rw [Option.getD_some]
    refine ⟨?_, ?_⟩
    · rw [h1, h, h2, h3, h4]
    · show c.s.pathCtx ⟨c.tid, c.gi, c.pi⟩ = some c
      rw [h1, h2, h3, h4]; exact hc

/-- The same of a seat. -/
theorem wissS {s : State} (b : (s.issuer == .seat 2 && (s.seatCtx 2).isSome) = true) : (sctx s).Issues := by
  obtain ⟨h, e⟩ := Bool.and_eq_true_iff.mp b
  have h := eq_of_beq h
  unfold sctx
  cases hc : s.seatCtx 2 with
  | none => rw [hc] at e; cases e
  | some c =>
    have hs : c.s = s ∧ c.tid = 2 := by
      unfold State.seatCtx at hc
      split at hc
      · cases hc
      · obtain ⟨q, _, rfl⟩ := Option.map_eq_some_iff.mp hc
        exact ⟨rfl, rfl⟩
    obtain ⟨h1, h2⟩ := hs
    rw [Option.getD_some]
    refine ⟨?_, ?_⟩
    · rw [h1, h, h2]
    · show c.s.seatCtx c.tid = some c
      rw [h1, h2]; exact hc

theorem wit_ArithmeticResults :
    ((ctx base).Issues ∧ (ctx base).Acts fld 31) ∧ ∃ n w x, (.mulhi fld, n, w, false, x) ∈ arithmetic (ctx base) fld :=
  ⟨⟨wiss (by decide +kernel), by unfold PathCtx.Acts; decide +kernel⟩, _, _, _, .tail _ (.tail _ (.tail _ (.tail _ (.tail _ (.tail _ (.tail _ (.head _)))))))⟩

/-! Witnesses: the hypotheses of each statement, clause by clause -/

theorem wit_base :
    (ctx base).Issues ∧ (ctx base).effect fld = true ∧ (ctx base).effect off = false :=
  ⟨wiss (by decide +kernel), by decide +kernel⟩

theorem wit_ValueFormsComplete :
    (ctx base).Issues ∧ (.add fld, 1, Flag.sat) ∈ integerForms fld ++ packedForms fld ++ floatForms fld :=
  ⟨wiss (by decide +kernel), by decide +kernel⟩

theorem wit_PredicateFormsComplete :
    (ctx base).Issues ∧ (.fCmpUn fld, Flag.inv) ∈ predicateForms fld :=
  ⟨wiss (by decide +kernel), by decide +kernel⟩

theorem wit_UniformAndSpecialReads :
    (ctx base).Issues ∧ (ctx base).active fld = BitVec.allOnes 32 ∧ (ctx base).active off = 0 :=
  ⟨wiss (by decide +kernel), by decide +kernel⟩

theorem wit_MaskAndSpecialWrites :
    (ctx base).Issues ∧ (ctx base).effect fld = true ∧ (ctx base).effect off = false ∧
    ({ fld with imm := 0x10 } : Fields).immBits 0 8 = 0x10 ∧ ({ fld with imm := 0x11 } : Fields).immBits 0 8 = 0x11 ∧
    ({ fld with imm := 0x13 } : Fields).immBits 0 8 = 0x13 + 0 ∧ ({ fld with imm := 0x19 } : Fields).immBits 0 8 = 0x13 + 6 :=
  ⟨wiss (by decide +kernel), by decide +kernel⟩

theorem wit_CarryResults :
    (ctx base).Issues ∧ (ctx base).active fld = BitVec.allOnes 32 ∧ fld.dead = false ∧ fld.sc.toNat < 7 :=
  ⟨wiss (by decide +kernel), by decide +kernel⟩

theorem wit_CarryIllegal :
    let f : Fields := { fld with d := 3, sa := 1, sb := 2, sc := 7, md := 10 }
    ∃ w w' x, encode (.subb f) = some w ∧ encode (.subb { f with sc := 0 }) = some w' ∧ decode .group w' = .ok x ∧
      decode .group w = .error (.illegal 4) :=
  ⟨_, _, .subb { fld with d := 3, sa := 1, sb := 2, sc := 0, md := 10 }, rfl, rfl, by rfl, by rfl⟩

theorem wit_CrossLaneComplete :
    (ctx base).Issues ∧ fld.dead = false ∧ ({ fld with imm := 31 } : Fields).immBits 0 5 = 31 :=
  ⟨wiss (by decide +kernel), by decide +kernel⟩

/-- Operand A is the most negative value, operand B is −1 or 0. -/
def divState (b : Word32) : PathCtx := ctx (withV [(1, 0x80000000), (2, b)])

theorem wit_BitwiseShiftAndDivisionResults :
    let f : Fields := { fld with d := 3, sa := 1, sb := 2, md := 6 }
    (divState 0).Issues ∧ (divState 0xFFFFFFFF).Issues ∧ f.dead = false ∧ isUni f.d = false ∧
    ((divState 0).active f).getLsbD 31 = true ∧ (divState 0).intB f 31 = 0 ∧ f.ity.signed = true ∧
    (divState 0xFFFFFFFF).intA f 0 = -(2 ^ (f.ity.width - 1)) ∧ (divState 0xFFFFFFFF).intB f 0 = -1 :=
  ⟨wiss (by decide +kernel), wiss (by decide +kernel), by decide +kernel⟩

theorem wit_PredicateResults :
    let f : Fields := { fld with d := 6, sa := 1, md := 0 }
    let c := ctx (withV [(1, 0x7FC00000)])
    c.Issues ∧ f.dead = false ∧ f.d.toNat < 7 ∧ (c.active f).getLsbD 31 = true ∧
    (fmtOf f.fty).unpack ((fmtOf f.fty).elem (c.laneOp 0 f.sa 1 31) 0) = .nan false :=
  ⟨wiss (by decide +kernel), by decide +kernel⟩

theorem wit_SeatFormsComplete :
    (sctx seatBase).Issues ∧ (sctx seatBase).guard fld = true ∧ (sctx seatBase).guard off = false :=
  ⟨wissS (by decide +kernel), by decide +kernel⟩

/-- `g4` holds the entry, `g5` the slot after it, `g6` 1, `g7` 2. -/
def moves : State := withU [(4, 0x10000), (5, 0x1000C), (6, 1), (7, 2)]

theorem wit_WholePathTransfers :
    let c := ctx { moves with turns := [] }
    let i (k : BitVec 8) : Fields := { fld with sa := k }
    let d (k : BitVec 8) (imm : Word32) : Fields := { fld with d := k, imm := imm }
    c.Issues ∧ (Instr.jmpi (i 0xC4), true, (0x10000 : Word64), c.p.lk) ∈ wholeTransfers c (i 0xC4) ∧
    c.s.landing c.t 0x10000 = none ∧ (Instr.jmpi (i 0xC5), true, (0x1000C : Word64), c.p.lk) ∈ wholeTransfers c (i 0xC5) ∧
    c.s.landing c.t 0x1000C = some 0x02 ∧ c.uni 3 (d 0xC7 0).d - 1 ≠ 0 ∧
    c.s.landing c.t (directTarget c.p.pc (d 0xC7 0).imm) = none ∧
    c.s.landing c.t (directTarget c.p.pc (d 0xC7 1).imm) = some 0x02 ∧ c.uni 3 (d 0xC6 0).d - 1 = 0 :=
  ⟨wiss (by decide +kernel), by decide +kernel⟩

/-- The group with predicate 1 in one lane, and with all eight paths taken. -/
def split (p : Mask) : State := withG fun g => { g with preds := g.preds.setIfInBounds 1 p }

theorem wit_BraDivides :
    let f : Fields := { fld with sa := 1 }
    let taken (c : PathCtx) : Mask := c.active f &&& c.pred 0 f.sa.toNat
    let all := ctx (split (BitVec.allOnes 32))
    (ctx (split 0)).Issues ∧ (ctx (split 1)).Issues ∧ all.Issues ∧ taken (ctx (split 0)) = 0 ∧ (ctx (split 0)).active f ≠ 0 ∧
    (ctx (split 0)).active off = 0 ∧ taken (ctx (split 1)) ≠ 0 ∧ (ctx (split 1)).p.mask &&& ~~~taken (ctx (split 1)) ≠ 0 ∧
    (ctx (split 1)).g.freeEntry = some 1 ∧
    (ctx (split 1)).s.landing (ctx (split 1)).t (directTarget (ctx (split 1)).p.pc f.imm) = none ∧
    all.p.mask &&& ~~~taken all = 0 ∧ all.s.landing all.t (directTarget all.p.pc 1) = some 0x02 :=
  ⟨wiss (by decide +kernel), wiss (by decide +kernel), wiss (by decide +kernel), by decide +kernel⟩

/-- A group whose path entries are all taken, no other path split-stalled. -/
def fullGroup : State := withG fun g => ({ g with preds := g.preds.setIfInBounds 1 1 } : Group).setPath 1 (g.path 0) |> fun g =>
  (upFrom 2 6).foldl (fun g k => g.setPath k (g.path 1)) g

theorem wit_BraStalls :
    let f : Fields := { fld with sa := 1 }
    let c := ctx fullGroup
    c.Issues ∧ c.active f &&& c.pred 0 f.sa.toNat = 1 ∧ c.p.mask &&& ~~~(1 : Mask) ≠ 0 ∧ c.g.freeEntry = none ∧ c.p.st ≠ .handler ∧
    (c.g.path 7).map Path.st = some .ready ∧ c.s.landing c.t (directTarget c.p.pc f.imm) = none :=
  ⟨wiss (by decide +kernel), by decide +kernel⟩

theorem wit_IndirectTransfers :
    let f : Fields := { fld with sa := 1 }
    let c (w : Word32) : PathCtx := ctx (withV [(1, w), (2, 0)])
    let target (w : Word32) (l : Nat) : Nat := (c w).laneOp 0 f.sa 2 l
    (c 0x10000).Issues ∧ (c 5).Issues ∧ isUni f.sa = false ∧ (c 0x10000).active f ≠ 0 ∧
    ((List.range 32).all fun l => ((c 0x10000).s.landing (c 0x10000).t (BitVec.ofNat 64 (target 0x10000 l))).isNone) = true ∧
    (targetGroups ((c 0x10000).active f) (target 0x10000)).length ≤ 9 - (c 0x10000).g.valid.length ∧
    (c 5).s.landing (c 5).t (BitVec.ofNat 64 (target 5 0)) = some 0x02 ∧ ((List.range 32).all fun l => target 5 l == 5) = true :=
  ⟨wiss (by decide +kernel), wiss (by decide +kernel), by decide +kernel⟩

theorem wit_ExitVacates :
    let f : Fields := { fld with pg := 1 }
    let two : State := withG fun g => { g with paths := g.paths.setIfInBounds 1 (some { mask := 0, pc := 0x20000 }) }
    (ctx base).Issues ∧ (ctx (split 1)).Issues ∧ (ctx two).Issues ∧ (ctx base).active off = 0 ∧ (ctx base).active fld ≠ 0 ∧
    (ctx base).p.mask &&& ~~~(ctx base).active fld = 0 ∧
    ((List.range 8).all fun j => j == 0 || ((ctx base).g.path j).isNone) = true ∧ (ctx (split 1)).active f ≠ 0 ∧
    (ctx (split 1)).p.mask &&& ~~~(ctx (split 1)).active f ≠ 0 ∧ (ctx two).active fld ≠ 0 ∧
    (ctx two).p.mask &&& ~~~(ctx two).active fld = 0 ∧ ((ctx two).g.path 1).isSome :=
  ⟨wiss (by decide +kernel), wiss (by decide +kernel), wiss (by decide +kernel), by decide +kernel⟩

theorem wit_RefillGivesItems :
    let queue (l : List Word32) : PathCtx := ctx (withT fun t => { t with refill := some { depth := 64, items := l } })
    let full := (List.range 32).map (BitVec.ofNat 32)
    let late : PathCtx := ctx ((withT fun t => { t with refill := some { depth := 64 } }).modGroup 2 0 fun g =>
      { g with paths := g.paths.map fun p => p.map fun p => { p with pc := 0x1000C } })
    (ctx base).Issues ∧ (ctx base).t.refill = none ∧ (queue []).Issues ∧ (queue []).t.refill = some { depth := 64 } ∧
    (queue []).s.atLandingPoint (queue []).t (queue []).p.pc = true ∧ (queue []).refillVacant fld ≠ 0 ∧ (queue full).Issues ∧
    (queue full).s.atLandingPoint (queue full).t (queue full).p.pc = true ∧ (queue full).refillVacant fld ≠ 0 ∧
    (maskLanes ((queue full).refillVacant fld)).length ≤ full.length ∧ late.Issues ∧
    late.s.atLandingPoint late.t late.p.pc = false := by decide +kernel

/-! Accesses, barriers, channels -/

/-- Memory in which the walk of page 0 ends at 0x50000, and page 0x300000 starts with a well-formed record of one dimension. -/
def pages : Mem := [(0, 1), (2, 1), (0x10000, 1), (0x10002, 2), (0x20000, 1), (0x20002, 3), (0x30000, 7), (0x30001, 4), (0x30002, 5),
  (0x30000C, 1), (0x300010, 1), (0x300014, 1)]

/-- `v1` and `v2` hold an address, `g4` a mapped one, `g5` the handle 0x1000 and `g6` an unmapped record's. -/
def access (a : Word32) : State :=
  { (mapped (withV [(1, a), (2, 0)])).modGroup 2 0 fun g =>
      { g with g := ((g.g.setIfInBounds 4 0x100000).setIfInBounds 5 0x1000).setIfInBounds 6 0x2000
               preds := g.preds.setIfInBounds 1 1 } with
    hbm := pages }

/-- A state with a record of index 1 installed, of generation 0. -/
def recorded : State := (access 0x100000).modCrew 0 fun c => { c with recSize := 4, records := [(1, BitVec.ofNat 512 (2 ^ 63))] }

theorem wit_LoadsIssue :
    let f : Fields := { fld with d := 3, sa := 1, md := 2 }
    (ctx (access 0x100000)).Issues ∧
    ((loadForms (ctx (access 0x100000)) f).all fun e => e.2.1.lanes != [] || e.2.2.2 != []) = true ∧
    ((loadForms (ctx (access 0x100000)) { f with neg := true }).all fun e => e.2.1.lanes == [] && e.2.2.2 == []) = true :=
  ⟨wiss (by decide +kernel), by decide +kernel⟩

theorem wit_LoadsRead_scratch :
    let f : Fields := { fld with d := 3, sa := 1 }
    let c := ctx (access 4095)
    c.Issues ∧
    ((loadForms c f).any fun e => e.2.1.lanes.any fun l => l.st == .walk && l.target == .scratch 4095 && !c.s.sramPoisoned l.target e.2.1.bytes &&
      !l.behindLoad c.g.own e.2.1) = true :=
  ⟨wiss (by decide +kernel), by decide +kernel⟩

theorem wit_LoadsRead_vault :
    let f : Fields := { fld with d := 3, sa := 1 }
    let c := ctx (access 0x3FFFFF)
    c.Issues ∧
    ((loadForms c f).any fun e => e.2.1.lanes.any fun l => l.st == .walk && l.target == .vault 0x3FFFFF && !c.s.sramPoisoned l.target e.2.1.bytes &&
      !l.behindLoad c.g.own e.2.1) = true :=
  ⟨wiss (by decide +kernel), by decide +kernel⟩

theorem wit_LoadsRead_line :
    let f : Fields := { fld with d := 3, sa := 1 }
    let plain := ctx (access 0x10FFFF)
    let closed := ctx (access 0x200000)
    let absent := ctx (access 0x300000)
    plain.Issues ∧ closed.Issues ∧ absent.Issues ∧ plain.s.tlb 0 0 0x10FFFF = tlb0.head? ∧
    (tlb0.head?.map fun e => (plain.s.permitted 0 .read e 0x10FFFF).toOption) = some (some 0x30FFFF) ∧
    plain.s.paClass 0x30FFFF = .hbm 0 ∧ plain.s.late = false ∧ closed.s.late = false ∧
    ((loadForms plain f).any fun e => e.2.1.lanes.any fun l => l.st == .walk && l.addr == 0x10FFFF && !l.behindLoad plain.g.own e.2.1 &&
      (tlb0.head?.any fun x => (plain.s.linePoison (plain.lineFor .read l x 0x30FFFF) 0x10FFFF 0x30FFFF e.2.1.bytes).isNone)) = true ∧
    (closed.s.tlb 0 0 0x200000).map (fun e => (closed.s.permitted 0 .read e 0x200000).toOption) = some none ∧
    absent.s.tlb 0 0 0x300000 = none :=
  ⟨wiss (by decide +kernel), wiss (by decide +kernel), wiss (by decide +kernel), by decide +kernel⟩

theorem wit_StoresBuffered :
    let f : Fields := { fld with sa := 1, md := 2 }
    let c := ctx (access 0x100000)
    let child := ctx ((access 0x100000).modTeam 2 fun t => { t with view := 1 })
    c.Issues ∧ child.Issues ∧ c.t.view = 0 ∧ c.t.frozen = false ∧ ((storeForms c f).all fun e => e.2.1.lanes != []) = true ∧
    ((storeForms c { f with neg := true }).all fun e => e.2.1.lanes == []) = true ∧ child.t.view = 1 ∧
    ((storeForms child f).all fun e => e.2.1.lanes != []) = true :=
  ⟨wiss (by decide +kernel), wiss (by decide +kernel), by decide +kernel⟩

theorem wit_AtomicsPerform :
    let f : Fields := { fld with pg := 1, d := 3, sa := 1, sb := 2, md := 0x40 }
    let c := ctx (access 0x100000)
    let a := c.atomicAccess 3 f
    c.Issues ∧ c.t.view = 0 ∧ c.t.frozen = false ∧ (atomicForms f).length = 8 ∧
    (c.atomicAccess 3 { f with neg := true, pg := 7 }).lanes = [] ∧ a.lanes.length = 1 ∧
    (a.lanes.all fun l => !c.g.behindStore a.bytes l && !l.behindLoad c.g.own a && l.st == .walk && l.addr == 0x100000 &&
      (tlb0.head?.any fun x => (c.s.linePoison (c.lineFor .both l x 0x300000) 0x100000 0x300000 a.bytes).isNone)) = true ∧
    c.s.paClass 0x300000 = .hbm 0 ∧ (tlb0.head?.map fun e => (c.s.permitted 0 .both e 0x100000).toOption) = some (some 0x300000) ∧
    c.s.unscrubbed c.t.crew 0x300000 = false :=
  ⟨wiss (by decide +kernel), by decide +kernel⟩

theorem wit_PrefAndRecordReads :
    let f (k : BitVec 8) : Fields := { fld with sa := k }
    let c := ctx recorded
    c.Issues ∧ c.effect (f 0) = true ∧ (f 0).dead = false ∧ ((c.uni 0 (f 0xC7).sa).setWidth 32 : Word32) = 0 ∧
    (c.s.record c.t.crew ((c.uni 0 (f 0xC5).sa).setWidth 32)).isSome ∧
    c.s.record c.t.crew ((c.uni 0 (f 0xC6).sa).setWidth 32) = none :=
  ⟨wiss (by decide +kernel), by decide +kernel⟩

theorem wit_RecordWrites :
    let f : Fields := { fld with sa := 0xC6, sb := 0xC4 }
    let s : State := recorded.modGroup 2 0 fun g => { g with g := ((g.g.setIfInBounds 6 3).setIfInBounds 8 1).setIfInBounds 9 0x100040 }
    let c := ctx s
    c.Issues ∧ c.effect f = true ∧ (c.uni 0 f.sa).toNat % 2 ^ 20 = 3 ∧ (c.uni 0 0xC8).toNat % 2 ^ 20 = 1 ∧ (c.s.crew c.t.crew).recSize = 4 ∧
    c.t.view = 0 ∧ c.t.frozen = false ∧
    (c.s.teams.all fun e => e.2.groups.all fun g => (g.throughRecord 3).isEmpty && (g.throughRecord 1).isEmpty) = true ∧
    ((c.readSource (c.uni 1 f.sb).toNat).toOption.map fun r => recWellFormed (r.1 &&& ~~~(BitVec.allOnes 512 <<< 448))) = some true ∧
    ((c.readSource (c.uni 1 0xC9).toNat).toOption.map fun r => recWellFormed (r.1 &&& ~~~(BitVec.allOnes 512 <<< 448))) = some false :=
  ⟨wiss (by decide +kernel), by decide +kernel⟩

/-- An access with one lane. -/
def oneLane (id : Nat) (k : AccKind) (l : LaneAcc) : Access :=
  { id := id, kind := k, pc := 0, path := 0, bytes := 4, dest := .vec 1 1, lanes := [l] }

/-- A lane of scratch that has passed its checks. -/
def goodLane : LaneAcc := { lane := 0, addr := 0, target := .scratch 0, st := .ready, data := 0x11223344 }

theorem wit_BufferedAccessesPerform :
    let st := oneLane 5 .store goodLane
    let s : State := (mapped base).modGroup 2 0 fun g => { g with sbuf := [st] }
    let ld := oneLane 6 .load goodLane
    let left : Access := { ld with lanes := [goodLane, { goodLane with lane := 31, st := .faulted 3 }] }
    let g1 : Group := { (Group.start 0 0 0 0 0 0) with pend := [left], vregs := [(1, { lanes := Lanes.all 0, pending := true })] }
    (s.hbm.wf && s.hostMem.wf && s.scratch.wf && s.vault.wf) = true ∧ ((s.group 2 0).map Group.sbuf) = some [st] ∧
    ((s.group 2 0).map fun g => (s.sendableLanes ⟨2, 0⟩ g st).1) = some [goodLane] ∧ st.rel = none ∧ g1.ended = false ∧
    ((s.team 2).map fun t => (t.status == .resident, t.groups.length)) = some (true, 1) ∧
    (g1.pend.find? fun b => b.id == 6) = some left ∧ (left.lanes.all fun l => !l.waiting) = true ∧
    (left.lanes.any fun l => l.st == .ready) = true ∧ (left.lanes.any fun l => l.st != .ready) = true ∧
    ((aget 1 g1.vregs).map VReg.freeLater) = some false := by decide +kernel

theorem wit_GroupEventsHappen_held :
    let s := withG fun g => { g with held := true, unack := (g.unack.setIfInBounds 0 1).setIfInBounds 3 1 }
    ((s.group 2 0).map Group.held) = some true ∧ scopeCounter .clu = some 0 ∧ scopeCounter .sys = some 3 ∧
    ((s.group 2 0).map fun g => (g.unack.toArray.getD 0 0, g.unack.toArray.getD 2 0, g.unack.toArray.getD 3 0)) = some (1, 0, 1) := by decide +kernel

theorem wit_GroupEventsHappen_age :
    let s : State := { base with clock := 256 }
    (s.readyPaths 0 0).map (fun e => decide (e.2 + 256 ≤ s.clock)) = [true] := by decide +kernel

theorem wit_GroupEventsHappen_waitval :
    let line := makeLine [0x9118E000_00000000_00000000] 1 0
    let s := (withP fun p => { p with st := .parked }).modCore 0 fun c => { c with icache := [(0, 0x10000, line)] }
    let c := ctx s
    let h := ctx ((withP fun p => { p with st := .parked, holdNext := true }).modCore 0 fun c => { c with icache := [(0, 0x10000, line)] })
    c.Issues ∧ c.p.st = .parked ∧ c.p.holdNext = false ∧ (c.atWord.map fun w => (opcOf w, fnOf w)) = some (0x91, 0x06) ∧
    h.Issues ∧ h.p.st = .parked ∧ h.p.holdNext = true ∧ (h.atWord.map fun w => (opcOf w, fnOf w)) = some (0x91, 0x06) := by decide +kernel

theorem wit_GroupEventsHappen_clear :
    let s := base.modCrew 0 fun c => { c with clearing := [7], unscrubbed := [7] }
    (s.crew 0).clearing.contains 7 = true := by decide +kernel

theorem wit_GroupEventsHappen_replicate :
    let key : LineKey := keyOf 0 0 (flatTarget 0x100000 true) .home
    let s : State := { base with
      replReads := [(key, (List.range 32).map fun i => (i, i % 2))], clock := 1023,
      lines := [(key, { cells := [(0x100000, { pa := 0x300000, val := 5, dirty := true })] })] }
    let reads := ((aget key s.replReads).getD []).filter fun e => s.clock < e.1 + 1024
    ((aget key s.lines).map fun l => (l.cells.map fun x => s.homeDie x.2.pa)) = some [0] ∧ reads.length = 32 ∧ (reads.any fun a => a.2 == 0) = true ∧ (reads.any fun a => a.2 == 1) = true := by decide +kernel

theorem wit_GroupEventsHappen_walk :
    let w : Walk := { die := 0, core := 0, crew := 0, page := 0 }
    let s : State := { base with hbm := pages, walks := [(9, w)] }
    let absent : State := { base with walks := [(9, w)] }
    aget 9 s.walks = some w ∧ w.cancelled = false ∧ (s.walk w.crew (w.page * 65536)).toOption.map Prod.fst = some 0x50000 ∧
    (s.core w.core).tlb.length < 512 ∧ aget 9 absent.walks = some w ∧ (absent.walk w.crew (w.page * 65536)).toOption.map Prod.fst = none ∧
    ((absent.team 2).map fun t => (t.crew, dieOf t.core, t.status == .resident)) = some (0, 0, true) := by decide +kernel

theorem wit_BarrierForms :
    let f : Fields := fld
    let came := ctx (withT fun t => { t with barriers := t.barriers.setIfInBounds 0 { phase := 0, arrived := 1, mask := 0 } })
    let later := ctx (withP fun p => { p with begun := true, goal := 0 })
    let past := ctx ((withP fun p => { p with begun := true, goal := 0 }).modTeam 2 fun t =>
      { t with barriers := t.barriers.setIfInBounds 0 { phase := 1 } })
    let pair := ctx (withT fun t => { t with groups := t.groups ++ t.groups, floors := [(2, 64, 64)] })
    let half := ctx (withT fun t => { t with
      groups := t.groups ++ t.groups, floors := [(2, 64, 64)], barriers := t.barriers.setIfInBounds 0 { phase := 0, arrived := 1, mask := 0 } })
    half.Issues ∧ half.effect f = true ∧ half.p.begun = false ∧ half.arrived (barOf f) = true ∧ half.p.holdNext = false ∧
    ((List.range 16).all fun b => !half.t.phaseFull b (half.t.bar b)) = true ∧ (half.t.bar 0).phase = half.g.target half.t 0 ∧
    came.t.phaseFull 0 (came.t.bar 0) = true ∧ came.t.stepMode = false ∧ (ctx base).p.holdNext = false ∧ (ctx base).p.begun = false ∧
    (ctx base).t.stepMode = false ∧ (ctx base).t.floors = [(1, 64, 64)] ∧
    (ctx base).Issues ∧ came.Issues ∧ later.Issues ∧ past.Issues ∧ pair.Issues ∧ (ctx base).effect f = true ∧
    (ctx base).arrived (barOf f) = false ∧ came.arrived (barOf f) = true ∧ later.p.begun = true ∧ (later.t.bar 0).phase = later.p.goal ∧
    past.p.begun = true ∧ (past.t.bar 0).phase ≠ past.p.goal ∧ pair.p.begun = false ∧ pair.arrived (barOf f) = false ∧
    pair.t.stepMode = false ∧ ({ fld with imm := 15 } : Fields).immBits 0 4 = 15 := by decide +kernel

theorem wit_WaitForms :
    let f : Fields := { fld with sa := 0xC4, useImm := true }
    let c := ctx (access 0x100000)
    let sb := ctx (withT fun t => { t with sbars := t.sbars.setIfInBounds 0 { expected := 1, credited := 0 } })
    let busy := ctx ((access 0x100000).modGroup 2 0 fun g => { g with counters := g.counters.setIfInBounds 0 1 })
    let seat (k : Word32) := ctx (withT fun t => { t with seat := some { (Seat.start 0 0 0) with k := k } })
    let bad : Command := { team := 2, group := 0, path := 0, pc := 0, cls := 0, fn := 0, kind := .copy false 0, scope := .clu, dsp := 1, ssp := 1,
                           st := .faulted 3 }
    let stops := ctx { busy.s with cmds := [(7, bad)] }
    let closed := ctx ((access 0x100000).modGroup 2 0 fun g => { g with g := g.g.setIfInBounds 4 0x200000 })
    let waited (q : Option Seat) := ctx ((withT fun t => { t with seat := q }).modGroup 2 0 fun g =>
      { g with paths := g.paths.map fun p => p.map fun p => { p with begun := true } })
    (stops.s.commandsOf stops.tid stops.gi 0).any (fun e => e.2.isFaulted) = true ∧ stops.effect f = true ∧
    min (stops.sbValue f).toNat 255 < stops.g.counters.toArray.getD 0 0 ∧ closed.effect f = true ∧
    closed.g.behindFault f.oty.bytes (flatLane f.oty.bytes 0 (closed.uni 0 f.sa).toNat) = false ∧
    closed.g.behindStore f.oty.bytes (flatLane f.oty.bytes 0 (closed.uni 0 f.sa).toNat) = false ∧
    (closed.homeRead f.oty.bytes (closed.uni 0 f.sa).toNat).toOption = none ∧
    (waited (some (Seat.start 0 0 0))).p.begun = true ∧ (waited (some (Seat.start 0 0 0))).t.seat.isSome ∧ (waited none).t.seat.isNone ∧
    (waited none).p.begun = true ∧ c.p.begun = false ∧ (c.seatNamed f).isNone ∧ (seat 0).t.seat.map Seat.st = some .running ∧
    (match (c.s.scratchLane c.t 4 0 (c.uni 0 f.sa).toNat).st with | .faulted _ => true | _ => false) = true ∧
    c.s.sramPoisoned (.scratch 0) 4 = false ∧ stops.Issues ∧ closed.Issues ∧ (waited none).Issues ∧
    c.Issues ∧ sb.Issues ∧ busy.Issues ∧ (seat 0).Issues ∧ c.effect f = true ∧ (c.t.sbars.toArray.getD 0 {}).expected.toNat = 0 ∧
    (sb.t.sbars.toArray.getD 0 {}).credited.toNat < (sb.t.sbars.toArray.getD 0 {}).expected.toNat ∧
    c.g.counters.toArray.getD 0 0 ≤ min (c.sbValue f).toNat 255 ∧
    min (busy.sbValue f).toNat 255 < busy.g.counters.toArray.getD 0 0 ∧ (busy.s.commandsOf busy.tid busy.gi 0) = [] ∧
    c.g.behindStore f.oty.bytes (flatLane f.oty.bytes 0 (c.uni 0 f.sa).toNat) = false ∧
    ((c.homeRead f.oty.bytes (c.uni 0 f.sa).toNat).toOption).isSome ∧ waitCond 0 f.oty 0 0 = true ∧
    waitCond 1 f.oty 0 0 = false ∧ ((seat 0).seatNamed { f with sc := 8 }).isSome ∧
    reached 0 (((seat 0).sbValue f).setWidth 32) = true ∧
    reached 0 (((seat 0).sbValue { f with imm := 1 }).setWidth 32) = false ∧
    (c.s.scratchLane c.t 4 0 (c.uni 0 0xC8).toNat).st = .walk ∧
    (c.s.scratchLane c.t 4 0 (c.uni 0 0xC8).toNat).target = .scratch 0 ∧
    (c.s.hbm.wf && c.s.hostMem.wf && c.s.scratch.wf && c.s.vault.wf) = true := by decide +kernel

theorem wit_ChannelForms :
    let f : Fields := { fld with sa := 0xC4 }
    let e : ChannelEntry := { words := Lanes.all 7, mask := 1, sender := 0 }
    let chan (n : Nat) : PathCtx := ctx (withT fun t => { t with channels := t.channels.setIfInBounds 0 { entries := List.replicate n e } })
    let full : PathCtx := ctx ((withT fun t => { t with channels := t.channels.setIfInBounds 0 { entries := List.replicate 16 e } }).modTeam 2
      fun t => { t with groups := t.groups ++ [{ (Group.start 1 0 0 1 0 0) with role := 1 }] })
    let shut : PathCtx := ctx (withT fun t => { t with channels := t.channels.setIfInBounds 0 { closed := 1 } })
    (ctx base).Issues ∧ (chan 15).Issues ∧ full.Issues ∧ shut.Issues ∧ (ctx base).effect f = true ∧ f.sc.toNat < 4 ∧
    (ctx base).g.role = 0 ∧ ((ctx base).t.channel 0).closed.getLsbD 0 = false ∧ ((chan 15).t.channel 0).entries.length = 15 ∧
    (full.t.channel 0).entries.length = 16 ∧ (full.t.groups.any fun g => g.role != 0 && !g.ended) = true ∧
    (shut.t.channel 0).entries = [] ∧ shut.t.closed 0 = true ∧ ((ctx base).t.channel 0).entries = [] ∧ (ctx base).t.closed 0 = false := by decide +kernel

theorem wit_ZeroGuardSkips :
    (ctx base).Issues ∧ (ctx base).effect off = false ∧ .take off ∈ uniformEffectForms off :=
  ⟨wiss (by decide +kernel), by decide +kernel⟩

/-! Commands and views -/

/-- `g4` a destination in scratch, `g5` a source, `g6` 16 bytes, `g7` one index at offset 0, `g8` box 0. -/
def engines : State :=
  { (mapped (withU [(4, 128), (5, 0), (6, 16), (7, 0x100000000), (9, 0x100000000000010)])) with
    mailboxes := [(0, { crew := 0, messages := [[1, 2]] })] }

theorem wit_EngineFormsIssue :
    let c := ctx engines
    let cp : Fields := { fld with sa := 0xC4, sb := 0xC5, sc := 0xC6, imm := 5 }
    let ga : Fields := { fld with sa := 0xC4, sb := 0xC5, sc := 0xC7, imm := 5 }
    let child := ctx ((access 0x100000).modTeam 2 fun t => { t with forkSet := some { st := .open, children := [], live := [], killed := [], waiters := [] } })
    (c.s.openDest c.t 1 [(128, 16)]).toOption.isSome ∧ (c.s.openDest c.t 1 (gatherSpans true 4 128 (c.indexList 0 1))).toOption.isSome ∧
    (child.s.openDest child.t 0 [(0x100000, 16)]).toOption.isNone ∧ child.effect cp = true ∧ child.Issues ∧ (c.indexList 0 1).length = 1 ∧
    (c.uni 0 0xCF).toNat = 0 ∧ c.Issues ∧ c.effect cp = true ∧ (c.uni 2 cp.sc).toNat % 2 ^ 32 = 16 ∧ c.s.rangeFault c.t 1 0 16 = none ∧
    c.s.rangeFault c.t 1 128 16 = none ∧ (c.creditOf cp 128 16).toOption = some none ∧
    (c.creditOf { cp with imm := 0x85 } 128 16).toOption = some (some (2, 0)) ∧ (c.uni 2 ga.sc).toNat / 2 ^ 32 = 1 ∧
    c.s.rangeFault c.t 1 0 4 = none ∧ (c.creditOf ga 128 (1 * elemSize ga)).toOption = some none ∧
    ((c.uni 0 0xCF).setWidth 32 : Word32) = 0 := by decide +kernel

theorem wit_CollectiveAndMailboxForms :
    let c := ctx engines
    let f : Fields := { fld with sa := 0xC4, sb := 0xC5, sc := 0xC6, imm := 5 }
    (c.s.openDest c.t 1 [(128, 16)]).toOption.isSome ∧ (c.s.openDest c.t 1 [(0, 2)]).toOption.isSome ∧
    c.Issues ∧ c.effect f = true ∧ (c.uni 2 f.sc).toNat < 2 ^ 56 ∧ (c.uni 2 f.sc).toNat % 2 ^ 32 % 4 = 0 ∧
    c.s.rangeFault c.t 1 0 16 = none ∧ c.s.rangeFault c.t 1 128 16 = none ∧ (c.creditOf f 128 16).toOption = some none ∧
    c.s.boxOf c.t.crew (c.uni 0 0xC8) = some 0 ∧ aget 0 c.s.mailboxes = some { crew := 0, messages := [[1, 2]] } ∧
    c.s.rangeFault c.t 1 0 2 = none ∧ (c.creditOf f 0 2).toOption = some none := by decide +kernel

/-- A copy of 65 bytes within scratch. -/
def copyCmd : Command :=
  { team := 2, group := 0, path := 0, pc := 0, cls := 0, fn := 0, kind := .copy false 0, scope := .clu, dsp := 1, ssp := 1, dst := 128,
    src := 0, len := 65, st := .running, data := (List.range 65).map fun i => some (BitVec.ofNat 8 i) }

theorem wit_CopyMovesBytes :
    let s : State := { engines with cmds := [(7, copyCmd)] }
    (s.hbm.wf && s.hostMem.wf && s.scratch.wf && s.vault.wf) = true ∧ aget 7 s.cmds = some copyCmd ∧ (s.engineTeam copyCmd).isSome ∧
    copyCmd.data = ((List.range 65).map (BitVec.ofNat 8)).map some ∧ s.behindCommand 7 copyCmd = false ∧
    ((s.engineTeam copyCmd).map fun t => (List.range 65).all fun k => (s.scratchCell t (128 + k : Nat)).toOption == some (128 + k)) =
      some true := by decide +kernel

theorem wit_EngineEventsHappen :
    let done : Command := { copyCmd with done := 65, st := .complete }
    let bad : Command := { copyCmd with data := [none], src := 0x800000, len := 1 }
    let yields : Command := { copyCmd with kind := .copy true 8, done := 8, yieldAt := some 8 }
    let posts : Command := { copyCmd with kind := .post 0, st := .waiting, data := [some 5] }
    let takes : Command := { copyCmd with kind := .take 0, st := .waiting }
    let range : Command := { copyCmd with kind := .wbr true true 0 }
    let s : State := { engines with cmds := [(7, done), (8, bad), (9, yields), (10, posts), (11, takes), (12, range)] }
    let t := (ctx s).t
    (s.engineTeam posts).isSome ∧ (s.engineTeam takes).isSome ∧ (s.engineTeam range).isSome ∧ s.postBefore 10 0 = false ∧
    ((s.commandsOf 2 0 0).head?.map Prod.fst) = some 7 ∧ ((s.group 2 0).map Group.ended) = some false ∧ (s.engineTeam bad).isSome ∧
    bad.moves = true ∧ bad.done < bad.len ∧ bad.atYield = false ∧
    (match s.engineByte t 8 bad with | .fault c _ _ => c == 0x06 | _ => false) = true ∧ t.status = .resident ∧ yields.atYield = true ∧
    ((aget 0 s.mailboxes).map fun m => decide (m.messages.length < 8)) = some true ∧ posts.data = [(5 : Byte)].map some ∧
    ((aget 0 s.mailboxes).map Mailbox.messages) = some ([1, 2] :: []) ∧ s.storesBefore 12 range = false := by decide +kernel

/-- The image of the placed grid with one descriptor, whose kernel starts at the landing point. -/
def imaged (s : State) : State :=
  s.modCrew 0 fun c => { c with images := c.images.map fun i => { i with descs := [0] }, poolSize := 300 }

theorem wit_ForkCreatesChildren :
    let f : Fields := { fld with sa := 0xC4, sb := 0xC5, sc := 0xC6 }
    let c := ctx (imaged (withU [(4, 0x100), (6, 1)]))
    let w := c.uni 0 f.sa
    c.Issues ∧ c.effect f = true ∧ c.t.forkSet = none ∧ w &&& ~~~(0x00FF01FF : Word64) = 0 ∧ w.toNat % 512 ≤ 256 ∧
    (w.extractLsb' 16 8).toNat + w.toNat % 512 ≤ 256 ∧ c.s.viewDepth c.t.crew c.t.view ≠ 6 ∧
    c.s.descriptor c.t (f.immBits 0 16) = some 0 ∧ descCox 0 = false ∧
    c.s.landing c.t ((c.s.entryOf c.t (f.immBits 0 16)).setWidth 64) = none ∧ c.orderedAt .pkg = .go :=
  ⟨wiss (by decide +kernel), by decide +kernel⟩

/-- A fork set of one child, team 3 in view 1. -/
def kids (st : SetState) (ws ks : List Nat) : ForkSet := { st := st, children := [(3, 1)], live := [], killed := ks, waiters := ws }

/-- The team with a fork set. -/
def forked (x : ForkSet) : State := withT fun t => { t with forkSet := some x }

theorem wit_ViewFormsComplete :
    let f : Fields := { fld with sa := 0xC4, sb := 0xC5 }
    let told := ctx (withT fun t => { t with joined := [(0, 1, 0)] })
    let op : Fields := { f with imm := 10 }
    let rp := ctx { (withU [(5, 0x10000)]) with hbm := pages }
    let abort := (forked (kids .open [] [])).abortFor 2
    (ctx base).Issues ∧ told.Issues ∧ (ctx (forked (kids .ended [] []))).Issues ∧ (ctx (forked (kids .conflicted [] []))).Issues ∧
    rp.Issues ∧ (ctx base).effect f = true ∧ aget 0 told.t.joined = some (1, 0) ∧ aget 0 (ctx base).t.joined = none ∧
    (ctx base).t.forkSet = none ∧ (ctx (forked (kids .ended [] []))).t.forkSet = some (kids .ended [] []) ∧
    (ctx (forked (kids .conflicted [] []))).t.forkSet = some (kids .conflicted [] []) ∧ op.immBits 0 4 ≠ 0 ∧
    (rp.uni 0 f.sa).toNat % 2 ^ 56 % 65536 = 0 ∧ (rp.uni 1 f.sb).toNat % 2 ^ 32 = 65536 ∧ rp.t.rpages.length < 8 ∧
    rp.s.rpageFails rp.t.crew 0 65536 10 = none ∧ (abort.pathCtx ⟨2, 0, 0⟩).isSome :=
  ⟨wiss (by decide +kernel), wiss (by decide +kernel), wiss (by decide +kernel), wiss (by decide +kernel), wiss (by decide +kernel), by decide +kernel⟩

/-- A child's granule of which one byte is changed. -/
def granule : Granule := { view := 1, addr := 0x100000, priv := 5 :: List.replicate 255 0, twin := List.replicate 256 0, op := 0, wrote := 1, pa := 0x300000 }

/-- A crew with that granule. -/
def held (s : State) : State := s.modCrew 0 fun c => { c with granules := [granule], poolSize := 4 }

theorem wit_MergeEvents_check :
    let s := forked (kids .ended [0] [])
    let k := forked (kids .ended [0] [7, 3])
    ((s.team 2).bind Team.forkSet) = some (kids .ended [0] []) ∧ ((s.team 2).map Team.status) = some .resident ∧
    findConflict ((s.crew 0).granulesOf (s.setKids (kids .ended [0] []))) = none ∧
    ((s.reserveAll 0 0 [] (granuleAddrs [])).toOption).isSome ∧ ((k.team 2).bind Team.forkSet) = some (kids .ended [0] [7, 3]) := by decide +kernel

theorem wit_MergeEvents_commit :
    let x := kids .committing [0] []
    let s := held (forked x)
    let two := s.modCrew 0 fun c => { c with granules := c.granules ++ [{ granule with addr := 0x100100 }] }
    let left (s : State) (x : ForkSet) : List Nat := (granuleAddrs ((s.crew 0).granulesOf (s.setKids x))).filter fun a => !x.done.contains a
    left s x = [0x100000] ∧ left two x = [0x100000, 0x100100] ∧ left s { x with done := [0x100000] } = [] ∧
    s.mergesAt 0 (s.homeDie granule.pa) = true ∧ granule.pa + 256 ≤ 0x1000_0000_0000 ∧ granule.addr = 0x100000 ∧
    ((s.team 2).bind Team.forkSet) = some x ∧ ((s.team 2).map Team.view) = some 0 ∧ (x.children.all fun k => k.1 != 2 && k.2 != 0) = true ∧
    (s.crew 0).granulesOf (s.setKids x) = [(s.childIndex 3, granule)] ∧ granule.op = 0 ∧ granule.changed 0 = true ∧
    (s.hbm.wf && s.hostMem.wf && s.scratch.wf && s.vault.wf) = true := by decide +kernel

theorem wit_MergeEvents_grid :
    let set (h : Grid → Grid) : State := base.modGrid 1 h
    let pass := set fun g => { g with st := .joining }
    let again := set fun g => { g with st := .joining, retry := true }
    let killed := set fun g => { g with st := .joining, killedTeams := [0] }
    let short := (set fun g => { g with st := .joining, views := [(0, 1)], launchView := 2 }).modCrew 0 fun c =>
      { c with granules := [granule], poolSize := 1, views := [(2, { parent := 0, depth := 1, child := 0, team := 0 })] }
    let verdict (s : State) : Option Verdict := (s.grid 1).map fun g => s.judge g.crew g.launchView g.kids g.killedTeams
    ((pass.grid 1).map fun g => (g.st, g.retry)) = some (.joining, false) ∧ ((again.grid 1).map Grid.retry) = some true ∧
    (verdict pass).map (fun v => match v with | .pass _ => 0 | .conflict _ _ _ => 1 | .short _ => 2) = some 0 ∧
    (verdict again).map (fun v => match v with | .pass _ => 0 | .conflict _ _ _ => 1 | .short _ => 2) = some 0 ∧
    (verdict killed).map (fun v => match v with | .pass _ => 0 | .conflict _ _ _ => 1 | .short _ => 2) = some 1 ∧
    (verdict short).map (fun v => match v with | .pass _ => 0 | .conflict _ _ _ => 1 | .short _ => 2) = some 2 ∧
    (killed.crew 0).heldRecs = [] ∧ (killed.crew 0).queueRoom = true := by decide +kernel

/-! The cox -/

theorem wit_LoopNestForms :
    let f (k : BitVec 8) : Fields := { fld with sc := k }
    let s := withQ fun q => { q with ind := q.ind.setIfInBounds 0 1
                                     bounds := (q.bounds.setIfInBounds 0 2).setIfInBounds 1 3
                                     streams := q.streams.setIfInBounds 7 { enabled := true, coef := Vector.replicate 4 8, dest := 63 } }
    (sctx s).Issues ∧ (sctx s).guard (f 0) = true ∧ (sctx s).guard { f 0 with neg := true } = false ∧ (f 31).sc.toNat < 32 ∧
    (f 7).sc.toNat < 8 ∧ ((sctx s).q.streams.toList.all fun x => decide (x.dest < 64)) = true ∧
    ((upFrom 0 4).all fun k => decide (((sctx s).q.ind.toArray.getD k 0).toNat < ((sctx s).q.bounds.toArray.getD k 0).toNat)) = true ∧
    ({ f 0 with d := 6 } : Fields).d.toNat < 7 := by decide +kernel

/-- The seat's state with a window of all the scratch of its core. -/
def windowed (h : Seat → Seat) : State := (withQ h).modTeam 2 fun t => { t with winSize := 524288 }

theorem wit_SeatControlForms :
    let f : Fields := { fld with d := 63, sa := 1, useImm := true }
    let qc := sctx (windowed fun q => { q with c := q.c.setIfInBounds 1 0x107FFFC })
    let later := { f with imm := 1 }
    let qbad := sctx (windowed fun q => { q with c := q.c.setIfInBounds 1 0x2000000 })
    qc.Issues ∧ qbad.Issues ∧ qc.guard f = true ∧ qc.q.close.k = qc.q.close.n ∧ f.d.toNat < 64 ∧ qc.q.k = qc.q.n ∧ qc.q.ops = [] ∧
    (qc.waitWord (qc.creg f.sa)).toOption = some 0 ∧ ((0 : Word32) - qc.sbWord f).toNat < 2 ^ 31 ∧
    2 ^ 31 ≤ ((0 : Word32) - qc.sbWord later).toNat ∧ (qbad.waitWord (qbad.creg f.sa)).toOption = none ∧
    (qc.t.groups.any fun g => !g.ended) = true :=
  ⟨wissS (by decide +kernel), wissS (by decide +kernel), by decide +kernel⟩

/-- An operation on slot 0 of core 0. -/
def matOp (k : MatKind) (started : Bool) : MatOp :=
  { id := 7, kind := k, pc := 0x10000, acc := 0, core := 0, slot := some 0, batch := 1, started := started }

theorem wit_MatrixEventsHappen :
    let with_ (k : MatKind) (started : Bool) : State := (windowed fun q => { q with ops := [matOp k started], st := .parked }).modCore 0
      fun c => { c with queue := [(2, 7)], slots := [(0, { team := 2 })] }
    let ready := with_ .azero false
    let runs := with_ .azero true
    let drains := with_ (.afin true 0x1000000) true
    let poisoned : State := { with_ (.mma 0 false 0x1000000 0x1000000 0 false 0 0) false with poison := [.scratch 0] }
    let parked (imm : Nat) : State := ((State.reset.withFetchWord 96 (0xB020E7E0_20000100_00000000 + imm)).modSeat 2 fun q =>
      { q with st := .parked, c := q.c.setIfInBounds 1 0x1000000 }).modTeam 2 fun t => { t with winSize := 524288 }
    let word (imm : Nat) : Option (Word32 × Word32) := ((parked imm).seatCtx 2).bind fun c => c.parkedOn.bind fun f =>
      (c.waitWord (c.creg f.sa)).toOption.map fun x => (x, c.sbWord f)
    (ready.teams.all fun e => e.2.status != .draining) = true ∧ (ready.team 2).map (fun t => ready.badOperand t (matOp .azero false)) = some none ∧
    (poisoned.core 0).queue.find? poisoned.canStart = some (2, 7) ∧
    ((poisoned.team 2).bind fun t => (poisoned.queued (2, 7)).bind (poisoned.badOperand t)) = some 0 ∧
    ((runs.core 0).slots.all fun e => e.2.broken.isNone) = true ∧ word 0 = some (0, 0) ∧ word 1 = some (0, 1) ∧
    ((ready.team 2).bind Team.seat).isSome ∧ ((ready.team 2).map Team.status) = some .resident ∧
    ((ready.team 2).map fun t => (t.groups.any fun g => !g.ended, t.killed)) = some (true, false) ∧
    (ready.core 0).queue.find? ready.canStart = some (2, 7) ∧ ready.queued (2, 7) = some (matOp .azero false) ∧
    ((runs.startedOn 0).find? fun e => !e.2.drains) = some (2, matOp .azero true) ∧
    ((drains.startedOn 0).find? fun e => e.2.drains) = some (2, matOp (.afin true 0x1000000) true) ∧
    (drains.hbm.wf && drains.hostMem.wf && drains.scratch.wf && drains.vault.wf) = true ∧
    ((ready.team 2).bind Team.seat).map Seat.st = some .parked := by decide +kernel

/-! Sampling arrays and remote access -/

/-- `g4` names one cell of the context on die 0, `g5` an aligned address. -/
def cells : State := (withU [(4, 0x103FF), (5, 0x100000)]).modCrew 0 fun c =>
  { c with samplers := [(0, { q := 4, cells := [(0, { clamp := false, colour := 0 }), (65535, { clamp := false, colour := 7 })] })] }

theorem wit_SamplerForms_issue :
    let f : Fields := { fld with sa := 0xC4, sb := 0xC5 }
    let c := ctx cells
    let w := c.uni 0 f.sa
    c.Issues ∧ c.effect f = true ∧ (samplerForms c f).length = 13 ∧ (c.s.teamClass c.t).getLsbD 1 = true ∧ w.toNat < 2 ^ 35 ∧
    (c.uni 0 0xC6).toNat % 2 ^ 32 = 0 ∧ c.s.crewDies c.t.crew = [0, 1, 2, 3, 4, 5, 6, 7] ∧ c.s.contextQuarters c.t.crew 0 = 4 ∧
    (w.extractLsb' 0 16).toNat + (w.extractLsb' 16 16).toNat < 16384 * c.s.contextQuarters c.t.crew 0 ∧
    ((samplerForms c f).all fun e => (c.s.openDest c.t 0 [((c.uni 1 f.sb).toNat, samplerResult e.2.1 e.2.2.1 2)]).toOption.isSome) = true ∧
    (c.uni 1 f.sb).toNat % 32 = 0 ∧ c.sbValue { f with sb := 0xC6 } = 0 :=
  ⟨wiss (by decide +kernel), by decide +kernel⟩

/-- A command of the context on die 0. -/
def smCmd (fn sub sweeps : Nat) (st : CmdState) : Command :=
  { team := 2, group := 0, path := 0, pc := 0x10000, cls := 4, fn := fn, kind := .sampler fn sub 0 0 0 0 0 0, scope := .clu,
    sweeps := sweeps, st := st }

theorem wit_SamplerForms_events :
    let with_ (c : Command) : State := { cells with cmds := [(9, c)] }
    let waits := with_ (smCmd 5 0 1 .waiting)
    let sweeps := with_ (smCmd 5 0 1 .running)
    let x := sweeps.context 0 0
    (waits.contextCommand 0 0).map Prod.fst = some 9 ∧ aget 9 waits.cmds = some (smCmd 5 0 1 .waiting) ∧ waits.arrayHolds 0 0 = true ∧
    (sweeps.contextCommand 0 0).map Prod.fst = some 9 ∧ x.broken = none ∧ x.nextColour 0 = some 0 ∧ x.nextColour 1 = some 7 ∧
    x.cells.filter (fun e => e.1 == 0) = [(0, { clamp := false, colour := 0 })] ∧ 65535 < 16384 * x.q ∧
    ((List.range 8).any fun j => decide (0 < j) && !(x.unclamped j).isEmpty) = true ∧
    ((List.range 8).all fun j => !decide (7 < j) || (x.unclamped j).isEmpty) = true ∧
    ([smCmd 2 1 0 .running, smCmd 3 0 0 .running, smCmd 4 1 0 .running, smCmd 5 0 0 .running].all fun c =>
      ((with_ c).contextCommand 0 0).map Prod.fst == some 9) = true ∧
    ((cells.team 2).map fun t => t.groups.any fun g => !g.ended) = some true := by decide +kernel

/-- A window of rig 1 for peers 0 to 511 of crew 0. -/
def peerWin : BitVec 128 := BitVec.ofNat 128 (0x1000_0000_0000 + 2 ^ 64 + 1 * 2 ^ 70 + 30 * 2 ^ 72 + 21 * 2 ^ 78)

/-- A state with that window. -/
def windowState (s : State) : State := { s with windows := [(63, peerWin)] }

theorem wit_RemoteForms :
    let f : Fields := { fld with d := 3, sa := 1, sb := 2, sc := 4 }
    let s := windowState (withV [(1, 511), (2, 0x1FFFFC), (3, 0), (4, 0), (5, 0)])
    let c := ctx s
    c.Issues ∧ c.determinate = false ∧ (remoteForms c f).length = 3 ∧ c.remoteMask 0 f ≠ 0 ∧
    c.remoteMask 0 { f with neg := true } = 0 ∧ c.s.peerWindow c.t.crew (c.peerOf f 31) = some peerWin ∧ c.peerOf f 31 = 511 ∧
    winRig peerWin = 1 ∧ winPshift peerWin = 21 ∧ (c.laneOp 1 f.sb 1 31 = 0x1FFFFC) ∧
    ((List.range 32).all fun l => c.laneOp 1 0x03 2 l == 0) = true ∧ c.effect f = true ∧ c.g.counters.toArray.getD 3 0 + 1 ≤ 255 :=
  ⟨wiss (by decide +kernel), by decide +kernel⟩

/-- The state with one rigger set and, in `g4` and `g5`, the operands of `rig`. -/
def rigged (k : Nat) (r : Rigger) (a b : Word64) : State := { withU [(4, a), (5, b)] with riggers := [(k, r)] }

/-- The command of `rig` in such a state. -/
def rigResult (s : State) : RigResult := (ctx s).rigCommand ((ctx s).uni 0 0xC4) ((ctx s).uni 1 0xC5)

theorem wit_RigForms :
    let f : Fields := { fld with d := 0xC3, sa := 0xC4, sb := 0xC5 }
    let ready : Rigger := { st := .training, phase := 2, rig := 1, target := 1 }
    let off := rigged 15 {} (BitVec.ofNat 64 (2 * 1024 + 15 * 65536)) 0
    let live := rigged 15 { st := .live, lock := .running } (BitVec.ofNat 64 (3 * 1024 + 15 * 65536)) 0
    let lock := rigged 0 ready 4 0
    let go := rigged 0 { ready with lock := .locked } 5 0
    let clear := windowState (withU [(4, BitVec.ofNat 64 (2 + 63 * 65536))])
    let write := { (mapped (withU [(4, BitVec.ofNat 64 (1 + 62 * 65536)), (5, 0x100000)])) with
      hbm := [(0x300005, 0x10), (0x300008, 0x41), (0x300009, 0x5E), (0x30000A, 0x05)] }
    let map := rigged 0 ready 3 (BitVec.ofNat 64 (2 ^ 56))
    let w : BitVec 128 := peerWin
    (ctx off).Issues ∧ (ctx live).Issues ∧ (ctx lock).Issues ∧ (ctx go).Issues ∧ (ctx clear).Issues ∧ (ctx write).Issues ∧ (ctx map).Issues ∧
    (ctx (rigged 0 {} 6 0)).Issues ∧ (ctx (rigged 0 {} 1 1)).Issues ∧ (ctx off).s.privileged (ctx off).t = true ∧
    (ctx off).effect f = true ∧ (ctx off).determinate = false ∧ off.rigInSet 0 15 = true ∧ (off.rigger 15).st = .offline ∧
    (live.rigger 15).st = .live ∧ (lock.rigger 0) = ready ∧ (go.rigger 0).lock = .locked ∧ clear.winLocked (clear.window 63) = false ∧
    ((ctx write).readGlobal (upFrom 0x100000 16)).toOption.map (fun bs => BitVec.ofNat 128 (leNat bs)) = some w ∧
    write.winLocked w = false ∧ winReserved w = false ∧ (write.crewDies 0).contains (winHdie w) = true ∧ winRiggers w = [] ∧
    winV w = true ∧ write.winLegal 62 w = true ∧ map.planesLocked (BitVec.ofNat 64 (2 ^ 56)) = false ∧
    map.planesOk (BitVec.ofNat 64 (2 ^ 56)) = true ∧ ((List.range 8).all fun i => !planeValid (BitVec.ofNat 64 (2 ^ 56)) i || map.rigInSet 0 0) = true ∧
    let outside : State := clear.modCrew 0 fun x => { x with set := none }
    (clear.crewDies 0).contains (winHdie (clear.window 63)) = true ∧ winRiggers (clear.window 63) = [] ∧ (ctx outside).Issues ∧
    (ctx outside).s.privileged (ctx outside).t = true ∧ outside.winLocked (outside.window 63) = false ∧
    outside.winInSet 0 (outside.window 63) = false ∧ ((ctx outside).uni 0 0xC4, (ctx outside).uni 1 0xC5) = (BitVec.ofNat 64 (2 + 63 * 65536), 0) ∧
    (match rigResult outside with | .status n => n == 2 | _ => false) = true ∧
    (match rigResult (rigged 0 {} 6 0) with | .status n => n == 1 | _ => false) = true ∧
    (match rigResult (rigged 0 {} 1 1) with | .fault c _ => c == 5 | _ => false) = true := by decide +kernel

/-- The state with rigger 0, one request and the window of `peerWin`. -/
def fabric (r : Rigger) (e : RigRequest) : State := { windowState base with riggers := [(0, r)], requests := [(5, e)], clock := 200000 }

/-- A read that access 7 of the group asks of peer 0. -/
def peerRead : RigRequest := { crew := 0, group := some ⟨2, 0⟩, access := some 7, op := .read, pa := 0x1000_0000_0000, len := 4, tier := 0, arrived := 0 }

theorem wit_RiggerEvents :
    let live : Rigger := { st := .live, lock := .running, rig := 1 }
    let drains : Rigger := { st := .draining, rig := 1 }
    let late := { (fabric drains peerRead) with clock := 340000 }
    let back := { peerRead with access := none, group := none }
    let moving := { (fabric live { peerRead with sent := none }) with planesNext := [(7, 1)] }
    let tier (t : Nat) := { (fabric live { peerRead with tier := t }) with planes := BitVec.ofNat 64 (2 ^ 56) }
    let sent := fabric drains { peerRead with sent := some 0 }
    let ring : State := { base with packets := [(7, { die := 0, crew := 0, view := 0, x := 0, y := 0, dx := 1, dy := 1, arrived := 0 })], clock := 64 }
    (aget 7 ring.packets).map (fun p => (p.priority, p.ring, decide (p.arrived + 64 ≤ ring.clock))) = some (false, none, true) ∧
    peerRead.lostAt = none ∧ peerRead.forced = false ∧ (live.rig = 1 ∧ { live with rig := 2 }.rig = 2) ∧
    ((fabric {} peerRead).rigger 0).st = .offline ∧ ((fabric { st := .training } peerRead).rigger 0).phase = 0 ∧
    ((fabric { st := .training } peerRead).rigger 0).began + 8500000 ≤ 8500000 ∧
    (live.st = .live ∧ peerRead.sent ≠ some 0) ∧ ((fabric drains peerRead).requests.all fun e => !(fabric drains peerRead).unsettled 0 e.2) = true ∧
    (late.rigger 0).began + 340000 ≤ late.clock ∧ aget 5 sent.requests = some { peerRead with sent := some 0 } ∧
    (sent.rigger 0).began + 85000 ≤ sent.clock ∧ (fabric {} peerRead).windowHeld peerRead.pa = true ∧
    (fabric {} peerRead).carrier 0 peerRead.pa = some 0 ∧ (fabric {} peerRead).ownsRigger 0 0 = true ∧ peerRead.arrived + 170000 ≤ 200000 ∧
    (back.cmd = none ∧ back.access = none ∧ back.group = none) ∧ (aget 7 moving.planesNext).isSome ∧ moving.inFlightWith 7 = false ∧
    ((tier 1).tierHead 0 1).map Prod.fst = some 5 ∧ (tier 2).tierHead 0 1 = none ∧ ((tier 2).tierHead 0 2).map Prod.fst = some 5 ∧
    base.physAllowed (rigDie 15) 0x17FFFFFFFFC 4 = true ∧ (base.hbm.wf && base.hostMem.wf && base.scratch.wf && base.vault.wf) = true ∧
    0x17FFFFFFFFC % 4 = 0 ∧ (remoteTyOf 0).width / 8 = 4 := by decide +kernel

/-! Faults -/

theorem wit_FaultsTaken :
    let traps (v : VAddr) : State := base.modCrew 0 fun c => { c with trapen := BitVec.allOnes 64, trapvec := v }
    let full := base.modCrew 0 fun c => { c with fqlog := 6, fqhead := 65, fqtail := 1 }
    let waits := base.modCrew 0 fun c => { c with heldRecs := [{ record := 0, source := .nothing }] }
    let t := (ctx base).t
    let on (s : State) (code : BitVec 8) : Bool := (s.crew 0).trapen.getLsbD code.toNat
    ((base.group 2 0).map fun g => (g.tm, (g.path 0).isSome)) = some (false, true) ∧ on (traps 0x10000) 1 = true ∧
    (traps 0x10000).landing t ((0x10000 : VAddr).setWidth 64) = none ∧ (traps 0x1000C).landing t ((0x1000C : VAddr).setWidth 64) ≠ none ∧
    on base 1 = false ∧ (base.crew 0).heldRecs = [] ∧ ((base.crew 0).fqhead - (base.crew 0).fqtail).toNat ≠ 2 ^ (base.crew 0).fqlog ∧
    ((full.crew 0).fqhead - (full.crew 0).fqtail).toNat = 2 ^ (full.crew 0).fqlog ∧
    ((waits.crew 0).heldRecs.map Held.record) = [0] ∧ ((waits.crew 0).fqhead - (waits.crew 0).fqtail).toNat ≠ 2 ^ (waits.crew 0).fqlog := by decide +kernel

theorem wit_FetchAndIllegalForms :
    let s := { (mapped base) with hbm := [(0x300000, 1)] }
    let c := ctx ((s.modGroup 2 0 fun g => { g with paths := g.paths.map fun p => p.map fun p => { p with pc := 0x10FFC0 } }))
    let plain := ctx (base.modCrew 0 fun c => { c with cls := 0 })
    let line := BitVec.ofNat 512 (leNat ((List.range 64).map fun i => c.s.viewByte 0 0 (0x10FFC0 + i) (0x30FFC0 + i)))
    c.Issues ∧ plain.Issues ∧ (sctx seatBase).Issues ∧ (c.s.translate 0 0 (lineAddr c.p.pc)).toOption = tlb0.head? ∧
    (tlb0.head?.bind fun e => (c.s.permitted 0 .exec e (lineAddr c.p.pc)).toOption) = some 0x30FFC0 ∧
    ((List.range 64).all fun i => !c.s.poisoned (0x30FFC0 + i)) = true ∧
    lineParityOk (line ^^^ 0) ≠ lineParityOk (line ^^^ 1) ∧ plain.s.privileged plain.t = false ∧
    ((encode (.rigGo fld)).isSome && (encode (.stepPath fld)).isSome && (encode (.lnbnd fld)).isSome && (encode (.cxwait fld)).isSome && (encode (.ld fld)).isSome && (encode (.rld fld)).isSome) = true :=
  ⟨wiss (by decide +kernel), wiss (by decide +kernel), wissS (by decide +kernel), by decide +kernel⟩

/-! System instructions -/

/-- The state with a ring of crew 0 on die 0. -/
def ringed (ctl : BitVec 4) (s : State) : State := s.modCrew 0 fun c => { c with rings := [(0, { base := 0x10000, ctl := ctl, on := true, since := 1, synced := true })] }

/-- A result in flight. -/
def late : InFlight := { reg := .em, old := Lanes.all 0, wait := Vector.replicate 8 0 }

theorem wit_TrapForms :
    let handler (g62 : Word64) : State := withG fun g => { g with paths := g.paths.map fun p => p.map fun p => { p with st := .handler }, tm := true, g := g.g.setIfInBounds 62 g62 }
    let busy := withG fun g => { g with inflight := [late] }
    let tripped := withG fun g => { g with flags := 0x0101 }
    (ctx base).Issues ∧ (ctx (ringed 8 base)).Issues ∧ (ctx busy).Issues ∧ (ctx tripped).Issues ∧ (ctx (handler 0)).Issues ∧
    (ctx (handler 4)).Issues ∧ (ctx (handler 0x10000)).Issues ∧ (sctx seatBase).Issues ∧ (ctx base).effect fld = true ∧
    base.stopArmed 0 0 = false ∧ (ringed 8 base).stopArmed 0 0 = true ∧ (ctx busy).g.inflight = [late] ∧
    (ctx base).g.inflight = [] ∧ (ctx base).g.flags.extractLsb' 0 8 &&& (ctx base).g.flags.extractLsb' 8 8 = 0 ∧
    (ctx tripped).g.flags.extractLsb' 0 8 &&& (ctx tripped).g.flags.extractLsb' 8 8 ≠ 0 ∧ (ctx base).p.st = .ready ∧
    (ctx (handler 4)).p.st = .handler ∧ (ctx (handler 4)).s.landing (ctx (handler 4)).t 4 = some 0x02 ∧
    (ctx (handler 0)).greg 0 62 = (ctx (handler 0)).g.trap.rpc.setWidth 64 ∧
    (ctx (handler 0x10000)).s.landing (ctx (handler 0x10000)).t 0x10000 = none ∧ (sctx seatBase).guard fld = true ∧
    (sctx seatBase).q.flags = 0 :=
  ⟨wiss (by decide +kernel), wiss (by decide +kernel), wiss (by decide +kernel), wiss (by decide +kernel), wiss (by decide +kernel), wiss (by decide +kernel), wiss (by decide +kernel), wissS (by decide +kernel), by decide +kernel⟩

theorem wit_SystemRegisters :
    let f (sel : BitVec 32) : Fields := { fld with sa := 0xC4, sb := 0xC5, imm := sel }
    let replayable := withG fun g => { g with seqs := [1], descheduled := true, paths := g.paths.map fun p => p.map fun p => { p with st := .replayable } }
    let c := ctx replayable
    let far := ctx (withU [(5, 40)])
    let held : State := replayable.modCrew 0 fun k => { k with heldRecs := [{ record := 0, source := .group 2 0 }] }
    let never := withG fun g => { g with seqs := [1], descheduled := true, noReplay := true }
    c.Issues ∧ far.Issues ∧ held.groupWithSeq 0 1 = some (2, 0) ∧ held.recordHeld 0 (.group 2 0) = true ∧
    c.s.recordHeld 0 (.group 2 0) = false ∧ never.groupWithSeq 0 1 = some (2, 0) ∧ ((never.group 2 0).map Group.noReplay) = some true ∧ c.s.privileged c.t = true ∧ c.effect (f 0x100) = true ∧ crewSelector 0x100 = true ∧
    crewSelector 0x0111 = true ∧ c.uni 1 0xC5 = 0 ∧ c.s.sameSet c.t.crew 0 = true ∧ c.s.groupWithSeq 0 1 = some (2, 0) ∧
    c.g.noReplay = false ∧ crewSelector 0x200 = false ∧ crewSelector 0x300 = false ∧
    (c.s.crewDies c.t.crew).contains 0 = true ∧ (c.s.heat 0).row < 64 ∧ (c.s.heat 0).active.length ≤ 64 ∧
    far.s.sysTarget far.t.crew 0x100 (far.uni 1 0xC5) = false ∧ far.s.sysTarget far.t.crew 0x200 (far.uni 1 0xC5) = false :=
  ⟨wiss (by decide +kernel), wiss (by decide +kernel), by decide +kernel⟩

/-- The grid's team and a second one on core 33, which runs no group. -/
def pair : State := { base with teams := base.teams ++ [(3, { ((ctx base).t) with x := 1, core := 33 })] }

theorem wit_SystemCommands :
    let f : Fields := { fld with sa := 0xC4, sb := 0xC5, sc := 0xC6 }
    let named (b : Word64) : PathCtx := ctx { pair with teams := ((withU [(4, 1), (5, b)]).teams ++ [(3, { ((ctx base).t) with x := 1, core := 33 })]) }
    let walks := ctx { base with walks := [(9, { die := 0, core := 0, crew := 0, page := 0 })] }
    let waits := ctx (withP fun p => { p with begun := true })
    let none_ := ctx (withU [(4, 5)])
    let far := ctx (withU [(4, 40), (5, BitVec.ofNat 64 (2 ^ 32))])
    let alone := ctx (withU [(4, 1)])
    (ctx base).Issues ∧ (named 1).Issues ∧ walks.Issues ∧ waits.Issues ∧ none_.Issues ∧ far.Issues ∧ alone.Issues ∧
    (ctx base).s.privileged (ctx base).t = true ∧ (ctx base).effect f = true ∧ (ctx base).p.begun = false ∧
    (decide ((far.uni 0 f.sa).toNat % 64 < 40)) = false ∧ ((ctx base).uni 0 f.sa).toNat % 64 < 40 ∧
    (ctx base).s.sameSet 0 0 = true ∧ (ctx base).orderedAt .sys = .go ∧ walks.s.walks.map (fun e => e.2.die) = [0] ∧ (walks.s.crewDies 0).contains 0 = true ∧
    (ctx base).s.walks = [] ∧ ((named 0).uni 2 0xC1).toNat % 2 ^ 32 = 0 ∧ walks.orderedAt .sys = .go ∧
    waits.p.begun = true ∧ waits.s.walks = [] ∧ none_.s.namedGrid 0 (none_.uni 0 f.sa) = none ∧
    ((named 1).s.namedGrid 0 ((named 1).uni 0 f.sa)).map Prod.fst = some 1 ∧ ((named 1).s.vacate 1 1).1 = [33] ∧
    ((named 1).s.vacate 1 1023).1 = [33] ∧ ((named 1).s.onCores 1).map (fun e => e.2.core) = [0, 33] ∧
    2 ^ 32 ≤ (far.uni 1 f.sb).toNat ∧ ((named 1).s.namedTeam 1 1).map Prod.fst = some 3 ∧
    ((named 1).s.haltTeam 1 ((((named 1).s.grid 1)).getD { ((base.grid 1).get rfl) with gx := 2 }) 1).1 = some 3 ∧
    (((named 1).s.haltTeam 1 ((base.grid 1).get rfl) 1).2.ending 3) = false ∧
    (((named 0).s.haltTeam 1 ((base.grid 1).get rfl) 0).1) = some 2 ∧ ((alone.s.killGrid 1).grid 1).isNone = true :=
  ⟨wiss (by decide +kernel), wiss (by decide +kernel), wiss (by decide +kernel), wiss (by decide +kernel), wiss (by decide +kernel), wiss (by decide +kernel), wiss (by decide +kernel), by decide +kernel⟩

theorem wit_TraceAndDebugForms :
    let f : Fields := { fld with d := 0xC3, sa := 0xC4, sb := 0xC5, sc := 0xC6 }
    let q := BitVec.ofNat 64
    let off := ctx (withU [(4, 40)])
    let odd := ctx (withU [(5, 1)])
    let good := ctx (withU [(5, 0x10000), (6, q (15 + 30 * 256))])
    let stop (b w : Word64) (st : PathState) (m : Bool) := ctx (((withU [(4, 1), (5, b), (6, w)]).modTeam 2 fun t => { t with stepMode := m, groups := t.groups ++ t.groups.map fun g => { g with paths := g.paths.map fun p => p.map fun p => { p with st := st } } }))
    let tail (s : State) : PathCtx := ctx (ringed 15 s)
    let full := { (ringed 4 base) with clock := 65535 }
    let jam := full.setRing 0 0 { full.ring 0 0 with head := 65536 }
    off.Issues ∧ odd.Issues ∧ good.Issues ∧ (stop 0 1 .stopped true).Issues ∧ (stop 1 0 .ready false).Issues ∧ (tail base).Issues ∧
    (sctx seatBase).Issues ∧ off.s.privileged off.t = true ∧ off.effect f = true ∧ off.s.ringTarget 0 (off.uni 0 f.sa) = none ∧
    odd.s.ringTarget 0 (odd.uni 0 f.sa) = some (0, 0) ∧ (odd.uni 1 f.sb).toNat % 65536 ≠ 0 ∧
    (good.uni 1 f.sb).toNat % 65536 = 0 ∧ ctlLegal (odd.uni 2 f.sc) = false ∧ good.uni 2 f.sc = q (15 + 30 * 256) ∧
    ctlLegal (good.uni 2 f.sc) = true ∧
    ((tail base).uni 1 f.sb - ((tail base).s.ring 0 0).tail).toNat ≤ (((tail base).s.ring 0 0).head - ((tail base).s.ring 0 0).tail).toNat ∧
    (odd.uni 1 f.sb).toNat % 32 ≠ 0 ∧ 2 ^ 32 ≤ ((ctx (withU [(5, q (2 ^ 32))])).uni 1 f.sb).toNat ∧
    ((odd.s.namedGrid 0 (odd.uni 0 f.sa)).bind fun e => odd.s.namedTeam e.1 (odd.uni 1 f.sb)) = none ∧
    (((stop 0 1 .stopped true).s.namedGrid 0 1).bind fun e => (stop 0 1 .stopped true).s.namedTeam e.1 0).map Prod.fst = some 2 ∧
    ((stop 0 1 .stopped true).t.groups[1]?.bind fun g => g.path 0).map Path.st = some .stopped ∧
    (stop 0 1 .stopped true).t.stepMode = true ∧ (stop 1 0 .ready false).t.stepMode = false ∧
    ((ctx base).t.groups[0]?.bind fun g => g.path 0).map Path.st = some .ready ∧ (sctx seatBase).guard fld = true ∧
    ((full.crew 0).rings.any fun r => r.2.on && r.2.ctl.getLsbD 2 && !r.2.ctl.getLsbD 1 && r.2.lost == 0 && r.2.synced && decide (r.2.since + 1 < 4096) && decide (full.clock - r.2.last ≤ 65535)) = true ∧
    ((full.ring 0 0).head - (full.ring 0 0).tail).toNat + 32 ≤ 2 ^ (full.ring 0 0).log ∧
    2 ^ (jam.ring 0 0).log < ((jam.ring 0 0).head - (jam.ring 0 0).tail).toNat + 32 :=
  ⟨wiss (by decide +kernel), wiss (by decide +kernel), wiss (by decide +kernel), wiss (by decide +kernel), wiss (by decide +kernel), wiss (by decide +kernel), wissS (by decide +kernel), by decide +kernel⟩

/-! Launches -/

/-- A queue whose ring has room. -/
def queue0 : Queue := { cfg := { launchBase := 0x500000, lqlog := 4, completionBase := 0x510000, cqlog := 4, feeder := true, control := 0x520000 } }

/-- Function 0, bound to crew 0, with a queue; the record of SEQ 2 stands at the address in `g4`, with `n` in its byte 20. -/
def launching (q : Queue) (n : Byte) : State :=
  let s := mapped (withU [(4, 0x100000)])
  { s with functions := [(0, { en := true, crew := 0, queues := [(0, q)] })], hbm := if n = 0 then [(0x300000, 2)] else [(0x300000, 2), (0x300014, n)] }

theorem wit_LaunchForms :
    let f : Fields := { fld with d := 0xC3, sa := 0xC4, sb := 0xC5, sc := 0xC6, imm := 3 }
    let host : Queue := { queue0 with cfg := { queue0.cfg with feeder := false } }
    let full : Queue := { queue0 with tail := 16 }
    let odd := ctx (withU [(4, 64)])
    let of (q : Queue) (n : Byte) : PathCtx := ctx (launching q n)
    let rec_ (n : Byte) : Option (BitVec 1024) := ((of queue0 n).readGlobal (upFrom 0x100000 128)).toOption.map fun bs => BitVec.ofNat 1024 (leNat bs)
    let far := ctx ((launching queue0 0).modGrid 1 fun g => { g with vf := 1 })
    odd.Issues ∧ (of queue0 0).Issues ∧ (of host 0).Issues ∧ (of full 0).Issues ∧ (of queue0 0x80).Issues ∧ far.Issues ∧
    odd.effect f = true ∧ (odd.uni 0 f.sa).toNat % 128 ≠ 0 ∧ ((of queue0 0).uni 0 f.sa).toNat % 128 = 0 ∧
    odd.s.queueNamed 0 (odd.uni 1 f.sb) = none ∧ (of host 0).s.queueNamed 0 0 = some (0, 0, host) ∧
    (of queue0 0).s.queueNamed 0 0 = some (0, 0, queue0) ∧ queue0.cfg.feeder = true ∧
    (rec_ 0).map (fun r => (lrSeq r, lrEdges r)) = some (2, 0) ∧ (rec_ 0x80).map lrEdges = some 8 ∧
    (rec_ 0x70).map lrEdges = some 7 ∧ (2 : Word64) - (of queue0 0).s.lseq (of queue0 0).t = 1 ∧
    ((of queue0 0).s.grid 1).map Grid.vf = some 0 ∧ (far.s.grid far.t.grid).map Grid.vf = some 1 ∧
    (of queue0 0).orderedAt .pkg = .go ∧ 2 ^ full.cfg.lqlog ≤ (full.tail - full.cons).toNat ∧
    (of full 0).s.queueNamed 0 0 = some (0, 0, full) ∧ full.cfg.feeder = true ∧ (of full 0).orderedAt .pkg = .go ∧ ((of full 0).uni 0 f.sa).toNat % 128 = 0 ∧
    (queue0.tail - queue0.cons).toNat < 2 ^ queue0.cfg.lqlog ∧ queue0.cfg.launchBase + 16 * 128 ≤ queue0.cfg.control ∧
    f.immBits 0 2 = 3 :=
  ⟨wiss (by decide +kernel), wiss (by decide +kernel), wiss (by decide +kernel), wiss (by decide +kernel), wiss (by decide +kernel), wiss (by decide +kernel), by decide +kernel⟩

/-- A descriptor of one role: one group, of floor and ceiling 64, and a window of 256 bytes. -/
def desc0 : BitVec 512 := BitVec.ofNat 512 (0x10000 + 2 ^ 48 + 2 ^ 64 + 2 ^ 96 + 64 * 2 ^ 128 + 64 * 2 ^ 136)

/-- A package without a team, with a queue whose record at 0x500000 is a sparse number, and an image with one descriptor. -/
def queued (r : Mem) : State :=
  let s := { base with grids := [], teams := [], functions := [(0, { en := true, crew := 0, queues := [(0, { queue0 with tail := 1 })] })], hbm := r }
  s.modCrew 0 fun c => { c with images := c.images.map fun i => { i with descs := [desc0] } }

/-- The record of SEQ 1, image 1, one team, with a class of end given by an extra byte. -/
def record0 (e : Nat × Byte) : Mem :=
  if e.1 < 8 then [(0x500000, 1), (0x500000 + e.1, e.2), (0x500008, 1), (0x50000E, 0xFF), (0x50000F, 0xFF)]
  else if e.1 = 8 then [(0x500000, 1), (0x500008, e.2), (0x50000E, 0xFF), (0x50000F, 0xFF)]
  else [(0x500000, 1), (0x500008, 1), (0x50000E, 0xFF), (0x50000F, 0xFF), (0x500000 + e.1, e.2)]

theorem wit_LaunchEvents_consume :
    let s (e : Nat × Byte) : State := queued (record0 e)
    let r (e : Nat × Byte) : BitVec 1024 := (s e).launchRecord { queue0 with tail := 1 } 0
    let fine : Nat × Byte := (1, 1)
    ((s fine).heat 0).active ≠ [] ∧ (s fine).boot = .running ∧ (s fine).setInFlight 0 < 1024 ∧
    ((s fine).nextQueue 0).map (fun e => (e.1, e.2.1)) = some (0, 0) ∧ (s fine).queue 0 0 = some { queue0 with tail := 1 } ∧
    lrMalformed (r fine) = false ∧ lrMalformed (r (52, 1)) = true ∧ ((r (8, 9)).extractLsb' 64 32).toNat = 9 ∧
    lrMalformed (r (8, 9)) = false ∧ (((s (8, 9)).crew 0).images.find? fun i => i.handle == 9) = none ∧
    (((s fine).crew 0).images.find? fun i => i.handle == 1).map (fun i => i.descs[lrKdesc (r fine)]?) = some (some desc0) ∧
    lrCdesc (r fine) = 0xFFFF ∧ lrUnfit (r fine) desc0 none = false ∧ lrUnfit (r (21, 1)) desc0 none = true ∧
    ((s fine).crew 0).neverFits desc0 (lrFloors (r fine) desc0) false = false ∧
    ({ ((s fine).crew 0) with savesize := 0 } : Crew).neverFits desc0 (lrFloors (r fine) desc0) false = true ∧ lrDet (r fine) = false ∧
    lrEdges (r fine) = 0 ∧ (s fine).grid (s fine).nextId = none := by decide +kernel

theorem wit_LaunchEvents_place :
    let s0 := (queued []).modCrew 0 fun c => c
    let g : Grid := { (base.grid 1).get rfl with st := .ready, placed := 0 }
    let s := { s0 with grids := [(1, g)] }
    (s.crew 0).set = some 0 ∧ s.preemptDue 0 (s.placeItems 0) = none ∧
    (match s.firstItem 0 with | some ((h, .fresh gid), (core, b, num)) => h == g && gid == 1 && core == 0 && b == 0 && num == 0 | _ => false) = true ∧
    g.nextIndex = some 0 ∧ g.det = false ∧ s.grid 1 = some g ∧ s.team s.nextId = none ∧
    s.descriptor (Team.start 1 0 0 0 0 0 0 0 0) 0 = some desc0 ∧ descWindow desc0 = 256 := by decide +kernel

theorem wit_LaunchEvents_rest :
    let fills := (withT fun t => { t with refill := some { depth := 64, items := List.replicate 63 0 } }).modGrid 1 fun g => { g with nitem := 1 }
    let host : Queue := { queue0 with cfg := { queue0.cfg with feeder := false }, heldDone := [(0, 5)] }
    let s := launching host 0
    ((fills.team 2).bind Team.refill).map (fun r => (r.open_, r.items.length, r.depth)) = some (true, 63, 64) ∧
    ((fills.grid 1).map fun g => (g.handed, g.nitem)) = some (0, 1) ∧ ((fills.team 2).map fun t => (t.ended, t.status == .resident)) = some (false, true) ∧
    s.queue 0 0 = some host ∧ ((launching queue0 0).queue 0 0).map (fun q => q.cfg.feeder) = some true ∧
    2 ^ host.cfg.lqlog < ((17 : Word64) - host.cons).toNat ∧ ((16 : Word64) - host.cons).toNat ≤ 2 ^ host.cfg.lqlog ∧
    ((0 : Word64) - host.ctail).toNat ≤ (host.chead - host.ctail).toNat ∧ host.completionRoom = true ∧
    host.cfg.completionBase + 32 ≤ host.cfg.control ∧ s.boot = .running ∧ host.inFlight = 0 ∧
    (base.grids.find? fun e => e.2.vf == 0 && e.2.seq == 1).map Prod.fst = some 1 := by decide +kernel

/-! The host -/

theorem wit_HostEvents :
    let s : State := { base with functions := [(511, { paused := true })] }
    let held := base.modCrew 39 fun c => { c with floors := [(15, 2)], poolSize := 1 }
    let idle : State := { s with grids := [], teams := [] }
    let unbound : State := { idle with heats := [] }
    let q (w : DieWrite) : List DieWrite := [w]
    let row := openRow
    State.reset.boot ≠ .running ∧ s.boot = .running ∧ ((aget 15 (held.crew 39).floors).getD 0).toNat = 2 ∧
    (held.crew 39).granules.length + ((held.crew 39).views.map fun v => v.2.resv).sum ≤ 0 ∧ (s.die 0).base.toNat = 0 ∧
    (s.grids.all fun e => e.2.crew != 39) = true ∧ (s.grids.any fun e => e.2.crew == 0) = true ∧ (idle.teams.all fun e => e.2.crew != 0) = true ∧
    s.inSetHbm 0 0x17FFFFF0000 65536 = true ∧ s.inSetHbm 0 0x17FFFFF0000 131072 = false ∧ s.inSetHbm 0 0x17FFFFFFFFF 1 = true ∧
    (s.namedGrid 0 1).map Prod.fst = some 1 ∧ s.namedGrid 0 2 = none ∧ (s.vacate 1 1).1 = [] ∧ (s.crew 0).loadStatus [] 0 ≠ 0 ∧
    s.configOk (q { die := 0, size := 0, base := 0 }) = false ∧
    idle.configOk ((List.range 8).map fun d => { die := d, size := 0, base := BitVec.ofNat 3 d }) = true ∧
    (s.func 511).paused = true ∧ (s.func 0).paused = false ∧ (0x80 + 39 : Word64).extractLsb' 10 22 = 0 ∧ (0x80 + 39 : Word64).getLsbD 6 = false ∧
    (0x80 + 40 : Word64).getLsbD 7 = true ∧ 40 ≤ ((0x80 + 40 : Word64).extractLsb' 0 6).toNat ∧ (s.heat 0).active ≠ [] ∧
    (unbound.heat 0).active = [] ∧ unbound.rowLegal 0 row = true ∧ unbound.rowLegal 0 0 = false ∧ quartersClash row row = false ∧
    s.queue 0 0 = none ∧ ((launching queue0 0).queue 0 0).isSome = true ∧ ((launching queue0 0).grid 1).map (fun g => (g.vf, g.queue)) = some (0, 0) ∧
    ({ s with boot := .recovery 1 } : State).boot = .recovery 1 := by decide +kernel


/-! Heats and contexts -/

/-- A row of crew 0 with a donation policy and a donee. -/
def policy (pol donee : Nat) : BitVec 2048 := BitVec.ofNat 2048 (14 + donee * 2 ^ 8 + pol * 2 ^ 14)

/-- The package under one row, the operands of `sa`, `sb` and `sc` in `g4` to `g6`. -/
def heated (row : BitVec 2048) (l : List (Nat × Word64)) : State :=
  (mapped (withU l)).setHeat 0 { active := [row], current := row, shadow := [(0, row), (63, row)] }

theorem wit_HeatAndContextForms_donate :
    let c (row : BitVec 2048) : PathCtx := ctx (heated row [])
    let again := ctx ((heated (policy 1 1) []).modCrew 0 fun c => { c with donated := true })
    let near := ctx { (heated (policy 1 1) []) with clock := 16384 - 1023 }
    let last := ctx { (heated (policy 1 1) []) with clock := 16384 - 1024 }
    (c openRow).Issues ∧ again.Issues ∧ near.Issues ∧ last.Issues ∧ (c (policy 1 0)).Issues ∧ (c openRow).effect fld = true ∧
    ((c openRow).s.crew 0).set = some 0 ∧ rowPol ((c openRow).s.heat 0).current = 0 ∧
    rowPol ((c (policy 1 0)).s.heat 0).current = 1 ∧ rowDonee ((c (policy 1 0)).s.heat 0).current = some 0 ∧
    ownsAny (last.s.heat 0).current 0 = true ∧ rowDonee (last.s.heat 0).current = some 1 ∧ (again.s.crew 0).donated = true ∧
    (near.s.heat 0).edgeAt < near.s.clock + 1024 ∧ (last.s.crew 0).donated = false ∧
    last.s.clock + 1024 ≤ (last.s.heat 0).edgeAt ∧ rowOct (last.s.heat 0).current 63 = some 0 :=
  ⟨wiss (by decide +kernel), wiss (by decide +kernel), wiss (by decide +kernel), wiss (by decide +kernel), wiss (by decide +kernel), by decide +kernel⟩

theorem wit_HeatAndContextForms_rows :
    let f : Fields := { fld with d := 0xC3, sa := 0xC4, sb := 0xC5, sc := 0xC6 }
    let c (a b w : Word64) (m : Mem) : PathCtx := ctx { (heated openRow [(4, a), (5, b), (6, w)]) with hbm := m }
    let pends := ctx ((heated openRow [(4, 1), (5, 0x100000)]).setHeat 0 { active := [openRow], current := openRow, pendingN := some 1 })
    let read (x : PathCtx) : Option (BitVec 2048) := (x.readGlobal (upFrom 0x100000 256)).toOption.map fun bs => BitVec.ofNat 2048 (leNat bs)
    let legal : Mem := [(0x300000, 14), (0x300001, 0x3F)]
    let clash : Mem := [(0x300000, 14), (0x300001, 0x3F), (0x3000A0, 0x3F)]
    (c 0 0x100001 0 []).Issues ∧ (c 64 0x100000 0 []).Issues ∧ (c 63 0x100000 0 []).Issues ∧ (c 63 0x100000 0 legal).Issues ∧
    (c 63 0x100000 0 clash).Issues ∧ pends.Issues ∧ (c 1 0 0 []).Issues ∧ (c 0 0x10000 65536 []).Issues ∧
    (c 40 0 0 []).Issues ∧ (c 0 0 0 []).Issues ∧ (c 2 0 0 []).Issues ∧ (c 0 0x17FFFFF0000 131072 []).Issues ∧
    (c 0 0 0 []).effect f = true ∧ (c 0 0 0 []).s.privileged (c 0 0 0 []).t = true ∧
    ((c 0 0x100001 0 []).uni 1 f.sb).toNat % 256 ≠ 0 ∧ 63 < ((c 64 0x100000 0 []).uni 0 f.sa).toNat ∧
    (pends.s.heat 0).pendingN = some 1 ∧ ((c 63 0x100000 0 legal).s.heat 0).pendingN = none ∧
    (read (c 63 0x100000 0 [])).map (fun r => decide ((r.extractLsb' 0 5).toNat < 14)) = some true ∧
    (read (c 63 0x100000 0 legal)).map (fun r => (c 0 0 0 []).s.rowLegal 0 r) = some true ∧
    (read (c 63 0x100000 0 legal)).map (fun r => quartersClash r openRow) = some false ∧
    (read (c 63 0x100000 0 clash)).map (fun r => (c 0 0 0 []).s.rowLegal 0 r && quartersClash r openRow) = some true ∧
    ((c 1 0 0 []).uni 0 f.sa).toNat = 1 ∧ (aget 0 ((c 1 0 0 []).s.heat 0).shadow).isSome = true ∧
    aget 1 ((c 2 0 0 []).s.heat 0).shadow = none ∧ (c 0 0 0 []).s.sameSet 0 0 = true ∧
    (c 0 0 0 []).s.inSetHbm 0 0x10000 65536 = true ∧ (c 0 0 0 []).s.inSetHbm 0 0x17FFFFF0000 131072 = false ∧
    (c 0 0x10000 65536 []).orderedAt .sys = .go ∧ ((c 0 0x10000 65536 []).s.teams.all fun e => e.2.status != .saved) = true :=
  ⟨wiss (by decide +kernel), wiss (by decide +kernel), wiss (by decide +kernel), wiss (by decide +kernel), wiss (by decide +kernel), wiss (by decide +kernel), wiss (by decide +kernel), wiss (by decide +kernel), wiss (by decide +kernel), wiss (by decide +kernel), wiss (by decide +kernel), wiss (by decide +kernel), by decide +kernel⟩

/-- The state with a second team of the grid, at x = 1, on core 1. -/
def second (st : TeamStatus) (s : State) : State :=
  { s with teams := s.teams ++ [(3, { ((ctx base).t) with x := 1, core := 1, status := st })] }

theorem wit_HeatAndContextForms_ctx :
    let f : Fields := { fld with d := 0xC3, sa := 0xC4, sb := 0xC5, sc := 0xC6 }
    let with_ (st : TeamStatus) (a b w : Word64) : PathCtx := ctx (second st (heated openRow [(4, a), (5, b), (6, w)]))
    let move : Word64 := 0x8000000000000001
    let zeros := with_ .saved 0x100000 0 0
    let named := ctx { (with_ .saved 0x100000 0 0).s with hbm := [(0x300000, 1)] }
    let bs (x : PathCtx) : Option (List Byte) := (x.readGlobal (upFrom 0x100000 64)).toOption
    (with_ .resident 1 1 1).Issues ∧ (with_ .resident 2 0 0).Issues ∧ (with_ .resident 1 0 0).Issues ∧
    (with_ .resident 1 1 0).Issues ∧ (with_ .resident 1 move 0).Issues ∧ (with_ .saved 1 1 0x100000).Issues ∧
    (with_ .saved 1 move 0x100000).Issues ∧ zeros.Issues ∧ named.Issues ∧ (with_ .saved 0x100000 2 0).Issues ∧
    (with_ .saved 1 0 0).Issues ∧ ((with_ .resident 1 1 1).uni 2 f.sc).toNat % 256 ≠ 0 ∧
    (with_ .resident 2 0 0).s.namedGrid 0 2 = none ∧ ((with_ .resident 1 0 0).s.namedTeam 1 0).map Prod.fst = some 2 ∧
    ((with_ .resident 1 1 0).s.namedTeam 1 1).map (fun e => (e.1, e.2.ended, e.2.status == .resident)) = some (3, false, true) ∧
    ((with_ .resident 1 move 0).s.namedTeam 1 move).map Prod.fst = some 3 ∧ move.getLsbD 63 = true ∧
    ((with_ .saved 1 1 0x100000).s.team 3).map (fun t => (t.status == .saved, (with_ .saved 1 1 0x100000).s.creditsDue 3 t, t.parts.length)) = some (true, false, 1) ∧
    (zeros.uni 0 f.sa).toNat % 256 = 0 ∧ ((with_ .saved 1 0 0).uni 0 f.sa).toNat % 256 ≠ 0 ∧
    2 ≤ ((with_ .saved 0x100000 2 0).uni 1 f.sb).toNat ∧ (bs zeros).map (fun b => (numAt b 4 4, numAt b 0 2)) = some (0, 0) ∧
    (bs named).map (fun b => (numAt b 4 4, numAt b 0 2, numAt b 2 2, numAt b 44 20, numAt b 16 8)) = some (0, 1, 0, 0, 0) ∧
    named.s.namedGrid 0 0 = none ∧ (bs zeros).map (fun b => (zeros.s.loadContext 0 b false).1) = some 1 :=
  ⟨wiss (by decide +kernel), wiss (by decide +kernel), wiss (by decide +kernel), wiss (by decide +kernel), wiss (by decide +kernel), wiss (by decide +kernel), wiss (by decide +kernel), wiss (by decide +kernel), wiss (by decide +kernel), wiss (by decide +kernel), wiss (by decide +kernel), by decide +kernel⟩

/-- Octet 63 passes from crew 0 to crew 1 at the coming edge. -/
def passing (at_ : Nat) (opened : List Nat) (s : State) : State :=
  { (s.setHeat 0 { active := [openRow, openRow ||| (1 <<< 506 : BitVec 2048)], current := openRow, opened := opened }) with clock := at_ }

theorem wit_HeatAndContextEvents_edge :
    let early := passing (16384 - 4097) [] base
    let due := passing (16384 - 4096) [] base
    let edge := passing 16384 [0] base
    let last := { (edge.setHeat 0 { (edge.heat 0) with row := 1 }) with clock := 16384 }
    let new := { (last.setHeat 0 { (last.heat 0) with pendingN := some 1, shadow := [(0, openRow)] }) with clock := 16384 }
    let loses (s : State) (o : Nat) : Bool := rowOct (s.heat 0).current o == some 0 && rowOct (s.heat 0).next.2.2 o != some 0
    (early.heat 0).active ≠ [] ∧ (early.heat 0).opened = [] ∧ early.boundTo 0 0 = true ∧ loses early 63 = true ∧ loses early 62 = false ∧
    early.clock < (early.heat 0).edgeAt - (early.crew 0).drainwinHeat ∧ (due.heat 0).edgeAt - (due.crew 0).drainwinHeat ≤ due.clock ∧
    (due.heat 0).started + ((due.heat 0).edgeAt - (due.heat 0).started) / 2 ≤ due.clock ∧ loses due 63 = true ∧
    (edge.heat 0).edgeAt ≤ edge.clock ∧ (edge.heat 0).opened = [0] ∧
    ((List.range 40).all fun k => k == 0 || (edge.crew k).set.isNone) = true ∧ (edge.heat 0).active.length = 2 ∧ (edge.heat 0).row = 0 ∧
    (last.heat 0).active.length ≤ (last.heat 0).row + 1 ∧ (last.heat 0).pendingN = none ∧ (new.heat 0).pendingN = some 1 ∧
    (last.heat 0).edgeAt ≤ last.clock ∧ (edge.heat 0).donations = [] ∧ 0 < quartersIn [openRow] 0 0 := by decide +kernel

theorem wit_HeatAndContextEvents_rest :
    let past := base.modCrew 0 fun c => { c with ovrcnt := 2 }
    let octet : State := { base with octets := [(63, .saving, 0)], teams := [] }
    let lazy (at_ : Nat) : State := { ((withP fun p => { p with st := .parked }).setHeat 0 { active := [policy 2 1], current := policy 2 1 }) with clock := at_ }
    let gives (at_ : Nat) : State := { (base.setHeat 0 { active := [policy 1 1], current := policy 1 1, donations := [(0, 5)] }) with clock := at_ }
    let drains (g : Group → Group) : State := (withG g).modTeam 2 fun t => { t with status := .draining, drainEnd := 4 }
    let run := drains fun g => { g with paths := g.paths.map fun p => p.map fun p => { p with shc := 1 } }
    let halt := drains id
    let saved := { (queued []) with teams := [(2, { ((ctx base).t) with status := .saved, winSize := 256 })], grids := base.grids }
    ((past.crew 0).ovrcnt + 1 = 3 ∧ (base.crew 0).ovrcnt + 1 ≠ 3) ∧ aget 63 octet.octets = some (.saving, 0) ∧ octet.teams = [] ∧
    ((lazy 1023).heat 0).active ≠ [] ∧ rowPol ((lazy 1023).heat 0).current = 2 ∧ (lazy 1023).boundTo 0 0 = true ∧ (lazy 1023).donateStatus 0 0 = 0 ∧
    (lazy 1023).idle 0 = true ∧ (lazy 1023).clock < ((lazy 1023).crew 0).idleSince + 1024 ∧ (lazy 1024).donateStatus 0 0 = 0 ∧
    ((lazy 1024).crew 0).idleSince + 1024 ≤ (lazy 1024).clock ∧ (gives 4).overdue 0 0 = [] ∧ (gives 4).clock < 5 ∧ (gives 5).overdue 0 0 = [] ∧
    ((gives 5).heat 0).donations = [(0, 5)] ∧ ((drains id).modTeam 2 fun t => { t with drainEnd := 0 }).overdue 0 0 ≠ [] ∧
    (run.team 2).map (fun t => (t.status == .draining, t.groups.map fun g => (g.halted, g.ended, g.saved))) = some (true, [(false, false, false)]) ∧
    (halt.team 2).map (fun t => t.groups.map fun g => (g.halted, g.ended, g.saved, g.pend.isEmpty && g.sbuf.isEmpty)) = some [(true, false, false, true)] ∧
    halt.yieldsDue 2 0 = false ∧
    (match saved.firstItem 0 with | some ((g, .restore tid), place) => g.seq == 1 && tid == 2 && place == (0, 0, 0) | _ => false) = true ∧
    (saved.team 2).map (fun t => (t.groups.all fun x => x.pend.isEmpty && x.sbuf.isEmpty, t.window.isEmpty, t.winSize)) = some (true, true, 256) := by decide +kernel

theorem wit_HeatAndContextEvents_save :
    let drains (g : Group → Group) : State := (withG g).modTeam 2 fun t => { t with status := .draining, drainEnd := 4 }
    let halt := drains id
    let due := drains fun g => { g with pend := [oneLane 6 .load { goodLane with st := .outside }] }
    let octet : State := { base with octets := [(63, .saving, 0)], teams := [] }
    octet.opsTouch (63 * 2 ^ 22) (2 ^ 22) = false ∧ (halt.readySave 2 0).saveWaits 2 0 = false ∧ halt.cmds.isEmpty = true ∧
    due.yieldsDue 2 0 = false ∧ ((due.group 2 0).map fun g => (g.halted, g.ended, g.saved)) = some (true, false, false) ∧
    (due.readySave 2 0).saveWaits 2 0 = true := by decide +kernel

/-! Words and steps -/

theorem wit_DecodeEncode :
    let f : Fields := { fld with d := 0xC3, sa := 0xC4, sb := 0xC5 }
    (Instr.rigWinwr f).wf .group = true ∧ encode (.rigWinwr f) = encode (.rigRerig f) ∧ (encode (.rigWinwr f)).isSome ∧
    (Instr.azero fld).wf .cox = true ∧ (encode (.azero fld)).isSome := by decide +kernel

/-- A state whose next turn issues from a line of two `bcast` slots, paired or not. -/
def aboutTo (pair : Nat) : State :=
  let line := makeLine [0x0004E140_00000102_3F800000, 0x0004E160_00000102_40000000] 1 pair
  { (base.modCore 0 fun c => { c with icache := [(0, 0x10000, line)] }) with issuer := .none, turns := [.issuePath ⟨2, 0, 0⟩] }

theorem wit_StepRunsDecoded_path :
    let stepped (s : State) : Option State := match step s with | .next t => some t | _ => none
    let s1 (s : State) : State := { s with turns := [], clock := s.clock + 1, fresh := s.fresh + 4 }
    let f : Fields := { fld with d := 10, useImm := true, md := 2, imm := 0x3F800000 }
    let fine (s : State) (pair : Bool) : Bool := match (s1 s).pathCtx ⟨2, 0, 0⟩ with
      | none => false
      | some c => (s1 s).groupRuns c.t c.g && c.p.runs && !c.yields && c.g.broken == none && (c.contextCause 0 1 f).isNone && c.ticked.readiness 0 1 f == .go && !c.p.holdNext &&
          !((stepped s).map c.stalledWhole == some true) &&
          (match (s1 s).cachedLine c.t c.p.pc with
           | none => false
           | some line => slotOf c.p.pc == some 0 && lineStampOk line && word .group (lineSlot line 0) == some (.bcast f) &&
               linePair line 0 == pair && decide ((Instr.bcast f).word = some (0, 1, f)))
    (aboutTo 0).boot = .running ∧ fine (aboutTo 0) false = true ∧ fine (aboutTo 1) true = true ∧
    (stepped (aboutTo 0)).map (fun t => (lane t 10 31, lane t 11 31)) = some (some 0x3F800000, none) ∧
    (stepped (aboutTo 1)).map (fun t => (lane t 10 31, lane t 11 31)) = some (some 0x3F800000, some 0x40000000) := by decide +kernel

theorem wit_StepRunsDecoded_rest :
    let fetches := (aboutTo 0).modGroup 2 0 fun g => { g with paths := g.paths.map fun p => p.map fun p => { p with pc := 0x10040 } }
    let seat : State := { seatBase with issuer := .none, turns := [.issueSeat 2] }
    let q := sctx seat
    let clears : State := { (base.modCrew 0 fun c => { c with clearing := [7], unscrubbed := [7] }) with turns := [.event (.pageClearComplete 0 7)] }
    (ctx fetches).s.cachedLine (ctx fetches).t (ctx fetches).p.pc = none ∧ slotOf (ctx fetches).p.pc = some 0 ∧
    fetches.groupRuns (ctx fetches).t (ctx fetches).g = true ∧ (ctx fetches).yields = false ∧
    q.t.ended = false ∧ q.t.status = .resident ∧ q.s.ownsCore q.t.crew q.t.core = true ∧ q.q.st = .running ∧ (q.s.toEnter 2 q.q).isNone = true ∧ q.stillStalled = false ∧
    (q.s.codeLine q.t q.q.pc).toOption.map (fun l => (lineParityOk l, lineStampOk l, (word .cox (lineSlot l 0)).isSome)) = some (true, true, true) ∧
    slotOf q.q.pc = some 0 ∧ (match step seat with | .next t => t.issuer == .none | _ => false) = true ∧
    (match step clears with | .next t => (t.crew 0).clearing == [] | _ => false) = true ∧ base.turns = [] ∧
    (Turn.wait 1).powersOn = false := by decide +kernel

theorem wit_MemoryFormKept :
    (State.reset.hbm.wf && State.reset.hostMem.wf && State.reset.scratch.wf && State.reset.vault.wf) = true ∧
    (match step State.reset with | .next t => t.clock == 1 | _ => false) = true := by decide +kernel

/-- A range in a window that is all of core 0's scratch has no fault. -/
theorem range_none {c : SeatCtx} (h : c.s.teams = [(2, c.t)])
    (b : (c.t.core == 0 && c.t.winBase == 0 && c.t.winSize == 524288 && !c.t.ended && c.t.status == .resident &&
      c.s.ownsCore c.t.crew 0) = true) (w : Word64) (n align : Nat)
    (hw : (w.toNat / 2 ^ 25 == 0 && w.getLsbD 24 && w.toNat / 2 ^ 19 % 32 == 0 && Nat.ble (w.toNat % 2 ^ 19 + n) 524288 &&
      w.toNat % align == 0) = true) : c.rangeFault w n align = none := by
  simp only [Bool.and_eq_true, beq_iff_eq, Bool.not_eq_true', Nat.ble_eq] at b hw
  obtain ⟨⟨⟨⟨⟨h1, h2⟩, h3⟩, h4⟩, h5⟩, h6⟩ := b
  obtain ⟨⟨⟨⟨w1, w2⟩, w3⟩, w4⟩, w5⟩ := hw
  have ok : ∀ i, i < n → ∃ x, c.coxByte w i = .ok x := by
    intro i hi
    have hlt : w.toNat % 2 ^ 19 + i < 524288 := by omega
    refine ⟨w.toNat % 2 ^ 19 + i, ?_⟩
    have hn : ¬ (524288 ≤ w.toNat % 2 ^ 19 + i) := by omega
    have hn2 : ¬ (2 ^ 24 ≤ w.toNat % 2 ^ 19 + i) := by omega
    have e1 : (w.toNat % 2 ^ 19 + i) / 2 ^ 19 = 0 := by omega
    have e2 : (w.toNat % 2 ^ 19 + i) % 2 ^ 19 = w.toNat % 2 ^ 19 + i := by omega
    unfold SeatCtx.coxByte
    rw [if_neg (fun h => h w1), w2, if_pos rfl, h3, w3, if_neg (by omega)]
    have hz : ((w.toNat % 2 ^ 19 + i : Nat) : Int) = (w.toNat : Int) % 2 ^ 19 + i := by omega
    have hp : c.t.windowAddr + w.toNat % 2 ^ 19 + i = w.toNat % 2 ^ 19 + i := by simp [Team.windowAddr, h1, h2]
    rw [hp]
    unfold SeatCtx.clusterByte State.scratchCell
    have hw : (c.s.windowOf c.t.grid 0 (w.toNat % 2 ^ 19 + i)).isNone = false := by
      simp [State.windowOf, h, h1, h2, h3, h4, h5]
      omega
    simp only [h1, clusterOf, e1, e2, h6, hw, Int.toNat_natCast]
    rw [if_neg (by simp), if_neg (by omega)]
    simp
  have no : ∀ code, (List.range n).any (c.byteFails w code) = false := by
    intro code
    rw [List.any_eq_false]
    intro i hi
    obtain ⟨x, hx⟩ := ok i (List.mem_range.mp hi)
    simp [SeatCtx.byteFails, hx, failed]
  simp [SeatCtx.rangeFault, no, w5]

/-- A seat with a free accumulator and operands at the ends of its window. -/
def entering : SeatCtx := sctx (windowed fun q => { q with c := (q.c.setIfInBounds 1 0x1000000).setIfInBounds 2 0x107E000 })

/-- A seat with accumulator 255 bound to slot 15. -/
def binding : SeatCtx := sctx (windowed fun q => { q with accs := [(255, 0, 15)], c := q.c.setIfInBounds 1 0x107E000 })

theorem wit_MatrixFormsEnter_free :
    let f : Fields := { fld with sa := 1, sb := 2, sc := 3, imm := 0x3FF }
    entering.Issues ∧ entering.guard f = true ∧ (entering.s.core (entering.target f)).queue.length < 16 ∧
    entering.s.ownsCore entering.t.crew (entering.target f) = true ∧
    entering.q.accAt 255 = none ∧ entering.s.freeSlot (entering.target f) = some 0 ∧ entering.saveRoom 33800 = true ∧
    (entering.latchUse (entering.target f) 1 false false == .other) = false ∧
    entering.kindFault (.mma 1 false (entering.creg f.sa) (entering.creg f.sb) 0 false 0 0) false = none := by
  refine ⟨wissS (by decide +kernel), by decide +kernel, by decide +kernel, by decide +kernel, by decide +kernel, by decide +kernel,
    by decide +kernel, by decide +kernel, ?_⟩
  have a : entering.creg 1 = 0x1000000 := by decide +kernel
  have b : entering.creg 2 = 0x107E000 := by decide +kernel
  have h : entering.s.teams = [(2, entering.t)] := by decide +kernel
  have k : (entering.t.core == 0 && entering.t.winBase == 0 && entering.t.winSize == 524288 && !entering.t.ended &&
      entering.t.status == .resident && entering.s.ownsCore entering.t.crew 0) = true := by decide +kernel
  simp only [SeatCtx.kindFault, SeatCtx.operandFault, a, b]
  rw [range_none h k _ _ _ (by decide +kernel), range_none h k _ _ _ (by decide +kernel)]
  rfl

theorem wit_MatrixFormsEnter_bound :
    let f : Fields := { fld with sa := 1, imm := 0x20FF }
    binding.Issues ∧ binding.guard f = true ∧ binding.q.accAt 255 = some (binding.target f, 15) ∧ (binding.s.core 0).queue.length < 16 ∧
    binding.kindFault (.afin true (binding.creg f.sa)) false = none := by
  refine ⟨wissS (by decide +kernel), by decide +kernel, by decide +kernel, by decide +kernel, ?_⟩
  have a : binding.creg 1 = 0x107E000 := by decide +kernel
  simp only [SeatCtx.kindFault, SeatCtx.operandFault, a]
  rw [range_none (c := binding) (by decide +kernel) (by decide +kernel) _ _ _ (by decide +kernel)]
  rfl

/-- The seat with a full queue on its core. -/
def crowded : SeatCtx := sctx ((windowed id).modCore 0 fun k => { k with queue := List.replicate 16 (2, 99) })

theorem wit_MatrixFormsEnter_full :
    let f : Fields := { fld with imm := 0xFF }
    crowded.Issues ∧ crowded.guard f = true ∧ 16 ≤ (crowded.s.core (crowded.target f)).queue.length ∧
    crowded.s.ownsCore crowded.t.crew (crowded.target f) = true ∧ crowded.q.accAt 255 = none ∧
    crowded.s.freeSlot (crowded.target f) = some 0 ∧ crowded.saveRoom 33800 = true := ⟨wissS (by decide +kernel), by decide +kernel⟩

theorem wit_MatrixEventsHappen_mma :
    let o : MatOp := matOp (.mma 0 false 0x1000000 0x1000000 0 false 0 0) true
    let s : State := (windowed fun q => { q with ops := [o], st := .parked }).modCore 0 fun c => { c with slots := [(0, { team := 2 })] }
    ((s.startedOn 0).find? fun e => !e.2.drains) = some (2, o) ∧ o.slot = some 0 ∧ aget 0 (s.core 0).slots = some { team := 2 } ∧
    (accumulate 0 false o.a o.b o.sa o.sb { team := 2 }).1.released = false := ⟨by decide +kernel, rfl, by decide +kernel, rfl⟩

/-- Of two keys with different hashes one is not the fused key. -/
theorem wit_HostEvents_key : State.reset.boot = .waiting ∧ (∃ key, keyHash key ≠ Config.fusedKeyHash) ∧ pssValid { modulus := 1, exponent := 1 } [] [] = false := by
  refine ⟨rfl, Classical.byContradiction fun h => ?_, by decide +kernel⟩
  have e := fun k => Classical.not_not.mp fun n => h ⟨k, n⟩
  exact (by decide +kernel : keyHash { modulus := 0, exponent := 1 } ≠ keyHash { modulus := 1, exponent := 1 }) ((e _).trans (e _).symm)
 
/-- An image of one data section, signed under the key of exponent 1 (R45 to R47). -/
def image0 : List Byte :=
  leBytes 56 0x400000000000001e00000000000000003000000000000000100000000000000000000000000000000000100014c4e414f ++
  leBytes 56 0xc02c4bf2091eff844854d32db779bc026a806a9be8776c6e35c5b39fe701026f9b6c2947b4b6ab1f137fb9e147a7649f0000000000000000 ++
  leBytes 56 0x6336be92a130940886a5a443197800d624924f85115c2a80efaf48b043b1a6cfd3a4540f8a5db2996fb4671bd0ff79533a75d1b00663d9c5 ++
  leBytes 56 0x600a401ec30529641a45cc20c70f0d6115738d8d783047d4085e24bfdd9b34979b74e8fffa041e183e683958029b4fc7ebd49ea80132cef6 ++
  leBytes 56 0xc877d6a95b0a40f1cbf3cf5102a333a4b5878a597d4281548a9fa6bcfd49fcc22a4470876538a2fa71743d20ddc174e1333d034823ec678f ++
  leBytes 56 0xf09c9d3276afbf657d47da71e3e9d9c65a87822bd2b018462934545418f39b7a57a6610f29b3e69169c027a70d848ba4c4e2596859a00ac0 ++
  leBytes 56 0x44f1f27b44b751bfd3bec58285d77bb9abe1595e615b3c57ef7d401d2886eec8567f57bb8254fd087a3768d4207e0c53a681ee6ed49d3d16 ++
  leBytes 56 0xb20e262ca36d1407c307ed702af8d694056b51352d252e3df638989b0c67214869a320996724fd601b8b73b4c75b2a9ded793c8d02c696fa ++
  leBytes 36 0x4030201bcbc2640c4561789c9e17fa7288a9bd51dd2cc2666f10facf8b130922fda6b58

/-- The crew that holds that key. -/
def keyed : Crew := { keys := [(0, { modulus := 2 ^ 3072 - 1, exponent := 1 })] }

theorem wit_HostEvents_image : keyed.loadStatus image0 0 = 0 ∧ (State.reset.teams.all fun e => e.2.crew != 0) = true := by decide +kernel

/-- FIPS 180-4: the hash of `abc`. -/
theorem test_sha256 : beNat (sha256 [0x61, 0x62, 0x63]) = 0xba7816bf8f01cfea414140de5dae2223b00361a396177a9cb410ff61f20015ad := by decide +kernel

/-- A byte written through a mapped page changes the lines alone. -/
theorem put_one {s : State} {t : Team} {a pa : Nat} {e : TlbEntry} (b : Byte) (ha : a < 2 ^ 56) (h : s.tlb t.core t.crew a = some e)
    (hp : s.permitted t.crew .write e a = .ok pa) (hv : t.view = 0) (hf : t.frozen = false) (hu : s.unscrubbed t.crew pa = false) :
    ∃ ls, s.putByte t 0 a b = .done { s with lines := ls } := by
  have hw : ∀ tg p, s.viewOf t.view tg p e.perm = 0 := by intro tg p; rw [hv]; unfold State.viewOf; split <;> rfl
  have hz : s.viewFrozen t (flatTarget a false) pa e.perm = false := by simp [State.viewFrozen, hv, hf]
  have hk : (s.accessKey t (flatTarget a false) pa e.perm true).view = 0 := by
    simp only [State.accessKey, hw, flatTarget, keyOf, if_true]
    split <;> rfl
  unfold State.putByte
  simp only [Nat.not_le.mpr ha, if_false, State.translate, h, hp, hz, hw, State.firstWrite, if_true, hu]
  simp only [State.setLineBytes, State.markWrote, State.setLineByte, Bool.false_eq_true, if_false, hk, if_true]
  exact ⟨_, rfl⟩

/-- Bytes written through a mapped page. -/
theorem put_all {t : Team} {e : TlbEntry} (s : State) (hv : t.view = 0) (hf : t.frozen = false) (lo hi : Nat) (hh : hi ≤ 2 ^ 56)
    (ok : ∀ a, lo ≤ a → a < hi → s.tlb t.core t.crew a = some e ∧ ∃ pa, s.permitted t.crew .write e a = .ok pa ∧ s.unscrubbed t.crew pa = false) :
    ∀ (bs : List Byte) (a : Nat) (ls : List (LineKey × Line)), lo ≤ a → a + bs.length ≤ hi →
      ∃ u, ({ s with lines := ls } : State).putContext t a bs = .done u := by
  intro bs
  induction bs with
  | nil => intro a ls _ _; exact ⟨_, rfl⟩
  | cons b bs ih =>
    intro a ls h1 h2
    simp only [List.length_cons] at h2
    obtain ⟨ht, pa, hp, hu⟩ := ok a h1 (by omega)
    obtain ⟨ls', h⟩ := put_one (s := { s with lines := ls }) (t := t) (e := e) b (by omega) ht hp hv hf hu
    obtain ⟨u, hu⟩ := ih (a + 1) ls' (by omega) (by omega)
    exact ⟨u, by unfold State.putContext; rw [h]; exact hu⟩

/-- A byte read through a mapped page of a state without lines. -/
theorem read_one {s : State} {t : Team} {a pa : Nat} {e : TlbEntry} (ha : a < 2 ^ 56) (h : s.tlb t.core t.crew a = some e)
    (hp : s.permitted t.crew .read e a = .ok pa) (hv : t.view = 0) (hu : s.unscrubbed t.crew pa = false) (hl : s.lines = [])
    (hb : s.poison = []) (hc : s.paClass pa = .hbm 0) : s.srcByte t [] 0 a false = .ok (s.memByte pa) := by
  have hw : ∀ tg p, s.viewOf t.view tg p e.perm = 0 := by intro tg p; rw [hv]; unfold State.viewOf; split <;> rfl
  have hk : (s.accessKey t (flatTarget a false) pa e.perm false).view = 0 := by
    simp only [State.accessKey, hw, flatTarget, keyOf]; rfl
  have hk2 : (s.accessKey t (flatTarget a false) pa e.perm false).crew = t.crew := by
    simp only [State.accessKey, hw, flatTarget, keyOf]; rfl
  have hb2 : ∀ k : LineKey, k.view = 0 → k.crew = t.crew → s.lineByte k a pa = s.memByte pa := by
    intro k h1 h2
    have : s.behind k.crew a pa 7 k.view = s.memByte pa := by simp [State.behind, h1, h2, hu]
    unfold State.lineByte
    simp only [hl, aget, Option.bind_none]
    split <;> simp [this]
  have hn : ∀ k, (s.bytePoison k a pa).isSome = false := by
    intro k
    simp [State.bytePoison, State.slicePoisoned, State.poisoned, hb]
  unfold State.srcByte
  simp only [Nat.not_le.mpr ha, if_false, State.translate, h, hp, hn, Bool.not_false, Bool.true_and, Bool.false_and, Bool.false_eq_true,
    State.inWindow, hc, forwarded, List.foldl_nil, hb2 _ hk hk2]

/-- Bytes read so. -/
theorem read_all {c : PathCtx} (f : Nat → Byte) (hs : c.g.sbuf = []) :
    ∀ l : List Nat, (∀ a ∈ l, c.s.srcByte c.t [] 0 a false = .ok (f a)) → c.readGlobal l = .ok (l.map f) := by
  intro l
  induction l with
  | nil => intro _; rfl
  | cons a l ih =>
    intro h
    have h1 := h a (List.mem_cons_self ..)
    have h2 := ih fun x hx => h x (List.mem_cons_of_mem _ hx)
    unfold PathCtx.readGlobal
    rw [hs, h1, h2]
    rfl

/-- The entry of the page at 0x100000. -/
def entry0 : TlbEntry := { crew := 0, base := 0x100000, size := 0x10000, pa := 0x300000, perm := { r := true, w := true, x := true, c := true, sm := false, red := 0 } }

/-- An access that a translation permits. -/
theorem permits {s : State} {need : Need} {e : TlbEntry} {a pa : Nat} (hn : need.allowed e.perm = true) (ha : e.at_ a = pa)
    (hp : s.paAllowed 0 pa = true) : s.permitted 0 need e a = .ok pa := by
  unfold State.permitted
  rw [hn, ha, hp]
  rfl

/-- An address of the first die's memory. -/
theorem hbm_zero {s : State} {pa : Nat} (h : pa < 0x30_0000_0000) : s.paClass pa = .hbm 0 := by
  unfold State.paClass
  rw [if_pos (by omega), Nat.div_eq_of_lt h]

theorem allowed_hbm {s : State} {pa : Nat} (hc : s.paClass pa = .hbm 0) (hd : (s.crewDies 0).contains 0 = true) : s.paAllowed 0 pa = true := by
  unfold State.paAllowed
  rw [hc]
  exact hd

/-- What core 0 of such a state translates in that page. -/
theorem page_maps {s : State} (ht : (s.core 0).tlb = tlb0) (hd : (s.crewDies 0).contains 0 = true) (a : Nat) (h1 : 0x100000 ≤ a) (h2 : a < 0x110000) :
    s.tlb 0 0 a = some entry0 ∧ s.paClass (a + 0x200000) = .hbm 0 ∧ s.permitted 0 .write entry0 a = .ok (a + 0x200000) ∧
    s.permitted 0 .read entry0 a = .ok (a + 0x200000) := by
  have hc : s.paClass (a + 0x200000) = .hbm 0 := hbm_zero (by omega)
  have ha : entry0.at_ a = a + 0x200000 := by
    have e1 : entry0.pa = 0x300000 := rfl
    have e2 : entry0.base = 0x100000 := rfl
    unfold TlbEntry.at_
    rw [e1, e2]
    omega
  have hp := allowed_hbm hc hd
  refine ⟨?_, hc, ?_, ?_⟩
  · simp [State.tlb, ht, tlb0, tlbFind, entry0, h1, h2]
  · exact permits rfl ha hp
  · exact permits rfl ha hp

/-- A second team without a living group, put away: its context is the shortest. -/
def away (st : TeamStatus) (l : List (Nat × Word64)) (m : Mem) : State :=
  { (heated openRow l).modGrid 1 fun g => { g with gx := 2, placed := 2 } with
    hbm := m, teams := (heated openRow l).teams ++ [(3, { ((ctx base).t) with x := 1, core := 1, groups := [], winSize := 0, status := st })] }

/-- That team saved, its context to be copied to 0x100000. -/
def copies : State := away .saved [(4, 1), (5, 1), (6, 0x100000)] []

theorem wit_HeatAndContextForms_ctxsave :
    (ctx copies).Issues ∧ ∃ t u, copies.team 3 = some t ∧ t.status = .saved ∧ copies.creditsDue 3 t = false ∧
      (copies.teamContext 3 t).length = 11232 ∧ copies.putContext (ctx copies).t 0x100000 (copies.teamContext 3 t) = .done u := by
  have n : (copies.teamContext 3 { ((ctx base).t) with x := 1, core := 1, groups := [], winSize := 0, status := .saved }).length = 11232 := by decide +kernel
  have k : (ctx copies).t.core = 0 ∧ (ctx copies).t.crew = 0 ∧ (ctx copies).t.view = 0 ∧ (ctx copies).t.frozen = false := by decide +kernel
  have h : (copies.core 0).tlb = tlb0 ∧ (copies.crewDies 0).contains 0 = true ∧ (copies.crew 0).unscrubbed = [] := by decide +kernel
  obtain ⟨u, hu⟩ := put_all (e := entry0) copies k.2.2.1 k.2.2.2 0x100000 0x110000 (by decide)
    (fun a h1 h2 => by
      rw [k.1, k.2.1]
      obtain ⟨p, _, q, _⟩ := page_maps h.1 h.2.1 a h1 h2
      exact ⟨p, _, q, by simp [State.unscrubbed, h.2.2]⟩)
    (copies.teamContext 3 { ((ctx base).t) with x := 1, core := 1, groups := [], winSize := 0, status := .saved }) 0x100000 copies.lines (by decide) (by rw [n]; decide)
  exact ⟨wiss (by decide +kernel), _, u, by decide +kernel, rfl, by decide +kernel, n, hu⟩

/-- That team moved out, its context at 0x100000. -/
def loads : State := away .movedOut [(4, 0x100000)] [(0x300000, 1), (0x300004, 0xE0), (0x300005, 0x2B), (0x30000C, 1), (0x300010, 1)]

theorem wit_HeatAndContextForms_ctxld :
    (ctx loads).Issues ∧ ∃ head bs, (ctx loads).readGlobal (upFrom 0x100000 64) = .ok head ∧ numAt head 4 4 = 11232 ∧
      (ctx loads).readGlobal (upFrom 0x100000 (max 64 (numAt head 4 4))) = .ok bs ∧ (loads.loadContext 0 bs false).1 = 0 := by
  have k : (ctx loads).t.core = 0 ∧ (ctx loads).t.crew = 0 ∧ (ctx loads).t.view = 0 ∧ (ctx loads).g.sbuf = [] := by decide +kernel
  have h : (loads.core 0).tlb = tlb0 ∧ (loads.crewDies 0).contains 0 = true ∧ (loads.crew 0).unscrubbed = [] ∧ loads.lines = [] ∧
    loads.poison = [] := by decide +kernel
  have hs : (ctx loads).s = loads := rfl
  have r : ∀ n, n ≤ 65536 → (ctx loads).readGlobal (upFrom 0x100000 n) = .ok ((upFrom 0x100000 n).map fun a => loads.memByte (a + 0x200000)) := by
    intro n hn
    refine read_all _ k.2.2.2 _ fun a ha => ?_
    obtain ⟨h1, h2⟩ : 0x100000 ≤ a ∧ a < 0x110000 := by
      have := mem_upFrom.mp ha
      omega
    obtain ⟨p, c, _, q⟩ := page_maps h.1 h.2.1 a h1 h2
    rw [hs]
    exact read_one (by omega) (by rw [k.1, k.2.1]; exact p) (by rw [k.2.1]; exact q) k.2.2.1 (by rw [k.2.1]; simp [State.unscrubbed, h.2.2.1])
      h.2.2.2.1 h.2.2.2.2 c
  refine ⟨wiss (by decide +kernel), _, _, r 64 (by decide), by decide +kernel, r _ (by decide +kernel), by decide +kernel⟩

end Sys2Proof.Tests
end

/-! Uniform and special reads (O5): the lowest lane of a mask, the forms of uniform effect, what a read of a special register writes, and
names that are unmapped. -/

namespace Sys2Proof.Machine

/-! The lowest lane of a mask -/

theorem lowestLane_zero : lowestLane 0 = none := by decide

/-- A lane of a mask below which the mask is empty is its lowest. -/
theorem lowestLane_of_first {m : Mask} {l : Nat} (hl : l < 32) (hm : m.getLsbD l = true) (hk : ∀ k < l, m.getLsbD k = false) :
    lowestLane m = some l := by
  rw [lowestLane, maskLanes, List.head?_filter, List.find?_range_eq_some]
  exact ⟨hm, List.mem_range.mpr hl, fun k h => by simp [hk k h]⟩

/-! Names that are unmapped (R62, R87) -/

/-- An unmapped register reads zero (R61). -/
theorem Group.lanesOf_of_unmapped {g : Group} {r : Nat} (h : aget r g.vregs = none) : g.lanesOf r = Lanes.all 0 := by
  simp [Group.lanesOf, h]

/-- A name whose register awaits no load is unmapped at once. -/
theorem Group.free_unmaps {g : Group} {r : Nat} (h : ∀ v, aget r g.vregs = some v → v.pending = false) :
    aget r (g.free r).vregs = none := by
  unfold Group.free
  cases hv : aget r g.vregs with
  | none => exact hv
  | some v => simp [h v hv]

/-- Freeing leaves an unmapped name unmapped. -/
theorem Group.freeAll_unmapped {g : Group} {r : Nat} (rs : List Nat) (h : aget r g.vregs = none) :
    aget r (g.freeAll rs).vregs = none := by
  induction rs generalizing g with
  | nil => exact h
  | cons x rs ih =>
    refine ih ?_
    by_cases hx : r = x
    · subst hx
      exact Group.free_unmaps (by simp [h])
    · rw [Group.free_vregs_ne hx, h]

/-- Each name of a run whose register awaits no load is unmapped. -/
theorem Group.freeAll_unmaps {g : Group} {r : Nat} {rs : List Nat} (hr : r ∈ rs)
    (h : ∀ v, aget r g.vregs = some v → v.pending = false) : aget r (g.freeAll rs).vregs = none := by
  induction rs generalizing g with
  | nil => cases hr
  | cons x rs ih =>
    by_cases hx : r = x
    · subst hx
      exact Group.freeAll_unmapped rs (Group.free_unmaps h)
    · exact ih ((List.mem_cons.mp hr).resolve_left hx) (by rwa [Group.free_vregs_ne hx])

/-! What a path keeps -/

section

variable {c : PathCtx} {g : Group} {pc : VAddr} {vs gs ps : List Nat} {fl : FlagSet}

/-- What is kept outside some registers is kept outside more. -/
theorem PathCtx.Kept.mono {vs' gs' : List Nat} (k : c.Kept g pc vs gs ps fl) (hv : ∀ r ∈ vs, r ∈ vs') (hg : ∀ r ∈ gs, r ∈ gs') :
    c.Kept g pc vs' gs' ps fl :=
  ⟨k.goes, k.frame.mono hv hg (fun _ h => h) fun _ h => h, k.memory⟩

/-- Registers outside those that may change keep all their lanes. -/
theorem PathCtx.Kept.lanesKept {rs : List Nat} (k : c.Kept g pc vs gs ps fl) (m : Mask) (h : ∀ r ∈ rs, r ∉ vs) :
    c.LanesKept g m rs := fun r hr l _ _ => by
  rw [Group.lanesOf, k.frame.vregs r (h r hr), ← Group.lanesOf]

end

/-! Forms of uniform effect -/

/-- A form that writes a uniform register where its guard is nonzero, and else takes no effect (R79). -/
theorem PathCtx.uniformEffect_done {c : PathCtx} (h : c.Issues) (opc fn : Nat) (f : Fields) (w : Word64) (fl : FlagSet) :
    ∃ g, (if c.effect f then c.retire f (c.writeUniform opc fn f w) else c.skipOver opc fn f) = .next (c.done g) ∧
      c.Kept g (nextSlot c.p.pc) (lrRegs opc fn f) (destG f) [] fl ∧
      (f.dead = false → c.effect f = true → g.uniOf (f.d.toNat - 0xC0) = w) := by
  split
  · obtain ⟨g, e, k, v⟩ := PathCtx.writeUniform_done h opc fn f w fl
    exact ⟨g, e, k, fun hd _ => v hd⟩
  next he =>
    obtain ⟨g, e, k⟩ := PathCtx.skipOver_kept h opc fn f fl
    exact ⟨g, e, k.mono (fun _ hr => hr) (by simp), fun _ ht => absurd ht he⟩

/-- `movu` (R83): the lowest lane of A is read; where A is empty no uniform register changes. -/
theorem movu_done {c : PathCtx} (h : c.Issues) (f : Fields) :
    ∃ g, exec (.movu f) c.s = .next (c.done g) ∧ c.Kept g (nextSlot c.p.pc) (freed (.movu f)) (destG f) [] 0 ∧
      (f.dead = false → ∀ l < 32, (c.active f).getLsbD l = true → (∀ k < l, (c.active f).getLsbD k = false) →
        g.uniOf (f.d.toNat - 0xC0) = BitVec.ofNat 64 (c.laneOp 1 f.sb 1 l)) ∧
      (c.active f = 0 → ∀ n, g.uniOf n = c.g.uniOf n) := by
  rw [exec_movu, execMovu, onPath_of h]
  cases hm : lowestLane (c.active f) with
  | none =>
    obtain ⟨g, e, k⟩ := PathCtx.skipOver_kept h 0x00 0x02 f 0
    refine ⟨g, e, k.mono (fun _ hr => hr) (by simp), fun _ l hl ha hk => ?_, fun _ n => k.frame.uniforms n (by simp)⟩
    cases hm.symm.trans (lowestLane_of_first hl ha hk)
  | some l0 =>
    obtain ⟨g, e, k, v⟩ := PathCtx.writeUniform_done h 0x00 0x02 f (BitVec.ofNat 64 (c.laneOp 1 f.sb 1 l0)) 0
    refine ⟨g, e, k, fun hd l hl ha hk => ?_, fun h0 => ?_⟩
    · cases hm.symm.trans (lowestLane_of_first hl ha hk)
      exact v hd
    · rw [h0, lowestLane_zero] at hm
      cases hm

/-! Reads of special registers (R86) -/

/-- The number that `sread` writes into a lane: the lane's own index, its work item, or the special register. -/
def PathCtx.sreadLane (c : PathCtx) (sel l : Nat) : Nat :=
  if sel = 0 then l else if sel = 0x1A then (c.g.item.get l).toNat else (c.special sel).toNat

/-- The registers that `sread` writes: two for the 64-bit `lk` and `clock`. -/
def sreadRegs (sel : Nat) : Nat := if sel = 0x10 ∨ sel = 0x12 then 2 else 1

/-- `sread` writes a uniform register once, or a vector in lanes of A. -/
theorem exec_sread_of {c : PathCtx} (h : c.Issues) (f : Fields) :
    exec (.sread f) c.s =
      if isUni f.d && !f.dead then
        if c.effect f then c.retire f (c.writeUniform 0x00 0x0B f (c.special (f.immBits 0 8))) else c.skipOver 0x00 0x0B f
      else c.retire f (c.writeLanes 0x00 0x0B f (c.active f) [] (sreadRegs (f.immBits 0 8)) (c.sreadLane (f.immBits 0 8))) := by
  rw [exec_sread, execSread]
  rw [onBoth_of h]
  congr 1
  refine congrArg (fun val => c.retire f (c.writeLanes 0x00 0x0B f (c.active f) [] (sreadRegs (f.immBits 0 8)) val)) ?_
  funext l
  generalize f.immBits 0 8 = sel
  split
  next => rfl
  next => rfl
  next h0 h1 => rw [PathCtx.sreadLane, if_neg h0, if_neg h1]

/-- `sread` keeps all but its destination, which holds the selected value. -/
theorem sread_done {c : PathCtx} (h : c.Issues) (f : Fields) :
    ∃ g, exec (.sread f) c.s = .next (c.done g) ∧
      c.Kept g (nextSlot c.p.pc) (freed (.sread f) ++ destVec f (sreadRegs (f.immBits 0 8))) (destUni f) [] 0 ∧
      c.LanesKept g (c.active f) (destKept (freed (.sread f)) f (sreadRegs (f.immBits 0 8))) ∧
      c.DestIs g f (sreadRegs (f.immBits 0 8)) fun l =>
        if isUni f.d then ((c.special (f.immBits 0 8)).toNat : Int) else (c.sreadLane (f.immBits 0 8) l : Int) := by
  rw [exec_sread_of h]
  generalize hn : sreadRegs (f.immBits 0 8) = n
  have hfree : freed (.sread f) = lrRegs 0x00 0x0B f := rfl
  rw [hfree]
  split
  next hu =>
    obtain ⟨hu, hd⟩ : isUni f.d = true ∧ f.dead = false := by simpa using hu
    have hv : destVec f n = [] := by simp [destVec, hu]
    have hg : destG f = destUni f := by simp [destG, destUni, hu, hd]
    obtain ⟨g, e, k, v⟩ := PathCtx.uniformEffect_done h 0x00 0x0B f (c.special (f.immBits 0 8)) 0
    rw [hv, List.append_nil, ← hg]
    refine ⟨g, e, k, k.lanesKept _ fun r hr => ?_, fun _ => ⟨fun h0 => ?_, fun _ he => ?_⟩⟩
    · simpa using (List.mem_filter.mp hr).2
    · cases hu.symm.trans h0
    · simp [v hd he, hu]
  next hu =>
    have hu' : isUni f.d = false ∨ f.dead = true := by simpa [imp_iff_not_or] using hu
    obtain ⟨g, e, k, kl, v⟩ := PathCtx.writeLanes_done h 0x00 0x0B f (c.active f) [] n (c.sreadLane (f.immBits 0 8)) 0
    rw [destVec_eq hu']
    refine ⟨g, e, k.mono (fun _ hr => hr) (by simp), kl, fun hd => ⟨fun h0 l hl ha => ?_, fun h1 => ?_⟩⟩
    · simp only [v hd l hl ha, h0, Bool.false_eq_true, if_false]
      norm_cast
    · exact absurd (by simp [h1, hd]) hu

/-! `vfree` and `nop` (R87) -/

/-- `vfree` takes no heed of its guard: each name of its run that awaits no load is unmapped. -/
theorem vfree_done {c : PathCtx} (h : c.Issues) (f : Fields) :
    ∃ g, exec (.vfree f) c.s = .next (c.done g) ∧
      c.Kept g (nextSlot c.p.pc) (freed (.vfree f) ++ upFrom f.sa.toNat (f.immBits 0 8)) [] [] 0 ∧
      ∀ r, f.sa.toNat ≤ r → r < f.sa.toNat + f.immBits 0 8 →
        (∀ v, aget r c.g.vregs = some v → v.pending = false) → g.lanesOf r = Lanes.all 0 := by
  rw [exec_vfree, execVfree, onPath_of h]
  refine ⟨_, c.retire_eq f _, PathCtx.retired_kept h ?_, fun r h1 h2 hp => ?_⟩
  · exact ((Group.Frame.refl ..).freeAll fun _ hr => List.mem_append_right _ hr).freeAll fun _ hr => List.mem_append_left _ hr
  · exact Group.lanesOf_of_unmapped (Group.freeAll_unmapped _ (Group.freeAll_unmaps (mem_upFrom.mpr ⟨h1, h2⟩) hp))

theorem nop_done {c : PathCtx} (h : c.Issues) (f : Fields) :
    ∃ g, exec (.nop f) c.s = .next (c.done g) ∧ c.Kept g (nextSlot c.p.pc) (freed (.nop f)) [] [] 0 := by
  rw [exec_nop, execNop, onBoth_of h]
  exact PathCtx.skipOver_kept h 0x00 0x0E f 0

/-- Settles O5: each form from the lemma that says how it retires. -/
theorem uniformAndSpecialReads : Obligations.UniformAndSpecialReads := by
  unfold Obligations.UniformAndSpecialReads
  intro c f h
  refine ⟨movu_done h f, ?emrd, ?rdlane, ?ballot, ?sread, vfree_done h f, nop_done h f⟩
  case emrd =>
    rw [exec_emrd, execEmrd, onPath_of h]
    exact PathCtx.uniformEffect_done h 0x00 0x03 f _ 0
  case rdlane =>
    rw [exec_rdlane, execRdlane, onPath_of h]
    exact PathCtx.uniformEffect_done h 0x40 0x0F f _ 0
  case ballot =>
    rw [exec_ballot, execBallot, onPath_of h]
    exact PathCtx.uniformEffect_done h 0x40 0x0D f _ 0
  case sread =>
    obtain ⟨g, e, k, kl, v⟩ := sread_done h f
    refine ⟨g, e, k, kl, ?_⟩
    simpa only [sreadRegs, PathCtx.sreadLane, Nat.cast_ite] using v

end Sys2Proof.Machine

/-! Integer results (O2, O7, O9): the flags that the lanes of a form raise together, the results of the arithmetic, logic, shift and
division forms, and the carry forms. -/

namespace Sys2Proof.Machine

/-! Sets of flags -/

/-- A set of flags holds a flag exactly where a condition holds. -/
def Raises (fl x : FlagSet) (p : Prop) : Prop := (p → x &&& fl = fl) ∧ (¬p → x &&& fl = 0)

theorem and_eq_self_iff_bits {x fl : FlagSet} : x &&& fl = fl ↔ ∀ k, fl.getLsbD k = true → x.getLsbD k = true := by
  refine ⟨fun h k hk => ?_, fun h => BitVec.eq_of_getLsbD_eq fun k _ => ?_⟩
  · rw [← h, BitVec.getLsbD_and, Bool.and_eq_true] at hk
    exact hk.1
  · cases hk : fl.getLsbD k with
    | false => simp [hk]
    | true => simp [hk, h k hk]

theorem and_eq_zero_iff_bits {x m : FlagSet} : x &&& m = 0 ↔ ∀ k, x.getLsbD k = true → m.getLsbD k = false := by
  refine ⟨fun h k hk => ?_, fun h => BitVec.eq_of_getLsbD_eq fun k _ => ?_⟩
  · simpa [hk] using congrArg (BitVec.getLsbD · k) h
  · cases hk : x.getLsbD k with
    | false => simp [hk]
    | true => simp [hk, h k hk]

/-- Flags within a set are none of the flags outside it. -/
theorem avoids_of_within {x fl m : FlagSet} (h : x &&& ~~~fl = 0) (hm : fl &&& m = 0) : x &&& m = 0 := by
  rw [and_eq_zero_iff_bits] at h hm ⊢
  refine fun k hk => hm k ?_
  have hlt : k < 16 := BitVec.lt_of_getLsbD hk
  simpa [hlt] using h k hk

theorem Raises.of_not {fl x : FlagSet} {p : Prop} (hp : ¬p) (h : x &&& fl = 0) : Raises fl x p :=
  ⟨fun hp' => absurd hp' hp, fun _ => h⟩

theorem Raises.congr {fl x : FlagSet} {p q : Prop} (h : Raises fl x p) (hpq : p ↔ q) : Raises fl x q := by
  rwa [← hpq]

theorem raises_flagIf (fl : FlagSet) (b : Bool) : Raises fl (flagIf b fl) (b = true) := by
  cases b <;> simp [Raises, flagIf]

/-- The bits of flags collected from a list. -/
theorem getLsbD_foldl_or {α : Type} (k : α → FlagSet) (xs : List α) (x : FlagSet) (i : Nat) :
    (xs.foldl (fun acc a => acc ||| k a) x).getLsbD i = true ↔ x.getLsbD i = true ∨ ∃ a ∈ xs, (k a).getLsbD i = true := by
  induction xs generalizing x with
  | nil => simp
  | cons a xs ih => simp [ih, or_assoc]

/-! What a lane-wise form raises and writes -/

theorem mem_maskLanes {m : Mask} {l : Nat} : l ∈ maskLanes m ↔ l < 32 ∧ m.getLsbD l = true := by
  simp [maskLanes]

/-- A vector or uniform write leaves the flags. -/
@[simp] theorem PathCtx.writeLanes_flags (c : PathCtx) (opc fn : Nat) (f : Fields) (m : Mask) (srcs : List (BitVec 8 × Nat)) (n : Nat)
    (val : Nat → Nat) : (c.writeLanes opc fn f m srcs n val).flags = c.g.flags := by
  unfold PathCtx.writeLanes
  split
  · simp
  · obtain ⟨v, e⟩ := (c.g.freeAll (lrRegs opc fn f)).writeVec_shape f.d.toNat m val (c.uniformForm m srcs n val) n
    simp [e]

@[simp] theorem PathCtx.writeUniform_flags (c : PathCtx) (opc fn : Nat) (f : Fields) (w : Word64) :
    (c.writeUniform opc fn f w).flags = c.g.flags := by
  unfold PathCtx.writeUniform
  split
  · simp
  · simp [Group.writeUni]

/-- The flags that a lane-wise form raises: those of every lane of A, or of the one computation of a uniform result (R74, R79). -/
def PathCtx.raised (c : PathCtx) (f : Fields) (sh : Shape) (op : LaneFn) : FlagSet :=
  if isUni f.d && !f.dead then if c.effect f then (c.laneResult f sh op 0).2 else 0
  else flagsOf (c.active f) (c.results f sh op)

section

variable {c : PathCtx} {f : Fields} {sh : Shape} {op : LaneFn} {g : Group} {fl m : FlagSet}

theorem PathCtx.acts_uniform {l : Nat} (hu : isUni f.d = true) (hd : f.dead = false) :
    c.Acts f l ↔ l = 0 ∧ c.effect f = true := by
  rw [PathCtx.Acts, if_pos ⟨hu, hd⟩]

theorem PathCtx.acts_lanes {l : Nat} (h : ¬(isUni f.d = true ∧ f.dead = false)) :
    c.Acts f l ↔ l < 32 ∧ (c.active f).getLsbD l = true := by
  rw [PathCtx.Acts, if_neg h]

/-- A flag is raised where some computed lane raises it. -/
theorem PathCtx.raised_getLsbD {k : Nat} :
    (c.raised f sh op).getLsbD k = true ↔ ∃ l, c.Acts f l ∧ (c.laneResult f sh op l).2.getLsbD k = true := by
  by_cases hu : isUni f.d = true ∧ f.dead = false
  · simp only [PathCtx.raised, hu.1, hu.2, Bool.not_false, Bool.and_true, if_true, PathCtx.acts_uniform hu.1 hu.2]
    cases c.effect f <;> simp
  · have hb : (isUni f.d && !f.dead) = false := by simpa using hu
    simp only [PathCtx.raised, hb, Bool.false_eq_true, if_false, PathCtx.acts_lanes hu, flagsOf]
    rw [getLsbD_foldl_or fun l => ((c.results f sh op).getD l (0, 0)).2]
    simp only [BitVec.ofNat_eq_ofNat, BitVec.getLsbD_zero, Bool.false_eq_true, false_or, mem_maskLanes]
    exact exists_congr fun l => and_congr_right fun hl =>
      Iff.of_eq (congrArg (fun r => r.2.getLsbD k = true) (PathCtx.results_getD hl.1))

theorem PathCtx.raised_covers {l : Nat} (ha : c.Acts f l) (h : (c.laneResult f sh op l).2 &&& fl = fl) :
    c.raised f sh op &&& fl = fl := by
  rw [and_eq_self_iff_bits] at h ⊢
  exact fun k hk => PathCtx.raised_getLsbD.mpr ⟨l, ha, h k hk⟩

theorem PathCtx.raised_avoids (h : ∀ l, c.Acts f l → (c.laneResult f sh op l).2 &&& m = 0) : c.raised f sh op &&& m = 0 := by
  rw [and_eq_zero_iff_bits]
  intro k hk
  obtain ⟨l, ha, hl⟩ := PathCtx.raised_getLsbD.mp hk
  exact and_eq_zero_iff_bits.mp (h l ha) k hl

/-- Flags that no lane raises stay as they were. -/
theorem PathCtx.flags_kept (hg : g.flags = c.g.flags ||| c.raised f sh op)
    (h : ∀ l, c.Acts f l → (c.laneResult f sh op l).2 &&& m = 0) : g.flags &&& m = c.g.flags &&& m := by
  rw [hg, BitVec.and_or_distrib_right, PathCtx.raised_avoids h, BitVec.ofNat_eq_ofNat, BitVec.or_zero]

/-- A flag that each lane raises exactly under a condition is set where some computed lane meets it (R74). -/
theorem PathCtx.sets_of_raises {p : Nat → Prop} (hg : g.flags = c.g.flags ||| c.raised f sh op)
    (h : ∀ l, Raises fl (c.laneResult f sh op l).2 (p l)) : c.Sets g f fl p := by
  refine ⟨?_, fun hn => PathCtx.flags_kept hg fun l ha => (h l).2 (hn l ha)⟩
  rintro ⟨l, ha, hp⟩
  rw [hg, BitVec.and_or_distrib_right, PathCtx.raised_covers ha ((h l).1 hp)]
  exact BitVec.eq_of_getLsbD_eq fun k _ => by simp

/-- A computing form retires with its results in its destination and its lanes' flags raised. -/
theorem PathCtx.computeForm_done (h : c.Issues) (opc fn : Nat) (f : Fields) (sh : Shape) (u v w : Bool) (op : LaneFn) :
    ∃ g, computeForm c.s opc fn f sh u v w op = .next (c.done g) ∧ c.DestIs g f sh.d (fun l => (c.laneResult f sh op l).1) ∧
      g.flags = c.g.flags ||| c.raised f sh op := by
  rw [computeForm, onBoth_of h]
  unfold PathCtx.lanewise PathCtx.raised
  split
  next hu =>
    have hu : isUni f.d = true := by simp_all
    split
    · refine ⟨_, c.retire_eq f _, fun hd => ⟨fun h0 => ?_, fun _ _ => PathCtx.writeUniform_value hd⟩, ?_⟩
      · cases hu.symm.trans h0
      · simp [PathCtx.laneResult]
    next he =>
      refine ⟨_, c.retire_eq f _, fun _ => ⟨fun h0 => ?_, fun _ he' => absurd he' he⟩, by simp⟩
      cases hu.symm.trans h0
  next hu =>
    refine ⟨_, c.retire_eq f _, fun hd => ⟨fun _ l hl ha => ?_, fun h1 => absurd (by simp [h1, hd]) hu⟩, ?_⟩
    · rw [PathCtx.retired_laneNum, Group.laneNum_raise, PathCtx.writeLanes_value hd hl ha, PathCtx.results_getD hl,
        Nat.mod_eq_of_lt (emod_toNat_lt ..)]
    · simp

end
/-! Operands -/

/-- The result of a lane-wise form, of the lane's operands as the statements name them. -/
theorem PathCtx.laneResult_eq (c : PathCtx) (f : Fields) (sh : Shape) (op : LaneFn) (l : Nat) :
    c.laneResult f sh op l =
      op l (c.laneOp 0 f.sa sh.a l) (if f.useImm then sh.imm else c.laneOp 1 f.sb sh.b l) (c.laneOp 2 f.sc sh.c l) := by
  unfold PathCtx.laneResult PathCtx.operands
  cases f.useImm <;> rfl

theorem PathCtx.laneResult_typed (c : PathCtx) (f : Fields) (op : Int → Int → Int × FlagSet) (l : Nat) :
    c.laneResult f (intShape f) (typed f.ity op) l = op (c.intA f l) (c.intB f l) :=
  c.laneResult_eq ..

theorem PathCtx.laneResult_raw (c : PathCtx) (f : Fields) (op : Nat → Nat → Nat → Nat) (l : Nat) :
    c.laneResult f (intShape f) (raw op f.ity.width) l = (↑(op (c.natA f l) (c.natB f l) (c.natC f l)), 0) :=
  c.laneResult_eq ..

/-! Arithmetic (R93) -/

theorem satInt_raises (w : Nat) (sg : Bool) (x : Int) :
    Raises Flag.sat (satInt w sg x).2 (x < minInt w sg ∨ maxInt w sg < x) := by
  unfold satInt
  split
  next h => simp [Raises, h]
  next h =>
    split
    next h' => simp [Raises, h']
    next h' => exact .of_not (by simp [h, h']) (by simp)

theorem narrow_raises (sat : Bool) (w : Nat) (sg : Bool) (x : Int) :
    Raises Flag.sat (narrow sat w sg x).2 (sat = true ∧ (x < minInt w sg ∨ maxInt w sg < x)) := by
  cases sat with
  | false => exact .of_not (by simp) (by simp [narrow])
  | true => exact (satInt_raises w sg x).congr (by simp)

/-- `abs` and `neg` saturate with SAT, or set OVER for the most negative value. -/
theorem negLike_raises_sat (t : ITy) (sat : Bool) (a r : Int) :
    Raises Flag.sat (negLike t sat a r).2 (sat = true ∧ (r < minInt t.width t.signed ∨ maxInt t.width t.signed < r)) := by
  cases sat with
  | false => exact .of_not (by simp) (avoids_of_within (flagIf_within (fl := Flag.ovf) _ (by decide)) (by decide))
  | true => exact (satInt_raises ..).congr (by simp)

theorem negLike_raises_ovf (t : ITy) (sat : Bool) (a r : Int) :
    Raises Flag.ovf (negLike t sat a r).2 (sat = false ∧ a = -(2 ^ (t.width - 1))) := by
  cases sat with
  | true => exact .of_not (by simp) (avoids_of_within (satInt_within ..) (by decide))
  | false => exact (raises_flagIf Flag.ovf _).congr (by simp [minInt])

/-- What R93 asks of one form: the exact values `x` reduced to its width, the flags SAT and OVER where it says, and no other flag. -/
def PathCtx.ArithmeticDone (c : PathCtx) (f : Fields) (i : Instr) (n w : Nat) (sat : Bool) (x : Nat → Int) : Prop :=
  ∃ g r, exec i c.s = .next (c.done g) ∧ c.DestIs g f n r ∧ (∀ l, Reduces w f.ity.signed sat (x l) (r l)) ∧
    c.Sets g f Flag.sat (fun l => sat = true ∧ (x l < minInt w f.ity.signed ∨ maxInt w f.ity.signed < x l)) ∧
    c.Sets g f Flag.ovf (fun l => sat = false ∧ (i = .abs f ∨ i = .neg f) ∧ c.intA f l = -(2 ^ (w - 1))) ∧
    g.flags &&& ~~~(Flag.sat ||| Flag.ovf) = c.g.flags &&& ~~~(Flag.sat ||| Flag.ovf)

section

variable {c : PathCtx} {f : Fields} {i : Instr} {opc fn w : Nat} {sh : Shape} {u v z sat : Bool} {op : LaneFn} {x : Nat → Int}

/-- A computing form is done as R93 says when each lane's result and flags are as R93 says. -/
theorem PathCtx.arithmeticDone_of_lanes (h : c.Issues) (e : exec i c.s = computeForm c.s opc fn f sh u v z op)
    (hr : ∀ l, Reduces w f.ity.signed sat (x l) (c.laneResult f sh op l).1)
    (hs : ∀ l, Raises Flag.sat (c.laneResult f sh op l).2
      (sat = true ∧ (x l < minInt w f.ity.signed ∨ maxInt w f.ity.signed < x l)))
    (ho : ∀ l, Raises Flag.ovf (c.laneResult f sh op l).2
      (sat = false ∧ (i = .abs f ∨ i = .neg f) ∧ c.intA f l = -(2 ^ (w - 1))))
    (hk : ∀ l, (c.laneResult f sh op l).2 &&& ~~~(Flag.ovf ||| Flag.sat) = 0) : c.ArithmeticDone f i sh.d w sat x := by
  obtain ⟨g, e', d, hg⟩ := PathCtx.computeForm_done h opc fn f sh u v z op
  refine ⟨g, _, e.trans e', d, hr, PathCtx.sets_of_raises hg hs, PathCtx.sets_of_raises hg ho, ?_⟩
  rw [BitVec.or_comm]
  exact PathCtx.flags_kept hg fun l _ => hk l

/-- A form whose result is wrapped or, under `.sat`, clamped. -/
theorem PathCtx.narrowed_done (h : c.Issues) (e : exec i c.s = computeForm c.s opc fn f (intShape f) u v z op)
    (hi : ¬(i = .abs f ∨ i = .neg f)) (hx : ∀ l, c.laneResult f (intShape f) op l = narrowTy f (x l)) :
    c.ArithmeticDone f i f.ity.regs f.ity.width f.bit7 x := by
  refine PathCtx.arithmeticDone_of_lanes h e (fun l => ?_) (fun l => ?_) (fun l => .of_not (by simp [hi]) ?_) fun l => ?_ <;>
    rw [hx l, narrowTy]
  · exact narrow_reduces (ITy.width_pos f.ity) ..
  · exact narrow_raises ..
  · exact avoids_of_within (narrow_within ..) (by decide)
  · exact within_mono (narrow_within ..) (by decide)

/-- A form without `.sat` whose result raises no flag. -/
theorem PathCtx.plain_done (h : c.Issues) (e : exec i c.s = computeForm c.s opc fn f sh u v z op)
    (hi : ¬(i = .abs f ∨ i = .neg f))
    (hx : ∀ l, ∃ r, c.laneResult f sh op l = plain r ∧ Reduces w f.ity.signed false (x l) r) :
    c.ArithmeticDone f i sh.d w false x := by
  have hf (l : Nat) : (c.laneResult f sh op l).2 = 0 := by
    obtain ⟨r, er, -⟩ := hx l
    rw [er, plain]
  refine PathCtx.arithmeticDone_of_lanes h e (fun l => ?_) (fun l => .of_not (by simp) ?_) (fun l => .of_not (by simp [hi]) ?_)
    fun l => ?_
  · obtain ⟨r, er, hr⟩ := hx l
    rwa [er]
  all_goals simp [hf l]

/-- `abs` and `neg`. -/
theorem PathCtx.negated_done (h : c.Issues) (e : exec i c.s = computeForm c.s opc fn f (intShape f) u v z op)
    (hi : i = .abs f ∨ i = .neg f) (hx : ∀ l, c.laneResult f (intShape f) op l = negLike f.ity f.bit7 (c.intA f l) (x l)) :
    c.ArithmeticDone f i f.ity.regs f.ity.width f.bit7 x := by
  refine PathCtx.arithmeticDone_of_lanes h e (fun l => ?_) (fun l => ?_) (fun l => ?_) fun l => ?_ <;> rw [hx l]
  · exact negLike_reduces (ITy.width_pos f.ity) ..
  · exact negLike_raises_sat ..
  · exact (negLike_raises_ovf ..).congr (by simp [hi])
  · exact negLike_within ..

end

theorem floorShift_eq_ediv (x : Int) (n : Nat) : floorShift x n = x / 2 ^ n := by
  simp [floorShift, Int.shiftRight_eq_div_pow]

theorem PathCtx.intA_range (c : PathCtx) (f : Fields) (l : Nat) :
    minInt f.ity.width f.ity.signed ≤ c.intA f l ∧ c.intA f l ≤ maxInt f.ity.width f.ity.signed :=
  readTy_range (ITy.width_pos f.ity) _

theorem PathCtx.intB_range (c : PathCtx) (f : Fields) (l : Nat) :
    minInt f.ity.width f.ity.signed ≤ c.intB f l ∧ c.intB f l ≤ maxInt f.ity.width f.ity.signed :=
  readTy_range (ITy.width_pos f.ity) _

theorem PathCtx.mulhi_reduces (c : PathCtx) (f : Fields) (l : Nat) :
    Reduces f.ity.width f.ity.signed false (c.intA f l * c.intB f l / 2 ^ f.ity.width) (mulHi f.ity (c.intA f l) (c.intB f l)) := by
  rw [mulHi, floorShift_eq_ediv]
  exact wrapInt_reduces (ITy.width_pos f.ity) ..

theorem wrapWide_reduces (f : Fields) (x : Int) :
    ∃ r, wrapWide f x = plain r ∧ Reduces (2 * f.ity.width) f.ity.signed false x r :=
  ⟨_, rfl, wrapInt_reduces (Nat.mul_pos Nat.two_pos (ITy.width_pos f.ity)) ..⟩

/-- The forms of R93 are of three kinds: those that narrow an exact result, `abs` and `neg`, and those that raise no flag, because
the result lies in the range or always wraps. -/
theorem PathCtx.arithmetic_done {c : PathCtx} (h : c.Issues) (f : Fields) :
    ∀ e ∈ arithmetic c f, c.ArithmeticDone f e.1 e.2.1 e.2.2.1 e.2.2.2.1 e.2.2.2.2 := by
  simp only [arithmetic, List.forall_mem_cons, List.not_mem_nil, false_imp_iff, implies_true, and_true]
  refine ⟨?add, ?sub, ?min, ?max, ?abs, ?neg, ?mul, ?mulhi, ?mulw, ?mad, ?madw⟩
  case add => exact PathCtx.narrowed_done h (exec_add f c.s) (by simp) fun l => c.laneResult_typed ..
  case sub => exact PathCtx.narrowed_done h (exec_sub f c.s) (by simp) fun l => c.laneResult_typed ..
  case mul => exact PathCtx.narrowed_done h (exec_mul f c.s) (by simp) fun l => c.laneResult_typed ..
  case mad => exact PathCtx.narrowed_done h (exec_mad f c.s) (by simp) fun l => c.laneResult_eq ..
  case abs => exact PathCtx.negated_done h (exec_abs f c.s) (.inl rfl) fun l => c.laneResult_typed ..
  case neg => exact PathCtx.negated_done h (exec_neg f c.s) (.inr rfl) fun l => c.laneResult_typed ..
  case min =>
    refine PathCtx.plain_done h (exec_min f c.s) (by simp) fun l => ⟨_, c.laneResult_typed .., ?_⟩
    have ha := c.intA_range f l
    have hb := c.intB_range f l
    rw [show (if c.intA f l < c.intB f l then c.intA f l else c.intB f l) = min (c.intA f l) (c.intB f l) by omega]
    exact reduces_self (by omega)
  case max =>
    refine PathCtx.plain_done h (exec_max f c.s) (by simp) fun l => ⟨_, c.laneResult_typed .., ?_⟩
    have ha := c.intA_range f l
    have hb := c.intB_range f l
    rw [show (if c.intB f l < c.intA f l then c.intA f l else c.intB f l) = max (c.intA f l) (c.intB f l) by omega]
    exact reduces_self (by omega)
  case mulhi => exact PathCtx.plain_done h (exec_mulhi f c.s) (by simp) fun l => ⟨_, c.laneResult_typed .., c.mulhi_reduces f l⟩
  case mulw =>
    refine PathCtx.plain_done h (exec_mulw f c.s) (by simp) fun l => ?_
    rw [c.laneResult_eq]
    exact wrapWide_reduces f (c.intA f l * c.intB f l)
  case madw =>
    refine PathCtx.plain_done h (exec_madw f c.s) (by simp) fun l => ?_
    rw [c.laneResult_eq]
    exact wrapWide_reduces f (c.intA f l * c.intB f l + c.intWideC f l)

/-- Settles O2, from the three kinds of the forms of R93. -/
theorem arithmeticResults : Obligations.ArithmeticResults := by
  unfold Obligations.ArithmeticResults
  exact fun c f i n w sat x h hm => PathCtx.arithmetic_done h f _ hm

/-! Logic (R97) -/

theorem lop3Nat_succ (lut w a b d : Nat) :
    lop3Nat lut (w + 1) a b d =
      if lut.testBit (4 * (a.testBit w).toNat + 2 * (b.testBit w).toNat + (d.testBit w).toNat) then lop3Nat lut w a b d + 2 ^ w
      else lop3Nat lut w a b d := by
  simp only [lop3Nat, List.range_succ, List.foldl_append, List.foldl_cons, List.foldl_nil, Nat.toNat_testBit]

theorem lop3Nat_lt (lut w a b d : Nat) : lop3Nat lut w a b d < 2 ^ w := by
  induction w with
  | zero => exact Nat.one_pos
  | succ w ih =>
    rw [lop3Nat_succ, Nat.pow_succ]
    split <;> omega

/-- Bit `k` of `lop3` is the table bit that the sources' bits `k` select. -/
theorem lop3Nat_testBit (lut w a b d k : Nat) :
    (lop3Nat lut w a b d).testBit k =
      (decide (k < w) && lut.testBit (4 * (a.testBit k).toNat + 2 * (b.testBit k).toNat + (d.testBit k).toNat)) := by
  induction w with
  | zero => simp [lop3Nat]
  | succ w ih =>
    have top : (lop3Nat lut w a b d).testBit w = false := Nat.testBit_lt_two_pow (lop3Nat_lt ..)
    rw [lop3Nat_succ]
    rcases Nat.lt_trichotomy k w with hk | rfl | hk
    · rw [show decide (k < w + 1) = decide (k < w) by simp [hk, Nat.lt_succ_of_lt hk], ← ih]
      split
      · rw [Nat.add_comm, Nat.testBit_two_pow_add_gt hk]
      · rfl
    · split
      next h => rw [Nat.add_comm, Nat.testBit_two_pow_add_eq, top, h]; simp
      next h => rw [top, eq_false_of_ne_true h, Bool.and_false]
    · rw [← lop3Nat_succ, Nat.testBit_lt_two_pow, decide_eq_false (by omega), Bool.false_and]
      exact Nat.lt_of_lt_of_le (lop3Nat_lt ..) (Nat.pow_le_pow_right Nat.two_pos hk)

/-- A value of the type's width fits its registers, and a uniform register. -/
theorem ITy.width_le (t : ITy) : t.width ≤ 32 * t.regs ∧ t.width ≤ 64 := by cases t <;> decide

/-- The bits of a destination that holds unsigned numbers of the type's width. -/
theorem PathCtx.DestIs.bits {c : PathCtx} {g : Group} {f : Fields} {r : Nat → Nat} (d : c.DestIs g f f.ity.regs fun l => r l)
    (hd : f.dead = false) (hr : ∀ l, r l < 2 ^ f.ity.width) :
    (isUni f.d = false → ∀ l < 32, (c.active f).getLsbD l = true →
      ∀ k, (g.laneNum f.d.toNat l f.ity.regs).testBit k = (r l).testBit k) ∧
    (isUni f.d = true → c.effect f = true → ∀ k, (g.uniOf (f.d.toNat - 0xC0)).getLsbD k = (r 0).testBit k) := by
  obtain ⟨dv, du⟩ := d hd
  obtain ⟨h32, h64⟩ := ITy.width_le f.ity
  have fits {n : Nat} (hn : f.ity.width ≤ n) (l : Nat) : r l % 2 ^ n = r l :=
    Nat.mod_eq_of_lt (Nat.lt_of_lt_of_le (hr l) (Nat.pow_le_pow_right Nat.two_pos hn))
  refine ⟨fun hu l hl ha k => ?_, fun hu he k => ?_⟩
  · have hm : ((r l : Int) % 2 ^ (32 * f.ity.regs)).toNat = r l % 2 ^ (32 * f.ity.regs) := by norm_cast
    exact congrArg (Nat.testBit · k) ((dv hu l hl ha).trans (hm.trans (fits h32 l)))
  · rw [du hu he, BitVec.ofInt_natCast, ← BitVec.testBit_toNat, BitVec.toNat_ofNat, fits h64]

/-- What R97 asks of one logic form: each bit of the result is `op` of the bits of the sources, and none stands above the width. -/
def PathCtx.BitwiseDone (c : PathCtx) (f : Fields) (i : Instr) (op : Bool → Bool → Bool → Bool) : Prop :=
  let bit (l k : Nat) : Bool :=
    decide (k < f.ity.width) && op ((c.natA f l).testBit k) ((c.natB f l).testBit k) ((c.natC f l).testBit k)
  ∃ g, exec i c.s = .next (c.done g) ∧
    (isUni f.d = false → ∀ l < 32, (c.active f).getLsbD l = true →
      ∀ k, (g.laneNum f.d.toNat l f.ity.regs).testBit k = bit l k) ∧
    (isUni f.d = true → c.effect f = true → ∀ k, (g.uniOf (f.d.toNat - 0xC0)).getLsbD k = bit 0 k)

/-- A form on unsigned operands is done bit by bit when its function acts bit by bit on numbers of the type's width. -/
theorem PathCtx.bitwiseDone_of_raw {c : PathCtx} (h : c.Issues) {f : Fields} (hd : f.dead = false) {i : Instr} {opc fn : Nat}
    {u v z : Bool} {op : Nat → Nat → Nat → Nat} {bop : Bool → Bool → Bool → Bool}
    (e : exec i c.s = computeForm c.s opc fn f (intShape f) u v z (raw op f.ity.width))
    (hop : ∀ a b d k, a < 2 ^ f.ity.width → b < 2 ^ f.ity.width →
      (op a b d).testBit k = (decide (k < f.ity.width) && bop (a.testBit k) (b.testBit k) (d.testBit k))) :
    c.BitwiseDone f i bop := by
  obtain ⟨g, e', d, -⟩ := PathCtx.computeForm_done h opc fn f (intShape f) u v z (raw op f.ity.width)
  simp only [PathCtx.laneResult_raw] at d
  have hbit (l k : Nat) := hop (c.natA f l) (c.natB f l) (c.natC f l) k
    (Nat.mod_lt _ (Nat.two_pow_pos _)) (Nat.mod_lt _ (Nat.two_pow_pos _))
  obtain ⟨bv, bu⟩ := PathCtx.DestIs.bits (r := fun l => op (c.natA f l) (c.natB f l) (c.natC f l)) d hd fun l =>
    Nat.lt_pow_two_of_testBit _ fun k hk => by rw [hbit l k, decide_eq_false (by omega), Bool.false_and]
  exact ⟨g, e.trans e', fun hu l hl ha k => (bv hu l hl ha k).trans (hbit l k), fun hu he k => (bu hu he k).trans (hbit 0 k)⟩

/-- A bit of a number below `2 ^ w` lies below `w`. -/
theorem testBit_eq_lt_and {a w : Nat} (ha : a < 2 ^ w) (k : Nat) : a.testBit k = (decide (k < w) && a.testBit k) := by
  rw [← Nat.testBit_mod_two_pow, Nat.mod_eq_of_lt ha]

/-- `not` is the one form whose zero bits above the width do not come from its sources. -/
theorem not_testBit {a w : Nat} (ha : a < 2 ^ w) (k : Nat) : (2 ^ w - 1 - a).testBit k = (decide (k < w) && !a.testBit k) := by
  rw [Nat.sub_sub, Nat.add_comm, Nat.testBit_two_pow_sub_succ ha]

theorem PathCtx.bitwise_done {c : PathCtx} (h : c.Issues) {f : Fields} (hd : f.dead = false) :
    ∀ e ∈ bitwise f, c.BitwiseDone f e.1 e.2 := by
  simp only [bitwise, List.forall_mem_cons, List.not_mem_nil, false_imp_iff, implies_true, and_true]
  refine ⟨?and, ?or, ?xor, ?not, ?lop3⟩
  case and =>
    exact PathCtx.bitwiseDone_of_raw h hd (exec_and f c.s) fun a b _ k _ hb =>
      (testBit_eq_lt_and (Nat.and_lt_two_pow a hb) k).trans (congrArg _ (Nat.testBit_and a b k))
  case or =>
    exact PathCtx.bitwiseDone_of_raw h hd (exec_or f c.s) fun a b _ k ha hb =>
      (testBit_eq_lt_and (Nat.or_lt_two_pow ha hb) k).trans (congrArg _ (Nat.testBit_or a b k))
  case xor =>
    exact PathCtx.bitwiseDone_of_raw h hd (exec_xor f c.s) fun a b _ k ha hb =>
      (testBit_eq_lt_and (Nat.xor_lt_two_pow ha hb) k).trans (congrArg _ (Nat.testBit_xor a b k))
  case not => exact PathCtx.bitwiseDone_of_raw h hd (exec_not f c.s) fun a _ _ k ha _ => not_testBit ha k
  case lop3 => exact PathCtx.bitwiseDone_of_raw h hd (exec_lop3 f c.s) fun a b d k _ _ => lop3Nat_testBit ..

/-! Shifts and division (R95, R98) -/

/-- What R95 and R98 ask of the result of one shift or division: `x l` in each lane. -/
def PathCtx.ShiftDone (c : PathCtx) (f : Fields) (i : Instr) (x : Nat → Int) : Prop :=
  ∃ g, exec i c.s = .next (c.done g) ∧ c.DestIs g f f.ity.regs x

theorem PathCtx.shiftDone_of_lanes {c : PathCtx} (h : c.Issues) {f : Fields} {i : Instr} {opc fn : Nat} {sh : Shape} {u v z : Bool}
    {op : LaneFn} {x : Nat → Int} (e : exec i c.s = computeForm c.s opc fn f sh u v z op) (hs : sh.d = f.ity.regs)
    (hx : ∀ l, (op l (c.laneOp 0 f.sa sh.a l)
      (if f.useImm then sh.imm else c.laneOp 1 f.sb sh.b l) (c.laneOp 2 f.sc sh.c l)).1 = x l) :
    c.ShiftDone f i x := by
  obtain ⟨g, e', d, -⟩ := PathCtx.computeForm_done h opc fn f sh u v z op
  simp only [hs, c.laneResult_eq, hx] at d
  exact ⟨g, e.trans e', d⟩

theorem natCast_shlNat (w a n : Nat) : (shlNat w a n : Int) = if w ≤ n then 0 else (a : Int) * 2 ^ n % 2 ^ w := by
  push_cast [shlNat]; rfl

theorem natCast_shrNat (w a n : Nat) : (shrNat w a n : Int) = if w ≤ n then 0 else (a : Int) / 2 ^ n := by
  push_cast [shrNat]; rfl

theorem natCast_fshlNat (w a b n : Nat) : (fshlNat w a b n : Int) = ((a : Int) * 2 ^ w + b) * 2 ^ (n % w) / 2 ^ w % 2 ^ w := by
  push_cast [fshlNat]; rfl

theorem natCast_fshrNat (w a b n : Nat) : (fshrNat w a b n : Int) = ((a : Int) * 2 ^ w + b) / 2 ^ (n % w) % 2 ^ w := by
  push_cast [fshrNat]; rfl

theorem divInt_fst (t : ITy) (a b : Int) :
    (divInt t a b).1 = if b = 0 then 0 else if t.signed && a == -(2 ^ (t.width - 1)) && b == -1 then a else a.tdiv b := by
  simp only [divInt, minInt, if_true, apply_ite Prod.fst]

theorem remInt_fst (t : ITy) (a b : Int) :
    (remInt t a b).1 = if b = 0 then 0 else if t.signed && a == -(2 ^ (t.width - 1)) && b == -1 then 0 else a.tmod b := by
  simp only [remInt, minInt, if_true, apply_ite Prod.fst]

theorem PathCtx.shifts_done {c : PathCtx} (h : c.Issues) (f : Fields) : ∀ e ∈ shiftsAndDivision c f, c.ShiftDone f e.1 e.2 := by
  simp only [shiftsAndDivision, List.forall_mem_cons, List.not_mem_nil, false_imp_iff, implies_true, and_true]
  refine ⟨?shl, ?shr, ?sar, ?fshl, ?fshr, ?div, ?rem⟩
  case shl => exact PathCtx.shiftDone_of_lanes h (exec_shl f c.s) rfl fun l => natCast_shlNat f.ity.width (c.natA f l) (c.countB f l)
  case shr => exact PathCtx.shiftDone_of_lanes h (exec_shr f c.s) rfl fun l => natCast_shrNat f.ity.width (c.natA f l) (c.countB f l)
  case sar => exact PathCtx.shiftDone_of_lanes h (exec_sar f c.s) rfl fun l => floorShift_eq_ediv (c.intA f l) _
  case fshl =>
    exact PathCtx.shiftDone_of_lanes h (exec_fshl f c.s) rfl fun l =>
      natCast_fshlNat f.ity.width (c.natA f l) (c.natB f l) (c.countC f l)
  case fshr =>
    exact PathCtx.shiftDone_of_lanes h (exec_fshr f c.s) rfl fun l =>
      natCast_fshrNat f.ity.width (c.natA f l) (c.natB f l) (c.countC f l)
  case div => exact PathCtx.shiftDone_of_lanes h (exec_div f c.s) rfl fun l => divInt_fst f.ity (c.intA f l) (c.intB f l)
  case rem => exact PathCtx.shiftDone_of_lanes h (exec_rem f c.s) rfl fun l => remInt_fst f.ity (c.intA f l) (c.intB f l)

/-! The flags of division (R95) -/

theorem divInt_raises_div (t : ITy) (a b : Int) : Raises Flag.div (divInt t a b).2 (b = 0) := by
  unfold divInt
  split
  next h => simp [Raises, h]
  next h =>
    refine .of_not h ?_
    split <;> simp

/-- Only the most negative value divided by −1 overflows. -/
theorem divInt_raises_ovf (t : ITy) (a b : Int) :
    Raises Flag.ovf (divInt t a b).2 (t.signed = true ∧ a = -(2 ^ (t.width - 1)) ∧ b = -1) := by
  unfold divInt
  split
  next h => exact .of_not (by omega) (by decide)
  next h =>
    split
    next ho => exact ⟨fun _ => by simp, fun hn => absurd (by simpa [minInt, and_assoc] using ho) hn⟩
    next ho => exact .of_not (by simpa [minInt, and_assoc] using ho) (by simp)

theorem remInt_raises_div (t : ITy) (a b : Int) : Raises Flag.div (remInt t a b).2 (b = 0) := by
  unfold remInt
  split
  next h => simp [Raises, h]
  next h =>
    refine .of_not h ?_
    split <;> simp

/-- What R95 asks of the flags of `div` and `rem`. -/
def PathCtx.DivisionFlags (c : PathCtx) (f : Fields) (i : Instr) : Prop :=
  ∃ g, exec i c.s = .next (c.done g) ∧
    c.Sets g f Flag.div (fun l => c.intB f l = 0) ∧
    c.Sets g f Flag.ovf (fun l => i = .div f ∧ f.ity.signed = true ∧ c.intA f l = -(2 ^ (f.ity.width - 1)) ∧ c.intB f l = -1) ∧
    g.flags &&& ~~~(Flag.div ||| Flag.ovf) = c.g.flags &&& ~~~(Flag.div ||| Flag.ovf)

theorem PathCtx.divisionFlags_of_lanes {c : PathCtx} (h : c.Issues) {f : Fields} {i : Instr} {opc fn : Nat} {u v z : Bool}
    {op : Int → Int → Int × FlagSet} (e : exec i c.s = computeForm c.s opc fn f (intShape f) u v z (typed f.ity op))
    (hz : ∀ a b, Raises Flag.div (op a b).2 (b = 0))
    (ho : ∀ a b, Raises Flag.ovf (op a b).2 (i = .div f ∧ f.ity.signed = true ∧ a = -(2 ^ (f.ity.width - 1)) ∧ b = -1))
    (hk : ∀ a b, (op a b).2 &&& ~~~(Flag.div ||| Flag.ovf) = 0) : c.DivisionFlags f i := by
  obtain ⟨g, e', -, hg⟩ := PathCtx.computeForm_done h opc fn f (intShape f) u v z (typed f.ity op)
  refine ⟨g, e.trans e', PathCtx.sets_of_raises hg fun l => ?_, PathCtx.sets_of_raises hg fun l => ?_,
    PathCtx.flags_kept hg fun l _ => ?_⟩ <;> rw [c.laneResult_typed]
  · exact hz ..
  · exact ho ..
  · exact hk ..

theorem PathCtx.div_flags {c : PathCtx} (h : c.Issues) (f : Fields) : c.DivisionFlags f (.div f) :=
  PathCtx.divisionFlags_of_lanes h (exec_div f c.s) (divInt_raises_div f.ity)
    (fun a b => (divInt_raises_ovf f.ity a b).congr (by simp)) (divInt_within f.ity)

theorem PathCtx.rem_flags {c : PathCtx} (h : c.Issues) (f : Fields) : c.DivisionFlags f (.rem f) :=
  PathCtx.divisionFlags_of_lanes h (exec_rem f c.s) (remInt_raises_div f.ity)
    (fun a b => .of_not (by simp) (avoids_of_within (remInt_within f.ity a b) (by decide)))
    fun a b => within_mono (remInt_within f.ity a b) (by decide)

/-- Settles O9: the logic forms bit by bit, then the results of the shifts and of division, then the flags of division. -/
theorem bitwiseShiftAndDivisionResults : Obligations.BitwiseShiftAndDivisionResults := by
  unfold Obligations.BitwiseShiftAndDivisionResults
  intro c f h
  refine ⟨fun i op hd hm => PathCtx.bitwise_done h hd _ hm, fun i x hm => PathCtx.shifts_done h f _ hm, ?_⟩
  intro i hi
  rcases List.mem_pair.mp hi with rfl | rfl
  · exact PathCtx.div_flags h f
  · exact PathCtx.rem_flags h f

/-! Decoding a word that is assembled from its fields (R22, R39) -/

theorem opcOf_assemble (opc fn : Nat) (f : Fields) : opcOf (assemble opc fn f) = BitVec.ofNat 8 opc := by
  simp (disch := decide) only [opcOf, assemble, BitVec.extractLsb'_append_eq_of_le, Nat.reduceSub, BitVec.extractLsb'_eq_self]

theorem fnOf_assemble (opc fn : Nat) (f : Fields) : fnOf (assemble opc fn f) = BitVec.ofNat 6 fn := by
  simp (disch := decide) only [fnOf, assemble, BitVec.extractLsb'_append_eq_of_le, BitVec.extractLsb'_append_eq_of_add_le,
    Nat.reduceSub, BitVec.extractLsb'_eq_self]

theorem fieldsOf_assemble (opc fn : Nat) (f : Fields) : fieldsOf (assemble opc fn f) = f := by
  simp (disch := decide) only [fieldsOf, assemble, BitVec.extractLsb'_append_eq_of_le, BitVec.extractLsb'_append_eq_of_add_le,
    BitVec.extractLsb'_eq_self, BitVec.getLsbD_append, BitVec.getLsbD_ofBool, Nat.reduceSub, Nat.reduceLT, if_true, if_false,
    decide_true, Bool.true_and]

section

variable {st : Stream} {opc fn : Nat} {f : Fields}

/-- Only a word of OPC 0xFF can be the fill pattern. -/
theorem assemble_ne_fill (ho : opc < 255) : assemble opc fn f ≠ BitVec.allOnes 96 := by
  intro e
  have h : BitVec.ofNat 8 opc = 255 := (opcOf_assemble opc fn f).symm.trans (congrArg opcOf e)
  have h' := congrArg BitVec.toNat h
  rw [BitVec.toNat_ofNat, Nat.mod_eq_of_lt (by omega)] at h'
  exact absurd h' (by simpa using Nat.ne_of_lt ho)

/-- A word whose fields have a cause is illegal with that cause. -/
theorem decode_of_illegal {k : BitVec 4} (ho : opc < 255) (hf : fn < 64) (h : illegalCause st opc fn f = some k) :
    decode st (assemble opc fn f) = .error (.illegal k) := by
  have hopc : opc % 2 ^ 8 = opc := Nat.mod_eq_of_lt (by omega)
  have hfn : fn % 2 ^ 6 = fn := Nat.mod_eq_of_lt (by omega)
  rw [decode, if_neg (assemble_ne_fill ho)]
  simp only [opcOf_assemble, fnOf_assemble, fieldsOf_assemble, BitVec.toNat_ofNat, hopc, hfn, h]

theorem legal_of_decode {x : Instr} (ho : opc < 255) (hf : fn < 64) (h : decode st (assemble opc fn f) = .ok x) :
    illegalCause st opc fn f = none := by
  cases hc : illegalCause st opc fn f with
  | none => rfl
  | some k => cases (decode_of_illegal ho hf hc).symm.trans h

theorem cause2_cause3_of_legal {p : FormSpec} (hp : formSpec opc fn f = some (some p)) (h : illegalCause st opc fn f = none) :
    cause2 st opc p f = false ∧ cause3 st opc fn p f = false := by
  simp only [illegalCause, hp] at h
  split at h
  · cases h
  next h2 =>
    split at h
    · cases h
    next h3 => exact ⟨eq_false_of_ne_true h2, eq_false_of_ne_true h3⟩

theorem illegalCause_eq_four {p : FormSpec} (hp : formSpec opc fn f = some (some p)) (h2 : cause2 st opc p f = false)
    (h3 : cause3 st opc fn p f = false) (h4 : cause4 st p f = true) : illegalCause st opc fn f = some 4 := by
  simp only [illegalCause, hp, h2, h3, h4, Bool.false_eq_true, if_false, if_true]

end

/-! The words of `addc` and `subb` (R92, R94) -/

/-- What the opcode map lets a carry form hold: SC names a predicate that is written. -/
def carrySpec (f : Fields) : FormSpec :=
  { modOk := intMod f (f.ity == .z32 || f.ity == .z64) false, d := [.vec f.ity.regs], sa := [.vec f.ity.regs], sb := vg f.ity.regs,
    sc := [.predW], immSb := true, immOk := f.immTyped f.ity, use := .both }

theorem formSpec_carry {fn : Nat} (hn : fn = 2 ∨ fn = 3) (f : Fields) : formSpec 0x10 fn f = some (some (carrySpec f)) := by
  rcases hn with rfl | rfl <;> rfl

/-- Cause 3 does not look at which predicate SC names. -/
theorem cause3_carry_sc (fn : Nat) (f : Fields) (sc : BitVec 8) :
    cause3 .group 0x10 fn (carrySpec f) { f with sc := sc } = cause3 .group 0x10 fn (carrySpec f) f := by
  simp [cause3, carrySpec, slotUseOk, slotIsVec]

/-- The predicate p7 cannot be written (R39). -/
theorem cause4_carry_p7 {f : Fields} (h : f.sc = 7) : cause4 .group (carrySpec f) f = true := by
  have hk : slotKindOk .group [.predW] f.sc = false := by rw [h]; rfl
  simp [cause4, carrySpec, hk]

theorem illegalCause_carry_p7 {fn : Nat} (hn : fn = 2 ∨ fn = 3) {f : Fields} (h7 : f.sc = 7)
    (h : illegalCause .group 0x10 fn { f with sc := 0 } = none) : illegalCause .group 0x10 fn f = some 4 := by
  obtain ⟨h2, h3⟩ := cause2_cause3_of_legal (formSpec_carry hn { f with sc := 0 }) h
  exact illegalCause_eq_four (formSpec_carry hn f) h2 ((cause3_carry_sc fn f 0).symm.trans h3) (cause4_carry_p7 h7)

theorem decode_carry_p7 {fn : Nat} (hn : fn = 2 ∨ fn = 3) {f : Fields} (h7 : f.sc = 7) {x : Instr}
    (h : decode .group (assemble 0x10 fn { f with sc := 0 }) = .ok x) : decode .group (assemble 0x10 fn f) = .error (.illegal 4) :=
  decode_of_illegal (by decide) (by omega) (illegalCause_carry_p7 hn h7 (legal_of_decode (by decide) (by omega) h))

/-! What a carry form writes (R94) -/

/-- The exact sum or difference of a lane, with its carry in. -/
def PathCtx.carryResult (c : PathCtx) (f : Fields) (op : Int → Int → Int → Int) (l : Nat) : Int :=
  op (c.intA f l) (c.intB f l) (if (c.pred 2 f.sc.toNat).getLsbD l then 1 else 0)

/-- The group after the vector write of a carry form. -/
def PathCtx.carryLanes (c : PathCtx) (fn : Nat) (f : Fields) (op : Int → Int → Int → Int) : Group :=
  c.writeLanes 0x10 fn f (c.active f) ((intShape f).sources f true true false) f.ity.regs
    fun l => (c.carryResult f op l % 2 ^ f.ity.width).toNat

/-- The group after both writes of a carry form. -/
def PathCtx.carryGroup (c : PathCtx) (fn : Nat) (f : Fields) (op : Int → Int → Int → Int) (out : Int → Bool) : Group :=
  if f.dead then c.carryLanes fn f op
  else ((c.carryLanes fn f op).writePred f.sc.toNat (c.active f) (maskOf fun l => out (c.carryResult f op l))).note c.g
    [Reg.p f.sc.toNat] 4

section

variable {c : PathCtx} {fn : Nat} {f : Fields} {op : Int → Int → Int → Int} {out : Int → Bool}

theorem carryForm_eq (h : c.Issues) : carryForm c.s fn f op out = c.retire f (c.carryGroup fn f op out) := by
  rw [carryForm, onBoth_of h]
  unfold PathCtx.carryGroup PathCtx.carryLanes PathCtx.carryResult PathCtx.operands PathCtx.intB
  cases f.useImm <;> rfl

theorem PathCtx.carryLanes_frame (ps : List Nat) :
    c.g.Frame (c.carryLanes fn f op) c.pi (lrRegs 0x10 fn f ++ destRun f f.ity.regs) [] ps 0 :=
  (PathCtx.writeLanes_frame ..).mono (fun _ h => h) (fun _ h => h) (by simp) fun _ h => h

theorem PathCtx.carryGroup_frame :
    c.g.Frame (c.carryGroup fn f op out) c.pi (lrRegs 0x10 fn f ++ destRun f f.ity.regs) [] [f.sc.toNat] 0 := by
  unfold PathCtx.carryGroup
  split
  · exact PathCtx.carryLanes_frame _
  · exact ((PathCtx.carryLanes_frame _).writePred (by simp)).note ..

/-- The write of the carry out leaves the vector registers. -/
theorem PathCtx.carryGroup_lanesOf (r : Nat) : (c.carryGroup fn f op out).lanesOf r = (c.carryLanes fn f op).lanesOf r := by
  unfold PathCtx.carryGroup
  split <;> rfl

theorem PathCtx.carryGroup_laneNum (r l n : Nat) : (c.carryGroup fn f op out).laneNum r l n = (c.carryLanes fn f op).laneNum r l n :=
  Group.laneNum_congr fun _ _ _ => by rw [PathCtx.carryGroup_lanesOf]

/-- Under a dead result the carry out is not written. -/
theorem PathCtx.carryGroup_predOf_dead (hd : f.dead = true) (n : Nat) : (c.carryGroup fn f op out).predOf n = c.g.predOf n := by
  rw [PathCtx.carryGroup, if_pos hd]
  exact (PathCtx.carryLanes_frame []).predicates n (by simp)

/-- The carry out goes into lanes of A of the predicate. -/
theorem PathCtx.carryGroup_predOf (hd : f.dead = false) (hn : f.sc.toNat < 7) {l : Nat} (hl : l < 32) :
    ((c.carryGroup fn f op out).predOf f.sc.toNat).getLsbD l =
      if (c.active f).getLsbD l then out (c.carryResult f op l) else (c.g.predOf f.sc.toNat).getLsbD l := by
  have hp : (c.carryLanes fn f op).predOf f.sc.toNat = c.g.predOf f.sc.toNat := (PathCtx.carryLanes_frame []).predicates _ (by simp)
  rw [PathCtx.carryGroup, if_neg (by simp [hd]), Group.predOf_note, Group.predOf, Group.writePred_getD, if_pos ⟨rfl, hn⟩,
    ← Group.predOf, hp]
  simp only [BitVec.getLsbD_or, BitVec.getLsbD_and, BitVec.getLsbD_not, maskOf_getLsbD _ l hl, hl, decide_true, Bool.true_and]
  cases (c.active f).getLsbD l <;> simp

/-- What R94 asks of one carry form: its frame, the result `r` in lanes of A, the carry `out` in the predicate, and neither under a
dead result (R28). -/
def PathCtx.CarryDone (c : PathCtx) (f : Fields) (i : Instr) (r : Nat → Int) (out : Int → Bool) : Prop :=
  ∃ g, exec i c.s = .next (c.done g) ∧
    c.Kept g (nextSlot c.p.pc) (freed i ++ destRun f f.ity.regs) [] [f.sc.toNat] 0 ∧
    c.LanesKept g (c.active f) (destKept (freed i) f f.ity.regs) ∧
    (f.dead = false → ∀ l < 32, (c.active f).getLsbD l = true →
      (g.laneNum f.d.toNat l f.ity.regs : Int) = r l % 2 ^ f.ity.width % 2 ^ (32 * f.ity.regs)) ∧
    (f.dead = true → ∀ n, g.predOf n = c.g.predOf n) ∧
    (f.dead = false → f.sc.toNat < 7 → ∀ l < 32, (g.predOf f.sc.toNat).getLsbD l =
      if (c.active f).getLsbD l then out (r l) else (c.g.predOf f.sc.toNat).getLsbD l)

theorem PathCtx.carry_done (h : c.Issues) {i : Instr} (e : exec i c.s = carryForm c.s fn f op out)
    (hi : freed i = lrRegs 0x10 fn f) :
    c.CarryDone f i (c.carryResult f op) out := by
  rw [PathCtx.CarryDone, e, carryForm_eq h, hi]
  refine ⟨_, c.retire_eq f _, PathCtx.retired_kept h PathCtx.carryGroup_frame, fun r hr l hl hm => ?_, fun hd l hl hm => ?_,
    fun hd n => PathCtx.carryGroup_predOf_dead hd n, fun hd hn l hl => PathCtx.carryGroup_predOf hd hn hl⟩
  · rw [PathCtx.retired_lanesOf, PathCtx.carryGroup_lanesOf]
    exact PathCtx.writeLanes_kept _ _ _ _ r hr l hl hm
  · have hp : (0 : Int) ≤ c.carryResult f op l % 2 ^ f.ity.width := Int.emod_nonneg _ (two_pow_pos_int _).ne'
    have hv : (c.carryLanes fn f op).laneNum f.d.toNat l f.ity.regs = _ := PathCtx.writeLanes_value hd hl hm
    rw [PathCtx.retired_laneNum, PathCtx.carryGroup_laneNum, hv, Int.natCast_emod,
      Int.toNat_of_nonneg hp]
    norm_cast

end

/-- Settles O7: a word's cause from its form in the opcode map, and what either form writes from what both share. -/
theorem carryResults : Obligations.CarryResults := by
  unfold Obligations.CarryResults
  refine ⟨fun mk f w w' x hmk h7 hw hw' hx => ?illegal, fun c f i op out h hm => ?writes⟩
  case illegal =>
    rcases List.mem_pair.mp hmk with rfl | rfl
    · cases hw; cases hw'
      exact decode_carry_p7 (.inl rfl) h7 hx
    · cases hw; cases hw'
      exact decode_carry_p7 (.inr rfl) h7 hx
  case writes =>
    rcases List.mem_pair.mp hm with hm | hm <;> cases hm
    · exact PathCtx.carry_done h (exec_addc f c.s) rfl
    · exact PathCtx.carry_done h (exec_subb f c.s) rfl

end Sys2Proof.Machine

/-! Control flow (O12, O13, O16): what a trace packet and a fusion leave, where a traced transfer leaves its path, paths that split and
paths that retire. -/

namespace Sys2Proof.Machine

/-! Trace packets (R379, R383) -/

/-- What the writing of trace packets leaves of a state: its teams, its clock and its counter of free values. -/
structure TraceKeeps (s t : State) : Prop where
  teams : t.teams = s.teams
  clock : t.clock = s.clock
  fresh : t.fresh = s.fresh

theorem TraceKeeps.refl (s : State) : TraceKeeps s s := ⟨rfl, rfl, rfl⟩

theorem TraceKeeps.trans {s t u : State} (h : TraceKeeps s t) (k : TraceKeeps t u) : TraceKeeps s u :=
  ⟨k.teams.trans h.teams, k.clock.trans h.clock, k.fresh.trans h.fresh⟩

theorem TraceKeeps.modCrew {s t : State} (h : TraceKeeps s t) (crew : Nat) (k : Crew → Crew) : TraceKeeps s (t.modCrew crew k) :=
  ⟨h.teams, h.clock, h.fresh⟩

theorem physWrite_keeps (s : State) (pa : Nat) (b : Byte) : TraceKeeps s (s.physWrite pa b) := by
  unfold State.physWrite State.setMemByte
  split
  · exact ⟨rfl, rfl, rfl⟩
  · exact ⟨rfl, rfl, rfl⟩

theorem physWriteN_keeps (bs : List Byte) : ∀ (s : State) (pa : Nat), TraceKeeps s (s.physWriteN pa bs) := by
  induction bs with
  | nil => exact fun s _ => .refl s
  | cons b bs ih => exact fun s pa => (physWrite_keeps s pa b).trans (ih _ (pa + 1))

theorem ringPut_keeps (base log : Nat) (ps : List (BitVec 256)) :
    ∀ (s : State) (head : Nat), TraceKeeps s (s.ringPut base log head ps) := by
  induction ps with
  | nil => exact fun s _ => .refl s
  | cons p ps ih => exact fun s head => (physWriteN_keeps _ s _).trans (ih _ (head + 32))

section

variable (q : State × Ring) (die : Nat)

theorem ringAdd_keeps (ps : List (BitVec 256)) : TraceKeeps q.1 (State.ringAdd q ps).1 := ringPut_keeps _ _ ps q.1 _

theorem ringSync_keeps : TraceKeeps q.1 (State.ringSync die q).1 := ringAdd_keeps q _

theorem ringLoss_keeps : TraceKeeps q.1 (State.ringLoss q).1 := ringAdd_keeps q _

theorem ringSyncIf_keeps (n : Nat) : TraceKeeps q.1 (State.ringSyncIf die n q).1 := by
  unfold State.ringSyncIf
  split
  · exact ringSync_keeps q die
  · exact .refl q.1

theorem ringUnit_keeps (first : Nat → BitVec 256) (offs : List (BitVec 256)) : TraceKeeps q.1 (State.ringUnit first offs q).1 := by
  unfold State.ringUnit
  split
  · exact ringAdd_keeps q _
  · exact .refl q.1

end

theorem emitOn_keeps (s : State) (crew die : Nat) (r : Ring) (first : Nat → BitVec 256) (offs : List (BitVec 256)) :
    TraceKeeps s (s.emitOn crew die r first offs) := by
  unfold State.emitOn
  refine TraceKeeps.modCrew ?_ crew _
  split
  · exact (ringSyncIf_keeps (s, r) die 1).trans
      ((ringLoss_keeps _).trans ((ringSync_keeps _ die).trans (ringUnit_keeps _ first offs)))
  · split
    · exact (ringSyncIf_keeps (s, r) die _).trans (ringUnit_keeps _ first offs)
    · exact ringUnit_keeps (s, r) first offs

theorem emit_keeps (s : State) (crew die bit : Nat) (first : Nat → BitVec 256) (offs : List (BitVec 256)) :
    TraceKeeps s (s.emit crew die bit first offs) := by
  unfold State.emit
  split
  · split
    · exact emitOn_keeps ..
    · exact .refl s
  · exact .refl s

section

variable (c : PathCtx) (s : State) (moved : Mask) (target : VAddr) (kind : Nat)

theorem PathCtx.branchTrace_keeps : TraceKeeps s (c.branchTrace s moved target kind) := emit_keeps ..

@[simp] theorem PathCtx.branchTrace_clock : (c.branchTrace s moved target kind).clock = s.clock :=
  (c.branchTrace_keeps s moved target kind).clock

@[simp] theorem PathCtx.branchTrace_fresh : (c.branchTrace s moved target kind).fresh = s.fresh :=
  (c.branchTrace_keeps s moved target kind).fresh

end

/-- States with equal teams have equal groups. -/
theorem TraceKeeps.group {s t : State} (h : TraceKeeps s t) (tid gi : Nat) : t.group tid gi = s.group tid gi := by
  rw [State.group, State.team, h.teams]
  rfl

/-! Fusion leaves the uniform registers (R138) -/

theorem fuseFrom_uniOf {tid gi : Nat} (n : Nat) : ∀ {s : State} {g : Group} (pi : Nat), s.group tid gi = some g →
    ∃ g', (s.fuseFrom tid gi pi n).group tid gi = some g' ∧ ∀ r, g'.uniOf r = g.uniOf r := by
  induction n with
  | zero => exact fun _ hg => ⟨_, hg, fun _ => rfl⟩
  | succ n ih =>
    intro s g pi hg
    rcases fuseFrom_cases s tid gi pi n with e | ⟨t, g0, p, j, q, first, -, hg0, -, -, -, -, -, e⟩
    · exact ⟨g, by rw [e, hg], fun _ => rfl⟩
    · cases hg.symm.trans hg0
      rw [e]
      exact ih (g := g.fusePair pi j p q s.clock) _ (((emit_keeps ..).group tid gi).trans (group_setGroup hg _))

/-- The uniform registers of an instruction's group, once its path has fused with those that it meets. -/
theorem PathCtx.doneIn_uniOf {c : PathCtx} {s : State} (h : s.group c.tid c.gi = some c.g) (g : Group) :
    ∃ g', (c.doneIn s g).group c.tid c.gi = some g' ∧ ∀ r, g'.uniOf r = g.uniOf r :=
  fuseFrom_uniOf _ c.pi (withGroup_group h g)

/-! Frames of what a transfer changes -/

section

variable {g g' : Group} {pi : Nat} {vs gs ps : List Nat} {fl : FlagSet}

/-- A frame leaves the entry of its own path open. -/
theorem Group.Frame.setPath (h : g.Frame g' pi vs gs ps fl) (p : Option Path) : g.Frame (g'.setPath pi p) pi vs gs ps fl where
  vregs := h.vregs
  uniforms := h.uniforms
  predicates := h.predicates
  flags := h.flags
  paths j hj := (Group.path_setPath_ne hj p).trans (h.paths j hj)
  rest := by
    obtain ⟨vr, un, pr, fg, pa, inf, hd, e⟩ := h.rest
    clear h
    subst e
    exact ⟨vr, un, pr, fg, pa.setIfInBounds pi p, inf, hd, rfl⟩

/-- A frame leaves open what the switch marker holds. -/
theorem Group.Frame.hold (h : g.Frame g' pi vs gs ps fl) (b : Bool) : g.Frame { g' with held := b } pi vs gs ps fl where
  vregs := h.vregs
  uniforms := h.uniforms
  predicates := h.predicates
  flags := h.flags
  paths := h.paths
  rest := by
    obtain ⟨vr, un, pr, fg, pa, inf, hd, e⟩ := h.rest
    clear h
    subst e
    exact ⟨vr, un, pr, fg, pa, inf, b, rfl⟩

end

/-! Where a traced transfer leaves its path -/

/-- A group in which the issuing path stands as `p`, the switch marker obeyed. -/
def PathCtx.placed (c : PathCtx) (f : Fields) (g : Group) (p : Path) : Group := (g.setPath c.pi (some p)).marked f

section

variable {c : PathCtx} {f : Fields} {g : Group} {gs : List Nat}

theorem PathCtx.placed_path (h : c.Issues) (p : Path) : (c.placed f g p).path c.pi = some p := Group.path_setPath_self h.lt _

theorem PathCtx.placed_frame (hf : c.g.Frame g c.pi [] gs [] 0) (p : Path) : c.g.Frame (c.placed f g p) c.pi [] gs [] 0 :=
  (hf.setPath (some p)).hold _

/-- A path that retires as `p` with its transfer traced. -/
theorem PathCtx.retireAt_traced (c : PathCtx) (f : Fields) (g : Group) (p : Path) (pc : VAddr) (moved : Mask) (target : VAddr)
    (kind : Nat) :
    ({ c with s := c.branchTrace c.s moved target kind, p := p } : PathCtx).retireAt f g pc =
      .next (c.doneIn (c.branchTrace c.s moved target kind) (c.placed f g (p.advanced pc c.s.clock))) := by
  rw [← c.branchTrace_clock c.s moved target kind]
  rfl

theorem PathCtx.moveWhole_eq (c : PathCtx) (f : Fields) (g : Group) (lk target : VAddr) :
    c.moveWhole f g lk target = .next (c.doneIn (c.branchTrace c.s c.p.mask target 1)
      (c.placed f g (({ c.p with lk := lk } : Path).advanced target c.s.clock))) :=
  c.retireAt_traced f g _ target c.p.mask target 1

theorem PathCtx.fallThrough_eq (c : PathCtx) (f : Fields) (g : Group) :
    c.fallThrough f g = .next (c.doneIn (c.branchTrace c.s 0 (nextSlot c.p.pc) 0)
      (c.placed f g (c.p.advanced (nextSlot c.p.pc) c.s.clock))) :=
  c.retireAt_traced f g c.p (nextSlot c.p.pc) 0 (nextSlot c.p.pc) 0

/-- A transfer whose packets go nowhere changes no byte of memory. -/
theorem PathCtx.traced_memory (h : c.Issues) (ho : TraceOff c.s c.t.crew (dieOf c.t.core) 0) (moved : Mask) (target : VAddr)
    (kind : Nat) : SameMemory c.s (c.doneIn (c.branchTrace c.s moved target kind) g) := by
  rw [PathCtx.branchTrace, emit_off ho rfl]
  exact done_memory h (.inr ho)

theorem PathCtx.moveWhole_movesTo (h : c.Issues) (hf : c.g.Frame g c.pi [] gs [] 0) (lk target : VAddr) :
    c.MovesTo (c.moveWhole f g lk target) target lk gs :=
  ⟨_, c.moveWhole_eq f g lk target, PathCtx.placed_path h _, PathCtx.placed_frame hf _, fun ho => PathCtx.traced_memory h ho _ _ _⟩

theorem PathCtx.fallThrough_fallsThrough (h : c.Issues) (hf : c.g.Frame g c.pi [] gs [] 0) :
    c.FallsThrough (c.fallThrough f g) gs :=
  ⟨_, c.fallThrough_eq f g, PathCtx.placed_path h _, PathCtx.placed_frame hf _, fun ho => PathCtx.traced_memory h ho _ _ _⟩

theorem PathCtx.doneIn_traced_uniOf (h : c.Issues) (moved : Mask) (target : VAddr) (kind : Nat) (g : Group) :
    ∃ g', (c.doneIn (c.branchTrace c.s moved target kind) g).group c.tid c.gi = some g' ∧ ∀ r, g'.uniOf r = g.uniOf r :=
  PathCtx.doneIn_uniOf (((c.branchTrace_keeps ..).group ..).trans h.group) g

/-! A transfer checks its target (R20, R145) -/

theorem PathCtx.transfer_of_landing {lk : VAddr} {target : Word64} (hl : c.s.landing c.t target = none) :
    c.transfer f g lk target = c.moveWhole f g lk (target.setWidth 56) := by
  rw [PathCtx.transfer, hl]

theorem PathCtx.transfer_of_bad {lk : VAddr} {target : Word64} {code : BitVec 8} (hl : c.s.landing c.t target = some code) :
    c.transfer f g lk target = .next (c.badTarget code (BitVec.allOnes 32) target) := by
  rw [PathCtx.transfer, hl]
  rfl

end

/-! Transfers of the whole path (R143, R145, R147) -/

/-- Every transfer of a whole path is one operation: it checks its target and moves where the guard is nonzero, and falls through
where it is zero. -/
theorem exec_wholeTransfer {c : PathCtx} (h : c.Issues) {f : Fields} {i : Instr} {target : Word64} {lk : VAddr}
    (hm : (i, true, target, lk) ∈ wholeTransfers c f) :
    exec i c.s = if c.effect f then c.transfer f c.g lk target else c.fallThrough f c.g := by
  simp only [wholeTransfers, List.mem_cons, List.not_mem_nil, or_false, Prod.mk.injEq] at hm
  rcases hm with ⟨rfl, -, rfl, rfl⟩ | ⟨rfl, -, rfl, rfl⟩ | ⟨rfl, -, rfl, rfl⟩ | ⟨rfl, hu, rfl, rfl⟩ | ⟨rfl, hu, rfl, rfl⟩
  · rw [exec_brau, execBrau, onBoth_of h]
  · rw [exec_call, execCall, onBoth_of h]
  · rw [exec_ret, execRet, onBoth_of h]
  · rw [exec_jmpi, execJmpi, onBoth_of h, if_pos hu.symm]
  · rw [exec_calli, execCalli, onBoth_of h]
    exact if_pos hu.symm

/-- The group in which `dbnz` has counted down (R143). -/
def PathCtx.counted (c : PathCtx) (f : Fields) : Group := c.g.writeUni (f.d.toNat - 0xC0) (c.uni 3 f.d - 1)

theorem PathCtx.counted_frame (c : PathCtx) (f : Fields) : c.g.Frame (c.counted f) c.pi [] [f.d.toNat - 0xC0] [] 0 :=
  (Group.Frame.refl ..).writeUni (List.mem_singleton.mpr rfl)

theorem PathCtx.counted_uniOf (c : PathCtx) (f : Fields) : (c.counted f).uniOf (f.d.toNat - 0xC0) = c.uni 3 f.d - 1 := by
  have hr : f.d.toNat - 0xC0 < 64 := by have := f.d.isLt; omega
  rw [Group.uniOf, PathCtx.counted, Group.writeUni_getD, if_pos ⟨rfl, hr⟩]

theorem exec_dbnz_of {c : PathCtx} (h : c.Issues) (f : Fields) :
    exec (.dbnz f) c.s =
      if c.effect f then
        if c.uni 3 f.d - 1 = 0 then c.fallThrough f (c.counted f)
        else c.transfer f (c.counted f) c.p.lk (directTarget c.p.pc f.imm)
      else c.fallThrough f c.g := by
  rw [exec_dbnz, execDbnz, onBoth_of h]
  rfl

/-- The count stands in the group of the state that `dbnz` brings about. -/
theorem PathCtx.counted_stands {c : PathCtx} (h : c.Issues) {f : Fields} {o : Out} {moved : Mask} {target : VAddr} {kind : Nat}
    {p : Path} (e : o = .next (c.doneIn (c.branchTrace c.s moved target kind) (c.placed f (c.counted f) p))) :
    ∃ t g, o = .next t ∧ t.group c.tid c.gi = some g ∧ g.uniOf (f.d.toNat - 0xC0) = c.uni 3 f.d - 1 := by
  obtain ⟨g, hg, hu⟩ := PathCtx.doneIn_traced_uniOf h moved target kind (c.placed f (c.counted f) p)
  exact ⟨_, g, e, hg, (hu _).trans (c.counted_uniOf f)⟩

/-- Settles O12: the five transfers of a whole path as one operation, then `dbnz` by its guard and its count. -/
theorem wholePathTransfers : Obligations.WholePathTransfers := by
  unfold Obligations.WholePathTransfers
  intro c f h
  have hg : c.g.Frame c.g c.pi [] [] [] 0 := .refl ..
  refine ⟨fun i target lk hm => ?whole, ?dbnz⟩
  case whole =>
    rw [exec_wholeTransfer h hm]
    refine ⟨fun he hl => ?_, fun code he hl => ?_, fun he => ?_⟩
    · rw [if_pos he, PathCtx.transfer_of_landing hl]
      exact PathCtx.moveWhole_movesTo h hg lk _
    · rw [if_pos he, PathCtx.transfer_of_bad hl]
    · rw [if_neg (by simp [he])]
      exact PathCtx.fallThrough_fallsThrough h hg
  case dbnz =>
    intro r w target
    rw [exec_dbnz_of h]
    refine ⟨fun he hw hl => ?_, fun code he hw hl => ?_, fun he hw => ?_, fun he => ?_⟩
    · rw [if_pos he, if_neg hw, PathCtx.transfer_of_landing hl]
      exact ⟨PathCtx.moveWhole_movesTo h (c.counted_frame f) _ _, PathCtx.counted_stands h (c.moveWhole_eq ..)⟩
    · rw [if_pos he, if_neg hw, PathCtx.transfer_of_bad hl]
    · rw [if_pos he, if_pos hw, ← hw]
      exact ⟨PathCtx.fallThrough_fallsThrough h (c.counted_frame f), PathCtx.counted_stands h (c.fallThrough_eq ..)⟩
    · rw [if_neg (by simp [he])]
      exact PathCtx.fallThrough_fallsThrough h hg

/-! Paths that split (R139, R142) -/

theorem Group.freeEntry_spec {g : Group} {j : Nat} (h : g.freeEntry = some j) : j < 8 ∧ g.path j = none := by
  obtain ⟨hp, hm, -⟩ := List.find?_range_eq_some.mp h
  exact ⟨List.mem_range.mp hm, Option.isNone_iff_eq_none.mp hp⟩

/-- The issuing path's entry is not free. -/
theorem PathCtx.Issues.ne_of_path_none {c : PathCtx} (h : c.Issues) {j : Nat} (hj : c.g.path j = none) : j ≠ c.pi := by
  rintro rfl
  cases h.found.2.2.symm.trans hj

/-- The table does not overflow while some path is not split-stalled. -/
theorem Group.overflow_eq_none {g : Group} {k : Nat} {p : Path} (hk : g.path k = some p) (hp : p.st ≠ .splitStalled) :
    g.overflow = none := by
  refine if_neg fun ⟨_, hall⟩ => hp ?_
  simpa using List.all_eq_true.mp hall (k, p) (mem_valid.mpr hk)

/-- A split that finds no free entry waits, while some other path is not split-stalled. -/
theorem PathCtx.splitStall_waits {c : PathCtx} {k : Nat} {p : Path} (hs : c.p.st ≠ .handler) (hne : k ≠ c.pi)
    (hk : c.g.path k = some p) (hp : p.st ≠ .splitStalled) :
    c.splitStall c.g c.p = .next (c.s.setGroup c.tid c.gi (c.g.setPath c.pi (some { c.p with st := .splitStalled }))) := by
  have ho : (c.g.setPath c.pi (some { c.p with st := .splitStalled })).overflow = none :=
    Group.overflow_eq_none ((Group.path_setPath_ne hne _).trans hk) hp
  simp only [PathCtx.splitStall, if_neg hs, ho]

/-- The group after a split: the path as `stay`, entry `j` as `take`, and a move acts as a set S (R71). -/
def PathCtx.split (c : PathCtx) (j : Nat) (stay take : Path) : Group :=
  { (c.g.setPath c.pi (some stay)).setPath j (some take) with held := c.g.held || !c.g.inflight.isEmpty }

section

variable {c : PathCtx} {j : Nat} (stay take : Path)

theorem PathCtx.split_stay (h : c.Issues) (hj : j ≠ c.pi) : (c.split j stay take).path c.pi = some stay :=
  (Group.path_setPath_ne hj.symm _).trans (Group.path_setPath_self h.lt _)

theorem PathCtx.split_take (hj : j < 8) : (c.split j stay take).path j = some take := Group.path_setPath_self hj _

theorem PathCtx.split_other {k : Nat} (hk : k ≠ c.pi) (hkj : k ≠ j) : (c.split j stay take).path k = c.g.path k :=
  (Group.path_setPath_ne hkj _).trans (Group.path_setPath_ne hk _)

theorem PathCtx.split_held (h : c.g.inflight ≠ []) : (c.split j stay take).held = true := by
  simp [PathCtx.split, h]

/-- But for its paths a group is as before the split, and what is held. -/
theorem PathCtx.split_frame : c.g.Frame { c.split j stay take with paths := c.g.paths } c.pi [] [] [] 0 := by
  simp only [PathCtx.split, Group.setPath]
  exact (Group.Frame.refl c.g c.pi [] [] [] 0).hold (c.g.held || !c.g.inflight.isEmpty)

end

/-- The active lanes in which the predicate of a `bra` has the sense that it asks for (R142). -/
def PathCtx.taken (c : PathCtx) (f : Fields) : Mask := c.active f &&& c.senseMask f

/-- The lanes of the path that do not take. -/
def PathCtx.staying (c : PathCtx) (f : Fields) : Mask := c.p.mask &&& ~~~c.taken f

/-- The lanes of a `bra` that stay, as a path. -/
def PathCtx.stayPath (c : PathCtx) (f : Fields) : Path :=
  ({ c.p with mask := c.staying f } : Path).advanced (nextSlot c.p.pc) c.s.clock

/-- The lanes of a `bra` that take, as a path. -/
def PathCtx.takePath (c : PathCtx) (f : Fields) : Path :=
  { mask := c.taken f, pc := (directTarget c.p.pc f.imm).setWidth 56, lk := c.p.lk, since := c.s.clock }

section

variable {c : PathCtx} {f : Fields}

theorem exec_bra_inactive (h : c.Issues) (ha : c.active f = 0) :
    exec (.bra f) c.s = .next ((c.stayTrace c.s).retirePath c.tid c.gi c.pi (c.g.marked f)) := by
  rw [exec_bra, execBra, onBoth_of h]
  exact if_pos ha

theorem exec_bra_untaken (h : c.Issues) (ha : c.active f ≠ 0) (ht : c.taken f = 0) : exec (.bra f) c.s = c.fallThrough f c.g := by
  rw [exec_bra, execBra, onBoth_of h]
  exact (if_neg ha).trans (if_pos ht)

/-- Lanes that take are active. -/
theorem PathCtx.active_ne_zero_of_taken (ht : c.taken f ≠ 0) : c.active f ≠ 0 :=
  fun ha => ht (by simp [PathCtx.taken, ha])

theorem exec_bra_bad (h : c.Issues) (ht : c.taken f ≠ 0) {code : BitVec 8}
    (hl : c.s.landing c.t (directTarget c.p.pc f.imm) = some code) :
    exec (.bra f) c.s = .next (c.badTarget code (c.taken f) (directTarget c.p.pc f.imm)) := by
  rw [exec_bra, execBra, onBoth_of h]
  refine ((if_neg (PathCtx.active_ne_zero_of_taken ht)).trans (if_neg ht)).trans ?_
  rw [hl]
  rfl

/-- What a `bra` does whose lanes part: those that take go into the free entry, or the path waits for one (R139). -/
def PathCtx.divide (c : PathCtx) (f : Fields) : Out :=
  match c.g.freeEntry with
  | none => c.splitStall c.g c.p
  | some j =>
    .next ((((c.branchTrace c.s (c.taken f) ((directTarget c.p.pc f.imm).setWidth 56) 2).withGroup c
      (c.split j (c.stayPath f) (c.takePath f))).fuse c.tid c.gi j).fuse c.tid c.gi c.pi)

theorem PathCtx.divide_of_free {j : Nat} (hj : c.g.freeEntry = some j) :
    c.divide f = .next ((((c.branchTrace c.s (c.taken f) ((directTarget c.p.pc f.imm).setWidth 56) 2).withGroup c
      (c.split j (c.stayPath f) (c.takePath f))).fuse c.tid c.gi j).fuse c.tid c.gi c.pi) := by
  rw [PathCtx.divide, hj]

theorem PathCtx.divide_of_full (hj : c.g.freeEntry = none) : c.divide f = c.splitStall c.g c.p := by
  rw [PathCtx.divide, hj]

theorem exec_bra_lands (h : c.Issues) (ht : c.taken f ≠ 0) (hl : c.s.landing c.t (directTarget c.p.pc f.imm) = none) :
    exec (.bra f) c.s =
      if c.staying f = 0 then c.moveWhole f c.g c.p.lk ((directTarget c.p.pc f.imm).setWidth 56) else c.divide f := by
  rw [exec_bra, execBra, onBoth_of h]
  refine ((if_neg (PathCtx.active_ne_zero_of_taken ht)).trans (if_neg ht)).trans ?_
  rw [hl]
  rfl

theorem exec_bra_whole (h : c.Issues) (ht : c.taken f ≠ 0) (hl : c.s.landing c.t (directTarget c.p.pc f.imm) = none)
    (hs : c.staying f = 0) : exec (.bra f) c.s = c.moveWhole f c.g c.p.lk ((directTarget c.p.pc f.imm).setWidth 56) :=
  (exec_bra_lands h ht hl).trans (if_pos hs)

theorem exec_bra_parts (h : c.Issues) (ht : c.taken f ≠ 0) (hl : c.s.landing c.t (directTarget c.p.pc f.imm) = none)
    (hs : c.staying f ≠ 0) : exec (.bra f) c.s = c.divide f :=
  (exec_bra_lands h ht hl).trans (if_neg hs)

end

/-- Settles O13, branch by branch: whether a lane is active, whether one takes, whether the target is a landing point, whether lanes
stay, and whether an entry is free. -/
theorem braDivides : Obligations.BraDivides := by
  unfold Obligations.BraDivides
  intro c f h
  have hg : c.g.Frame c.g c.pi [] [] [] 0 := .refl ..
  refine ⟨exec_bra_inactive h, fun ha ht => ?falls, fun code ht hl => exec_bra_bad h ht hl, fun ht hs hl => ?whole,
    fun j ht hs hl hj => ?divides, fun ht hs hl hj hst ⟨k, p, _, hne, hk, hp⟩ => ?stalls⟩
  case falls =>
    rw [exec_bra_untaken h ha ht]
    exact PathCtx.fallThrough_fallsThrough h hg
  case whole =>
    rw [exec_bra_whole h ht hl hs]
    exact PathCtx.moveWhole_movesTo h hg _ _
  case divides =>
    obtain ⟨hj8, hfree⟩ := Group.freeEntry_spec hj
    have hne : j ≠ c.pi := h.ne_of_path_none hfree
    exact ⟨c.split j (c.stayPath f) (c.takePath f), (exec_bra_parts h ht hl hs).trans (PathCtx.divide_of_free hj),
      PathCtx.split_stay _ _ h hne, PathCtx.split_take _ _ hj8, fun _ => PathCtx.split_other _ _, PathCtx.split_held _ _,
      PathCtx.split_frame _ _⟩
  case stalls =>
    rw [exec_bra_parts h ht hl hs, PathCtx.divide_of_full hj]
    exact PathCtx.splitStall_waits hst hne hk hp

/-! Paths that retire (R136, R148) -/

/-- A path of a group that keeps another retires: its entry is free and its lanes' `em` bits are clear. -/
theorem retirePath_of_other (s : State) (tid gi : Nat) {g : Group} {pi j : Nat} {p : Path} (hp : g.path pi = some p) (hne : j ≠ pi)
    (hj : (g.path j).isSome) :
    s.retirePath tid gi pi g = s.setGroup tid gi { g.setPath pi none with em := g.em &&& ~~~p.mask } := by
  obtain ⟨q, hq⟩ := Option.isSome_iff_exists.mp hj
  have hv : (j, q) ∈ ({ g.setPath pi none with em := g.em &&& ~~~p.mask } : Group).valid :=
    mem_valid.mpr ((Group.path_setPath_ne hne none).trans hq)
  simp only [State.retirePath, hp]
  exact if_neg fun he => by simp [List.isEmpty_iff.mp he] at hv

/-- `exit` has no vector operand that its LR bits could free. -/
theorem lrRegs_exit (f : Fields) : lrRegs 0x70 0x08 f = [] := by
  simp [lrRegs, formSpec, specControl]

/-- The active lanes are lanes of the path. -/
theorem PathCtx.active_within (c : PathCtx) (f : Fields) : c.active f &&& ~~~c.p.mask = 0 := by
  ext i hi
  cases hm : c.p.mask[i] <;> simp [PathCtx.active, hm]

/-- To clear lanes of a mask before its other lanes is to clear the mask. -/
theorem clear_within_clear {x a m : Mask} (h : a &&& ~~~m = 0) : x &&& ~~~a &&& ~~~m &&& ~~~m = x &&& ~~~m := by
  ext i hi
  have hw := congrArg (fun v : Mask => v[i]) h
  cases hm : m[i] with
  | true => simp [hm]
  | false => simpa [hm] using fun _ => by simpa [hm] using hw

section

variable {c : PathCtx} {f : Fields} (h : c.Issues)

include h

theorem exec_exit_inactive (ha : c.active f = 0) : exec (.exit f) c.s = c.fallThrough f c.g := by
  rw [exec_exit, execExit, onBoth_of h]
  refine (if_pos ha).trans ?_
  rw [PathCtx.skipOver, lrRegs_exit]
  rfl

theorem exec_exit_leaves (ha : c.active f ≠ 0) (hl : c.p.mask &&& ~~~c.active f ≠ 0) :
    exec (.exit f) c.s = .next (c.doneIn (c.stayTrace c.s) (c.placed f { c.g with em := c.g.em &&& ~~~c.active f }
      (({ c.p with mask := c.p.mask &&& ~~~c.active f } : Path).advanced (nextSlot c.p.pc) c.s.clock))) := by
  rw [exec_exit, execExit, onBoth_of h]
  exact ((if_neg ha).trans (if_neg hl)).trans (c.retireAt_traced f _ _ (nextSlot c.p.pc) 0 (nextSlot c.p.pc) 0)

theorem exec_exit_retires (ha : c.active f ≠ 0) (hl : c.p.mask &&& ~~~c.active f = 0) :
    exec (.exit f) c.s = .next (({ c.stayTrace c.s with fresh := c.s.fresh + 2 } : State).retirePath c.tid c.gi c.pi
      (({ c.g with em := c.g.em &&& ~~~c.active f } : Group).marked f)) := by
  rw [exec_exit, execExit, onBoth_of h, ← c.branchTrace_fresh c.s 0 (nextSlot c.p.pc) 0]
  exact (if_neg ha).trans (if_pos hl)

end

/-- Settles O16, by whether lanes are active, whether the path keeps any, and whether the group keeps another path. -/
theorem exitVacates : Obligations.ExitVacates := by
  unfold Obligations.ExitVacates
  intro c f h
  refine ⟨fun ha => ?inactive, fun ha hl => ?leaves, fun ha hl ⟨j, hne, hj⟩ => ?retires, fun ha hl _ => exec_exit_retires h ha hl⟩
  case inactive =>
    rw [exec_exit_inactive h ha]
    exact PathCtx.fallThrough_fallsThrough h (.refl ..)
  case leaves =>
    exact ⟨_, exec_exit_leaves h ha hl, PathCtx.placed_path h _, rfl, PathCtx.placed_frame (g := c.g) (.refl ..) _⟩
  case retires =>
    rw [exec_exit_retires h ha hl, ← c.branchTrace_fresh c.s 0 (nextSlot c.p.pc) 0]
    refine ⟨_, congrArg _ (retirePath_of_other _ _ _ (g := ({ c.g with em := c.g.em &&& ~~~c.active f } : Group).marked f)
      h.found.2.2 hne hj), Group.path_setPath_self h.lt none, ?_, ?_, ?_⟩
    · exact BitVec.eq_of_getElem_eq fun i hi => by simp
    · exact clear_within_clear (c.active_within f)
    · exact ((Group.Frame.refl c.g c.pi [] [] [] 0).setPath none).hold _

end Sys2Proof.Machine

/-! Software traps (O47): what `trap` and `brk` leave of their path, what `tfence` tests, what a return from the handler restores. -/

namespace Sys2Proof.Machine

/-! Faults that resume at the next slot (R349, R351) -/

/-- DETAIL of a software trap: the low half of IMM. -/
theorem detail_eq_ofNat (x : Word32) :
    (x.setWidth 16).setWidth 128 = BitVec.ofNat 128 (x.extractLsb' 0 16).toNat := by
  rw [← BitVec.setWidth_eq_extractLsb' (by decide), BitVec.ofNat_toNat]

section

variable {c : PathCtx} (h : c.Issues) (f : Fields)

include h

theorem PathCtx.retired_onlyMoves : c.OnlyMoves (c.retired f c.g (nextSlot c.p.pc)) :=
  ⟨c.retired_goes h f c.g _, c.retired_frame (.refl ..)⟩

theorem PathCtx.softFault_trapsPast (code : BitVec 8) :
    c.TrapsPast (c.softFault code f) code (f.imm.extractLsb' 0 16).toNat :=
  ⟨c.retired f c.g (nextSlot c.p.pc), c.retired_onlyMoves h f, by rw [← detail_eq_ofNat]; rfl⟩

theorem exec_trap_of (he : c.effect f = true) : exec (.trap f) c.s = c.softFault 0x0E f := by
  rw [exec_trap, execTrap, onBoth_of h]
  exact if_pos he

theorem exec_brk_unarmed (he : c.effect f = true) (ha : c.s.stopArmed c.t.crew (dieOf c.t.core) = false) :
    exec (.brk f) c.s = c.softFault 0x0F f := by
  rw [exec_brk, execBrk, onBoth_of h]
  exact (if_neg (by simp [he])).trans (if_neg (by simp [ha]))

/-- An armed `brk` places its path in state 5 past itself. -/
theorem exec_brk_armed (he : c.effect f = true) (ha : c.s.stopArmed c.t.crew (dieOf c.t.core) = true) :
    exec (.brk f) c.s = .next ((c.s.setGroup c.tid c.gi (c.placed f c.g
      { c.p.advanced (nextSlot c.p.pc) c.s.clock with st := .stopped, byBrk := true })).stopPacket c.t c.g c.pi c.p 0x0F) := by
  rw [exec_brk, execBrk, onBoth_of h]
  exact (if_neg (by simp [he])).trans (if_pos ha)

end

/-! The test of the flags (R122) -/

theorem flagsTrip_iff {w : BitVec 16} : flagsTrip w = true ↔ w.extractLsb' 0 8 &&& w.extractLsb' 8 8 ≠ 0 := bne_iff_ne

theorem exec_tfence_of {c : PathCtx} (h : c.Issues) {f : Fields} (he : c.effect f = true) :
    exec (.tfence f) c.s =
      if c.g.inflight = [] then
        if flagsTrip c.g.flags then c.faultCode 0x0D (c.g.flags.setWidth 64) else c.retire f c.g
      else .next (c.s.setGroup c.tid c.gi { c.g with held := true }) := by
  rw [exec_tfence, execTfence, onBoth_of h]
  refine (if_neg (by simp [he])).trans ?_
  by_cases hi : c.g.inflight = [] <;> simp [hi]

/-! The return from the handler (R350) -/

theorem Group.uniOf_writeUni (g : Group) (r x : Nat) (w : Word64) :
    (g.writeUni r w).uniOf x = if x = r ∧ r < 64 then w else g.uniOf x := g.writeUni_getD r x w

theorem group_modGroup (s : State) (tid gi : Nat) (k : Group → Group) :
    (s.modGroup tid gi k).group tid gi = (s.group tid gi).map k := by
  rw [State.group, State.group, State.modGroup, State.team_modTeam]
  cases s.team tid <;> simp

/-- What a return from the handler's path `p` makes of its group. -/
def Group.returned (g : Group) (pi : Nat) (p : Path) (target : VAddr) (clock : Nat) : Group :=
  let g1 := (((g.writeUni 60 g.trap.g60).writeUni 61 g.trap.g61).writeUni 62 g.trap.g62).writeUni 63 g.trap.g63
  let q : Path := { p with st := .ready, pc := target, lk := g.trap.lk, shc := g.trap.shc, shm := g.trap.shm, since := clock }
  { (g1.setPath pi (some q)).markAgain with
    em := (g.em &&& ~~~p.mask) ||| (g.trap.em &&& p.mask), tm := false, held := g.held || !g.inflight.isEmpty }

theorem returnFromTrap_group {s : State} {tid gi pi : Nat} {g : Group} {p : Path} (hg : s.group tid gi = some g)
    (hp : g.path pi = some p) (target : VAddr) :
    (s.returnFromTrap tid gi pi target).group tid gi = some (g.returned pi p target s.clock) := by
  rw [State.returnFromTrap, group_modGroup, hg, Option.map_some, hp]
  rfl

section

variable (g : Group) (pi : Nat) (p : Path) (target : VAddr) (clock : Nat)

@[simp] theorem Group.returned_vregs : (g.returned pi p target clock).vregs = g.vregs := by
  simp only [Group.returned, Group.markAgain, Group.setPath, Group.writeUni]
@[simp] theorem Group.returned_preds : (g.returned pi p target clock).preds = g.preds := by
  simp only [Group.returned, Group.markAgain, Group.setPath, Group.writeUni]
@[simp] theorem Group.returned_flags : (g.returned pi p target clock).flags = g.flags := by
  simp only [Group.returned, Group.markAgain, Group.setPath, Group.writeUni]

@[simp] theorem Group.returned_sbuf : (g.returned pi p target clock).sbuf =
    g.sbuf.map fun a => { a with again := a.again || a.faulted } := by
  simp only [Group.returned, Group.markAgain, Group.setPath, Group.writeUni]

@[simp] theorem Group.returned_pend : (g.returned pi p target clock).pend =
    g.pend.map fun a => { a with again := a.again || a.faulted } := by
  simp only [Group.returned, Group.markAgain, Group.setPath, Group.writeUni]

theorem Group.returned_path (hi : pi < 8) : (g.returned pi p target clock).path pi =
    some { p with st := .ready, pc := target, lk := g.trap.lk, shc := g.trap.shc, shm := g.trap.shm, since := clock } :=
  Group.path_setPath_self hi _

theorem Group.returned_path_ne {j : Nat} (hj : j ≠ pi) : (g.returned pi p target clock).path j = g.path j :=
  Group.path_setPath_ne hj _

/-- A return writes g60 to g63 and no other uniform register. -/
theorem Group.returned_uniOf (r : Nat) : (g.returned pi p target clock).uniOf r =
    if r = 63 then g.trap.g63 else if r = 62 then g.trap.g62 else if r = 61 then g.trap.g61 else if r = 60 then g.trap.g60
    else g.uniOf r := by
  have e : (g.returned pi p target clock).uniOf r =
      ((((g.writeUni 60 g.trap.g60).writeUni 61 g.trap.g61).writeUni 62 g.trap.g62).writeUni 63 g.trap.g63).uniOf r := rfl
  rw [e]
  simp [Group.uniOf_writeUni]

theorem Group.returned_uniOf_lt {r : Nat} (hr : r < 60) : (g.returned pi p target clock).uniOf r = g.uniOf r := by
  rw [g.returned_uniOf, if_neg (by omega), if_neg (by omega), if_neg (by omega), if_neg (by omega)]

theorem Group.returned_held (hi : g.inflight ≠ []) : (g.returned pi p target clock).held = true := by
  simp [Group.returned, hi]

end

/-- The state to which `tret` returns, before its path fuses. -/
def PathCtx.afterTret (c : PathCtx) (target : VAddr) : State :=
  ({ c.s with fresh := c.s.fresh + 2 } : State).returnFromTrap c.tid c.gi c.pi target

/-- A return changes its group alone. -/
theorem PathCtx.afterTret_memory (c : PathCtx) (target : VAddr) : SameMemory c.s (c.afterTret target) :=
  .of_eq rfl rfl rfl rfl rfl fun _ => rfl

section

variable {c : PathCtx} (h : c.Issues) {f : Fields} (he : c.effect f = true)

include h

theorem PathCtx.afterTret_group (target : VAddr) :
    (c.afterTret target).group c.tid c.gi = some (c.g.returned c.pi c.p target c.s.clock) :=
  returnFromTrap_group (s := { c.s with fresh := c.s.fresh + 2 }) h.group h.found.2.2 target

include he

theorem exec_tret_outside (hs : c.p.st ≠ .handler) : exec (.tret f) c.s = c.faultCode 0x04 := by
  rw [exec_tret, execTret, onPath_of h]
  exact (if_neg (by simp [he])).trans (if_pos hs)

theorem exec_tret_bad (hs : c.p.st = .handler) {code : BitVec 8} (hr : c.greg 0 62 ≠ c.g.trap.rpc.setWidth 64)
    (hl : c.s.landing c.t (c.greg 0 62) = some code) : exec (.tret f) c.s = c.faultCode code (c.greg 0 62) := by
  rw [exec_tret, execTret, onPath_of h]
  refine ((if_neg (by simp [he])).trans (if_neg (not_not_intro hs))).trans ((if_neg hr).trans ?_)
  rw [hl]

theorem exec_tret_returns (hs : c.p.st = .handler)
    (hl : c.greg 0 62 = c.g.trap.rpc.setWidth 64 ∨ c.s.landing c.t (c.greg 0 62) = none) :
    exec (.tret f) c.s = .next ((c.afterTret ((c.greg 0 62).setWidth 56)).fuse c.tid c.gi c.pi) := by
  rw [exec_tret, execTret, onPath_of h]
  refine ((if_neg (by simp [he])).trans (if_neg (not_not_intro hs))).trans ?_
  by_cases hr : c.greg 0 62 = c.g.trap.rpc.setWidth 64
  · exact if_pos hr
  · refine (if_neg hr).trans ?_
    rw [hl.resolve_left hr]
    rfl

end

/-! Seats (R349, R351, R122) -/

section

variable {c : SeatCtx} (h : c.Issues) {f : Fields}

include h

theorem exec_trap_seat (hg : c.guard f = true) : exec (.trap f) c.s = c.softFault 0x0E f := by
  rw [exec_trap, execTrap, onBoth_seat h]
  exact if_pos hg

theorem exec_brk_seat (hg : c.guard f = true) : exec (.brk f) c.s = c.softFault 0x0F f := by
  rw [exec_brk, execBrk, onBoth_seat h]
  exact if_pos hg

theorem exec_tfence_seat (ht : flagsTrip c.q.flags = false) : exec (.tfence f) c.s = c.retire c.q := by
  rw [exec_tfence, execTfence, onBoth_seat h]
  exact if_neg (by simp [ht])

end

/-- A seat that retires with its registers as they were moves on to the next slot. -/
theorem SeatCtx.retire_frame (c : SeatCtx) : ∃ q, c.retire c.q = .next (c.done q) ∧ q.pc = nextSlot c.q.pc ∧ c.q.Frame q [] [] 0 :=
  ⟨_, rfl, rfl, { regs := fun _ _ => rfl, predicates := fun _ _ => rfl, flags := ⟨0, by simp⟩,
                  rest := ⟨_, _, _, _, _, _, _, rfl⟩ }⟩

/-- Settles O47, form by form: a fault past the instruction or a held path, the test of the flags once nothing is in flight, and the
return by what `tret` finds in g62. That a seat's `brk` always faults, that a bad target is the ADDR of `tret`'s fault, and that the stop
is armed by die, are the model's reading (assumption 34). -/
theorem trapForms : Obligations.TrapForms := by
  unfold Obligations.TrapForms
  refine ⟨fun c f h he => ?path, fun c f h hg => ?seat⟩
  case path =>
    refine ⟨?trap, fun ha => ?unarmed, fun ha => ?armed, fun hi => ?waits, fun hi ht => ?passes, fun hi ht => ?trips,
      fun hs => exec_tret_outside h he hs, fun hs target hq => ?tret⟩
    case trap =>
      rw [exec_trap_of h f he]
      exact PathCtx.softFault_trapsPast h f 0x0E
    case unarmed =>
      rw [exec_brk_unarmed h f he ha]
      exact PathCtx.softFault_trapsPast h f 0x0F
    case armed =>
      exact ⟨_, exec_brk_armed h f he ha, PathCtx.placed_path h _, PathCtx.placed_frame (.refl ..) _⟩
    case waits => rw [exec_tfence_of h he, if_neg hi]
    case passes =>
      rw [exec_tfence_of h he, if_pos hi, if_neg (flagsTrip_iff.not.mpr ht)]
      exact ⟨_, c.retire_eq f c.g, PathCtx.retired_kept h (.refl ..)⟩
    case trips =>
      rw [exec_tfence_of h he, if_pos hi, if_pos (flagsTrip_iff.mpr ht)]
      rfl
    case tret =>
      subst hq
      refine ⟨fun code hr hl => exec_tret_bad h he hs hr hl, fun hl => ?_⟩
      refine ⟨_, _, exec_tret_returns h he hs hl, PathCtx.afterTret_group h _, ?_⟩
      refine ⟨rfl, Group.returned_path _ _ _ _ _ h.lt, rfl, ?_, ?_, ?_, ?_, fun _ => Group.returned_uniOf_lt _ _ _ _ _, Group.returned_vregs ..,
        Group.returned_preds .., Group.returned_flags .., fun _ => Group.returned_path_ne _ _ _ _ _, Group.returned_held _ _ _ _ _, Group.returned_sbuf .., Group.returned_pend .., c.afterTret_memory _⟩
      all_goals rw [Group.returned_uniOf]; rfl
  case seat =>
    refine ⟨exec_trap_seat h hg, exec_brk_seat h hg, fun ht => ?_⟩
    rw [exec_tfence_seat h (Bool.eq_false_iff.mpr (flagsTrip_iff.not_left.mpr ht))]
    exact c.retire_frame

end Sys2Proof.Machine

/-! Launches from the device (O51): what a physical write leaves to be read, what an instruction that changes no team concludes, an edge
added to a record, and `launch`, `launchd` and `lqst`. -/

namespace Sys2Proof.Machine

/-! Bytes written physically -/

/-- A tile line in which each cell of a physical byte holds the byte that is written, in the common view. -/
def overwriteCopies (pa : Nat) (b : Byte) (e : LineKey × Line) : LineKey × Line :=
  (e.1, { e.2 with cells := e.2.cells.map fun c => if c.2.pa = pa ∧ e.1.view = 0 then (c.1, { c.2 with val := b }) else c })

theorem State.physWrite_lines (s : State) (pa : Nat) (b : Byte) :
    (s.physWrite pa b).lines = s.lines.map (overwriteCopies pa b) := rfl

/-- The dirty copy of a byte at home is the byte last written; that of any other byte is as it was. -/
theorem dirtyAt_overwriteCopies (pa : Nat) (b : Byte) (x : Nat) (ls : List (LineKey × Line)) :
    dirtyAt (ls.map (overwriteCopies pa b)) x = (dirtyAt ls x).map fun v => if x = pa then b else v := by
  induction ls with
  | nil => rfl
  | cons e rest ih =>
    obtain ⟨k, l⟩ := e
    rw [List.map_cons, overwriteCopies, dirtyAt, dirtyAt]
    by_cases hk : k.place = .home ∧ k.view = 0
    · rw [if_pos hk, if_pos hk, List.find?_map]
      have hp : ((fun c : Nat × LineByte => c.2.dirty && c.2.pa == x) ∘
          fun c => if c.2.pa = pa ∧ k.view = 0 then (c.1, { c.2 with val := b }) else c) = fun c => c.2.dirty && c.2.pa == x := by
        funext c
        by_cases hc : c.2.pa = pa ∧ k.view = 0 <;> simp [hc]
      rw [hp]
      cases hf : l.cells.find? fun c => c.2.dirty && c.2.pa == x with
      | none => exact ih
      | some c =>
        have hc := List.find?_some hf
        simp only [Bool.and_eq_true, beq_iff_eq] at hc
        obtain ⟨-, rfl⟩ := hc
        by_cases he : c.2.pa = pa <;> simp [he, hk.2]
    · rw [if_neg hk, if_neg hk]
      exact ih

theorem State.memByte_physWrite_ne {x pa : Nat} (h : x ≠ pa) (s : State) (b : Byte) : (s.physWrite pa b).memByte x = s.memByte x := by
  have hm : (s.setMemByte pa b).memByte x = s.memByte x := by
    unfold State.setMemByte
    split <;> simp only [State.memByte, Mem.read_write_ne h]
  exact hm

theorem State.MemoryForm.memByte_physWrite_self {s : State} (w : s.MemoryForm) {pa : Nat} (h : pa < 0x1000_0000_0000) (b : Byte) :
    (s.physWrite pa b).memByte pa = b := by
  have hm : (s.setMemByte pa b).memByte pa = b := by
    unfold State.setMemByte State.memByte
    rw [if_neg (by omega), if_neg (by omega), if_neg (by omega)]
    exact Mem.read_write_self w.hbm
  exact hm

theorem State.physRead_physWrite_ne {x pa : Nat} (h : x ≠ pa) (s : State) (b : Byte) : (s.physWrite pa b).physRead x = s.physRead x := by
  rw [State.physRead, State.physWrite_lines, dirtyAt_overwriteCopies, State.memByte_physWrite_ne h, State.physRead]
  simp [h]

theorem State.MemoryForm.physRead_physWrite_self {s : State} (w : s.MemoryForm) {pa : Nat} (h : pa < 0x1000_0000_0000) (b : Byte) :
    (s.physWrite pa b).physRead pa = b := by
  rw [State.physRead, State.physWrite_lines, dirtyAt_overwriteCopies, w.memByte_physWrite_self h]
  cases dirtyAt s.lines pa <;> simp

theorem State.physRead_physWriteN_out {bs : List Byte} {s : State} {pa x : Nat} (h : x < pa ∨ pa + bs.length ≤ x) :
    (s.physWriteN pa bs).physRead x = s.physRead x := by
  induction bs generalizing s pa with
  | nil => rfl
  | cons b bs ih =>
    simp only [List.length_cons] at h
    rw [State.physWriteN, ih (by omega), State.physRead_physWrite_ne (by omega)]

theorem State.MemoryForm.physRead_physWriteN_in {bs : List Byte} {s : State} (w : s.MemoryForm) {pa i : Nat} (hi : i < bs.length)
    (h : pa + bs.length ≤ 0x1000_0000_0000) : (s.physWriteN pa bs).physRead (pa + i) = bs.getD i 0 := by
  induction bs generalizing s pa i with
  | nil => cases hi
  | cons b bs ih =>
    simp only [List.length_cons] at hi h
    cases i with
    | zero =>
      rw [State.physWriteN, State.physRead_physWriteN_out (by omega)]
      exact w.physRead_physWrite_self (by omega) b
    | succ i =>
      have hr := ih (w.physWrite pa b) (pa := pa + 1) (i := i) (by omega) (by omega)
      rwa [Nat.add_right_comm] at hr

theorem leBytes_length (n x : Nat) : (leBytes n x).length = n := by
  induction n generalizing x with
  | zero => rfl
  | succ n ih => rw [leBytes, List.length_cons, ih]

section

variable (s : State) (v k : Nat) (q : Queue)

theorem State.physRead_setQueue (pa : Nat) : (s.setQueue v k q).physRead pa = s.physRead pa := rfl

theorem State.setQueue_keeps : TraceKeeps s (s.setQueue v k q) := ⟨rfl, rfl, rfl⟩

variable {s}

theorem State.MemoryForm.setQueue (w : s.MemoryForm) : (s.setQueue v k q).MemoryForm := w.congr rfl rfl rfl rfl

end

/-- A physical write leaves the virtual functions. -/
theorem State.physWriteN_functions (bs : List Byte) : ∀ (s : State) (pa : Nat), (s.physWriteN pa bs).functions = s.functions := by
  induction bs with
  | nil => exact fun _ _ => rfl
  | cons b bs ih =>
    intro s pa
    refine (ih _ (pa + 1)).trans ?_
    unfold State.physWrite State.setMemByte
    split <;> rfl

/-! Records appended to a queue (R392, R400) -/

/-- The queue after a record is appended: TAIL is one higher, and the view of the launch is kept (R276). -/
def Queue.appended (q : Queue) (view : Nat) : Queue :=
  { q with tail := q.tail + 1, views := if view = 0 then q.views else aput q.tail.toNat view q.views }

section

variable (s : State) (v k : Nat) (q : Queue) (r : BitVec 1024) (view : Nat)

theorem State.appendLaunch_eq :
    s.appendLaunch v k q r view = ((s.physWriteN (q.entry q.tail) (leBytes 128 r.toNat)).setQueue v k (q.appended view)).physWriteN
      q.cfg.control (leBytes 8 (q.tail + 1).toNat) := rfl

theorem State.appendLaunch_keeps : TraceKeeps s (s.appendLaunch v k q r view) := 
  ((physWriteN_keeps ..).trans (State.setQueue_keeps ..)).trans (physWriteN_keeps ..)

theorem State.appendLaunch_queue : (s.appendLaunch v k q r view).queue v k = some (q.appended view) := by
  rw [State.queue, State.func, s.appendLaunch_eq, State.physWriteN_functions, ← State.func, State.setQueue, State.func_setFunc]
  exact aget_aput_self ..

/-- A byte that neither the record nor TAIL occupies reads as before. -/
theorem State.appendLaunch_physRead_out {x : Nat} (he : x < q.entry q.tail ∨ q.entry q.tail + 128 ≤ x)
    (hc : x < q.cfg.control ∨ q.cfg.control + 8 ≤ x) : (s.appendLaunch v k q r view).physRead x = s.physRead x := by
  rw [s.appendLaunch_eq, State.physRead_physWriteN_out (by rwa [leBytes_length]), State.physRead_setQueue,
    State.physRead_physWriteN_out (by rwa [leBytes_length])]

variable {s}

theorem State.MemoryForm.appendLaunch_record (w : s.MemoryForm) (h : q.entry q.tail + 128 ≤ q.cfg.control)
    (hc : q.cfg.control + 64 ≤ 0x1000_0000_0000) {j : Nat} (hj : j < 128) :
    (s.appendLaunch v k q r view).physRead (q.entry q.tail + j) = (leBytes 128 r.toNat).getD j 0 := by
  rw [s.appendLaunch_eq, State.physRead_physWriteN_out (.inl (by omega)), State.physRead_setQueue]
  exact w.physRead_physWriteN_in (by rwa [leBytes_length]) (by rw [leBytes_length]; omega)

theorem State.MemoryForm.appendLaunch_tail (w : s.MemoryForm) (hc : q.cfg.control + 64 ≤ 0x1000_0000_0000) {j : Nat} (hj : j < 8) :
    (s.appendLaunch v k q r view).physRead (q.cfg.control + j) = (leBytes 8 (q.tail + 1).toNat).getD j 0 := by
  rw [s.appendLaunch_eq]
  exact ((w.physWriteN _).setQueue v k _).physRead_physWriteN_in (by rwa [leBytes_length]) (by rw [leBytes_length]; omega)

end

/-! Instructions that change no team -/

theorem PathCtx.late_frame (c : PathCtx) (f : Fields) (w : Word64) : c.g.Frame (c.late f w) c.pi [] (destG f) [] 0 := by
  unfold PathCtx.late
  cases hd : f.dead with
  | true => exact .refl ..
  | false => exact (Group.Frame.refl ..).writeUni (by simp [destG, hd])

theorem PathCtx.late_uniOf (c : PathCtx) {f : Fields} (w : Word64) (hd : f.dead = false) :
    (c.late f w).uniOf (f.d.toNat - 0xC0) = w := by
  have hr : f.d.toNat - 0xC0 < 64 := by have := f.d.isLt; omega
  rw [PathCtx.late, if_neg (by simp [hd]), Group.uniOf_writeUni, if_pos ⟨rfl, hr⟩]

/-- The path stands as it was in a state with the same teams. -/
theorem PathCtx.Issues.pathCtx_of_teams {c : PathCtx} (h : c.Issues) {s : State} (ht : s.teams = c.s.teams) :
    s.pathCtx ⟨c.tid, c.gi, c.pi⟩ = some { c with s := s } := by
  obtain ⟨hteam, hgroup, hpath⟩ := h.found
  have hs : s.team c.tid = some c.t := by rw [State.team, ht]; exact hteam
  simp [State.pathCtx, hs, hgroup, hpath]

/-- An instruction that has changed neither a team nor the clock concludes with its answer. -/
theorem PathCtx.conclude_answers {c : PathCtx} (h : c.Issues) {s : State} (f : Fields) (w : Word64) (ht : s.teams = c.s.teams)
    (hc : s.clock = c.s.clock) : c.Answers f (c.conclude s f w) s w := by
  have hg : s.group c.tid c.gi = some c.g := by rw [State.group, State.team, ht]; exact h.group
  refine ⟨c.g, c.retired f (c.late f w) (nextSlot c.p.pc), hg, ?_, c.retired_goes h f _ _, PathCtx.retired_frame (c.late_frame f w),
    fun hd _ => c.late_uniOf w hd⟩
  rw [PathCtx.conclude, h.pathCtx_of_teams ht]
  exact c.retireOn_eq s f (c.late f w) hc

/-! Fields of a record -/

/-- A word with `k` bits from bit `p` replaced. -/
def setField {w k : Nat} (r : BitVec w) (p : Nat) (x : BitVec k) : BitVec w :=
  (r &&& ~~~(BitVec.ofNat w (2 ^ k - 1) <<< p)) ||| (x.setWidth w <<< p)

section

variable {w k : Nat} (r : BitVec w) (p : Nat) (x : BitVec k)

theorem getLsbD_setField {i : Nat} (hi : i < w) :
    (setField r p x).getLsbD i = if p ≤ i ∧ i < p + k then x.getLsbD (i - p) else r.getLsbD i := by
  have hm : (BitVec.ofNat w (2 ^ k - 1)).getLsbD (i - p) = decide (i - p < k) := by
    rw [BitVec.getLsbD_ofNat, Nat.testBit_two_pow_sub_one, decide_eq_true (by omega), Bool.true_and]
  rw [setField, BitVec.getLsbD_or, BitVec.getLsbD_and, BitVec.getLsbD_not, BitVec.getLsbD_shiftLeft, BitVec.getLsbD_shiftLeft, hm,
    BitVec.getLsbD_setWidth]
  by_cases hp : i < p
  · simp [hi, hp, Nat.not_le.mpr hp]
  · by_cases hk : i < p + k
    · simp [hi, hp, hk, Nat.not_lt.mp hp, show i - p < k by omega, show i - p < w by omega]
    · simp [hi, hp, hk, show ¬i - p < k by omega, BitVec.getLsbD_of_ge x (i - p) (by omega)]

theorem extractLsb'_setField_self (h : p + k ≤ w) : (setField r p x).extractLsb' p k = x := by
  refine BitVec.eq_of_getLsbD_eq fun i hi => ?_
  rw [BitVec.getLsbD_extractLsb', getLsbD_setField r p x (by omega), if_pos (by omega), Nat.add_sub_cancel_left, decide_eq_true hi,
    Bool.true_and]

theorem extractLsb'_setField_apart {a m : Nat} (hw : a + m ≤ w) (h : a + m ≤ p ∨ p + k ≤ a) :
    (setField r p x).extractLsb' a m = r.extractLsb' a m := by
  refine BitVec.eq_of_getLsbD_eq fun i hi => ?_
  rw [BitVec.getLsbD_extractLsb', BitVec.getLsbD_extractLsb', getLsbD_setField r p x (by omega), if_neg (by omega)]

end

/-! The edge that `launchd` adds (R393, R400) -/

/-- The bits of an edge. -/
def edgeBits (queue : Nat) (delta region : Word64) : BitVec 75 := BitVec.ofNat 3 queue ++ delta.setWidth 12 ++ region.setWidth 60

theorem edgeBits_eq_ofNat (queue : Nat) {delta : Word64} (region : Word64) (h : delta.toNat ≤ 4095) :
    edgeBits queue delta region = BitVec.ofNat 75 (region.toNat % 2 ^ 60 + delta.toNat * 2 ^ 60 + queue % 8 * 2 ^ 72) := by
  apply BitVec.eq_of_toNat_eq
  have hd : delta.toNat % 2 ^ 12 = delta.toNat := Nat.mod_eq_of_lt (by omega)
  rw [edgeBits, BitVec.toNat_append, BitVec.toNat_append, BitVec.toNat_setWidth, BitVec.toNat_setWidth, BitVec.toNat_ofNat, hd,
    ← Nat.shiftLeft_add_eq_or_of_lt (by omega), ← Nat.shiftLeft_add_eq_or_of_lt (by omega), Nat.shiftLeft_eq, Nat.shiftLeft_eq,
    BitVec.toNat_ofNat]
  omega

section

variable (r : BitVec 1024) (queue : Nat) (delta region : Word64)

/-- The edge takes the first free place, and NEDGE rises. -/
theorem addEdge_eq_setField :
    addEdge r queue delta region =
      setField (setField r (424 + 75 * lrEdges r) (edgeBits queue delta region)) 164 (BitVec.ofNat 4 (min (lrEdges r + 1) 15)) := by
  have hn : (BitVec.ofNat 4 (min (lrEdges r + 1) 15)).setWidth 1024 = BitVec.ofNat 1024 (min (lrEdges r + 1) 15) := by
    apply BitVec.eq_of_toNat_eq
    simp only [BitVec.toNat_setWidth, BitVec.toNat_ofNat]
    omega
  rw [setField, setField, hn]
  rfl

variable {r}

theorem lrEdges_addEdge (h : lrEdges r < 8) : lrEdges (addEdge r queue delta region) = lrEdges r + 1 := by
  rw [lrEdges, addEdge_eq_setField, extractLsb'_setField_self _ _ _ (by omega), BitVec.toNat_ofNat]
  omega

/-- What stands below NEDGE is as it was. -/
theorem addEdge_below (h : lrEdges r < 8) : (addEdge r queue delta region).extractLsb' 0 164 = r.extractLsb' 0 164 := by
  rw [addEdge_eq_setField, extractLsb'_setField_apart _ _ _ (by omega) (by omega), extractLsb'_setField_apart _ _ _ (by omega) (by omega)]

theorem lrEdge_addEdge (h : lrEdges r < 8) : lrEdge (addEdge r queue delta region) (lrEdges r) = edgeBits queue delta region := by
  rw [lrEdge, addEdge_eq_setField, extractLsb'_setField_apart _ _ _ (by omega) (by omega), extractLsb'_setField_self _ _ _ (by omega)]

end

/-! `launch` and `launchd` (R400) -/

/-- Whether the issuing grid's own launch record stands in a queue of function `v`, with `r` 1 to 4,095 above it in SEQ. -/
def PathCtx.precedes (c : PathCtx) (v : Nat) (r : BitVec 1024) : Bool :=
  ((c.s.grid c.t.grid).map Grid.vf) == some v && (lrSeq r - c.s.lseq c.t).toNat != 0 && (lrSeq r - c.s.lseq c.t).toNat ≤ 4095

/-- The record that is appended: with a region, an edge on the issuing grid is added to the one that is read. -/
def PathCtx.edged (c : PathCtx) (r : BitVec 1024) : Option Word64 → BitVec 1024
  | none => r
  | some x => addEdge r (((c.s.grid c.t.grid).map Grid.queue).getD 0) (lrSeq r - c.s.lseq c.t) x

/-- The last step of either form: status 1 where the ring is full, else the append. -/
def PathCtx.enqueue (c : PathCtx) (f : Fields) (v k : Nat) (q : Queue) (r : BitVec 1024) : Out :=
  if 2 ^ q.cfg.lqlog ≤ (q.tail - q.cons).toNat then c.conclude c.s f 1 else c.conclude (c.s.appendLaunch v k q r c.t.view) f 0

theorem PathCtx.precedes_iff {c : PathCtx} {v : Nat} {r : BitVec 1024} :
    c.precedes v r = true ↔ (∃ g, c.s.grid c.t.grid = some g ∧ g.vf = v) ∧
      1 ≤ (lrSeq r - c.s.lseq c.t).toNat ∧ (lrSeq r - c.s.lseq c.t).toNat ≤ 4095 := by
  simp only [PathCtx.precedes, Bool.and_eq_true, beq_iff_eq, bne_iff_ne, decide_eq_true_eq, Option.map_eq_some_iff, and_assoc,
    Nat.one_le_iff_ne_zero]

theorem PathCtx.releaseThen_go {c : PathCtx} {sc : Scope} (h : c.orderedAt sc = .go) (opc fn : Nat) (f : Fields) (k : Out) :
    c.releaseThen opc fn f sc k = k := by
  rw [PathCtx.releaseThen, h]

theorem PathCtx.recordAt_ok {c : PathCtx} {a : Nat} {bs : List Byte} (h : c.readGlobal (upFrom a 128) = .ok bs)
    (k : BitVec 1024 → Out) : c.recordAt a k = k (BitVec.ofNat 1024 (leNat bs)) := by
  rw [PathCtx.recordAt, h]

section

variable {c : PathCtx} {f : Fields} (fn : Nat) (region : Option Word64) (he : c.effect f = true)

include he

theorem PathCtx.launch_misaligned (ha : (c.uni 0 f.sa).toNat % 128 ≠ 0) :
    c.launch fn f region = c.faultCode 0x05 (BitVec.ofNat 64 (c.uni 0 f.sa).toNat) := by
  simp [PathCtx.launch, he, ha]

variable (ha : (c.uni 0 f.sa).toNat % 128 = 0)

include ha

theorem PathCtx.launch_unfed (hq : c.s.queueNamed c.t.crew (c.uni 1 f.sb) = none ∨
      ∃ v k q, c.s.queueNamed c.t.crew (c.uni 1 f.sb) = some (v, k, q) ∧ q.cfg.feeder = false) :
    c.launch fn f region = c.conclude c.s f 2 := by
  rcases hq with hn | ⟨v, k, q, hn, hf⟩
  · simp [PathCtx.launch, he, ha, hn]
  · simp [PathCtx.launch, he, ha, hn, hf]

variable {v k : Nat} {q : Queue} (hn : c.s.queueNamed c.t.crew (c.uni 1 f.sb) = some (v, k, q)) (hf : q.cfg.feeder = true)

include hn hf

/-- `launch` looks at the ring before it reads its record. -/
theorem PathCtx.launch_plain (ho : c.orderedAt .pkg = .go) :
    c.launch fn f none = if 2 ^ q.cfg.lqlog ≤ (q.tail - q.cons).toNat then c.conclude c.s f 1
      else c.recordAt (c.uni 0 f.sa).toNat fun r => c.conclude (c.s.appendLaunch v k q r c.t.view) f 0 := by
  simp [PathCtx.launch, he, ha, hn, hf, PathCtx.releaseThen_go ho]

variable {bs : List Byte} (hr : c.readGlobal (upFrom (c.uni 0 f.sa).toNat 128) = .ok bs)

include hr

/-- `launchd` looks at its record before the release. -/
theorem PathCtx.launch_region (x : Word64) :
    c.launch fn f (some x) =
      if lrEdges (BitVec.ofNat 1024 (leNat bs)) = 8 then c.conclude c.s f 3
      else if !c.precedes v (BitVec.ofNat 1024 (leNat bs)) then c.conclude c.s f 4
      else c.releaseThen 0xE0 fn f .pkg (c.enqueue f v k q (c.edged (BitVec.ofNat 1024 (leNat bs)) (some x))) := by
  simp [PathCtx.launch, he, ha, hn, hf, PathCtx.recordAt_ok hr, PathCtx.enqueue, PathCtx.edged, PathCtx.precedes]

/-- With a record that it can read and may append, either form goes on to the ring. -/
theorem PathCtx.launch_ready (ho : c.orderedAt .pkg = .go)
    (hw : region = none ∨ lrEdges (BitVec.ofNat 1024 (leNat bs)) ≠ 8 ∧ c.precedes v (BitVec.ofNat 1024 (leNat bs)) = true) :
    c.launch fn f region = c.enqueue f v k q (c.edged (BitVec.ofNat 1024 (leNat bs)) region) := by
  cases region with
  | none =>
    rw [PathCtx.launch_plain fn he ha hn hf ho, PathCtx.recordAt_ok hr]
    rfl
  | some x =>
    obtain ⟨h8, hp⟩ := hw.resolve_left (by simp)
    rw [PathCtx.launch_region fn he ha hn hf hr x, if_neg h8, if_neg (by simp [hp]), PathCtx.releaseThen_go ho]

end

section

variable {c : PathCtx} (h : c.Issues) (f : Fields)

include h

theorem PathCtx.enqueue_full {v k : Nat} {q : Queue} (hq : 2 ^ q.cfg.lqlog ≤ (q.tail - q.cons).toNat) (r : BitVec 1024) :
    c.Answers f (c.enqueue f v k q r) c.s 1 := by
  rw [PathCtx.enqueue, if_pos hq]
  exact PathCtx.conclude_answers h f 1 rfl rfl

theorem PathCtx.enqueue_room (v k : Nat) {q : Queue} (hq : (q.tail - q.cons).toNat < 2 ^ q.cfg.lqlog) (r : BitVec 1024) :
    c.Answers f (c.enqueue f v k q r) (c.s.appendLaunch v k q r c.t.view) 0 := by
  have hk := c.s.appendLaunch_keeps v k q r c.t.view
  rw [PathCtx.enqueue, if_neg (Nat.not_le.mpr hq)]
  exact PathCtx.conclude_answers h f 0 hk.teams hk.clock

/-- Either launch form is the one operation, with or without a region. -/
theorem exec_launchForm {i : Instr} {w : Option Word64} (hm : (i, w) ∈ [(.launch f, none), (.launchd f, some (c.uni 2 f.sc))]) :
    ∃ fn, exec i c.s = c.launch fn f w := by
  rcases List.mem_pair.mp hm with hm | hm <;> cases hm
  · exact ⟨0x00, by rw [exec_launch, execLaunch, onPath_of h]⟩
  · exact ⟨0x01, by rw [exec_launchd, execLaunchd, onPath_of h]⟩

/-! `lqst` (R401) -/

theorem exec_lqst_unnamed (he : c.effect f = true) (hn : c.s.queueNamed c.t.crew (c.uni 1 f.sb) = none) :
    exec (.lqst f) c.s = c.conclude c.s f (BitVec.allOnes 64) := by
  rw [exec_lqst, execLqst, onPath_of h]
  simp [he, hn]

theorem exec_lqst_named (he : c.effect f = true) {v k : Nat} {q : Queue} {x : Word64}
    (hn : c.s.queueNamed c.t.crew (c.uni 1 f.sb) = some (v, k, q))
    (hx : (f.immBits 0 2, x) ∈ [(0, q.cons), (1, BitVec.ofNat 64 q.frontier), (2, BitVec.ofNat 64 q.inFlight), (3, q.tail)]) :
    exec (.lqst f) c.s = c.conclude c.s f x := by
  rw [exec_lqst, execLqst, onPath_of h]
  simp only [List.mem_cons, List.not_mem_nil, or_false, Prod.mk.injEq] at hx
  rcases hx with ⟨hs, rfl⟩ | ⟨hs, rfl⟩ | ⟨hs, rfl⟩ | ⟨hs, rfl⟩ <;> simp [he, hn, hs]

end

/-- Settles O51: each status from the branch of `launch` that gives it, the append from what its two writes leave in memory, the added
edge from the two fields that it replaces. TAIL at the start of the control block is the model's choice (assumption 10); the region's
ignored upper bits and the answer of `lqst` for an unconfigured queue are its reading (assumption 44). -/
theorem launchForms : Obligations.LaunchForms := by
  unfold Obligations.LaunchForms
  intro c f h he a named both
  refine ⟨?misaligned, ?unfed, ?full, ?record, ?unnamed, ?snapshot⟩
  case misaligned =>
    intro i w hm ha
    obtain ⟨fn, e⟩ := exec_launchForm h f hm
    rw [e, PathCtx.launch_misaligned fn w he ha]
    rfl
  case unfed =>
    intro i w hm ha hq
    obtain ⟨fn, e⟩ := exec_launchForm h f hm
    rw [e, PathCtx.launch_unfed fn w he ha hq]
    exact PathCtx.conclude_answers h f 2 rfl rfl
  case full =>
    intro v k q ha hn hf ho hq
    obtain ⟨fn, e⟩ := exec_launchForm h f (List.mem_cons_self ..)
    rw [e, PathCtx.launch_plain fn he ha hn hf ho, if_pos hq]
    exact PathCtx.conclude_answers h f 1 rfl rfl
  case record =>
    intro i w v k q bs r hm ha hn hf hr hb
    subst hb
    obtain ⟨fn, e⟩ := exec_launchForm h f hm
    rw [e]
    refine ⟨fun hw h8 => ?edges, fun hw h8 hp => ?apart, fun hw ho => ?ready⟩
    case edges =>
      obtain ⟨x, rfl⟩ := Option.ne_none_iff_exists'.mp hw
      rw [PathCtx.launch_region fn he ha hn hf hr x, if_pos h8]
      exact PathCtx.conclude_answers h f 3 rfl rfl
    case apart =>
      obtain ⟨x, rfl⟩ := Option.ne_none_iff_exists'.mp hw
      rw [PathCtx.launch_region fn he ha hn hf hr x, if_neg h8,
        if_pos (by rw [Bool.not_eq_true', Bool.eq_false_iff]; exact PathCtx.precedes_iff.not.mpr hp)]
      exact PathCtx.conclude_answers h f 4 rfl rfl
    case ready =>
      rw [PathCtx.launch_ready fn w he ha hn hf hr ho (hw.imp_right (And.imp_right PathCtx.precedes_iff.mpr))]
      refine ⟨fun hq => PathCtx.enqueue_full h f hq _, fun hq => ⟨_, q.appended c.t.view, c.edged (BitVec.ofNat 1024 (leNat bs)) w, PathCtx.enqueue_room h f v k hq _,
        State.appendLaunch_queue .., rfl, rfl, (State.appendLaunch_keeps ..).teams, ?_, ?_, ?_⟩⟩
      · rintro rfl
        rfl
      · rintro x rfl h8
        obtain ⟨-, -, hd⟩ := (hw.resolve_left (by simp)).2
        exact ⟨lrEdges_addEdge _ _ _ h8, addEdge_below _ _ _ h8, (lrEdge_addEdge _ _ _ h8).trans (edgeBits_eq_ofNat _ _ hd)⟩
      · exact fun wf hat hc => ⟨fun j hj => wf.appendLaunch_record v k q _ _ hat hc hj,
          fun j hj => wf.appendLaunch_tail v k q _ _ hc hj, fun x hx hx' => c.s.appendLaunch_physRead_out v k q _ _ hx hx'⟩
  case unnamed =>
    intro hn
    rw [exec_lqst_unnamed h f he hn]
    exact PathCtx.conclude_answers h f _ rfl rfl
  case snapshot =>
    intro v k q x hn hx
    rw [exec_lqst_named h f he hn hx]
    exact PathCtx.conclude_answers h f _ rfl rfl

end Sys2Proof.Machine
